-- ==== Sys2Proof/Word.lean ====
section
/-! DEFINITION. The word types of DCC (30_encoding.md R110, R111; 00_scope.md R11): the 32-bit command word, the byte of
every record and buffer, and the operand fields of the command word. -/

namespace Sys2Proof

/-- A 32-bit word: the command word and every 32-bit host register (30_encoding.md R110, 10_state.md R20). -/
abbrev Word := BitVec 32

/-- One byte of a record, a buffer or chip memory. -/
abbrev Byte := BitVec 8

/-- A 4-bit channel mask: bit 0 is Tx1, bit 3 is Tx4 (00_scope.md R12). -/
abbrev ChMask := BitVec 4

/-- A pin code (30_encoding.md R114). -/
abbrev PinCode := BitVec 8

/-- A channel index 0..3 (00_scope.md R12). -/
abbrev Chan := Fin 4

/-- A GPIO pin 0..18 (00_scope.md R6). -/
abbrev Pin := Fin 19

end Sys2Proof
end

