-- ==== Sys2Proof/Syntax.lean ====
section
/-! DEFINITION. The 32 operations of 30_encoding.md R113, one constructor per row of spec/opcode_table.json, each with
exactly the operand fields its format uses (R111, R112). -/

namespace Sys2Proof

/-- A host operation with its command-word operands (30_encoding.md R113). -/
inductive Instr where
  /-- `SRCCTL.SET pin, val` (40_gpio_arbiter.md R141). -/
  | srcctlSet (pin : PinCode) (val : BitVec 4)
  /-- `SRCCTL.GET pin` (R142). -/
  | srcctlGet (pin : PinCode)
  /-- `DONEPIN.SETUP pin` (R146). -/
  | donepinSetup (pin : PinCode)
  /-- `DONEPIN.GET` (R144). -/
  | donepinGet
  /-- `TRIGPIN.SETUP pin` (R147). -/
  | trigpinSetup (pin : PinCode)
  /-- `TRIGPIN.GET` (R145). -/
  | trigpinGet
  /-- `CAPCFG.SET` (41_capture_config.md R181). -/
  | capcfgSet
  /-- `CAPCFG.GET` (R182). -/
  | capcfgGet
  /-- `CAPCTRL.SET` (R183). -/
  | capctrlSet
  /-- `CAPCTRL.GET` (R184). -/
  | capctrlGet
  /-- `CAPLVL.SET` (R185). -/
  | caplvlSet
  /-- `CAPLVL.GET` (R186). -/
  | caplvlGet
  /-- `PWRTH.SET sel`, `sel` the threshold band (R187). -/
  | pwrthSet (sel : BitVec 2)
  /-- `PWRTH.GET sel` (R188). -/
  | pwrthGet (sel : BitVec 2)
  /-- `CAP.START` (42_capture_fsm.md R204). -/
  | capStart
  /-- `CAP.POLL` (R205). -/
  | capPoll
  /-- `CAP.STATUS ch` (R206). -/
  | capStatus (ch : ChMask)
  /-- `CAP.RDDONE` (R207). -/
  | capRddone
  /-- `MODEL.CFG ch` (43_lut_manager.md R231). -/
  | modelCfg (ch : ChMask)
  /-- `MODEL.GET ch` (R232). -/
  | modelGet (ch : ChMask)
  /-- `MMODEL.CFG ch` (R233). -/
  | mmodelCfg (ch : ChMask)
  /-- `MMODEL.GET ch, sel`, `sel` the model (R234). -/
  | mmodelGet (ch : ChMask) (sel : BitVec 2)
  /-- `LUT.ADDR ch, lut, sel`, `sel` the bank (R235). -/
  | lutAddr (ch : ChMask) (lut : BitVec 5) (sel : BitVec 2)
  /-- `LUT.WRITE ch, lut, sel` (R237). -/
  | lutWrite (ch : ChMask) (lut : BitVec 5) (sel : BitVec 2)
  /-- `LUT.READ ch, lut, sel` (R238). -/
  | lutRead (ch : ChMask) (lut : BitVec 5) (sel : BitVec 2)
  /-- `ACTCLK.SET ch, en` (R239). -/
  | actclkSet (ch : ChMask) (en : BitVec 1)
  /-- `SWAP.EN en` (44_swap_mode.md R261). -/
  | swapEn (en : BitVec 1)
  /-- `SWAP.GETEN` (R262). -/
  | swapGeten
  /-- `SWAP.WRITE ch, sel`, `sel` the requested bank (R263). -/
  | swapWrite (ch : ChMask) (sel : BitVec 2)
  /-- `MMLUT.WRITE lut` (R265). -/
  | mmlutWrite (lut : BitVec 5)
  /-- `MMODEL.UPDATE ch, sel`, `sel` the model (R266). -/
  | mmodelUpdate (ch : ChMask) (sel : BitVec 2)
  /-- `MMODEL.STATUS ch` (R267). -/
  | mmodelStatus (ch : ChMask)
deriving DecidableEq, Repr, Inhabited

end Sys2Proof
end

