-- ==== Sys2Proof/WellFormed.lean ====
section
/-! DEFINITION. Two well-formedness checks. `wordLegal` says which 32-bit words are legal encodings at all: the ten
formats of 30_encoding.md R112 and the opcode map of R113, as mask and match pairs. `Instr.wellFormed` says whether the
operands of an operation lie in the legal sets that the command word alone decides (R114, R115, R230, R296); an ill-formed
operation is no illegal encoding (R116): it starts, and its own validation raises `InvalidParameter`. -/

namespace Sys2Proof

/-- The formats of 30_encoding.md R112, by the operand fields they use. -/
inductive Format where
  | n | p | pv | c | s | cs | cls | ce | e | l
deriving DecidableEq, Repr, Inhabited

/-- The bits a decoder compares: the opcode bits and the unused operand bits (R112). -/
def Format.mask : Format → Word
  | .n => 0xFFFFFFFF
  | .p => 0xFF00FFFF
  | .pv => 0xFF000FFF
  | .c => 0xFFFFFFF0
  | .s => 0xFFFFF9FF
  | .cs => 0xFFFFF9F0
  | .cls => 0xFFFFF800
  | .ce => 0xFFFFF7F0
  | .e => 0xFFFFF7FF
  | .l => 0xFFFFFE0F

/-- One row of the opcode map: opcode and format (R113). -/
structure OpRow where
  op : Byte
  format : Format
deriving DecidableEq, Repr, Inhabited

/-- `match = op << 24` (R112). -/
def OpRow.pattern (r : OpRow) : Word := r.op ++ (0 : BitVec 24)

/-- The 32 rows of R113, in the table's order. -/
def opRows : List OpRow :=
  [⟨0x10, .pv⟩, ⟨0x11, .p⟩, ⟨0x12, .p⟩, ⟨0x13, .n⟩, ⟨0x14, .p⟩, ⟨0x15, .n⟩] ++
  [⟨0x20, .n⟩, ⟨0x21, .n⟩, ⟨0x22, .n⟩, ⟨0x23, .n⟩, ⟨0x24, .n⟩, ⟨0x25, .n⟩, ⟨0x26, .s⟩, ⟨0x27, .s⟩] ++
  [⟨0x30, .n⟩, ⟨0x31, .n⟩, ⟨0x32, .c⟩, ⟨0x33, .n⟩] ++
  [⟨0x40, .c⟩, ⟨0x41, .c⟩, ⟨0x42, .c⟩, ⟨0x43, .cs⟩, ⟨0x44, .cls⟩, ⟨0x45, .cls⟩, ⟨0x46, .cls⟩, ⟨0x47, .ce⟩] ++
  [⟨0x50, .e⟩, ⟨0x51, .n⟩, ⟨0x52, .cs⟩, ⟨0x53, .l⟩, ⟨0x54, .cs⟩, ⟨0x55, .c⟩]

/-- A word is a legal encoding iff some row has `(W and mask) = match` (R112, R116). -/
def wordLegal (w : Word) : Bool := opRows.any fun r => w &&& r.format.mask == r.pattern

/-- `onehot(ch)` (00_scope.md R12). -/
def oneHot (ch : ChMask) : Bool := ch == 1 || ch == 2 || ch == 4 || ch == 8

/-- The invalid sentinel `PIN_INVALID` (30_encoding.md R114). -/
def pinInvalid : PinCode := 0xFF

/-- A mapped pin code, 0..18 (40_gpio_arbiter.md R140). -/
def pinMapped (p : PinCode) : Bool := p.toNat ≤ 18

/-- An assignable pin code, 0..15 (R140). -/
def pinAssignable (p : PinCode) : Bool := p.toNat ≤ 15

/-- What a setup operation accepts: an assignable pin or the sentinel (R146, R147). -/
def pinSetupLegal (p : PinCode) : Bool := pinAssignable p || p == pinInvalid

/-- The operands lie in the legal sets the command word alone decides (R114, R115, R140, R230, R265). -/
def Instr.wellFormed : Instr → Bool
  | .srcctlSet pin _ => pinMapped pin
  | .srcctlGet pin => pinMapped pin
  | .donepinSetup pin => pinSetupLegal pin
  | .donepinGet => true
  | .trigpinSetup pin => pinSetupLegal pin
  | .trigpinGet => true
  | .capcfgSet => true
  | .capcfgGet => true
  | .capctrlSet => true
  | .capctrlGet => true
  | .caplvlSet => true
  | .caplvlGet => true
  | .pwrthSet sel => sel != 3
  | .pwrthGet sel => sel != 3
  | .capStart => true
  | .capPoll => true
  | .capStatus ch => oneHot ch
  | .capRddone => true
  | .modelCfg ch => oneHot ch
  | .modelGet ch => oneHot ch
  | .mmodelCfg ch => oneHot ch
  | .mmodelGet ch sel => oneHot ch && sel.toNat ≤ 1
  | .lutAddr ch _ _ => oneHot ch
  | .lutWrite ch _ _ => oneHot ch
  | .lutRead ch _ _ => oneHot ch
  | .actclkSet ch _ => oneHot ch
  | .swapEn _ => true
  | .swapGeten => true
  | .swapWrite ch _ => oneHot ch
  | .mmlutWrite lut => lut.toNat ≤ 25
  | .mmodelUpdate ch sel => oneHot ch && sel.toNat ≤ 1
  | .mmodelStatus ch => oneHot ch

end Sys2Proof
end

