-- ==== Sys2Proof/Decode.lean ====
section
/-! DEFINITION. The command decoder and encoder (30_encoding.md R110 to R116, R126). The decoder is total on 32-bit
words and refuses (answers none) every word that R116 calls illegal. -/

namespace Sys2Proof

/-- The seven slices of a command word (30_encoding.md R111). -/
structure Fields where
  op : Byte := 0
  pin : PinCode := 0
  val : BitVec 4 := 0
  en : BitVec 1 := 0
  sel : BitVec 2 := 0
  lut : BitVec 5 := 0
  ch : ChMask := 0
deriving DecidableEq, Repr, Inhabited

/-- Extraction of the slices (R126): none is sign-extended, scaled or split. -/
def Fields.ofWord (w : Word) : Fields where
  op := w.extractLsb' 24 8
  pin := w.extractLsb' 16 8
  val := w.extractLsb' 12 4
  en := w.extractLsb' 11 1
  sel := w.extractLsb' 9 2
  lut := w.extractLsb' 4 5
  ch := w.extractLsb' 0 4

/-- The word of the slices (R126), the more significant first. -/
def Fields.toWord (f : Fields) : Word :=
  f.op ++ (f.pin ++ (f.val ++ (f.en ++ (f.sel ++ (f.lut ++ f.ch)))))

/-- The operand slices format `fmt` does not use are zero (R112, R116). -/
def Fields.unusedZero (f : Fields) : Format → Bool
  | .n => f.pin == 0 && f.val == 0 && f.en == 0 && f.sel == 0 && f.lut == 0 && f.ch == 0
  | .p => f.val == 0 && f.en == 0 && f.sel == 0 && f.lut == 0 && f.ch == 0
  | .pv => f.en == 0 && f.sel == 0 && f.lut == 0 && f.ch == 0
  | .c => f.pin == 0 && f.val == 0 && f.en == 0 && f.sel == 0 && f.lut == 0
  | .s => f.pin == 0 && f.val == 0 && f.en == 0 && f.lut == 0 && f.ch == 0
  | .cs => f.pin == 0 && f.val == 0 && f.en == 0 && f.lut == 0
  | .cls => f.pin == 0 && f.val == 0 && f.en == 0
  | .ce => f.pin == 0 && f.val == 0 && f.sel == 0 && f.lut == 0
  | .e => f.pin == 0 && f.val == 0 && f.sel == 0 && f.lut == 0 && f.ch == 0
  | .l => f.pin == 0 && f.val == 0 && f.en == 0 && f.sel == 0 && f.ch == 0

/-- `i`, if the slices its format does not use are zero. -/
def Fields.legal (f : Fields) (fmt : Format) (i : Instr) : Option Instr :=
  if f.unusedZero fmt then some i else none

/-- The opcode map (R113) on the slices of a word. -/
def decodeFields (f : Fields) : Option Instr :=
  match f.op.toNat with
  | 0x10 => f.legal .pv (.srcctlSet f.pin f.val)
  | 0x11 => f.legal .p (.srcctlGet f.pin)
  | 0x12 => f.legal .p (.donepinSetup f.pin)
  | 0x13 => f.legal .n .donepinGet
  | 0x14 => f.legal .p (.trigpinSetup f.pin)
  | 0x15 => f.legal .n .trigpinGet
  | 0x20 => f.legal .n .capcfgSet
  | 0x21 => f.legal .n .capcfgGet
  | 0x22 => f.legal .n .capctrlSet
  | 0x23 => f.legal .n .capctrlGet
  | 0x24 => f.legal .n .caplvlSet
  | 0x25 => f.legal .n .caplvlGet
  | 0x26 => f.legal .s (.pwrthSet f.sel)
  | 0x27 => f.legal .s (.pwrthGet f.sel)
  | 0x30 => f.legal .n .capStart
  | 0x31 => f.legal .n .capPoll
  | 0x32 => f.legal .c (.capStatus f.ch)
  | 0x33 => f.legal .n .capRddone
  | 0x40 => f.legal .c (.modelCfg f.ch)
  | 0x41 => f.legal .c (.modelGet f.ch)
  | 0x42 => f.legal .c (.mmodelCfg f.ch)
  | 0x43 => f.legal .cs (.mmodelGet f.ch f.sel)
  | 0x44 => f.legal .cls (.lutAddr f.ch f.lut f.sel)
  | 0x45 => f.legal .cls (.lutWrite f.ch f.lut f.sel)
  | 0x46 => f.legal .cls (.lutRead f.ch f.lut f.sel)
  | 0x47 => f.legal .ce (.actclkSet f.ch f.en)
  | 0x50 => f.legal .e (.swapEn f.en)
  | 0x51 => f.legal .n .swapGeten
  | 0x52 => f.legal .cs (.swapWrite f.ch f.sel)
  | 0x53 => f.legal .l (.mmlutWrite f.lut)
  | 0x54 => f.legal .cs (.mmodelUpdate f.ch f.sel)
  | 0x55 => f.legal .c (.mmodelStatus f.ch)
  | _ => none

/-- Decode a command word; none is an illegal word (R116). -/
def decode (w : Word) : Option Instr := decodeFields (Fields.ofWord w)

/-- The instruction the decoder reads from an instruction whose bits are `w`, numbered as spec/opcode_table.json numbers
them: one 32-bit command word (R110), the bits at and above `nbits` zero. -/
def decodeTableWord (nbits w : Nat) : Option Instr := decode (BitVec.ofNat 32 (w % 2 ^ nbits))

/-- The slices of an operation's command word (R113, R126): every slice its format does not use is zero. -/
def encodeFields : Instr → Fields
  | .srcctlSet pin val => { op := 0x10, pin, val }
  | .srcctlGet pin => { op := 0x11, pin }
  | .donepinSetup pin => { op := 0x12, pin }
  | .donepinGet => { op := 0x13 }
  | .trigpinSetup pin => { op := 0x14, pin }
  | .trigpinGet => { op := 0x15 }
  | .capcfgSet => { op := 0x20 }
  | .capcfgGet => { op := 0x21 }
  | .capctrlSet => { op := 0x22 }
  | .capctrlGet => { op := 0x23 }
  | .caplvlSet => { op := 0x24 }
  | .caplvlGet => { op := 0x25 }
  | .pwrthSet sel => { op := 0x26, sel }
  | .pwrthGet sel => { op := 0x27, sel }
  | .capStart => { op := 0x30 }
  | .capPoll => { op := 0x31 }
  | .capStatus ch => { op := 0x32, ch }
  | .capRddone => { op := 0x33 }
  | .modelCfg ch => { op := 0x40, ch }
  | .modelGet ch => { op := 0x41, ch }
  | .mmodelCfg ch => { op := 0x42, ch }
  | .mmodelGet ch sel => { op := 0x43, ch, sel }
  | .lutAddr ch lut sel => { op := 0x44, ch, lut, sel }
  | .lutWrite ch lut sel => { op := 0x45, ch, lut, sel }
  | .lutRead ch lut sel => { op := 0x46, ch, lut, sel }
  | .actclkSet ch en => { op := 0x47, ch, en }
  | .swapEn en => { op := 0x50, en }
  | .swapGeten => { op := 0x51 }
  | .swapWrite ch sel => { op := 0x52, ch, sel }
  | .mmlutWrite lut => { op := 0x53, lut }
  | .mmodelUpdate ch sel => { op := 0x54, ch, sel }
  | .mmodelStatus ch => { op := 0x55, ch }

/-- The command word of an operation (R126). -/
def encode (i : Instr) : Word := (encodeFields i).toWord

end Sys2Proof
end

