-- ==== Sys2Proof/Config.lean ====
section
/-! DEFINITION. What an implementation fixes and what the environment chooses: the named parameters of 00_scope.md R7 with
their constraints (`Config`, `Config.Valid`), the types of the environment's moves and answers (10_state.md R60 to R62), and
the free values, constants without a body that no proof can evaluate. -/

namespace Sys2Proof

/-- The named parameters (00_scope.md R7). A machine carries them in its state as plain data that no step changes, so that
a statement about every state is a statement about every choice of them. Identifiers and register numbers have no width
in the spec and are numbers. -/
structure Config where
  /-- `LUT_BASE[c]`. -/
  lutBase : Vector (BitVec 32) 4
  /-- `CORR_BASE`. -/
  corrBase : BitVec 32
  /-- `SRCCTL_DEFAULT`. -/
  srcctlDefault : BitVec 4
  /-- `SRCCTL_MEMELEM`. -/
  srcctlMemElem : BitVec 4
  /-- `OBJ_CAPTURE`, `OBJ_MODEL`, `OBJ_MULTIMODEL`, `OBJ_SWAP_MODE_EN`. -/
  objCapture : Nat
  objModel : Nat
  objMultimodel : Nat
  objSwapModeEn : Nat
  /-- `CMD_CAPTURE_TRIG` and the other mailbox command ids. -/
  cmdCaptureTrig : Nat
  cmdCaptureDone : Nat
  cmdCaptureReadDone : Nat
  cmdLutUpdate : Nat
  cmdLutUpdateStatus : Nat
  cmdDetailedStatus : Nat
  /-- `CAL_STATUS_ID`, `DPD_INIT_ID`: selector bytes. -/
  calStatusId : Byte
  dpdInitId : Byte
  /-- `ERR_HWINUSE`, `ERR_STREAM`, `ERR_CAPTURE`. -/
  errHwInUse : Byte
  errStream : Byte
  errCapture : Byte
  /-- Register addresses. -/
  dbgTrigReg : Nat
  chselReg : Nat
  streamIdReg : Nat
  streamTrigReg : Nat
  clkStatusReg : Nat
  /-- `SID_CLK(0)`, `SID_CLK(1)`. -/
  sidClkOff : Nat
  sidClkOn : Nat
  /-- `CAPSIZE_CODE` on 32, 64, ..., 4096, in this order. -/
  capSizeCode : Vector Byte 8
  /-- `PWRES_CODE` on 1x, 256x, 65536x, 16777216x. -/
  pwResCode : Vector Byte 4
  /-- `BANDDIR_CODE` on any, ascending, descending. -/
  bandDirCode : Vector Byte 3
deriving DecidableEq, Repr, Inhabited

/-- One LUT window: 32 LUTs of 4096 bytes (00_scope.md R6, R7). -/
def Config.lutWindow : Nat := 131072

/-- `CORRMEM`: 52 rows of 512 bytes (10_state.md R37). -/
def Config.corrWindow : Nat := 52 * 512

/-- The constraints of 00_scope.md R7. That the correlator rows do not wrap past 2^32 is DEDUCED from 43_lut_manager.md
R236 ("nothing can overflow"), log 4. -/
abbrev Config.Valid (c : Config) : Prop :=
  (∀ i : Chan, (c.lutBase.get i).toNat + Config.lutWindow ≤ 2 ^ 32) ∧
  (∀ i j : Chan, i < j → (c.lutBase.get i).toNat + Config.lutWindow ≤ (c.lutBase.get j).toNat ∨
    (c.lutBase.get j).toNat + Config.lutWindow ≤ (c.lutBase.get i).toNat) ∧
  (∀ i : Chan, (c.lutBase.get i).toNat + Config.lutWindow ≤ c.corrBase.toNat ∨
    c.corrBase.toNat + Config.corrWindow ≤ (c.lutBase.get i).toNat) ∧
  c.corrBase.toNat + Config.corrWindow ≤ 2 ^ 32 ∧
  c.srcctlMemElem ≠ c.srcctlDefault ∧
  [c.objCapture, c.objModel, c.objMultimodel, c.objSwapModeEn].Nodup ∧
  [c.cmdCaptureTrig, c.cmdCaptureDone, c.cmdCaptureReadDone, c.cmdLutUpdate, c.cmdLutUpdateStatus,
    c.cmdDetailedStatus].Nodup ∧
  [0, c.errHwInUse, c.errStream, c.errCapture].Nodup ∧
  [c.dbgTrigReg, c.chselReg, c.streamIdReg, c.streamTrigReg, c.clkStatusReg].Nodup ∧
  c.capSizeCode.toList.Nodup ∧ c.pwResCode.toList.Nodup ∧ c.bandDirCode.toList.Nodup

/-- The suggested defaults of 00_scope.md R7 where it gives them; the other numbers (object, command, register and stream
ids, selector bytes, `SRCCTL_MEMELEM`) are DESIGN CHOICE (log 4), and no statement rests on them. -/
def Config.suggested : Config where
  lutBase := #v[0x60000000, 0x60020000, 0x60040000, 0x60060000]
  corrBase := 0x61000000
  srcctlDefault := 0
  srcctlMemElem := 1
  objCapture := 1
  objModel := 2
  objMultimodel := 3
  objSwapModeEn := 4
  cmdCaptureTrig := 1
  cmdCaptureDone := 2
  cmdCaptureReadDone := 3
  cmdLutUpdate := 4
  cmdLutUpdateStatus := 5
  cmdDetailedStatus := 6
  calStatusId := 1
  dpdInitId := 2
  errHwInUse := 1
  errStream := 2
  errCapture := 3
  dbgTrigReg := 1
  chselReg := 2
  streamIdReg := 3
  streamTrigReg := 4
  clkStatusReg := 5
  sidClkOff := 0
  sidClkOn := 1
  capSizeCode := #v[0, 1, 2, 3, 4, 5, 6, 7]
  pwResCode := #v[0, 1, 2, 3]
  bandDirCode := #v[0, 1, 2]

/-- `ACTCLK_POLL_MAX` (00_scope.md R7): fixed by the source. -/
def Config.actClkPollMax : Nat := 40

/-- What the transport answers to one transaction (10_state.md R62, 60_exceptions.md R293). -/
inductive Answer where
  | ok
  | timeout
  | deviceError (code : Byte)
  | hwReset
deriving DecidableEq, Repr, Inhabited

/-- A move of an agent behind the transport, made at the boundary between two micro-steps of DCC. A move whose agent may
not make it then does nothing. -/
inductive EnvMove where
  /-- The capture engine finishes: done flag, detailed status (10_state.md R60). -/
  | capture (record : Vector Byte 26)
  /-- The capture engine stores one byte of an extended-peak capture in LUTs 27..30 of Tx1 (false) or Tx2 (true)
  (43_lut_manager.md R246, 70_reset_and_hazards.md R348). -/
  | peakSample (tx2 : Bool) (offset : Fin 16384) (b : Byte)
  /-- The stream processor performs the outstanding request number `k` (10_state.md R61). -/
  | stream (k : Nat)
  /-- The firmware rewrites an update status record (44_swap_mode.md R266). -/
  | firmware (c : Chan) (record : Vector Byte 2)
deriving DecidableEq, Repr, Inhabited

/-- One boundary before a transport transaction: what the agents behind the transport do there, in order, and then what
the transport answers to the transaction. -/
structure Tick where
  moves : List EnvMove := []
  answer : Answer := .ok
deriving DecidableEq, Repr, Inhabited

/-- FREE VALUE (log 3): the tick number `n`, where the state's script holds none (10_state.md R60 to R62, U16). -/
opaque Config.freeTick : Nat → Tick

/-- FREE VALUE (log 9): for the failed write of draw `n`, the mask of the bits of its `k`-th byte or field that took their
new value (10_state.md R62, U9). -/
opaque Config.tornMask : Nat → Nat → Nat

/-- FREE VALUE (log 11): byte `k` of `RDB` where no operation put a result (U7, U8). -/
opaque Config.anyRdbByte : Nat → Nat → Byte

/-- FREE VALUE (log 11): what a host read the spec gives no value for returns (U5). -/
opaque Config.anyHostRead : Nat → Word

/-- FREE VALUE (log 12): bits 7:1 of the capture-done response (U10). -/
opaque Config.doneUpperBits : Nat → BitVec 7

/-- FREE VALUE (log 8): the feature, if any, that owns pin `p` after a run-time DCC reset (10_state.md R63). -/
opaque Config.resetOwner : Nat → Nat → Option Nat

/-- FREE VALUE (log 8): byte `a` of `OPB` after a run-time DCC reset (10_state.md R63, U8). -/
opaque Config.resetOpbByte : Nat → Nat → Byte

end Sys2Proof
end

