-- ==== Sys2Proof/Machine/State.lean ====
section
/-! DEFINITION. The state of DCC as plain data, in the tiers of 10_state.md: the host registers (section 1), the state local
to DCC (section 2), the chip-resident state (section 3), the environment (section 6), and the parameters (00_scope.md R7).
INVENTORY.md lists every element with its rule and reset value. -/

namespace Sys2Proof.Machine

/-- Byte memory: (address, byte) pairs, addresses strictly rising, no entry equal to what an unlisted address reads as. One
type for `OPB`, the mailbox objects and bulk chip memory. -/
abbrev Memory := List Host.Cell

/-- `cap_state` (10_state.md R28). -/
inductive CapState where
  | idle | configured | armed | done | error
deriving DecidableEq, Repr, Inhabited

/-- A feature tag (10_state.md R30). -/
inductive Tag where
  | none
  | captureDone
  | captureTrigger
  /-- A pin owned by the feature number `k` outside this block. -/
  | other (k : Nat)
deriving DecidableEq, Repr, Inhabited

/-- A pin direction (10_state.md R33). -/
inductive Dir where
  | input | output
deriving DecidableEq, Repr, Inhabited

/-- The inverse of a reversible micro-step of a pin setup (40_gpio_arbiter.md R148: U1 and U4 are directions, U2 and U3
are tags). -/
inductive Undo where
  | dir (p : Pin) (d : Dir)
  | tag (p : Pin) (t : Tag)
deriving DecidableEq, Repr, Inhabited

/-- The `InvalidParameter` field codes (60_exceptions.md R296). -/
inductive ParamCode where
  | pin | channel | capType | capSize | alignDelay | bandSel | bandDir | pwRes | pulseWidth | obsSel | iirFlag | band
  | model | bank | compander | outShift | lut | len | desc
deriving DecidableEq, Repr, Inhabited

/-- The result classes (60_exceptions.md R290). -/
inductive ResultClass where
  | ok
  | invalidParameter (code : ParamCode)
  | nullInput
  | resourceConflict
  | deviceCommandError (code : Byte)
  | timeout
  | hardwareResetRequired
  | seqRefused
  | illegalCommand
deriving DecidableEq, Repr, Inhabited

/-- How the micro-sequence of an operation stops before its last step: it raises a result class (60_exceptions.md R291), or
a DCC reset drops it (10_state.md R64). -/
inductive Stop where
  | raised (c : ResultClass)
  | dropped
deriving DecidableEq, Repr, Inhabited

/-- A mailbox configuration object (10_state.md R38). -/
inductive MboxObj where
  | capture | model | multimodel | swapModeEn
deriving DecidableEq, Repr, Inhabited

/-- A mailbox command (20_memory.md R70). -/
inductive MboxCmd where
  | captureTrig | captureDone | captureReadDone | lutUpdate | lutUpdateStatus | detailedStatus
deriving DecidableEq, Repr, Inhabited

/-- A plain chip register DCC writes (10_state.md R35). -/
inductive ChipReg where
  | dbgTrig | chsel | streamId | streamTrig
deriving DecidableEq, Repr, Inhabited

/-- A field reached through the bit-field accessor (20_memory.md R77). -/
inductive Field where
  | srcctl (g : Fin 5)
  | lutPower (c : Chan) (l : BitVec 5)
  | actEn (c : Chan)
  | actPt (c : Chan)
  | ramSel (c : Chan)
  | actClk (c : Chan)
deriving DecidableEq, Repr, Inhabited

/-- The width of a field (10_state.md R32, R34). -/
abbrev Field.width : Field → Nat
  | .srcctl _ => 4
  | .lutPower _ _ => 1
  | .actEn _ => 1
  | .actPt _ => 1
  | .ramSel _ => 5
  | .actClk _ => 1

/-- One transport transaction (20_memory.md R74 to R81) with the numbers that go over the transport. -/
inductive Txn where
  | cfgWrite (obj off : Nat) (bytes : List Byte)
  | cfgRead (obj off n : Nat)
  | mboxSet (cmd : Nat) (payload : List Byte)
  | mboxGet (cmd : Nat) (selector : List Byte) (n : Nat)
  | fieldRead (f : Field)
  | fieldWrite (f : Field) (v : Nat)
  | memRead (addr n : Nat)
  | memWrite (addr : Nat) (bytes : List Byte)
  | regWrite (reg v : Nat)
  | regRead (reg : Nat)
  | gpioDirSet (p : Pin) (d : Dir)
deriving DecidableEq, Repr, Inhabited

/-- A transaction and whether the transport answered it with success. -/
structure BusEntry where
  txn : Txn
  ok : Bool
deriving DecidableEq, Repr, Inhabited

/-- What the host can read (10_state.md R20). -/
inductive HostReg where
  | cmd | oplen
  | opb (a : BitVec 16)
  | ctrl | res | rlen
  | rdb (a : BitVec 12)
  | state
deriving DecidableEq, Repr, Inhabited

/-- The actuator fields of one channel (10_state.md R34). -/
structure Actuator where
  lutPower : Vector (BitVec 1) 32
  actEn : BitVec 1
  actPt : BitVec 1
  ramSel : BitVec 5
  actClk : BitVec 1
deriving DecidableEq, Repr, Inhabited

/-- The chip-resident state (10_state.md section 3). -/
structure Chip where
  srcctl : Vector (BitVec 4) 5
  dir : Vector Dir 19
  act : Vector Actuator 4
  /-- The registers of R35 have no width in the spec (log 19). -/
  dbgTrig : Nat
  chsel : Nat
  streamId : Nat
  streamTrig : Nat
  /-- `LUTMEM` and `CORRMEM` by byte address (R36, R37). -/
  bulk : Memory
  capObj : Memory
  modelObj : Memory
  mmodelObj : Memory
  swapEnObj : Memory
  doneFlag : Byte
  dstatus : Vector (Vector Byte 26) 4
  updStatus : Vector (Vector Byte 2) 4
  trigPending : Bool
deriving DecidableEq, Repr, Inhabited

/-- What the host agent can do (00_scope.md R9; 10_state.md R20, R64), and the one thing its surroundings can do to the chip
(70_reset_and_hazards.md R345). -/
inductive HostAct where
  /-- Write the command register: starts an operation if `busy = 0`, else lost (10_state.md R21, 30_encoding.md R110). -/
  | writeCmd (w : Word)
  | writeOplen (v : Word)
  | writeOpb (a : BitVec 16) (b : Byte)
  | writeCtrl (v : Word)
  | read (r : HostReg)
  /-- Assert the DCC reset input (10_state.md R64). -/
  | reset
  /-- The surroundings reset the chip and not DCC: the chip-resident state takes the unspecified values `c` (R330, R345;
  log 31). -/
  | chipReset (c : Chip)
  /-- Poll `STATE` until `busy = 0` (95_test_vectors.md part C). -/
  | wait
  /-- Let the next boundary between two micro-steps pass. -/
  | pause
deriving DecidableEq, Repr, Inhabited

/-- The host interface registers (10_state.md section 1). -/
structure HostRegs where
  cmd : Word
  oplen : Word
  opb : Memory
  ctrl : Word
  res : Word
  rlen : Word
  /-- The valid bytes of `RDB`, from `RDB[0]` on. -/
  rdb : List Byte
  /-- The draw the other bytes of `RDB` read as (R23, U7). -/
  rdbDraw : Nat
  /-- `STATE[31]`. -/
  busy : Bool
deriving DecidableEq, Repr, Inhabited

/-- The hidden state of the operation in flight (10_state.md R31, R27). -/
structure Flight where
  cmd : Word
  oplen : Word
  ctrl : Word
  opb : Memory
  microStep : Nat
  svPower : BitVec 1
  svEn : BitVec 1
  svPt : BitVec 1
  svRamSel : BitVec 5
  prev : Option Pin
  /-- Newest entry first. -/
  undo : List Undo
  polls : Nat
deriving DecidableEq, Repr, Inhabited

/-- No operation in flight: the hidden state is discarded (10_state.md R27, R31). DESIGN CHOICE (log 7): written as zeros. -/
def Flight.idle : Flight where
  cmd := 0
  oplen := 0
  ctrl := 0
  opb := []
  microStep := 0
  svPower := 0
  svEn := 0
  svPt := 0
  svRamSel := 0
  prev := none
  undo := []
  polls := 0

/-- The state local to DCC (10_state.md section 2). -/
structure DccRegs where
  capState : CapState
  sessTrigPin : PinCode
  sessDonePin : PinCode
  sessSwapEn : BitVec 1
  tag : Vector Tag 19
  flight : Flight
deriving DecidableEq, Repr, Inhabited

/-- The environment: the model's own fields (10_state.md section 6; logs 1, 2, 3, 16, 17, 18, 20). -/
structure Env where
  /-- What the host will do, first action first. -/
  hostQ : List HostAct
  /-- What the agents behind the transport will do at the coming boundaries, first boundary first. -/
  script : List Tick
  /-- The counter the free values are applied to. -/
  draws : Nat
  /-- Stream requests delivered and not performed, oldest first (R61). -/
  streamReqs : List (Chan × BitVec 1)
  /-- Channels an update was requested for (44_swap_mode.md R266). -/
  updLive : Vector Bool 4
  /-- The channel of the last delivered trigger (R60; log 16). -/
  trigChan : Chan
  /-- The last delivered trigger was an extended peak search (43_lut_manager.md R246; log 16). -/
  trigExt : Bool
  /-- Every transport transaction, newest first. -/
  bus : List BusEntry
  /-- Every host read and what it returned, newest first. -/
  seen : List (HostReg × Word)
  /-- A `SeqRefused` has happened: the run carries no claim about the chip (42_capture_fsm.md R201, U14; log 13). -/
  claimless : Bool
deriving DecidableEq, Repr, Inhabited

/-- The machine: parameters, host registers, DCC-local state, chip-resident state, environment. -/
structure State where
  cfg : Config
  regs : HostRegs
  dcc : DccRegs
  chip : Chip
  env : Env
deriving DecidableEq, Repr, Inhabited

/-- Why the machine stops. Nothing does: every failure is a result class of an operation that ends (60_exceptions.md R290,
R299), and the machine goes on (log 28). There is no constructor, so no step can fault; this is safe. -/
inductive Fault where
deriving DecidableEq, Repr

/-- An instruction without a meaning. -/
inductive Refusal where
  /-- Raised by `exec` for an instruction that has no meaning in this model; no arm does. Safe. -/
  | notModelled (mnemonic : String)
deriving DecidableEq, Repr

/-- The reset value of `CTRL`: `RANGE_CHECK` and `RD_RESTORE_POWER` set (10_state.md R24, R63). -/
def ctrlReset : Word := 0x00000009

/-- The host registers after reset (10_state.md R63; `CMD` log 7, `OPB` log 6, `RDB` log 11). -/
def HostRegs.reset : HostRegs where
  cmd := 0
  oplen := 0
  opb := []
  ctrl := ctrlReset
  res := 0
  rlen := 0
  rdb := []
  rdbDraw := 0
  busy := false

/-- The DCC-local state after reset (10_state.md R63; the tags log 7). -/
def DccRegs.reset : DccRegs where
  capState := .idle
  sessTrigPin := pinInvalid
  sessDonePin := pinInvalid
  sessSwapEn := 0
  tag := Vector.replicate 19 .none
  flight := Flight.idle

/-- An actuator of reset (DESIGN CHOICE, log 5: the spec gives no value). -/
def Actuator.reset : Actuator where
  lutPower := Vector.replicate 32 0
  actEn := 0
  actPt := 0
  ramSel := 0
  actClk := 0

/-- The chip-resident state of reset: `trig_pending` is 0 (10_state.md R63); every other value is DESIGN CHOICE (logs 5, 6),
for the spec gives none (R330). -/
def Chip.reset : Chip where
  srcctl := Vector.replicate 5 0
  dir := Vector.replicate 19 .input
  act := Vector.replicate 4 Actuator.reset
  dbgTrig := 0
  chsel := 0
  streamId := 0
  streamTrig := 0
  bulk := []
  capObj := []
  modelObj := []
  mmodelObj := []
  swapEnObj := []
  doneFlag := 0
  dstatus := Vector.replicate 4 (Vector.replicate 26 0)
  updStatus := Vector.replicate 4 (Vector.replicate 2 0)
  trigPending := false

/-- The environment of reset: nothing scripted, nothing delivered (70_reset_and_hazards.md R331; log 20). -/
def Env.reset : Env where
  hostQ := []
  script := []
  draws := 0
  streamReqs := []
  updLive := Vector.replicate 4 false
  trigChan := 0
  trigExt := false
  bus := []
  seen := []
  claimless := false

/-- The machine right after reset (10_state.md R63, 70_reset_and_hazards.md R330). -/
def State.reset : State where
  cfg := Config.suggested
  regs := HostRegs.reset
  dcc := DccRegs.reset
  chip := Chip.reset
  env := Env.reset

end Sys2Proof.Machine
end

