-- ==== Sys2Proof/Machine/Bits.lean ====
section
/-! DEFINITION. Byte order and bit helpers: little-endian access to byte arrays (00_scope.md R11, 20_memory.md R82), the
sample group (R83), and the mixture of old and new bits a failed write leaves (10_state.md R62, U9). -/

namespace Sys2Proof.Machine

/-- `B[i]`. -/
def byteAt (bs : List Byte) (i : Nat) : Byte := bs.getD i 0

/-- `le16(B, i)` (R11). -/
def le16 (bs : List Byte) (i : Nat) : BitVec 16 := byteAt bs (i + 1) ++ byteAt bs i

/-- `le32(B, i)` (R11). -/
def le32 (bs : List Byte) (i : Nat) : BitVec 32 :=
  byteAt bs (i + 3) ++ (byteAt bs (i + 2) ++ (byteAt bs (i + 1) ++ byteAt bs i))

/-- The bytes `put16` stores, lowest offset first (R11). -/
def put16 (v : BitVec 16) : List Byte := [v.extractLsb' 0 8, v.extractLsb' 8 8]

/-- The bytes `put32` stores, lowest offset first (R11). -/
def put32 (v : BitVec 32) : List Byte :=
  [v.extractLsb' 0 8, v.extractLsb' 8 8, v.extractLsb' 16 8, v.extractLsb' 24 8]

/-- `B[i..i+n-1]`. -/
def slice (bs : List Byte) (i n : Nat) : List Byte := (bs.drop i).take n

/-- The capture sample group `Q-low, Q-high, I-low, I-high` (20_memory.md R83): (Q, I). DCC does not unpack samples; this is
the reading of the bytes `LUT.READ` returns. -/
def sampleGroup (g : List Byte) : BitVec 16 × BitVec 16 := (le16 g 0, le16 g 2)

/-- Every bit from `new` where the mask is set, from `old` where it is clear (U9). -/
def mixBits {w : Nat} (old new mask : BitVec w) : BitVec w := old ^^^ ((old ^^^ new) &&& mask)

/-- What the failed write of draw `d` leaves in its `k`-th byte or field (U9, log 9). -/
def tornBits {w : Nat} (d k : Nat) (old new : BitVec w) : BitVec w :=
  mixBits old new (BitVec.ofNat w (Config.tornMask d k))

/-- What the failed write of draw `d` leaves in a run of bytes (U9, log 9). -/
def tornBytes (d : Nat) (old new : List Byte) : List Byte :=
  (List.range new.length).map fun k => tornBits d k (byteAt old k) (byteAt new k)

/-- What the failed write of draw `d` leaves in a register of unstated width (U9, logs 9, 19). -/
def tornNat (d old new : Nat) : Nat := old ^^^ ((old ^^^ new) &&& Config.tornMask d 0)

end Sys2Proof.Machine
end

