-- ==== Sys2Proof/Machine/Memory.lean ====
section
/-! DEFINITION. Byte memory in canonical form: addresses strictly rising, no entry equal to what an unlisted address reads
as, so that equal memories are equal data. Used for `OPB`, the mailbox objects and bulk chip memory. -/

namespace Sys2Proof.Machine

/-- What an unlisted address reads as. DESIGN CHOICE (log 6): the spec gives memory no reset contents (10_state.md R63). -/
def Memory.unlisted : Byte := 0

/-- The byte at address `a`. -/
def Memory.read : Memory → Nat → Byte
  | [], _ => Memory.unlisted
  | (b, v) :: m, a => if a = b then v else Memory.read m a

/-- Put byte `v` before the rest `m`, listed only if an unlisted address would not read so. -/
def Memory.put (m : Memory) (a : Nat) (v : Byte) : Memory := if v = Memory.unlisted then m else (a, v) :: m

/-- Store byte `v` at address `a`, keeping the canonical form. -/
def Memory.write : Memory → Nat → Byte → Memory
  | [], a, v => Memory.put [] a v
  | (b, u) :: m, a, v =>
    if a < b then Memory.put ((b, u) :: m) a v
    else if a = b then Memory.put m a v
    else (b, u) :: Memory.write m a v

/-- The `n` bytes at `a, a+1, ...` in this order (20_memory.md R75, R78). -/
def Memory.readBytes (m : Memory) (a n : Nat) : List Byte := (List.range n).map fun k => Memory.read m (a + k)

/-- Store `bs[k]` at `a+k` for every k (20_memory.md R74, R79). -/
def Memory.writeBytes (m : Memory) (a : Nat) : List Byte → Memory
  | [] => m
  | b :: bs => Memory.writeBytes (Memory.write m a b) (a + 1) bs

/-- The bytes below address `n`. -/
def Memory.below (m : Memory) (n : Nat) : Memory := m.filter fun c => c.1 < n

/-- The memory of addresses below `n` whose byte `a` is `f a`. -/
def Memory.ofFn (n : Nat) (f : Nat → Byte) : Memory :=
  (List.range n).filterMap fun a => if f a = Memory.unlisted then none else some (a, f a)

/-- The memory that holds the bytes of a list, the last one listed for an address, at the addresses `keep` admits. -/
def Memory.ofCells (keep : Nat → Bool) (cells : List Host.Cell) : Memory :=
  cells.foldl (fun m c => if keep c.1 then Memory.write m c.1 c.2 else m) []

/-- The canonical form. -/
abbrev Memory.wf (m : Memory) : Prop :=
  m.Pairwise (fun c d => c.1 < d.1) ∧ ∀ c ∈ m, c.2 ≠ Memory.unlisted

/-- Every listed address is below `n`. -/
abbrev Memory.bounded (m : Memory) (n : Nat) : Prop := ∀ c ∈ m, c.1 < n

end Sys2Proof.Machine
end

