-- ==== Sys2Proof/Machine/Flags.lean ====
section
/-! DEFINITION. The flag and status words: the policy bits of `CTRL` (10_state.md R24), the result word `RES` (R25) with the
class, field and device-error codes (60_exceptions.md R290, R294, R296), the word `STATE` (R20, R28), and the sequence gate
(42_capture_fsm.md R201). The block has no arithmetic condition codes (R48). -/

namespace Sys2Proof.Machine

/-- `CTRL.RANGE_CHECK` (10_state.md R24). -/
def ctrlRangeCheck (ctrl : Word) : Bool := ctrl.getLsbD 0

/-- `CTRL.SWAP_QUERY_HW` (R24). -/
def ctrlSwapQueryHw (ctrl : Word) : Bool := ctrl.getLsbD 1

/-- `CTRL.WR_RESTORE_POWER` (R24). -/
def ctrlWrRestorePower (ctrl : Word) : Bool := ctrl.getLsbD 2

/-- `CTRL.RD_RESTORE_POWER` (R24). -/
def ctrlRdRestorePower (ctrl : Word) : Bool := ctrl.getLsbD 3

/-- The number of `cap_state` in `STATE[2:0]` (10_state.md R28). -/
def capStateCode : CapState → BitVec 3
  | .idle => 0
  | .configured => 1
  | .armed => 2
  | .done => 3
  | .error => 4

/-- The register `STATE`: bit 31 busy, bits 2:0 `cap_state`, the others 0 (10_state.md R20, R28). -/
def stateWord (busy : Bool) (c : CapState) : Word :=
  BitVec.ofBool busy ++ ((0 : BitVec 28) ++ capStateCode c)

/-- The number of an `InvalidParameter` field code (60_exceptions.md R296). -/
def paramCodeNumber : ParamCode → Byte
  | .pin => 1
  | .channel => 2
  | .capType => 3
  | .capSize => 4
  | .alignDelay => 5
  | .bandSel => 6
  | .bandDir => 7
  | .pwRes => 8
  | .pulseWidth => 9
  | .obsSel => 10
  | .iirFlag => 11
  | .band => 12
  | .model => 13
  | .bank => 14
  | .compander => 15
  | .outShift => 16
  | .lut => 17
  | .len => 18
  | .desc => 19

/-- The number of a result class in `RES[3:0]` (60_exceptions.md R290). -/
def classNumber : ResultClass → BitVec 4
  | .ok => 0
  | .invalidParameter _ => 1
  | .nullInput => 2
  | .resourceConflict => 3
  | .deviceCommandError _ => 4
  | .timeout => 5
  | .hardwareResetRequired => 6
  | .seqRefused => 7
  | .illegalCommand => 8

/-- `RES.devname` of a nonzero device error code (60_exceptions.md R294). -/
def deviceName (cfg : Config) (code : Byte) : BitVec 3 :=
  if code = cfg.errHwInUse then 1
  else if code = cfg.errStream then 2
  else if code = cfg.errCapture then 3
  else 4

/-- The register `RES` from its four fields, the reserved bits 0 (10_state.md R25). -/
def resFields (cls : BitVec 4) (info devcode : Byte) (devname : BitVec 3) : Word :=
  (0 : BitVec 5) ++ (devname ++ (devcode ++ (info ++ ((0 : BitVec 4) ++ cls))))

/-- `RES` of an operation that ends with class `c` and, where `c` is `Ok`, the small result `info` (10_state.md R25;
60_exceptions.md R291, R294, R296). -/
def resWord (cfg : Config) (c : ResultClass) (info : Byte) : Word :=
  match c with
  | .ok => resFields (classNumber c) info 0 0
  | .invalidParameter p => resFields (classNumber c) (paramCodeNumber p) 0 0
  | .deviceCommandError code => resFields (classNumber c) 0 code (deviceName cfg code)
  | .nullInput => resFields (classNumber c) 0 0 0
  | .resourceConflict => resFields (classNumber c) 0 0 0
  | .timeout => resFields (classNumber c) 0 0 0
  | .hardwareResetRequired => resFields (classNumber c) 0 0 0
  | .seqRefused => resFields (classNumber c) 0 0 0
  | .illegalCommand => resFields (classNumber c) 0 0 0

/-- The classes a transport failure maps to (60_exceptions.md R293); in a capture-family operation no other cause raises
one of them. -/
def isTransportFailure : ResultClass → Bool
  | .deviceCommandError _ => true
  | .timeout => true
  | .hardwareResetRequired => true
  | .ok => false
  | .invalidParameter _ => false
  | .nullInput => false
  | .resourceConflict => false
  | .seqRefused => false
  | .illegalCommand => false

/-- The rows of the sequence gate (42_capture_fsm.md R201). -/
inductive GateRow where
  /-- `CAPCFG.SET`, `CAPCTRL.SET`, `CAPLVL.SET`, `PWRTH.SET`. -/
  | set
  /-- `CAPCFG.GET`, `CAPCTRL.GET`, `CAPLVL.GET`, `PWRTH.GET`, `CAP.STATUS`. -/
  | get
  | start
  | poll
  | readDone
deriving DecidableEq, Repr, Inhabited

/-- The sequence gate: the operation runs in this `cap_state` (42_capture_fsm.md R201). -/
def gateOpen : GateRow → CapState → Bool
  | .set, c => c == .idle || c == .configured
  | .get, c => c != .error
  | .start, c => c == .configured
  | .poll, c => c == .armed
  | .readDone, c => c == .done

end Sys2Proof.Machine
end

