-- ==== Sys2Proof/Machine/Operands.lean ====
section
/-! DEFINITION. Operand forms: channel masks (00_scope.md R12), pin codes and groups (30_encoding.md R114, 10_state.md R32,
40_gpio_arbiter.md R140, R143), LUT, correlator and mailbox addresses (20_memory.md R72, 43_lut_manager.md R236, R246), the
operand buffer snapshot (10_state.md R31) and the swap descriptor table (30_encoding.md R122, 44_swap_mode.md R264). -/

namespace Sys2Proof.Machine

/-- `idx(ch)` of a one-hot mask; none where the mask is not one-hot (00_scope.md R12, U25). -/
def chanIdx (ch : ChMask) : Option Chan :=
  if ch = 1 then some 0 else if ch = 2 then some 1 else if ch = 4 then some 2 else if ch = 8 then some 3 else none

/-- The mask of a channel index: `1 << i` (00_scope.md R12). -/
def chanMask (i : Chan) : ChMask := 1 <<< i.val

/-- The pin of a pin code in 0..18 (30_encoding.md R114). -/
def pinOfCode (p : PinCode) : Pin := Fin.ofNat 19 p.toNat

/-- The pin code of a scan result: the sentinel where there is none (30_encoding.md R114, 40_gpio_arbiter.md R143). -/
def codeOfPin : Option Pin → PinCode
  | none => pinInvalid
  | some p => BitVec.ofNat 8 p.val

/-- `grp(p) = p div 4` (10_state.md R32). -/
def groupOfPin (p : Pin) : Fin 5 := Fin.ofNat 5 (p.val / 4)

/-- The pins the tag scan covers, in its order (40_gpio_arbiter.md R140, R143). -/
def scanPins : List Pin := [0, 1, 2, 3, 4, 5, 6, 7] ++ [8, 9, 10, 11, 12, 13, 14, 15]

/-- `ScanTag(f)`: the first scanned pin that carries the tag (40_gpio_arbiter.md R143). -/
def scanTag (tag : Vector Tag 19) (f : Tag) : Option Pin := scanPins.find? fun q => tag.get q == f

/-- `LutAddr(i, l, b) = LUT_BASE[i] + 4096*l + 1024*b` (20_memory.md R72, 43_lut_manager.md R236). -/
def lutAddress (cfg : Config) (i : Chan) (l : BitVec 5) (b : BitVec 2) : Nat :=
  (cfg.lutBase.get i).toNat + 4096 * l.toNat + 1024 * b.toNat

/-- `CorrAddr(r) = CORR_BASE + 512*r` (20_memory.md R72). -/
def corrAddress (cfg : Config) (r : Nat) : Nat := cfg.corrBase.toNat + 512 * r

/-- An address of bulk chip memory the spec says exists: a LUT window or a correlator row (10_state.md R36, R37). -/
def bulkMapped (cfg : Config) (a : Nat) : Bool :=
  [0, 1, 2, 3].any (fun i : Chan =>
    (cfg.lutBase.get i).toNat ≤ a && a < (cfg.lutBase.get i).toNat + Config.lutWindow) ||
  (cfg.corrBase.toNat ≤ a && a < cfg.corrBase.toNat + Config.corrWindow)

/-- The offset of a channel's record in `OBJ_MODEL`: `48*i` (20_memory.md R72). -/
def modelOffset (i : Chan) : Nat := 48 * i.val

/-- The offset of a record in `OBJ_MULTIMODEL`: `96*i`, plus 48 for Model1 (20_memory.md R72). -/
def mmodelOffset (i : Chan) (model1 : Bool) : Nat := 96 * i.val + if model1 then 48 else 0

/-- `ThreshOff(sel)` (41_capture_config.md R187). -/
def threshOffset (sel : BitVec 2) : Nat := 0x04 + 8 * sel.toNat

/-- The number of samples and of 1024-byte LUT pages of a capture size (43_lut_manager.md R246). -/
def peakPages (size : Nat) : Nat × Nat :=
  match size with
  | 4096 => (4096, 16)
  | 2048 => (2048, 8)
  | 1024 => (1024, 4)
  | 512 => (512, 2)
  | 256 => (256, 1)
  | 128 => (128, 1)
  | 64 => (64, 1)
  | 32 => (32, 1)
  | _ => (4096, 16)

/-- The address of page `i` of an extended-peak capture on channel `c`: bank `i mod 4` of LUT `27 + (i - bank)/4`
(43_lut_manager.md R246). -/
def peakPageAddress (cfg : Config) (c : Chan) (i : Nat) : Nat :=
  lutAddress cfg c (BitVec.ofNat 5 (27 + (i - i % 4) / 4)) (BitVec.ofNat 2 (i % 4))

/-- The first byte of the extended-peak samples of a channel: LUT 27, bank 0 (R246). -/
def peakBase (cfg : Config) (c : Chan) : Nat := lutAddress cfg c 27 0

/-- Bytes of the snapshot of `OPB` (10_state.md R31). -/
def snapBytes (f : Flight) (off n : Nat) : List Byte := f.opb.readBytes off n

/-- The offset of swap descriptor `i` (30_encoding.md R122). -/
def descOff (f : Flight) (i : Nat) : Nat := (le16 (snapBytes f (4 * i) 4) 0).toNat

/-- The size of swap descriptor `i` (R122). -/
def descSize (f : Flight) (i : Nat) : Nat := (le16 (snapBytes f (4 * i) 4) 2).toNat

/-- Entry `i` is populated iff its offset is not 0 (R122). -/
def descPopulated (f : Flight) (i : Nat) : Bool := descOff f i != 0

/-- The data of a populated entry (R122). -/
def descData (f : Flight) (i : Nat) : List Byte := snapBytes f (descOff f i) (descSize f i)

/-- The well-formedness of one descriptor (44_swap_mode.md R264, second part). -/
def descOk (f : Flight) (i : Nat) : Bool :=
  !descPopulated f i ||
    (124 ≤ descOff f i && 1 ≤ descSize f i && descOff f i + descSize f i ≤ f.oplen.toNat)

end Sys2Proof.Machine
end

