-- ==== Sys2Proof/Machine/Records.lean ====
section
/-! DEFINITION. The capture records: the host forms (30_encoding.md R119, R120), validation (41_capture_config.md R172), the
chip form `CAPOBJ` (10_state.md R40 to R43), serialization (R174 to R177) and deserialization (R178, R179). A record of these
types has passed the structural checks: an illegal code has no value here. -/

namespace Sys2Proof.Machine

/-- The five trigger policies (10_state.md R43, 42_capture_fsm.md R208). -/
inductive CaptureType where
  | immediate | powerLevel | peakDetection | tddTxOnSync | extendedPeakSearch
deriving DecidableEq, Repr, Inhabited

/-- A capture-control record (30_encoding.md R120). -/
structure CapCtrl where
  channel : Chan
  captureType : CaptureType
  txObsSel : BitVec 1
  txAltObsSel : BitVec 1
  /-- The index k of the size 32 * 2^k: 32, 64, ..., 4096. -/
  captureSize : Fin 8
  peakDecay : Byte
  peakWinCount : BitVec 32
  peakInputSel : Byte
  iirEnable : BitVec 1
  iirBypass : BitVec 1
  extendedWindowUs : BitVec 32
  alignDelay : BitVec 16
  captureDelay : BitVec 32
deriving DecidableEq, Repr, Inhabited

/-- A capture-level record (R120). -/
structure CapLevel where
  timeout : BitVec 16
  /-- 0 any, 1 ascending, 2 descending. -/
  bandDir : Fin 3
  bandSel : Byte
deriving DecidableEq, Repr, Inhabited

/-- A threshold record (R120; 10_state.md R41). -/
structure PwrThresh where
  lowToHighLimit : Byte
  highToLowLimit : Byte
  /-- 0 = 1x, 1 = 256x, 2 = 65536x, 3 = 16777216x. -/
  pulseWidthRes : Fin 4
  lowToHighPulseWidth : BitVec 16
  highToLowPulseWidth : BitVec 16
deriving DecidableEq, Repr, Inhabited

/-- A capture-config record (R119). The pins are raw codes: their check is the pair check (41_capture_config.md R173). -/
structure CapConfig where
  triggerPin : PinCode
  donePin : PinCode
  fifoDelay : Byte
  interpolationIndex : Byte
  envelopeDecay : BitVec 16
  band01 : PwrThresh
  band12 : PwrThresh
  band23 : PwrThresh
  level : CapLevel
  ctrl : CapCtrl
deriving DecidableEq, Repr, Inhabited

/-! ## Codes -/

/-- The host code of a capture type (30_encoding.md R120). -/
def captureTypeCode : CaptureType → Byte
  | .immediate => 0
  | .powerLevel => 1
  | .peakDetection => 2
  | .tddTxOnSync => 3
  | .extendedPeakSearch => 4

/-- The capture type of a host code: `captureType <= 4` (R120, R172). -/
def captureTypeOfCode (b : Byte) : Option CaptureType :=
  if b = 0 then some .immediate else if b = 1 then some .powerLevel else if b = 2 then some .peakDetection
  else if b = 3 then some .tddTxOnSync else if b = 4 then some .extendedPeakSearch else none

/-- A host flag byte, 0 or 1 (R120, R172). -/
def flagOfByte (b : Byte) : Option (BitVec 1) := if b = 0 then some 0 else if b = 1 then some 1 else none

/-- The eight capture sizes by index. -/
def sizeIndices : List (Fin 8) := [0, 1, 2, 3, 4, 5, 6, 7]

/-- The sample count of a capture size index: 32, 64, ..., 4096 (R43). -/
def sizeSamples (k : Fin 8) : BitVec 16 := 32 <<< k.val

/-- The index of a sample count, if it is one of the eight (R172). -/
def sizeOfSamples (v : BitVec 16) : Option (Fin 8) := sizeIndices.find? fun k => sizeSamples k == v

/-- `CAPSIZE_CODE^-1` (41_capture_config.md R179). -/
def sizeOfChipCode (cfg : Config) (b : Byte) : Option (Fin 8) := sizeIndices.find? fun k => cfg.capSizeCode.get k == b

/-- `pulseWidthRes <= 3` (R172). -/
def pwResOfByte (b : Byte) : Option (Fin 4) := if h : b.toNat < 4 then some ⟨b.toNat, h⟩ else none

/-- `PWRES_CODE^-1` (R179). -/
def pwResOfChipCode (cfg : Config) (b : Byte) : Option (Fin 4) :=
  [0, 1, 2, 3].find? fun k => cfg.pwResCode.get k == b

/-- `bandDir <= 2` (R172). -/
def bandDirOfByte (b : Byte) : Option (Fin 3) := if h : b.toNat < 3 then some ⟨b.toNat, h⟩ else none

/-- `BANDDIR_CODE^-1` (R179). -/
def bandDirOfChipCode (cfg : Config) (b : Byte) : Option (Fin 3) :=
  [0, 1, 2].find? fun k => cfg.bandDirCode.get k == b

/-- The value, or `InvalidParameter` with the field code. -/
def orParam {α : Type} (o : Option α) (c : ParamCode) : Except ParamCode α :=
  match o with
  | some a => .ok a
  | none => .error c

/-! ## Structural validation of the host forms (R172), in the order the fields lie in the host record -/

/-- The capture-control record of 24 host bytes (30_encoding.md R120, 41_capture_config.md R172). -/
def hostCtrl (h : List Byte) : Except ParamCode CapCtrl := do
  let channel ← orParam (if (byteAt h 0).toNat < 16 then chanIdx ((byteAt h 0).setWidth 4) else none) .channel
  let captureType ← orParam (captureTypeOfCode (byteAt h 1)) .capType
  let txObsSel ← orParam (flagOfByte (byteAt h 2)) .obsSel
  let txAltObsSel ← orParam (flagOfByte (byteAt h 3)) .obsSel
  let captureSize ← orParam (sizeOfSamples (le16 h 4)) .capSize
  let iirEnable ← orParam (flagOfByte (byteAt h 12)) .iirFlag
  let iirBypass ← orParam (flagOfByte (byteAt h 13)) .iirFlag
  .ok { channel, captureType, txObsSel, txAltObsSel, captureSize, iirEnable, iirBypass
        peakDecay := byteAt h 6, peakWinCount := le32 h 7, peakInputSel := byteAt h 11
        extendedWindowUs := le32 h 14, alignDelay := le16 h 18, captureDelay := le32 h 20 }

/-- The capture-level record of 4 host bytes (R120, R172). -/
def hostLevel (h : List Byte) : Except ParamCode CapLevel := do
  let bandDir ← orParam (bandDirOfByte (byteAt h 2)) .bandDir
  .ok { timeout := le16 h 0, bandDir, bandSel := byteAt h 3 }

/-- The threshold record of 8 host bytes; byte 3 is not examined (R120, R172). -/
def hostThresh (h : List Byte) : Except ParamCode PwrThresh := do
  let pulseWidthRes ← orParam (pwResOfByte (byteAt h 2)) .pwRes
  .ok { lowToHighLimit := byteAt h 0, highToLowLimit := byteAt h 1, pulseWidthRes
        lowToHighPulseWidth := le16 h 4, highToLowPulseWidth := le16 h 6 }

/-- The capture-config record of 58 host bytes (R119, R172). -/
def hostConfig (h : List Byte) : Except ParamCode CapConfig := do
  let band01 ← hostThresh (slice h 6 8)
  let band12 ← hostThresh (slice h 14 8)
  let band23 ← hostThresh (slice h 22 8)
  let level ← hostLevel (slice h 30 4)
  let ctrl ← hostCtrl (slice h 34 24)
  .ok { triggerPin := byteAt h 0, donePin := byteAt h 1, fifoDelay := byteAt h 2, interpolationIndex := byteAt h 3
        envelopeDecay := le16 h 4, band01, band12, band23, level, ctrl }

/-! ## Range checks (R172), made only when `CTRL.RANGE_CHECK = 1` -/

/-- `alignDelay <= 8191`. -/
def rangeCtrl (c : CapCtrl) : Except ParamCode Unit := if c.alignDelay.toNat ≤ 8191 then .ok () else .error .alignDelay

/-- `bandSel <= 3`. -/
def rangeLevel (v : CapLevel) : Except ParamCode Unit := if v.bandSel.toNat ≤ 3 then .ok () else .error .bandSel

/-- Both pulse widths `<= 4096`. -/
def rangeThresh (t : PwrThresh) : Except ParamCode Unit :=
  if t.lowToHighPulseWidth.toNat ≤ 4096 ∧ t.highToLowPulseWidth.toNat ≤ 4096 then .ok () else .error .pulseWidth

/-- The range checks of a capture-config record, in the order of the host record. -/
def rangeConfig (c : CapConfig) : Except ParamCode Unit := do
  rangeThresh c.band01
  rangeThresh c.band12
  rangeThresh c.band23
  rangeLevel c.level
  rangeCtrl c.ctrl

/-! ## Host forms of the results (R119, R120) -/

/-- The 24 host bytes of a capture-control record. -/
def ctrlHost (c : CapCtrl) : List Byte :=
  [(chanMask c.channel).setWidth 8, captureTypeCode c.captureType, c.txObsSel.setWidth 8, c.txAltObsSel.setWidth 8] ++
  put16 (sizeSamples c.captureSize) ++ [c.peakDecay] ++ put32 c.peakWinCount ++
  [c.peakInputSel, c.iirEnable.setWidth 8, c.iirBypass.setWidth 8] ++ put32 c.extendedWindowUs ++
  put16 c.alignDelay ++ put32 c.captureDelay

/-- The 4 host bytes of a capture-level record. -/
def levelHost (v : CapLevel) : List Byte := put16 v.timeout ++ [BitVec.ofNat 8 v.bandDir.val, v.bandSel]

/-- The 8 host bytes of a threshold record. -/
def threshHost (t : PwrThresh) : List Byte :=
  [t.lowToHighLimit, t.highToLowLimit, BitVec.ofNat 8 t.pulseWidthRes.val, 0] ++
  put16 t.lowToHighPulseWidth ++ put16 t.highToLowPulseWidth

/-- The 58 host bytes of a capture-config record. -/
def configHost (c : CapConfig) : List Byte :=
  [c.triggerPin, c.donePin, c.fifoDelay, c.interpolationIndex] ++ put16 c.envelopeDecay ++
  threshHost c.band01 ++ threshHost c.band12 ++ threshHost c.band23 ++ levelHost c.level ++ ctrlHost c.ctrl

/-! ## Serialization to `CAPOBJ` -/

/-- `TypeBits(t)` (41_capture_config.md R175). -/
def typeBits : CaptureType → Byte
  | .immediate => 0x08
  | .powerLevel => 0x09
  | .peakDetection => 0x08
  | .tddTxOnSync => 0x00
  | .extendedPeakSearch => 0x48

/-- `isPeakFlag` (R175). -/
def peakFlag : CaptureType → Byte
  | .immediate => 0
  | .powerLevel => 0
  | .peakDetection => 1
  | .tddTxOnSync => 0
  | .extendedPeakSearch => 1

/-- `SerCtrl(c)`: the 22 bytes of `CAPOBJ[36..57]` (R174). -/
def serCtrl (cfg : Config) (c : CapCtrl) : List Byte :=
  put32 c.extendedWindowUs ++
  [peakFlag c.captureType, c.peakDecay, c.peakInputSel, (0 : BitVec 6) ++ (c.iirBypass ++ c.iirEnable)] ++
  put32 c.peakWinCount ++
  [BitVec.ofNat 8 c.channel.val,
    typeBits c.captureType ||| ((0 : BitVec 5) ++ (c.txAltObsSel ++ (c.txObsSel ++ (0 : BitVec 1)))),
    cfg.capSizeCode.get c.captureSize, 0] ++
  put32 c.captureDelay ++ put16 c.alignDelay

/-- `SerLevel(v)`: the 4 bytes of `CAPOBJ[28..31]` (R176). -/
def serLevel (cfg : Config) (v : CapLevel) : List Byte := put16 v.timeout ++ [cfg.bandDirCode.get v.bandDir, v.bandSel]

/-- `SerThresh(t)`: 8 bytes (R176). -/
def serThresh (cfg : Config) (t : PwrThresh) : List Byte :=
  [t.lowToHighLimit, t.highToLowLimit, cfg.pwResCode.get t.pulseWidthRes, 0] ++
  put16 t.lowToHighPulseWidth ++ put16 t.highToLowPulseWidth

/-- `SerConfig(cfg)`: the 58 bytes of `CAPOBJ` (R177); the pins are not part of it. -/
def serConfig (cfg : Config) (c : CapConfig) : List Byte :=
  [c.fifoDelay, c.interpolationIndex] ++ put16 c.envelopeDecay ++
  serThresh cfg c.band01 ++ serThresh cfg c.band12 ++ serThresh cfg c.band23 ++ serLevel cfg c.level ++
  [0, 0, 0, 0] ++ serCtrl cfg c.ctrl

/-! ## Deserialization from `CAPOBJ` -/

/-- `ParseType(B49, B40)` (R178): the order of the tests must match exactly. -/
def parseType (b49 b40 : Byte) : CaptureType :=
  if b49.getLsbD 6 then .extendedPeakSearch
  else if b40 = 1 then .peakDetection
  else if !b49.getLsbD 3 then .tddTxOnSync
  else if b49.getLsbD 0 then .powerLevel
  else .immediate

/-- The stored channel index, if it is in 0..3 (R179, U24). -/
def chanOfByte (b : Byte) : Option Chan := if h : b.toNat < 4 then some ⟨b.toNat, h⟩ else none

/-- `ParseCtrl(K)` on the 22 bytes of `CAPOBJ[36..57]` (R179); of two undecodable values the one that lies first in the
record is reported (log 15). -/
def parseCtrl (cfg : Config) (k : List Byte) : Except ParamCode CapCtrl := do
  let channel ← orParam (chanOfByte (byteAt k 12)) .channel
  let captureSize ← orParam (sizeOfChipCode cfg (byteAt k 14)) .capSize
  .ok { channel, captureSize
        captureType := parseType (byteAt k 13) (byteAt k 4)
        txObsSel := (byteAt k 13).extractLsb' 1 1, txAltObsSel := (byteAt k 13).extractLsb' 2 1
        peakDecay := byteAt k 5, peakWinCount := le32 k 8, peakInputSel := byteAt k 6
        iirEnable := (byteAt k 7).extractLsb' 0 1, iirBypass := (byteAt k 7).extractLsb' 1 1
        extendedWindowUs := le32 k 0, alignDelay := le16 k 20, captureDelay := le32 k 16 }

/-- `ParseLevel` (R179). -/
def parseLevel (cfg : Config) (l : List Byte) : Except ParamCode CapLevel := do
  let bandDir ← orParam (bandDirOfChipCode cfg (byteAt l 2)) .bandDir
  .ok { timeout := le16 l 0, bandDir, bandSel := byteAt l 3 }

/-- `ParseThresh` (R179). -/
def parseThresh (cfg : Config) (t : List Byte) : Except ParamCode PwrThresh := do
  let pulseWidthRes ← orParam (pwResOfChipCode cfg (byteAt t 2)) .pwRes
  .ok { lowToHighLimit := byteAt t 0, highToLowLimit := byteAt t 1, pulseWidthRes
        lowToHighPulseWidth := le16 t 4, highToLowPulseWidth := le16 t 6 }

/-- `ParseConfig` with the two pins the arbiter names (R179, R182); `B[32..35]` is ignored. -/
def parseConfig (cfg : Config) (triggerPin donePin : PinCode) (b : List Byte) : Except ParamCode CapConfig := do
  let band01 ← parseThresh cfg (slice b 4 8)
  let band12 ← parseThresh cfg (slice b 12 8)
  let band23 ← parseThresh cfg (slice b 20 8)
  let level ← parseLevel cfg (slice b 28 4)
  let ctrl ← parseCtrl cfg (slice b 36 22)
  .ok { triggerPin, donePin, fifoDelay := byteAt b 0, interpolationIndex := byteAt b 1, envelopeDecay := le16 b 2
        band01, band12, band23, level, ctrl }

end Sys2Proof.Machine
end

