-- ==== Sys2Proof/Machine/HostBus.lean ====
section
/-! DEFINITION. What the host does at the register interface (10_state.md R20 to R26): reads, the writes other than `CMD`,
the DCC reset (R64, 70_reset_and_hazards.md R330), a reset of the chip alone (R345), and the host's turn at a boundary
while an operation is in flight (R21, 20_memory.md R94). -/

namespace Sys2Proof.Machine

/-- `RDB[k]`: a valid byte, or any value (10_state.md R23, U7, U8; log 11). -/
def rdbByte (r : HostRegs) (k : Nat) : Byte :=
  match r.rdb[k]? with
  | some b => b
  | none => Config.anyRdbByte r.rdbDraw k

/-- A value the host can read only while `busy = 0`; while busy the read returns any value (10_state.md R26, U5). -/
def readIdle (s : State) (v : Word) : Word := if s.regs.busy then Config.anyHostRead s.env.draws else v

/-- What a host read of a register returns (10_state.md R20, R21, R26). -/
def hostRead (s : State) : HostReg → Word
  | .cmd => Config.anyHostRead s.env.draws
  | .oplen => s.regs.oplen
  | .opb a => (s.regs.opb.read a.toNat).setWidth 32
  | .ctrl => s.regs.ctrl
  | .res => readIdle s s.regs.res
  | .rlen => readIdle s s.regs.rlen
  | .rdb a => ((readIdle s ((rdbByte s.regs a.toNat).setWidth 32)).setWidth 8).setWidth 32
  | .state => stateWord s.regs.busy s.dcc.capState

/-- A host access other than a command or a reset: the write reaches the register, busy or not (10_state.md R20, R21); a
read changes nothing but the model's record of it. -/
def hostAccess (s : State) : HostAct → State
  | .writeOplen v => { s with regs := { s.regs with oplen := v } }
  | .writeOpb a b => { s with regs := { s.regs with opb := s.regs.opb.write a.toNat b } }
  | .writeCtrl v => { s with regs := { s.regs with ctrl := v } }
  | .read r => { s with env := { s.env with seen := (r, hostRead s r) :: s.env.seen, draws := s.env.draws + 1 } }
  | .writeCmd _ => s
  | .reset => s
  | .chipReset _ => s
  | .wait => s
  | .pause => s

/-- The tag of pin `p` after the DCC reset of draw `d`: none or a feature outside this block, never a capture tag
(10_state.md R63; log 8). -/
def resetTag (d : Nat) (p : Pin) : Tag :=
  match Config.resetOwner d p.val with
  | none => .none
  | some k => .other k

/-- The DCC reset: host registers and DCC-local state take the values of 10_state.md R63 (`OPB` and the tags any value the
table allows, log 8), an operation in flight is dropped without a result, chip-resident state is not touched (R64,
70_reset_and_hazards.md R330). -/
def dccReset (s : State) : State :=
  { s with
    regs := { HostRegs.reset with opb := Memory.ofFn 65536 (Config.resetOpbByte s.env.draws), rdbDraw := s.env.draws }
    dcc := { DccRegs.reset with tag := Vector.ofFn (resetTag s.env.draws) }
    env := { s.env with draws := s.env.draws + 1 } }

/-- A reset of the chip without a DCC reset (70_reset_and_hazards.md R330, R345; log 31): every chip-resident element takes
the unspecified value `c` gives it, a pending trigger is kept or dropped as `c` says, and DCC's own record stays. -/
def chipReset (c : Chip) (s : State) : State :=
  { s with
    chip := { c with
      bulk := Memory.ofCells (bulkMapped s.cfg) c.bulk
      capObj := Memory.ofCells (· < 58) c.capObj
      modelObj := Memory.ofCells (· < 192) c.modelObj
      mmodelObj := Memory.ofCells (· < 384) c.mmodelObj
      swapEnObj := Memory.ofCells (· < 1) c.swapEnObj
      trigPending := s.chip.trigPending && c.trigPending } }

/-- The state with the queue of host actions replaced. -/
def withHostQ (s : State) (q : List HostAct) : State := { s with env := { s.env with hostQ := q } }

/-- The host's turn at a boundary between two micro-steps: its actions up to the next `pause` or `wait`. A command is lost
(10_state.md R21); a reset drops the operation in flight (true in the second component); a chip reset waits for the end of the
operation (log 31). -/
def hostTurn : List HostAct → State → State × Bool
  | [], s => (withHostQ s [], false)
  | .wait :: q, s => (withHostQ s (.wait :: q), false)
  | .chipReset c :: q, s => (withHostQ s (.chipReset c :: q), false)
  | .pause :: q, s => (withHostQ s q, false)
  | .reset :: q, s => (dccReset (withHostQ s q), true)
  | .writeCmd _ :: q, s => hostTurn q s
  | .writeOplen v :: q, s => hostTurn q (hostAccess s (.writeOplen v))
  | .writeOpb a b :: q, s => hostTurn q (hostAccess s (.writeOpb a b))
  | .writeCtrl v :: q, s => hostTurn q (hostAccess s (.writeCtrl v))
  | .read r :: q, s => hostTurn q (hostAccess s (.read r))

end Sys2Proof.Machine
end

