-- ==== Sys2Proof/Machine/Ops.lean ====
section
/-! DEFINITION. The named operations every meaning is written over: the environment's turn (10_state.md R60 to R62), one
transport transaction (20_memory.md R74 to R88), the state accesses, the start of an operation (10_state.md R31), its one
exit path for every result class (60_exceptions.md R291) and `return Ok` beside it, the undo log (40_gpio_arbiter.md R148). -/

namespace Sys2Proof.Machine

/-- A micro-sequence: it runs on to a value, or stops (00_scope.md R13); the state is kept either way, "exactly as last
written". -/
abbrev M (α : Type) : Type := EStateM Stop State α

/-- A micro-sequence from what it does to the state. -/
def M.of {α : Type} (f : State → EStateM.Result Stop State α) : M α := f

/-- Read the state. -/
def ask {α : Type} (f : State → α) : M α := .of fun s => .ok (f s) s

/-- A local step: it cannot fail (00_scope.md R13). -/
def update (f : State → State) : M Unit := .of fun s => .ok () (f s)

/-- `raise X` (00_scope.md R13, 60_exceptions.md R291 (1)). -/
def raise {α : Type} (c : ResultClass) : M α := .of fun s => .error (.raised c) s

/-- `if not p: raise c`. -/
def check (p : Prop) [Decidable p] (c : ResultClass) : M Unit :=
  .of fun s => if p then .ok () s else .error (.raised c) s

/-- A step made only if `p`. -/
def doIf (p : Prop) [Decidable p] (m : M Unit) : M Unit := if p then m else pure ()

/-- A record function's result, or `InvalidParameter` with its field code. -/
def liftParam {α : Type} (e : Except ParamCode α) : M α :=
  match e with
  | .ok a => pure a
  | .error c => raise (.invalidParameter c)

/-! ## Accessors of the chip-resident state -/

/-- The actuator of channel `c` changed by `f`. -/
def updateAct (ch : Chip) (c : Chan) (f : Actuator → Actuator) : Chip := { ch with act := ch.act.set c (f (ch.act.get c)) }

/-- The value of a field (20_memory.md R77). -/
def getField (ch : Chip) : (f : Field) → BitVec f.width
  | .srcctl g => ch.srcctl.get g
  | .lutPower c l => (ch.act.get c).lutPower.get l.toFin
  | .actEn c => (ch.act.get c).actEn
  | .actPt c => (ch.act.get c).actPt
  | .ramSel c => (ch.act.get c).ramSel
  | .actClk c => (ch.act.get c).actClk

/-- Set a field, leaving every other field as it is (20_memory.md R77). The bytes of a LUT stay as they are whatever its power
bit becomes: DESIGN CHOICE, for the source does not say whether an unpowered LUT keeps its contents (60_exceptions.md R305,
91_not_in_source.md N13; log 23). -/
def setField (ch : Chip) : (f : Field) → BitVec f.width → Chip
  | .srcctl g, v => { ch with srcctl := ch.srcctl.set g v }
  | .lutPower c l, v => updateAct ch c fun a => { a with lutPower := a.lutPower.set l.toFin v }
  | .actEn c, v => updateAct ch c fun a => { a with actEn := v }
  | .actPt c, v => updateAct ch c fun a => { a with actPt := v }
  | .ramSel c, v => updateAct ch c fun a => { a with ramSel := v }
  | .actClk c, v => updateAct ch c fun a => { a with actClk := v }

/-- The enable, passthru and RAM-select of channel `c` taken from `image`. -/
def copyControl (image : Chip) (c : Chan) (ch : Chip) : Chip :=
  updateAct ch c fun a =>
    { a with actEn := (image.act.get c).actEn, actPt := (image.act.get c).actPt, ramSel := (image.act.get c).ramSel }

/-- `ch` with the whole register that holds field `f` taken from `image`. Which fields share a register is the model's choice
(20_memory.md R92, 91_not_in_source.md N11; log 21): the nibbles one register, the power bits of a channel one, its enable,
passthru and RAM-select one, the clock bits `CLK_STATUS_REG`. -/
def copyRegister (image : Chip) (f : Field) (ch : Chip) : Chip :=
  match f with
  | .srcctl _ => { ch with srcctl := image.srcctl }
  | .lutPower c _ => updateAct ch c fun a => { a with lutPower := (image.act.get c).lutPower }
  | .actEn c => copyControl image c ch
  | .actPt c => copyControl image c ch
  | .ramSel c => copyControl image c ch
  | .actClk _ => { ch with act := Vector.ofFn fun c => { ch.act.get c with actClk := (image.act.get c).actClk } }

/-- The bytes of a mailbox object (10_state.md R38). -/
def getObj (ch : Chip) : MboxObj → Memory
  | .capture => ch.capObj
  | .model => ch.modelObj
  | .multimodel => ch.mmodelObj
  | .swapModeEn => ch.swapEnObj

/-- Replace the bytes of a mailbox object. -/
def setObj (ch : Chip) (o : MboxObj) (m : Memory) : Chip :=
  match o with
  | .capture => { ch with capObj := m }
  | .model => { ch with modelObj := m }
  | .multimodel => { ch with mmodelObj := m }
  | .swapModeEn => { ch with swapEnObj := m }

/-- The size of a mailbox object in bytes (10_state.md R38). -/
def objSize : MboxObj → Nat
  | .capture => 58
  | .model => 192
  | .multimodel => 384
  | .swapModeEn => 1

/-- The object id that goes over the transport (00_scope.md R7). -/
def objId (cfg : Config) : MboxObj → Nat
  | .capture => cfg.objCapture
  | .model => cfg.objModel
  | .multimodel => cfg.objMultimodel
  | .swapModeEn => cfg.objSwapModeEn

/-- The command id that goes over the transport (00_scope.md R7). -/
def cmdId (cfg : Config) : MboxCmd → Nat
  | .captureTrig => cfg.cmdCaptureTrig
  | .captureDone => cfg.cmdCaptureDone
  | .captureReadDone => cfg.cmdCaptureReadDone
  | .lutUpdate => cfg.cmdLutUpdate
  | .lutUpdateStatus => cfg.cmdLutUpdateStatus
  | .detailedStatus => cfg.cmdDetailedStatus

/-- The address of a chip register (00_scope.md R7). -/
def regAddress (cfg : Config) : ChipReg → Nat
  | .dbgTrig => cfg.dbgTrigReg
  | .chsel => cfg.chselReg
  | .streamId => cfg.streamIdReg
  | .streamTrig => cfg.streamTrigReg

/-- The value of a chip register (10_state.md R35). -/
def getReg (ch : Chip) : ChipReg → Nat
  | .dbgTrig => ch.dbgTrig
  | .chsel => ch.chsel
  | .streamId => ch.streamId
  | .streamTrig => ch.streamTrig

/-- Set a chip register (10_state.md R35). -/
def setReg (ch : Chip) (r : ChipReg) (v : Nat) : Chip :=
  match r with
  | .dbgTrig => { ch with dbgTrig := v }
  | .chsel => { ch with chsel := v }
  | .streamId => { ch with streamId := v }
  | .streamTrig => { ch with streamTrig := v }

/-- `SID_CLK(en)` (00_scope.md R7). -/
def sidClk (cfg : Config) (en : BitVec 1) : Nat := if en = 1 then cfg.sidClkOn else cfg.sidClkOff

/-- A change of the chip-resident state alone. -/
def updateChip (f : Chip → Chip) (s : State) : State := { s with chip := f s.chip }

/-- A change of the DCC-local state alone. -/
def updateDcc (f : DccRegs → DccRegs) (s : State) : State := { s with dcc := f s.dcc }

/-- A change of the hidden state of the operation in flight alone. -/
def updateFlight (f : Flight → Flight) (s : State) : State := { s with dcc := { s.dcc with flight := f s.dcc.flight } }

/-- A change of the environment alone. -/
def updateEnv (f : Env → Env) (s : State) : State := { s with env := f s.env }

/-! ## The environment's turn at a boundary between two micro-steps (10_state.md R60 to R62; logs 2, 3) -/

/-- The tick of the next boundary: the script's first, or the free value of this draw. -/
def nextTick (e : Env) : Tick :=
  match e.script with
  | t :: _ => t
  | [] => Config.freeTick e.draws

/-- The boundary is past: its tick is used, the draw counter advances. -/
def passTick (s : State) : State := updateEnv (fun e => { e with script := e.script.tail, draws := e.draws + 1 }) s

/-- The capture engine finishes, if a trigger is pending (10_state.md R60). -/
def engineDone (record : Vector Byte 26) (s : State) : State :=
  if s.chip.trigPending then
    updateChip (fun ch => { ch with doneFlag := ch.doneFlag ||| 1, trigPending := false
                                    dstatus := ch.dstatus.set s.env.trigChan record }) s
  else s

/-- The capture engine stores a sample byte of an extended-peak capture, if one is pending (70_reset_and_hazards.md R348). -/
def engineSample (tx2 : Bool) (offset : Fin 16384) (b : Byte) (s : State) : State :=
  if s.chip.trigPending && s.env.trigExt then
    updateChip (fun ch => { ch with bulk := ch.bulk.write (peakBase s.cfg (if tx2 then 1 else 0) + offset.val) b }) s
  else s

/-- The stream processor performs the outstanding request number `k`, if there is one (10_state.md R61; log 17). -/
def streamRun (k : Nat) (s : State) : State :=
  match s.env.streamReqs[k]? with
  | some (i, en) =>
    updateEnv (fun e => { e with streamReqs := e.streamReqs.eraseIdx k })
      (updateChip (fun ch => setField ch (.actClk i) en) s)
  | none => s

/-- The firmware rewrites the update status of a channel an update was requested for (44_swap_mode.md R266; log 18). -/
def firmwareStatus (c : Chan) (record : Vector Byte 2) (s : State) : State :=
  if s.env.updLive.get c then updateChip (fun ch => { ch with updStatus := ch.updStatus.set c record }) s else s

/-- One move of an agent behind the transport. -/
def runMove (s : State) : EnvMove → State
  | .capture record => engineDone record s
  | .peakSample tx2 offset b => engineSample tx2 offset b s
  | .stream k => streamRun k s
  | .firmware c record => firmwareStatus c record s

/-- The moves of a boundary, in order. -/
def runMoves (ms : List EnvMove) (s : State) : State := ms.foldl runMove s

/-- The agents behind the transport take their turn. -/
def envTurn (s : State) : State := runMoves (nextTick s.env).moves (passTick s)

/-- The boundary between two micro-steps (20_memory.md R87): the agents behind the transport and the host take their turns,
and the transport has its answer to a transaction ready. -/
def boundary : M Answer := .of fun s =>
  match hostTurn s.env.hostQ (envTurn s) with
  | (s1, true) => .error .dropped s1
  | (s1, false) => .ok (nextTick s.env).answer s1

/-- The boundary before a micro-step that makes no transaction: the answer goes unused. -/
def turn : M Unit := do
  let _ ← boundary
  pure ()

/-- A micro-step that writes state local to DCC: it cannot fail (00_scope.md R13), and other agents may step before it
(20_memory.md R87). The hidden state is written by `update` alone, for no agent can see it (log 2). -/
def writeLocal (f : DccRegs → DccRegs) : M Unit := do
  turn
  update (updateDcc f)

/-! ## One transport transaction -/

/-- The mailbox transactions: the only ones a device error comes from (60_exceptions.md R293). -/
def isMailbox : Txn → Bool
  | .cfgWrite _ _ _ => true
  | .cfgRead _ _ _ => true
  | .mboxSet _ _ => true
  | .mboxGet _ _ _ => true
  | .fieldRead _ => false
  | .fieldWrite _ _ => false
  | .memRead _ _ => false
  | .memWrite _ _ => false
  | .regWrite _ _ => false
  | .regRead _ => false
  | .gpioDirSet _ _ => false

/-- The result class of the transport's answer, none for success (60_exceptions.md R293). Device code 0 is `NoError`, a
success (R294). A device error drawn for a transaction that cannot report one reads as `Timeout` (log 9). -/
def answerFailure (mailbox : Bool) : Answer → Option ResultClass
  | .ok => none
  | .timeout => some .timeout
  | .hwReset => some .hardwareResetRequired
  | .deviceError code =>
    if code = 0 then none else if mailbox then some (.deviceCommandError code) else some .timeout

/-- Record a transaction; after a success the micro-step index moves on (10_state.md R27). -/
def logTxn (t : Txn) (ok : Bool) (s : State) : State :=
  updateEnv (fun e => { e with bus := ⟨t, ok⟩ :: e.bus })
    (if ok then updateFlight (fun f => { f with microStep := f.microStep + 1 }) s else s)

/-- One blocking round trip (00_scope.md R10, 20_memory.md R87): the boundary, then on success the value and effect of
`done`, on failure what `torn` leaves of a write (10_state.md R62) and the abort (00_scope.md R13). -/
def transact {α : Type} (t : Txn) (done : State → α × State) (torn : Nat → State → State) : M α := do
  let a ← boundary
  match answerFailure (isMailbox t) a with
  | none => .of fun s => .ok (done s).1 (logTxn t true (done s).2)
  | some c => .of fun s => .error (.raised c) (logTxn t false (torn s.env.draws s))

/-- A reading transaction: it changes no state (20_memory.md R88). -/
def readTxn {α : Type} (t : Txn) (get : State → α) : M α := transact t (fun s => (get s, s)) (fun _ s => s)

/-- A writing transaction. -/
def writeTxn (t : Txn) (put : State → State) (torn : Nat → State → State) : M Unit :=
  transact t (fun s => ((), put s)) torn

/-- `MboxCfgWrite(obj, off, bytes)` (20_memory.md R74). -/
def mboxCfgWrite (o : MboxObj) (off : Nat) (bytes : List Byte) : M Unit := do
  let cfg ← ask fun s => s.cfg
  writeTxn (.cfgWrite (objId cfg o) off bytes)
    (updateChip fun ch => setObj ch o ((getObj ch o).writeBytes off bytes))
    (fun d => updateChip fun ch =>
      setObj ch o ((getObj ch o).writeBytes off (tornBytes d ((getObj ch o).readBytes off bytes.length) bytes)))

/-- `MboxCfgRead(obj, off, n)` (R75). -/
def mboxCfgRead (o : MboxObj) (off n : Nat) : M (List Byte) := do
  let cfg ← ask fun s => s.cfg
  readTxn (.cfgRead (objId cfg o) off n) (fun s => (getObj s.chip o).readBytes off n)

/-- `MboxSet(cmd, payload)` with the effect the operation's rule states (R76). -/
def mboxSet (c : MboxCmd) (payload : List Byte) (put : State → State) (torn : Nat → State → State) : M Unit := do
  let cfg ← ask fun s => s.cfg
  writeTxn (.mboxSet (cmdId cfg c) payload) put torn

/-- `MboxGet(cmd, selector, n)` with the response the operation's rule states (R76). -/
def mboxGet {α : Type} (c : MboxCmd) (selector : List Byte) (n : Nat) (get : State → α) : M α := do
  let cfg ← ask fun s => s.cfg
  readTxn (.mboxGet (cmdId cfg c) selector n) get

/-- `FieldRead(f)` (R77). -/
def fieldRead (f : Field) : M (BitVec f.width) := readTxn (.fieldRead f) fun s => getField s.chip f

/-- `FieldWrite(f, v)` (R77): the read of the whole register and the write of it with the field replaced are two steps, other
agents free to move between them (R92 (a)); a failure leaves the field torn (log 9). -/
def fieldWrite (f : Field) (v : BitVec f.width) : M Unit := do
  turn
  let image ← ask fun s => s.chip
  writeTxn (.fieldWrite f v.toNat)
    (updateChip fun ch => setField (copyRegister image f ch) f v)
    (fun d => updateChip fun ch => setField ch f (tornBits d 0 (getField ch f) v))

/-- `MemRead(addr, n)` (R78). -/
def memRead (addr n : Nat) : M (List Byte) := readTxn (.memRead addr n) fun s => s.chip.bulk.readBytes addr n

/-- `MemWrite(addr, n, v)`, n the length of v (R79). -/
def memWrite (addr : Nat) (bytes : List Byte) : M Unit :=
  writeTxn (.memWrite addr bytes)
    (updateChip fun ch => { ch with bulk := ch.bulk.writeBytes addr bytes })
    (fun d => updateChip fun ch =>
      { ch with bulk := ch.bulk.writeBytes addr (tornBytes d (ch.bulk.readBytes addr bytes.length) bytes) })

/-- `RegWrite(reg, v)` (R80), with the request `request` it delivers to another agent when it succeeds. -/
def regWrite (r : ChipReg) (v : Nat) (request : State → State) : M Unit := do
  let cfg ← ask fun s => s.cfg
  writeTxn (.regWrite (regAddress cfg r) v)
    (fun s => request (updateChip (fun ch => setReg ch r v) s))
    (fun d => updateChip fun ch => setReg ch r (tornNat d (getReg ch r) v))

/-- `RegRead(reg)` (R80). No operation uses it. -/
def regRead (r : ChipReg) : M Nat := do
  let cfg ← ask fun s => s.cfg
  readTxn (.regRead (regAddress cfg r)) (fun s => getReg s.chip r)

/-- `GpioDirSet(p, d)` (R81). -/
def gpioDirSet (p : Pin) (d : Dir) : M Unit :=
  writeTxn (.gpioDirSet p d)
    (updateChip fun ch => { ch with dir := ch.dir.set p d })
    (fun n => updateChip fun ch =>
      { ch with dir := ch.dir.set p (if (Config.tornMask n 0).testBit 0 then d else ch.dir.get p) })

/-! ## Requests to other agents (60_exceptions.md R306) -/

/-- A delivered trigger (10_state.md R60): the channel and whether the capture is an extended peak search are kept for the
engine's later step. A trigger delivered while one is pending (42_capture_fsm.md R204, 70_reset_and_hazards.md R348; possible
after a DCC reset) replaces both, so that a pending extended-peak capture then stores no more samples: DESIGN CHOICE, the spec
is silent (log 16). -/
def deliverTrigger (i : Chan) (t : CaptureType) (s : State) : State :=
  updateEnv (fun e => { e with trigChan := i, trigExt := t == .extendedPeakSearch })
    (updateChip (fun ch => { ch with trigPending := true }) s)

/-- A delivered stream request (10_state.md R61). -/
def deliverStream (i : Chan) (en : BitVec 1) (s : State) : State :=
  updateEnv (fun e => { e with streamReqs := e.streamReqs ++ [(i, en)] }) s

/-- A delivered update request (44_swap_mode.md R266). -/
def deliverUpdate (i : Chan) (s : State) : State := updateEnv (fun e => { e with updLive := e.updLive.set i true }) s

/-! ## Start and exit of an operation -/

/-- What `return Ok` hands over: the small result and the result data, empty where the operation returns none
(10_state.md R23, 30_encoding.md R113). -/
structure Result where
  info : Byte := 0
  data : List Byte := []
deriving DecidableEq, Repr, Inhabited

/-- The `CMD` write starts an operation: `busy` is set and the operands are snapshotted (10_state.md R26, R31). -/
def startOperation (s : State) : State :=
  { s with
    regs := { s.regs with busy := true }
    dcc := { s.dcc with
      flight := { Flight.idle with
        cmd := s.regs.cmd, oplen := s.regs.oplen, ctrl := s.regs.ctrl
        opb := s.regs.opb.below (min s.regs.oplen.toNat 65536) } } }

/-- The end of an operation: `RES`, `RLEN`, `RDB` (any value beyond the data) and `busy` are written and the hidden state is
discarded (60_exceptions.md R291 (4) to (6); 10_state.md R23, R25, R31). A `SeqRefused` marks the run (log 13). -/
def endOperation (c : ResultClass) (r : Result) (s : State) : State :=
  { s with
    regs := { s.regs with
      res := resWord s.cfg c r.info, rlen := BitVec.ofNat 32 r.data.length, rdb := r.data
      rdbDraw := s.env.draws, busy := false }
    dcc := { s.dcc with flight := Flight.idle }
    env := { s.env with draws := s.env.draws + 1, claimless := s.env.claimless || c == .seqRefused } }

/-- `return Ok` (60_exceptions.md R291). -/
def returnOk (r : Result) (s : State) : State := endOperation .ok r s

/-- `raise C`, the exit path of every class but `Ok` (60_exceptions.md R291 (3) to (6)): a transport failure in a
capture-family operation enters `Error` (42_capture_fsm.md R202). The replay of R291 (2) stands in `withRollback`. -/
def takeResult (captureFamily : Bool) (c : ResultClass) (s : State) : State :=
  endOperation c {}
    (if captureFamily && isTransportFailure c then updateDcc (fun d => { d with capState := .error }) s else s)

/-- The last micro-step of an operation: its exit, one step seen from the host (60_exceptions.md R291). Other agents may step
before it (20_memory.md R87); a DCC reset there drops the operation without a result (10_state.md R64). -/
def leave (exit : State → State) (s : State) : State :=
  match turn.run s with
  | .ok _ s1 => exit s1
  | .error _ s1 => s1

/-- One operation from its start to its end. A dropped operation ends without a result (10_state.md R64). -/
def runOperation (captureFamily : Bool) (body : M Result) (s : State) : State :=
  match body.run (startOperation s) with
  | .ok r s1 => leave (returnOk r) s1
  | .error (.raised c) s1 => leave (takeResult captureFamily c) s1
  | .error .dropped s1 => s1

/-- An illegal command word (30_encoding.md R116): no transaction, no state but `RES`, `RLEN`, `RDB` and `busy`. -/
def illegalCommand (s : State) : State := leave (takeResult false .illegalCommand) (startOperation s)

/-! ## Undo log (40_gpio_arbiter.md R148) -/

/-- Append the inverse of a reversible micro-step that succeeded. -/
def logUndo (u : Undo) : M Unit := update (updateFlight fun f => { f with undo := u :: f.undo })

/-- Write a feature tag (10_state.md R30). -/
def setTag (p : Pin) (t : Tag) : M Unit := writeLocal fun d => { d with tag := d.tag.set p t }

/-- A step whose failure is dropped (R148): the sequence goes on, unless a DCC reset drops it. -/
def dropFailure (m : M Unit) : M Unit := .of fun s =>
  match m.run s with
  | .ok _ s1 => .ok () s1
  | .error (.raised _) s1 => .ok () s1
  | .error .dropped s1 => .error .dropped s1

/-- Replay the undo log, newest entry first: a tag inverse succeeds; a failure of a direction inverse is dropped and the
replay goes on (R148). -/
def replayUndo : List Undo → M Unit
  | [] => pure ()
  | .tag p t :: us => do
    setTag p t
    replayUndo us
  | .dir p d :: us => do
    dropFailure (gpioDirSet p d)
    replayUndo us

/-- A pin setup's mutating steps: the log starts empty; on a failure it is replayed and the original error is surfaced
(R148, 60_exceptions.md R291 (2)). -/
def withRollback (body : M Unit) : M Unit := .of fun s =>
  match body.run (updateFlight (fun f => { f with undo := [] }) s) with
  | .ok a s1 => .ok a s1
  | .error (.raised c) s1 => (replayUndo s1.dcc.flight.undo >>= fun _ => raise c : M Unit).run s1
  | .error .dropped s1 => .error .dropped s1

/-! ## Steps shared by the operations -/

/-- `raise InvalidParameter(code)` unless `p`. -/
def checkParam (p : Prop) [Decidable p] (code : ParamCode) : M Unit := check p (.invalidParameter code)

/-- `idx(ch)`, or `InvalidParameter(CHANNEL)` (43_lut_manager.md R230). -/
def needChannel (ch : ChMask) : M Chan := liftParam (orParam (chanIdx ch) .channel)

/-- The sequence gate (42_capture_fsm.md R201). -/
def gate (row : GateRow) : M Unit := do
  let c ← ask fun s => s.dcc.capState
  check (gateOpen row c = true) .seqRefused

/-- `OPLEN` of the snapshot. -/
def snapLen : M Nat := ask fun s => s.dcc.flight.oplen.toNat

/-- `CTRL` of the snapshot. -/
def snapCtrl : M Word := ask fun s => s.dcc.flight.ctrl

/-- An operand record of `n` bytes, or `NullInput` (30_encoding.md R118). -/
def needRecord (n : Nat) : M (List Byte) := do
  let len ← snapLen
  check (n ≤ len) .nullInput
  ask fun s => snapBytes s.dcc.flight 0 n

/-- Set `cap_state`. -/
def setCapState (c : CapState) : M Unit := writeLocal fun d => { d with capState := c }

end Sys2Proof.Machine
end

