-- ==== Sys2Proof/Machine/Gpio.lean ====
section
/-! DEFINITION. The GPIO pin resource arbiter (40_gpio_arbiter.md): `SRCCTL.SET`, `SRCCTL.GET`, `DONEPIN.SETUP`,
`DONEPIN.GET`, `TRIGPIN.SETUP`, `TRIGPIN.GET`. None is gated by `cap_state` (R151). -/

namespace Sys2Proof.Machine

/-- R141 steps 1 to 3. -/
def srcctlSet (pin : PinCode) (val : BitVec 4) : M Result := do
  checkParam (pinMapped pin) .pin
  fieldWrite (.srcctl (groupOfPin (pinOfCode pin))) val
  pure {}

/-- `SRCCTL.SET pin, val` (R141). -/
def execSrcctlSet (pin : PinCode) (val : BitVec 4) (s : State) : Host.Outcome State Fault Refusal :=
  .next (runOperation false (srcctlSet pin val) s)

/-- R142 steps 1 to 3. -/
def srcctlGet (pin : PinCode) : M Result := do
  checkParam (pinMapped pin) .pin
  let n ← fieldRead (.srcctl (groupOfPin (pinOfCode pin)))
  pure { info := BitVec.setWidth 8 n }

/-- `SRCCTL.GET pin` (R142). -/
def execSrcctlGet (pin : PinCode) (s : State) : Host.Outcome State Fault Refusal :=
  .next (runOperation false (srcctlGet pin) s)

/-- `RES.info <- ScanTag(f)` (R143). -/
def pinQuery (f : Tag) : M Result := do
  let code ← ask fun s => codeOfPin (scanTag s.dcc.tag f)
  pure { info := code }

/-- `DONEPIN.GET` (R144). -/
def execDonepinGet (s : State) : Host.Outcome State Fault Refusal := .next (runOperation false (pinQuery .captureDone) s)

/-- `TRIGPIN.GET` (R145). -/
def execTrigpinGet (s : State) : Host.Outcome State Fault Refusal :=
  .next (runOperation false (pinQuery .captureTrigger) s)

/-- Scan for the pin that carries `f` and keep it as `prev` (R146 step 3, R147 step 2; 10_state.md R31 (d)). -/
def findPrev (f : Tag) : M (Option Pin) := do
  update fun s => updateFlight (fun fl => { fl with prev := scanTag s.dcc.tag f }) s
  ask fun s => s.dcc.flight.prev

/-- R146 step 4: release the previous done pin, logging U1 and U2. -/
def releaseDone (prev : Option Pin) : M Unit :=
  match prev with
  | none => pure ()
  | some q => do
    gpioDirSet q .input
    logUndo (.dir q .output)
    setTag q .none
    logUndo (.tag q .captureDone)

/-- R146 steps 5a to 5d: acquire the requested pin, logging U3 and U4. -/
def acquireDone (p : Pin) : M Unit := do
  let t ← ask fun s => s.dcc.tag.get p
  check (t = .none) .resourceConflict
  setTag p .captureDone
  logUndo (.tag p .none)
  gpioDirSet p .output
  logUndo (.dir p .input)
  let m ← ask fun s => s.cfg.srcctlMemElem
  fieldWrite (.srcctl (groupOfPin p)) m

/-- R146 step 5e: reset the nibble of the group of the pin just released. -/
def resetNibble (prev : Option Pin) : M Unit :=
  match prev with
  | none => pure ()
  | some q => do
    let d ← ask fun s => s.cfg.srcctlDefault
    fieldWrite (.srcctl (groupOfPin q)) d

/-- R146 steps 3 to 5, the part the undo log covers. -/
def moveDonePin (pin : PinCode) : M Unit := do
  let prev ← findPrev .captureDone
  releaseDone prev
  if pin = pinInvalid then resetNibble prev else acquireDone (pinOfCode pin)

/-- R146 step 2: the nibble of the requested pin's group must be the default or the memory-element value. -/
def nibbleCheck (p : Pin) : M Unit := do
  let n ← fieldRead (.srcctl (groupOfPin p))
  let cfg ← ask fun s => s.cfg
  check (n = cfg.srcctlDefault ∨ n = cfg.srcctlMemElem) .resourceConflict

/-- Steps 1 to 6 of `DONEPIN.SETUP` (R146), which `CAPCFG.SET` runs too (41_capture_config.md R181). -/
def setupDonePin (pin : PinCode) : M Unit := do
  checkParam (pinSetupLegal pin) .pin
  doIf (pin ≠ pinInvalid) (nibbleCheck (pinOfCode pin))
  withRollback (moveDonePin pin)
  writeLocal fun d => { d with sessDonePin := pin }

/-- R146 steps 1 to 7. -/
def donepinSetup (pin : PinCode) : M Result := do
  setupDonePin pin
  pure {}

/-- `DONEPIN.SETUP pin` (R146). -/
def execDonepinSetup (pin : PinCode) (s : State) : Host.Outcome State Fault Refusal :=
  .next (runOperation false (donepinSetup pin) s)

/-- R147 step 3: release the previous trigger pin, logging U2. -/
def releaseTrig (prev : Option Pin) : M Unit :=
  match prev with
  | none => pure ()
  | some q => do
    gpioDirSet q .input
    setTag q .none
    logUndo (.tag q .captureTrigger)

/-- R147 step 4: acquire the requested pin, logging U3. -/
def acquireTrig (p : Pin) : M Unit := do
  let t ← ask fun s => s.dcc.tag.get p
  check (t = .none) .resourceConflict
  setTag p .captureTrigger
  logUndo (.tag p .none)
  gpioDirSet p .input

/-- R147 steps 2 to 4, the part the undo log covers. -/
def moveTrigPin (pin : PinCode) : M Unit := do
  let prev ← findPrev .captureTrigger
  releaseTrig prev
  if pin = pinInvalid then pure () else acquireTrig (pinOfCode pin)

/-- Steps 1 to 6 of `TRIGPIN.SETUP` (R147; the whole sequence is the spec's inference, log 22). -/
def setupTrigPin (pin : PinCode) : M Unit := do
  checkParam (pinSetupLegal pin) .pin
  withRollback (moveTrigPin pin)
  writeLocal fun d => { d with sessTrigPin := pin }

/-- R147 steps 1 to 6. -/
def trigpinSetup (pin : PinCode) : M Result := do
  setupTrigPin pin
  pure {}

/-- `TRIGPIN.SETUP pin` (R147). -/
def execTrigpinSetup (pin : PinCode) (s : State) : Host.Outcome State Fault Refusal :=
  .next (runOperation false (trigpinSetup pin) s)

end Sys2Proof.Machine
end

