-- ==== Sys2Proof/Machine/CapCfg.lean ====
section
/-! DEFINITION. Capture configuration (41_capture_config.md): `CAPCFG.SET`, `CAPCFG.GET`, `CAPCTRL.SET`, `CAPCTRL.GET`,
`CAPLVL.SET`, `CAPLVL.GET`, `PWRTH.SET`, `PWRTH.GET`. They are capture-family operations: gated (R171, 42_capture_fsm.md
R201), and a transport failure enters `Error` (R202). -/

namespace Sys2Proof.Machine

/-- The range checks of `CTRL.RANGE_CHECK` (R172). -/
def rangeChecked (e : Except ParamCode Unit) : M Unit := do
  let ctrl ← snapCtrl
  doIf (ctrlRangeCheck ctrl) (liftParam e)

/-- The pin pair check (R173). -/
def pinPairCheck (c : CapConfig) : M Unit := do
  checkParam (pinSetupLegal c.triggerPin) .pin
  checkParam (pinSetupLegal c.donePin) .pin
  check (c.triggerPin ≠ c.donePin ∨ c.triggerPin = pinInvalid) .resourceConflict

/-- R181 steps 0 to 9. -/
def capcfgSet : M Result := do
  gate .set
  let h ← needRecord 58
  let c ← liftParam (hostConfig h)
  rangeChecked (rangeConfig c)
  pinPairCheck c
  setupTrigPin c.triggerPin
  setupDonePin c.donePin
  let cfg ← ask fun s => s.cfg
  mboxCfgWrite .capture 0 (serConfig cfg c)
  setCapState .configured
  pure {}

/-- `CAPCFG.SET` (R181). -/
def execCapcfgSet (s : State) : Host.Outcome State Fault Refusal := .next (runOperation true capcfgSet s)

/-- R182 steps 0 to 4; the pins come from the tag table. -/
def capcfgGet : M Result := do
  gate .get
  let t ← ask fun s => codeOfPin (scanTag s.dcc.tag .captureTrigger)
  let d ← ask fun s => codeOfPin (scanTag s.dcc.tag .captureDone)
  let b ← mboxCfgRead .capture 0 58
  let cfg ← ask fun s => s.cfg
  let c ← liftParam (parseConfig cfg t d b)
  pure { data := configHost c }

/-- `CAPCFG.GET` (R182). -/
def execCapcfgGet (s : State) : Host.Outcome State Fault Refusal := .next (runOperation true capcfgGet s)

/-- R183 steps 0 to 4. -/
def capctrlSet : M Result := do
  gate .set
  let h ← needRecord 24
  let c ← liftParam (hostCtrl h)
  rangeChecked (rangeCtrl c)
  let cfg ← ask fun s => s.cfg
  mboxCfgWrite .capture 0x24 (serCtrl cfg c)
  pure {}

/-- `CAPCTRL.SET` (R183). -/
def execCapctrlSet (s : State) : Host.Outcome State Fault Refusal := .next (runOperation true capctrlSet s)

/-- R184 steps 0 to 3. -/
def capctrlGet : M Result := do
  gate .get
  let k ← mboxCfgRead .capture 0x24 22
  let cfg ← ask fun s => s.cfg
  let c ← liftParam (parseCtrl cfg k)
  pure { data := ctrlHost c }

/-- `CAPCTRL.GET` (R184). -/
def execCapctrlGet (s : State) : Host.Outcome State Fault Refusal := .next (runOperation true capctrlGet s)

/-- R185 steps 0 to 4. -/
def caplvlSet : M Result := do
  gate .set
  let h ← needRecord 4
  let v ← liftParam (hostLevel h)
  rangeChecked (rangeLevel v)
  let cfg ← ask fun s => s.cfg
  mboxCfgWrite .capture 0x1C (serLevel cfg v)
  pure {}

/-- `CAPLVL.SET` (R185). -/
def execCaplvlSet (s : State) : Host.Outcome State Fault Refusal := .next (runOperation true caplvlSet s)

/-- R186 steps 0 to 3. -/
def caplvlGet : M Result := do
  gate .get
  let l ← mboxCfgRead .capture 0x1C 4
  let cfg ← ask fun s => s.cfg
  let v ← liftParam (parseLevel cfg l)
  pure { data := levelHost v }

/-- `CAPLVL.GET` (R186). -/
def execCaplvlGet (s : State) : Host.Outcome State Fault Refusal := .next (runOperation true caplvlGet s)

/-- R187 steps 0 to 5. -/
def pwrthSet (sel : BitVec 2) : M Result := do
  gate .set
  let h ← needRecord 8
  checkParam (sel ≠ 3) .band
  let t ← liftParam (hostThresh h)
  rangeChecked (rangeThresh t)
  let cfg ← ask fun s => s.cfg
  mboxCfgWrite .capture (threshOffset sel) (serThresh cfg t)
  pure {}

/-- `PWRTH.SET sel` (R187). -/
def execPwrthSet (sel : BitVec 2) (s : State) : Host.Outcome State Fault Refusal :=
  .next (runOperation true (pwrthSet sel) s)

/-- R188 steps 0 to 4. -/
def pwrthGet (sel : BitVec 2) : M Result := do
  gate .get
  checkParam (sel ≠ 3) .band
  let b ← mboxCfgRead .capture (threshOffset sel) 8
  let cfg ← ask fun s => s.cfg
  let t ← liftParam (parseThresh cfg b)
  pure { data := threshHost t }

/-- `PWRTH.GET sel` (R188). -/
def execPwrthGet (sel : BitVec 2) (s : State) : Host.Outcome State Fault Refusal :=
  .next (runOperation true (pwrthGet sel) s)

end Sys2Proof.Machine
end

