-- ==== Sys2Proof/Machine/CapFsm.lean ====
section
/-! DEFINITION. The capture trigger and status state machine (42_capture_fsm.md): `CAP.START`, `CAP.POLL`, `CAP.STATUS`,
`CAP.RDDONE`. They are capture-family operations (R201, R202). -/

namespace Sys2Proof.Machine

/-- R204 step 4: the TddTxOnSync trigger goes through the debug register, every other type through the mailbox
(R208); a delivered trigger is pending at the capture engine (10_state.md R60). -/
def sendTrigger (i : Chan) (t : CaptureType) : M Unit :=
  if t = .tddTxOnSync then regWrite .dbgTrig (2 ^ i.val) (deliverTrigger i t)
  else mboxSet .captureTrig [] (deliverTrigger i t) (fun _ s => s)

/-- R204 steps 0 to 6. -/
def capStart : M Result := do
  gate .start
  let k ← mboxCfgRead .capture 0x24 22
  let i ← liftParam (orParam (chanOfByte (byteAt k 12)) .channel)
  sendTrigger i (parseType (byteAt k 13) (byteAt k 4))
  setCapState .armed
  pure {}

/-- `CAP.START` (R204). -/
def execCapStart (s : State) : Host.Outcome State Fault Refusal := .next (runOperation true capStart s)

/-- The one byte `MboxGet(CMD_CAPTURE_DONE)` returns, as its bits 7:1, any value, and bit 0, the done flag (10_state.md R39;
log 12). -/
def doneResponse (s : State) : BitVec 7 × BitVec 1 :=
  (Config.doneUpperBits s.env.draws, s.chip.doneFlag.extractLsb' 0 1)

/-- R205 step 2a: `MboxSet(CMD_CAPTURE_DONE, [0x00])` clears the done flag. -/
def clearDone : M Unit :=
  mboxSet .captureDone [0x00]
    (updateChip fun ch => { ch with doneFlag := 0 })
    (fun d => updateChip fun ch => { ch with doneFlag := tornBits d 0 ch.doneFlag 0 })

/-- R205 steps 0 to 3a. -/
def capPoll : M Result := do
  gate .poll
  let r ← mboxGet .captureDone [] 1 doneResponse
  if r.2 = 1 then do
    clearDone
    setCapState .done
    pure { info := 1 }
  else
    pure { info := 0 }

/-- `CAP.POLL` (R205). -/
def execCapPoll (s : State) : Host.Outcome State Fault Refusal := .next (runOperation true capPoll s)

/-- The 10 result bytes of a detailed status record (R206 step 3, 30_encoding.md R123; 10_state.md R46). -/
def statusHost (r : List Byte) : List Byte :=
  put32 (le32 r 0) ++ [byteAt r 20, byteAt r 21, byteAt r 22, 0] ++ put16 (le16 r 24)

/-- R206 steps 0 to 4. -/
def capStatus (ch : ChMask) : M Result := do
  gate .get
  let i ← needChannel ch
  let cfg ← ask fun s => s.cfg
  let r ← mboxGet .detailedStatus [cfg.calStatusId, cfg.dpdInitId, BitVec.ofNat 8 i.val] 26
    (fun s => (s.chip.dstatus.get i).toList)
  pure { data := statusHost r }

/-- `CAP.STATUS ch` (R206). -/
def execCapStatus (ch : ChMask) (s : State) : Host.Outcome State Fault Refusal :=
  .next (runOperation true (capStatus ch) s)

/-- R207 steps 0 to 3. -/
def capRddone : M Result := do
  gate .readDone
  mboxSet .captureReadDone [] id (fun _ s => s)
  setCapState .idle
  pure {}

/-- `CAP.RDDONE` (R207). -/
def execCapRddone (s : State) : Host.Outcome State Fault Refusal := .next (runOperation true capRddone s)

end Sys2Proof.Machine
end

