-- ==== Sys2Proof/Machine/Lut.lean ====
section
/-! DEFINITION. The actuator model and LUT address manager (43_lut_manager.md): `MODEL.CFG`, `MODEL.GET`, `MMODEL.CFG`,
`MMODEL.GET`, `LUT.ADDR`, `LUT.WRITE`, `LUT.READ`, `ACTCLK.SET`, with the sequences `ClockSeq` (R239), `SwapOn` (R240) and
the LUT access sequence (R237) that the swap manager uses too. None is gated by `cap_state` (R241). -/

namespace Sys2Proof.Machine

/-! ## Model records -/

/-- R231 steps 3 to 7, `maxModel` the greatest legal `modelSel` (R233 step 3). -/
def checkModel (maxModel : Nat) (h : List Byte) : M Unit := do
  checkParam ((byteAt h 0).toNat ≤ maxModel) .model
  checkParam ((byteAt h 1).toNat ≤ 3) .bank
  checkParam (byteAt h 3 = 8 ∨ byteAt h 3 = 9) .compander
  checkParam (byteAt h 3 = 9 → byteAt h 1 = 0 ∨ byteAt h 1 = 2) .bank
  checkParam ((byteAt h 4).toNat ≤ 15) .outShift

/-- The chip record: the channel mask as `channelTag`, then the 47 host bytes (R231 step 8, 10_state.md R44). -/
def serModel (ch : ChMask) (h : List Byte) : List Byte := ch.setWidth 8 :: h

/-- R231 steps 1 to 10. -/
def modelCfg (ch : ChMask) : M Result := do
  let h ← needRecord 47
  let i ← needChannel ch
  checkModel 3 h
  mboxCfgWrite .model (modelOffset i) (serModel ch h)
  pure {}

/-- `MODEL.CFG ch` (R231). -/
def execModelCfg (ch : ChMask) (s : State) : Host.Outcome State Fault Refusal := .next (runOperation false (modelCfg ch) s)

/-- R232 steps 1 to 3: the record without its `channelTag`. -/
def modelGet (ch : ChMask) : M Result := do
  let i ← needChannel ch
  let r ← mboxCfgRead .model (modelOffset i) 48
  pure { data := r.tail }

/-- `MODEL.GET ch` (R232). -/
def execModelGet (ch : ChMask) (s : State) : Host.Outcome State Fault Refusal := .next (runOperation false (modelGet ch) s)

/-- R233 steps 1 to 10. -/
def mmodelCfg (ch : ChMask) : M Result := do
  let h ← needRecord 47
  let i ← needChannel ch
  checkModel 1 h
  mboxCfgWrite .multimodel (mmodelOffset i (byteAt h 0 == 1)) (serModel ch h)
  pure {}

/-- `MMODEL.CFG ch` (R233). -/
def execMmodelCfg (ch : ChMask) (s : State) : Host.Outcome State Fault Refusal :=
  .next (runOperation false (mmodelCfg ch) s)

/-- R234 steps 1 to 4. -/
def mmodelGet (ch : ChMask) (sel : BitVec 2) : M Result := do
  let i ← needChannel ch
  checkParam (sel.toNat ≤ 1) .model
  let r ← mboxCfgRead .multimodel (mmodelOffset i (sel == 1)) 48
  pure { data := r.tail }

/-- `MMODEL.GET ch, sel` (R234). -/
def execMmodelGet (ch : ChMask) (sel : BitVec 2) (s : State) : Host.Outcome State Fault Refusal :=
  .next (runOperation false (mmodelGet ch sel) s)

/-! ## Address resolution -/

/-- R235 steps 1 to 3. -/
def lutAddr (ch : ChMask) (lut : BitVec 5) (sel : BitVec 2) : M Result := do
  let i ← needChannel ch
  let cfg ← ask fun s => s.cfg
  pure { data := put32 (BitVec.ofNat 32 (lutAddress cfg i lut sel)) }

/-- `LUT.ADDR ch, lut, sel` (R235). -/
def execLutAddr (ch : ChMask) (lut : BitVec 5) (sel : BitVec 2) (s : State) : Host.Outcome State Fault Refusal :=
  .next (runOperation false (lutAddr ch lut sel) s)

/-! ## Actuator clock -/

/-- R239 step 5: at most `k` further reads of the clock status; the wait between reads is timing only (log 27). -/
def pollClock (i : Chan) (en : BitVec 1) : Nat → M Unit
  | 0 => raise .timeout
  | k + 1 => do
    update (updateFlight fun f => { f with polls := f.polls + 1 })
    let s ← fieldRead (.actClk i)
    if s = en then pure () else pollClock i en k

/-- `ClockSeq(i, en)`: R239 steps 2 to 6. -/
def clockSeq (i : Chan) (en : BitVec 1) : M Unit := do
  let cfg ← ask fun s => s.cfg
  regWrite .chsel (2 ^ i.val) id
  regWrite .streamId (sidClk cfg en) id
  regWrite .streamTrig 1 (deliverStream i en)
  update (updateFlight fun f => { f with polls := 0 })
  pollClock i en Config.actClkPollMax

/-- R239 steps 1 to 6. -/
def actclkSet (ch : ChMask) (en : BitVec 1) : M Result := do
  let i ← needChannel ch
  clockSeq i en
  pure {}

/-- `ACTCLK.SET ch, en` (R239). -/
def execActclkSet (ch : ChMask) (en : BitVec 1) (s : State) : Host.Outcome State Fault Refusal :=
  .next (runOperation false (actclkSet ch en) s)

/-! ## LUT write and read -/

/-- The chip's swap-mode flag: any nonzero value is enabled (10_state.md R45). -/
def readSwapFlag : M Bool := do
  let b ← mboxCfgRead .swapModeEn 0 1
  pure (byteAt b 0 != 0)

/-- `SwapOn()` (R240): the session cache, or the chip's flag; it writes no cache. -/
def swapOn : M Bool := do
  let ctrl ← snapCtrl
  if ctrlSwapQueryHw ctrl then readSwapFlag else ask fun s => s.dcc.sessSwapEn == 1

/-- R237 steps 4a to 4d: save power, enable, passthru and RAM-select. -/
def saveActuator (i : Chan) (l : BitVec 5) : M Unit := do
  let p ← fieldRead (.lutPower i l)
  update (updateFlight fun f => { f with svPower := p })
  let e ← fieldRead (.actEn i)
  update (updateFlight fun f => { f with svEn := e })
  let t ← fieldRead (.actPt i)
  update (updateFlight fun f => { f with svPt := t })
  let r ← fieldRead (.ramSel i)
  update (updateFlight fun f => { f with svRamSel := r })

/-- R237 steps 10a to 10c. -/
def restoreActuator (i : Chan) : M Unit := do
  let f ← ask fun s => s.dcc.flight
  fieldWrite (.actEn i) f.svEn
  fieldWrite (.actPt i) f.svPt
  fieldWrite (.ramSel i) f.svRamSel

/-- R237 step 12 under the policy bit `restore`. -/
def restorePower (i : Chan) (l : BitVec 5) (restore : Bool) : M Unit := do
  let f ← ask fun s => s.dcc.flight
  doIf (restore = true) (fieldWrite (.lutPower i l) f.svPower)

/-- R237 steps 4a to 12 around the bulk transfer `xfer` of step 9 (R238 mirrors them); `policy` picks the power policy bit
of `CTRL`. -/
def lutAccess {α : Type} (i : Chan) (l : BitVec 5) (policy : Word → Bool) (xfer : M α) : M α := do
  saveActuator i l
  fieldWrite (.lutPower i l) 1
  fieldWrite (.actEn i) 1
  clockSeq i 1
  fieldWrite (.ramSel i) l
  let a ← xfer
  let swap ← swapOn
  doIf (swap = false) (restoreActuator i)
  clockSeq i 0
  let ctrl ← snapCtrl
  restorePower i l (policy ctrl)
  pure a

/-- `LutWriteSeq(c, l, b, D)` (R237 steps 4a to 12, 44_swap_mode.md R263). -/
def lutWriteSeq (i : Chan) (l : BitVec 5) (b : BitVec 2) (data : List Byte) : M Unit := do
  let cfg ← ask fun s => s.cfg
  lutAccess i l ctrlWrRestorePower (memWrite (lutAddress cfg i l b) data)

/-- R237 steps 1 to 13, the presence check of step 2 first (60_exceptions.md R298; log 14). -/
def lutWrite (ch : ChMask) (lut : BitVec 5) (sel : BitVec 2) : M Result := do
  let n ← snapLen
  check (n ≠ 0) .nullInput
  let i ← needChannel ch
  checkParam (n ≤ 4096 - 1024 * sel.toNat) .len
  let data ← ask fun s => snapBytes s.dcc.flight 0 n
  lutWriteSeq i lut sel data
  pure {}

/-- `LUT.WRITE ch, lut, sel` (R237). -/
def execLutWrite (ch : ChMask) (lut : BitVec 5) (sel : BitVec 2) (s : State) : Host.Outcome State Fault Refusal :=
  .next (runOperation false (lutWrite ch lut sel) s)

/-- R238 steps 3 to 13, for a length that is not 0. -/
def lutReadSome (i : Chan) (lut : BitVec 5) (sel : BitVec 2) (n : Nat) : M Result := do
  checkParam (n ≤ 4096 - 1024 * sel.toNat) .len
  let cfg ← ask fun s => s.cfg
  let d ← lutAccess i lut ctrlRdRestorePower (memRead (lutAddress cfg i lut sel) n)
  pure { data := d }

/-- R238 steps 1 to 13; a length of 0 returns empty (step 2). -/
def lutRead (ch : ChMask) (lut : BitVec 5) (sel : BitVec 2) : M Result := do
  let i ← needChannel ch
  let n ← snapLen
  if n = 0 then pure {} else lutReadSome i lut sel n

/-- `LUT.READ ch, lut, sel` (R238). -/
def execLutRead (ch : ChMask) (lut : BitVec 5) (sel : BitVec 2) (s : State) : Host.Outcome State Fault Refusal :=
  .next (runOperation false (lutRead ch lut sel) s)

end Sys2Proof.Machine
end

