-- ==== Sys2Proof/Machine/Swap.lean ====
section
/-! DEFINITION. The swap-mode arbiter and multi-model LUT manager (44_swap_mode.md): `SWAP.EN`, `SWAP.GETEN`, `SWAP.WRITE`,
`MMLUT.WRITE`, `MMODEL.UPDATE`, `MMODEL.STATUS`. None is gated by `cap_state` (43_lut_manager.md R241). -/

namespace Sys2Proof.Machine

/-- Write the session cache of the swap-mode flag (10_state.md R29). -/
def setSessSwap (v : BitVec 1) : M Unit := writeLocal fun d => { d with sessSwapEn := v }

/-- R261 steps 1 to 3: the chip first, the mirror after success. -/
def swapEn (en : BitVec 1) : M Result := do
  mboxCfgWrite .swapModeEn 0 [en.setWidth 8]
  setSessSwap en
  pure {}

/-- `SWAP.EN en` (R261). -/
def execSwapEn (en : BitVec 1) (s : State) : Host.Outcome State Fault Refusal := .next (runOperation false (swapEn en) s)

/-- R262 steps 1 to 4. -/
def swapGeten : M Result := do
  let ctrl ← snapCtrl
  if ctrlSwapQueryHw ctrl then do
    let on ← readSwapFlag
    setSessSwap (BitVec.ofBool on)
    pure { info := (BitVec.ofBool on).setWidth 8 }
  else do
    let v ← ask fun s => s.dcc.sessSwapEn
    pure { info := v.setWidth 8 }

/-- `SWAP.GETEN` (R262). -/
def execSwapGeten (s : State) : Host.Outcome State Fault Refusal := .next (runOperation false swapGeten s)

/-- The entries of the two passes, in their order: 29 down to 0 (R263 steps 7 and 9). -/
def passOrder : List Nat := (List.range 30).reverse

/-- One pass of R263: `LutWriteSeq(c, i + shift, b, data of entry i)` for every populated entry of the list. -/
def swapPass (c : Chan) (b : BitVec 2) (shift : Nat) : List Nat → M Unit
  | [] => pure ()
  | i :: is => do
    let f ← ask fun s => s.dcc.flight
    doIf (descPopulated f i = true) (lutWriteSeq c (BitVec.ofNat 5 (i + shift)) b (descData f i))
    swapPass c b shift is

/-- R263 step 4: swap bank and entry limit of a compander size. -/
def swapBankOf (cs : Byte) : Except ParamCode (BitVec 2 × Nat) :=
  if cs = 8 then .ok (3, 1024) else if cs = 9 then .ok (2, 2048) else .error .compander

/-- R263 steps 5 and 6. -/
def swapLimits (cs : Byte) (sel : BitVec 2) (limit : Nat) : M Unit := do
  checkParam (cs = 9 → sel = 0 ∨ sel = 2) .bank
  let f ← ask fun s => s.dcc.flight
  checkParam ((List.range 30).all fun i => !descPopulated f i || descSize f i ≤ limit) .len

/-- R263 steps 7 to 10. -/
def swapPasses (c : Chan) (sel swapBank : BitVec 2) : M Unit := do
  swapPass c sel 0 passOrder
  fieldWrite (.ramSel c) 31
  swapPass c swapBank 1 passOrder
  fieldWrite (.ramSel c) 31

/-- R263 steps 1 to 11, with the descriptor check of R264. -/
def swapWrite (ch : ChMask) (sel : BitVec 2) : M Result := do
  let n ← snapLen
  check (124 ≤ n) .nullInput
  checkParam (n ≤ 65536) .len
  let c ← needChannel ch
  let f ← ask fun s => s.dcc.flight
  checkParam ((List.range 30).all (descOk f)) .desc
  let m ← mboxCfgRead .model (modelOffset c) 48
  let bl ← liftParam (swapBankOf (byteAt m 4))
  swapLimits (byteAt m 4) sel bl.2
  swapPasses c sel bl.1
  pure {}

/-- `SWAP.WRITE ch, sel` (R263). -/
def execSwapWrite (ch : ChMask) (sel : BitVec 2) (s : State) : Host.Outcome State Fault Refusal :=
  .next (runOperation false (swapWrite ch sel) s)

/-- One correlator row: zero-fill unless the write is whole, then the data (R265 steps 6 to 9). -/
def writeRow (row : Nat) (data : List Byte) : M Unit := do
  let cfg ← ask fun s => s.cfg
  doIf (data.length < 512) (memWrite (corrAddress cfg row) (List.replicate 512 0))
  memWrite (corrAddress cfg row) data

/-- R265 steps 1 to 10, the presence check of step 2 first (60_exceptions.md R298; log 14). -/
def mmlutWrite (lut : BitVec 5) : M Result := do
  let n ← snapLen
  check (n ≠ 0) .nullInput
  checkParam (lut.toNat ≤ 25) .lut
  checkParam (n % 4 = 0) .len
  checkParam (n ≤ 1024) .len
  let f ← ask fun s => s.dcc.flight
  writeRow (2 * lut.toNat) (snapBytes f 0 (min n 512))
  doIf (512 < n) (writeRow (2 * lut.toNat + 1) (snapBytes f 512 (n - 512)))
  pure {}

/-- `MMLUT.WRITE lut` (R265). -/
def execMmlutWrite (lut : BitVec 5) (s : State) : Host.Outcome State Fault Refusal :=
  .next (runOperation false (mmlutWrite lut) s)

/-- R266 steps 1 to 4. -/
def mmodelUpdate (ch : ChMask) (sel : BitVec 2) : M Result := do
  let i ← needChannel ch
  checkParam (sel.toNat ≤ 1) .model
  mboxSet .lutUpdate [ch.setWidth 8, sel.setWidth 8] (deliverUpdate i) (fun _ s => s)
  pure {}

/-- `MMODEL.UPDATE ch, sel` (R266). -/
def execMmodelUpdate (ch : ChMask) (sel : BitVec 2) (s : State) : Host.Outcome State Fault Refusal :=
  .next (runOperation false (mmodelUpdate ch sel) s)

/-- R267 steps 1 to 3. -/
def mmodelStatus (ch : ChMask) : M Result := do
  let i ← needChannel ch
  let r ← mboxGet .lutUpdateStatus [ch.setWidth 8] 2 (fun s => (s.chip.updStatus.get i).toList)
  pure { data := r }

/-- `MMODEL.STATUS ch` (R267). -/
def execMmodelStatus (ch : ChMask) (s : State) : Host.Outcome State Fault Refusal :=
  .next (runOperation false (mmodelStatus ch) s)

end Sys2Proof.Machine
end

