-- ==== Sys2Proof/Machine/Dispatch.lean ====
section
/-! DEFINITION. The dispatch: one arm per operation of spec/opcode_table.json, each one direct call of its meaning. -/

namespace Sys2Proof.Machine

def exec (i : Instr) (s : State) : Host.Outcome State Fault Refusal :=
  match i with
  | .srcctlSet pin val => Sys2Proof.Machine.execSrcctlSet pin val s
  | .srcctlGet pin => Sys2Proof.Machine.execSrcctlGet pin s
  | .donepinSetup pin => Sys2Proof.Machine.execDonepinSetup pin s
  | .donepinGet => Sys2Proof.Machine.execDonepinGet s
  | .trigpinSetup pin => Sys2Proof.Machine.execTrigpinSetup pin s
  | .trigpinGet => Sys2Proof.Machine.execTrigpinGet s
  | .capcfgSet => Sys2Proof.Machine.execCapcfgSet s
  | .capcfgGet => Sys2Proof.Machine.execCapcfgGet s
  | .capctrlSet => Sys2Proof.Machine.execCapctrlSet s
  | .capctrlGet => Sys2Proof.Machine.execCapctrlGet s
  | .caplvlSet => Sys2Proof.Machine.execCaplvlSet s
  | .caplvlGet => Sys2Proof.Machine.execCaplvlGet s
  | .pwrthSet sel => Sys2Proof.Machine.execPwrthSet sel s
  | .pwrthGet sel => Sys2Proof.Machine.execPwrthGet sel s
  | .capStart => Sys2Proof.Machine.execCapStart s
  | .capPoll => Sys2Proof.Machine.execCapPoll s
  | .capStatus ch => Sys2Proof.Machine.execCapStatus ch s
  | .capRddone => Sys2Proof.Machine.execCapRddone s
  | .modelCfg ch => Sys2Proof.Machine.execModelCfg ch s
  | .modelGet ch => Sys2Proof.Machine.execModelGet ch s
  | .mmodelCfg ch => Sys2Proof.Machine.execMmodelCfg ch s
  | .mmodelGet ch sel => Sys2Proof.Machine.execMmodelGet ch sel s
  | .lutAddr ch lut sel => Sys2Proof.Machine.execLutAddr ch lut sel s
  | .lutWrite ch lut sel => Sys2Proof.Machine.execLutWrite ch lut sel s
  | .lutRead ch lut sel => Sys2Proof.Machine.execLutRead ch lut sel s
  | .actclkSet ch en => Sys2Proof.Machine.execActclkSet ch en s
  | .swapEn en => Sys2Proof.Machine.execSwapEn en s
  | .swapGeten => Sys2Proof.Machine.execSwapGeten s
  | .swapWrite ch sel => Sys2Proof.Machine.execSwapWrite ch sel s
  | .mmlutWrite lut => Sys2Proof.Machine.execMmlutWrite lut s
  | .mmodelUpdate ch sel => Sys2Proof.Machine.execMmodelUpdate ch sel s
  | .mmodelStatus ch => Sys2Proof.Machine.execMmodelStatus ch s

end Sys2Proof.Machine
end

