-- ==== Sys2Proof/Machine/Step.lean ====
section
/-! DEFINITION. The step of the machine. Between operations the host acts (00_scope.md R9): a `CMD` write starts the
operation its word decodes to (30_encoding.md R110, R117), and the whole operation is one step; any other host action is one
step; where the host does nothing DCC does nothing (70_reset_and_hazards.md R331) and only the other agents may move. -/

namespace Sys2Proof.Machine

/-- A `CMD` write: lost while busy (10_state.md R21), else the operation of the word, or `IllegalCommand` (30_encoding.md
R116). -/
def commandWrite (w : Word) (s : State) : Host.Outcome State Fault Refusal :=
  if s.regs.busy then .next s
  else
    match decode w with
    | some i => exec i { s with regs := { s.regs with cmd := w } }
    | none => .next (illegalCommand { s with regs := { s.regs with cmd := w } })

/-- One host action between operations. -/
def hostStep (a : HostAct) (s : State) : Host.Outcome State Fault Refusal :=
  match a with
  | .writeCmd w => commandWrite w s
  | .reset => .next (dccReset s)
  | .writeOplen v => .next (hostAccess s (.writeOplen v))
  | .writeOpb a b => .next (hostAccess s (.writeOpb a b))
  | .writeCtrl v => .next (hostAccess s (.writeCtrl v))
  | .read r => .next (hostAccess s (.read r))
  | .chipReset c => .next (chipReset c s)
  | .wait => .next s
  | .pause => .next s

/-- One step: the host's next action, or, where it has none, a turn of the agents behind the transport. -/
def step (s : State) : Host.Outcome State Fault Refusal :=
  match s.env.hostQ with
  | [] => .next (envTurn s)
  | a :: q => hostStep a (withHostQ s q)

/-- The state in which the host's next action writes the command word `w` to `CMD` while DCC is not busy: where DCC takes
its next instruction from (30_encoding.md R110; log 1). -/
def State.withFetchWord (s : State) (nbits w : Nat) : State :=
  { s with
    regs := { s.regs with busy := false }
    env := { s.env with hostQ := .writeCmd (BitVec.ofNat 32 (w % 2 ^ nbits)) :: s.env.hostQ } }

end Sys2Proof.Machine
end

