-- ==== Sys2Proof/Safety.lean ====
section
/-! DEFINITION. What counts as a safe run and a legal state of DCC, and the environments claims speak about. A run is safe
if no step stops. The invariants: memories in canonical form and inside their objects, no operation in flight between steps,
a legal result, pin ownership (40_gpio_arbiter.md R150). -/

namespace Sys2Proof.Machine

/-! ## Safe runs -/

/-- The first `k` steps from `s` all answer a next state. -/
def SafeRun (k : Nat) (s : State) : Prop := ∃ t, Sys2Proof.core.run k s = .next t

/-! ## Invariants -/

/-- Every memory is in canonical form and inside its object (10_state.md R20, R36 to R38). -/
abbrev State.MemoryForm (s : State) : Prop :=
  (s.regs.opb.wf ∧ s.regs.opb.bounded 65536) ∧
  (s.chip.capObj.wf ∧ s.chip.capObj.bounded 58) ∧
  (s.chip.modelObj.wf ∧ s.chip.modelObj.bounded 192) ∧
  (s.chip.mmodelObj.wf ∧ s.chip.mmodelObj.bounded 384) ∧
  (s.chip.swapEnObj.wf ∧ s.chip.swapEnObj.bounded 1) ∧
  (s.chip.bulk.wf ∧ ∀ c ∈ s.chip.bulk, bulkMapped s.cfg c.1 = true)

/-- No operation is in flight: between steps `busy` is 0 and the hidden state is discarded (10_state.md R26, R31). -/
abbrev State.Quiescent (s : State) : Prop := s.regs.busy = false ∧ s.dcc.flight = Flight.idle

/-- `RES` has its reserved bits 0 and a class 0..8 (10_state.md R25, 60_exceptions.md R290); `RLEN` is the number of valid
bytes of `RDB`, at most 4096 (10_state.md R20). -/
abbrev State.ResultForm (s : State) : Prop :=
  s.regs.res &&& 0xF80000F0 = 0 ∧ (s.regs.res &&& 0xF).toNat ≤ 8 ∧
  s.regs.rlen = BitVec.ofNat 32 s.regs.rdb.length ∧ s.regs.rdb.length ≤ 4096

/-- `One(f)`: at most one pin carries the tag, and none of 16..18 does (40_gpio_arbiter.md R150). -/
abbrev OneTag (tag : Vector Tag 19) (f : Tag) : Prop :=
  (∀ p q : Pin, tag.get p = f → tag.get q = f → p = q) ∧ ∀ p : Pin, tag.get p = f → p.val ≤ 15

/-- Pin ownership: `One(CaptureDone)` and `One(CaptureTrigger)` (40_gpio_arbiter.md R150). -/
abbrev State.Ownership (s : State) : Prop := OneTag s.dcc.tag .captureDone ∧ OneTag s.dcc.tag .captureTrigger

/-- The invariant of the machine between steps. -/
abbrev State.Inv (s : State) : Prop := s.MemoryForm ∧ s.Quiescent ∧ s.ResultForm ∧ s.Ownership

/-! ## Environments -/

/-- The host leaves the operation in flight alone: it has nothing to do, or waits for `busy = 0`. -/
def HostWaits (s : State) : Prop := s.env.hostQ = [] ∨ s.env.hostQ.head? = some .wait

/-- The tick of the `k`-th boundary from here, while the host leaves the operation alone. -/
def tickAt (e : Env) (k : Nat) : Tick :=
  match e.script[k]? with
  | some t => t
  | none => Config.freeTick (e.draws + k)

/-- `n` turns of the agents behind the transport. -/
def envTurns : Nat → State → State
  | 0, s => s
  | n + 1, s => envTurns n (envTurn s)

/-- The transport answers with success (60_exceptions.md R294: device code 0 is no error). -/
def Served (t : Tick) : Prop := answerFailure true t.answer = none

/-- At each of the next `n` boundaries no other agent moves and the transport answers with success. -/
def Quiet (n : Nat) (s : State) : Prop := ∀ k < n, tickAt s.env k = { moves := [], answer := .ok }

/-- At each of the next `n` boundaries the stream processor performs the oldest outstanding request, no other agent moves,
and the transport answers with success. With no request outstanding at the start, every clock request is then performed
before the first status read (as in program P2 of 95_test_vectors.md). -/
def Obliging (n : Nat) (s : State) : Prop :=
  s.env.streamReqs = [] ∧ ∀ k < n, tickAt s.env k = { moves := [.stream 0], answer := .ok }

/-! ## How an operation ends, as claims speak of it -/

/-- The operation that ran from `s` has ended in `t` with the result word `res` and the result bytes `data`
(60_exceptions.md R291; 10_state.md R23, R25, R26): no parameter, no other host register and no later host action has
changed, and no hidden state is left. -/
def Ended (s t : State) (res : Word) (data : List Byte) : Prop :=
  t.cfg = s.cfg ∧
  t.regs = { s.regs with
    res := res, rlen := BitVec.ofNat 32 data.length, rdb := data, rdbDraw := t.regs.rdbDraw, busy := false } ∧
  t.dcc.flight = Flight.idle ∧ t.env.hostQ = s.env.hostQ

/-- It ended with class `Ok`, the small result `info` in `RES[15:8]` and the result bytes `data`. -/
def EndedOk (s t : State) (info : Byte) (data : List Byte) : Prop :=
  Ended s t (info.setWidth 32 <<< 8) data ∧ t.env.claimless = s.env.claimless

/-- Nothing of the DCC-local state has changed but the hidden state. -/
def DccSame (s t : State) : Prop := t.dcc = { s.dcc with flight := t.dcc.flight }

/-- The transactions from `s` to `t`, in order, all answered with success. -/
def Sent (s t : State) (txns : List Txn) : Prop :=
  t.env.bus = (txns.map fun x => BusEntry.mk x true).reverse ++ s.env.bus

/-- The operation ended with the result word `res` and without a transaction, at the only boundary between its start and its
exit, and has changed nothing else. -/
def EndedAtOnce (s t : State) (res : Word) : Prop :=
  Ended s t res [] ∧ DccSame s t ∧ t.chip = (envTurn s).chip ∧ Sent s t []

/-- `RES.class` (60_exceptions.md R290). -/
def resClass (res : Word) : Nat := (res &&& 0xF).toNat

/-- `RES` of an operation that ends because a mailbox transaction was answered with `a` (60_exceptions.md R293, R294;
10_state.md R25): for a device error the raw code in bits 23:16 and the number of its name in bits 26:24. -/
def failureWord (cfg : Config) (a : Answer) : Word :=
  match a with
  | .ok => 0
  | .timeout => 5
  | .hwReset => 6
  | .deviceError code =>
    let name : Word :=
      if code = cfg.errHwInUse then 1 else if code = cfg.errStream then 2 else if code = cfg.errCapture then 3 else 4
    4 ||| code.setWidth 32 <<< 16 ||| name <<< 24

/-- It ended because a mailbox transaction was answered with `a`. -/
def EndedFailed (s t : State) (a : Answer) : Prop := Ended s t (failureWord s.cfg a) []

/-- `RES.info` (10_state.md R25). -/
def resInfo (res : Word) : Byte := res.extractLsb' 8 8

/-! ## The sequence gate and the next state, as tables -/

/-- The operations of the two capture families (41_capture_config.md, 42_capture_fsm.md). -/
def captureFamily : Instr → Bool
  | .capcfgSet | .capcfgGet | .capctrlSet | .capctrlGet | .caplvlSet | .caplvlGet | .pwrthSet _ | .pwrthGet _ => true
  | .capStart | .capPoll | .capStatus _ | .capRddone => true
  | .srcctlSet _ _ | .srcctlGet _ | .donepinSetup _ | .donepinGet | .trigpinSetup _ | .trigpinGet => false
  | .modelCfg _ | .modelGet _ | .mmodelCfg _ | .mmodelGet _ _ | .lutAddr _ _ _ | .lutWrite _ _ _ | .lutRead _ _ _ => false
  | .actclkSet _ _ | .swapEn _ | .swapGeten | .swapWrite _ _ | .mmlutWrite _ | .mmodelUpdate _ _ => false
  | .mmodelStatus _ => false

/-- The table of 42_capture_fsm.md R201: the operation runs in this `cap_state`. -/
def admitted (i : Instr) (c : CapState) : Bool :=
  match i with
  | .capcfgSet | .capctrlSet | .caplvlSet | .pwrthSet _ => c == .idle || c == .configured
  | .capcfgGet | .capctrlGet | .caplvlGet | .pwrthGet _ | .capStatus _ => c != .error
  | .capStart => c == .configured
  | .capPoll => c == .armed
  | .capRddone => c == .done
  | .srcctlSet _ _ | .srcctlGet _ | .donepinSetup _ | .donepinGet | .trigpinSetup _ | .trigpinGet => true
  | .modelCfg _ | .modelGet _ | .mmodelCfg _ | .mmodelGet _ _ | .lutAddr _ _ _ | .lutWrite _ _ _ | .lutRead _ _ _ => true
  | .actclkSet _ _ | .swapEn _ | .swapGeten | .swapWrite _ _ | .mmlutWrite _ | .mmodelUpdate _ _ => true
  | .mmodelStatus _ => true

/-- The table of 42_capture_fsm.md R203: the `cap_state` after operation `i` ended with the result word `res`. -/
def nextCapState (c : CapState) (i : Instr) (res : Word) : CapState :=
  if captureFamily i = false then c
  else if resClass res = 4 ∨ resClass res = 5 ∨ resClass res = 6 then .error
  else if resClass res ≠ 0 then c
  else if i = .capcfgSet then .configured
  else if i = .capStart then .armed
  else if i = .capPoll ∧ resInfo res = 1 then .done
  else if i = .capRddone then .idle
  else c

/-! ## Transactions -/

/-- Transactions that change nothing (20_memory.md R88). -/
def isReadTxn : Txn → Bool
  | .cfgRead _ _ _ | .mboxGet _ _ _ | .fieldRead _ | .memRead _ _ | .regRead _ => true
  | .cfgWrite _ _ _ | .mboxSet _ _ | .fieldWrite _ _ | .memWrite _ _ | .regWrite _ _ | .gpioDirSet _ _ => false

/-- The `n` bytes from `a` lie in one LUT window (10_state.md R36). -/
def inLutMem (cfg : Config) (a n : Nat) : Prop :=
  ∃ i : Chan, (cfg.lutBase.get i).toNat ≤ a ∧ a + n ≤ (cfg.lutBase.get i).toNat + Config.lutWindow

/-- The `n` bytes from `a` lie in correlator memory (10_state.md R37). -/
def inCorrMem (cfg : Config) (a n : Nat) : Prop :=
  cfg.corrBase.toNat ≤ a ∧ a + n ≤ cfg.corrBase.toNat + Config.corrWindow

/-- The GPIO spaces: source-control fields and pin directions (20_memory.md R71). -/
def gpioSpace : Txn → Prop
  | .fieldRead (.srcctl _) | .fieldWrite (.srcctl _) _ | .gpioDirSet _ _ => True
  | _ => False

/-- The spaces `LUT.WRITE` and `LUT.READ` reach: the actuator fields, the stream registers, `LUTMEM` (R71), and the swap
flag, which the swap test reads when `CTRL.SWAP_QUERY_HW` is set (43_lut_manager.md R240; log 30). -/
def lutSpace (cfg : Config) : Txn → Prop
  | .fieldRead f | .fieldWrite f _ => ∀ g, f ≠ .srcctl g
  | .regWrite r _ => r = cfg.chselReg ∨ r = cfg.streamIdReg ∨ r = cfg.streamTrigReg
  | .memRead a n => inLutMem cfg a n
  | .memWrite a bs => inLutMem cfg a bs.length
  | .cfgRead o _ _ => o = cfg.objSwapModeEn
  | _ => False

/-- The spaces of each operation's family (20_memory.md R71). -/
def reaches (cfg : Config) (i : Instr) (x : Txn) : Prop :=
  match i with
  | .srcctlSet _ _ | .srcctlGet _ | .donepinSetup _ | .donepinGet | .trigpinSetup _ | .trigpinGet => gpioSpace x
  | .capcfgSet => gpioSpace x ∨ ∃ a bs, x = .cfgWrite cfg.objCapture a bs
  | .capctrlSet | .caplvlSet | .pwrthSet _ => ∃ a bs, x = .cfgWrite cfg.objCapture a bs
  | .capcfgGet | .capctrlGet | .caplvlGet | .pwrthGet _ => ∃ a n, x = .cfgRead cfg.objCapture a n
  | .capStart =>
    (∃ a n, x = .cfgRead cfg.objCapture a n) ∨ x = .mboxSet cfg.cmdCaptureTrig [] ∨ ∃ v, x = .regWrite cfg.dbgTrigReg v
  | .capPoll => x = .mboxGet cfg.cmdCaptureDone [] 1 ∨ x = .mboxSet cfg.cmdCaptureDone [0]
  | .capStatus _ => ∃ sel, x = .mboxGet cfg.cmdDetailedStatus sel 26
  | .capRddone => x = .mboxSet cfg.cmdCaptureReadDone []
  | .modelCfg _ => ∃ a bs, x = .cfgWrite cfg.objModel a bs
  | .modelGet _ => ∃ a n, x = .cfgRead cfg.objModel a n
  | .mmodelCfg _ => ∃ a bs, x = .cfgWrite cfg.objMultimodel a bs
  | .mmodelGet _ _ => ∃ a n, x = .cfgRead cfg.objMultimodel a n
  | .lutAddr _ _ _ => False
  | .lutWrite _ _ _ | .lutRead _ _ _ | .actclkSet _ _ => lutSpace cfg x
  | .swapEn _ => ∃ bs, x = .cfgWrite cfg.objSwapModeEn 0 bs
  | .swapGeten => x = .cfgRead cfg.objSwapModeEn 0 1
  | .swapWrite _ _ => lutSpace cfg x ∨ ∃ a n, x = .cfgRead cfg.objModel a n
  | .mmlutWrite _ => ∃ a bs, x = .memWrite a bs ∧ inCorrMem cfg a bs.length
  | .mmodelUpdate _ _ => ∃ bs, x = .mboxSet cfg.cmdLutUpdate bs
  | .mmodelStatus _ => ∃ sel, x = .mboxGet cfg.cmdLutUpdateStatus sel 2

/-! ## End states of the pin setups (40_gpio_arbiter.md R146, R147) -/

/-- The requested pin is free once the pin that carries `f` is released; the sentinel asks for none. -/
def mayAcquire (tag : Vector Tag 19) (f : Tag) (pin : PinCode) : Prop :=
  pin = pinInvalid ∨ tag.get (pinOfCode pin) = .none ∨ scanTag tag f = some (pinOfCode pin)

/-- The nibble of the requested pin's group is one `DONEPIN.SETUP` accepts (R146 step 2b). -/
def nibbleAccepted (cfg : Config) (srcctl : Vector (BitVec 4) 5) (pin : PinCode) : Prop :=
  pin = pinInvalid ∨ srcctl.get (groupOfPin (pinOfCode pin)) = cfg.srcctlDefault ∨
    srcctl.get (groupOfPin (pinOfCode pin)) = cfg.srcctlMemElem

/-- The tags after a setup of `pin` for feature `f`: the scanned pin released, the requested one acquired. -/
def movedTags (tag : Vector Tag 19) (f : Tag) (pin : PinCode) : Vector Tag 19 :=
  let released := match scanTag tag f with
    | some q => tag.set q .none
    | none => tag
  if pin = pinInvalid then released else released.set (pinOfCode pin) f

/-- The directions after that setup, `d` the direction of an acquired pin. -/
def movedDirs (tag : Vector Tag 19) (f : Tag) (d : Dir) (pin : PinCode) (dir : Vector Dir 19) : Vector Dir 19 :=
  let released := match scanTag tag f with
    | some q => dir.set q .input
    | none => dir
  if pin = pinInvalid then released else released.set (pinOfCode pin) d

/-- The nibbles after a done-pin setup (R146 steps 5d and 5e). -/
def movedNibbles (cfg : Config) (tag : Vector Tag 19) (pin : PinCode) (srcctl : Vector (BitVec 4) 5) :
    Vector (BitVec 4) 5 :=
  if pin = pinInvalid then
    match scanTag tag .captureDone with
    | some q => srcctl.set (groupOfPin q) cfg.srcctlDefault
    | none => srcctl
  else srcctl.set (groupOfPin (pinOfCode pin)) cfg.srcctlMemElem

/-! ## End states of the LUT access sequence (43_lut_manager.md R237, R238; 44_swap_mode.md R263) -/

/-- What the swap test answers (43_lut_manager.md R240). -/
def swapOnNow (s : State) : Bool :=
  if s.regs.ctrl.getLsbD 1 then s.chip.swapEnObj.read 0 != 0 else s.dcc.sessSwapEn == 1

/-- The actuator after a whole sequence on LUT `l`: the clock is off; with swap mode on the actuator stays enabled and
RAM-select names `l`; the power bit is on unless the policy restores it. -/
def sequencedActuator (swap restorePower : Bool) (l : BitVec 5) (a : Actuator) : Actuator :=
  { a with
    lutPower := if restorePower then a.lutPower else a.lutPower.set l.toFin 1
    actEn := if swap then 1 else a.actEn
    ramSel := if swap then l else a.ramSel
    actClk := 0 }

/-- The chip after a whole sequence on LUT `l` of channel `i` whose bulk transfer left `bulk`. -/
def sequencedChip (cfg : Config) (swap restorePower : Bool) (i : Chan) (l : BitVec 5) (bulk : Memory) (ch : Chip) :
    Chip :=
  { ch with
    act := ch.act.set i (sequencedActuator swap restorePower l (ch.act.get i))
    chsel := 2 ^ i.val
    streamId := cfg.sidClkOff
    streamTrig := 1
    bulk := bulk }

/-- The chip after one pass of `SWAP.WRITE` over the entries of a list: entry `k`, if populated, written to LUT
`k + shift`, bank `b`. -/
def swappedChip (cfg : Config) (swap restorePower : Bool) (i : Chan) (b : BitVec 2) (shift : Nat) (f : Flight) :
    List Nat → Chip → Chip
  | [], ch => ch
  | k :: ks, ch =>
    swappedChip cfg swap restorePower i b shift f ks
      (if descPopulated f k then
        sequencedChip cfg swap restorePower i (BitVec.ofNat 5 (k + shift))
          (ch.bulk.writeBytes (lutAddress cfg i (BitVec.ofNat 5 (k + shift)) b) (descData f k)) ch
      else ch)

end Sys2Proof.Machine
end

