-- ==== Sys2Proof/Certificates/Slice0/Obligations.lean ====
section
/-! DEFINITION. The statements for the provers. A statement about one operation gives the conditions on the state and the
operands under which it completes, the next state, and its frame. The other agents may step before every micro-step
(20_memory.md R87; log 2 says where the model has these boundaries): where the operation has few of them they may do anything
there (`envTurn`, `envTurns`); where it has many the statement is about a quiet or an obliging environment. -/

open Sys2Proof Sys2Proof.Machine

/-! ## Encoding -/

/-- Every operation with every operand value its fields admit survives encoding and decoding (30_encoding.md R126). -/
def Obligations.DecodeEncodeAgree : Prop := ∀ i : Instr, decode (encode i) = some i

/-- A word that decodes is the encoding of what it decodes to: no operand bit is dropped and no second word means the same
operation (R112, R126). -/
def Obligations.EncodeDecodeAgree : Prop := ∀ (w : Word) (i : Instr), decode w = some i → encode i = w

/-- The words that decode are the words that match a row of the opcode map, and no word matches two rows (R112, R116). -/
def Obligations.LegalWordsDecode : Prop :=
  (∀ w : Word, wordLegal w = true ↔ ∃ i, decode w = some i) ∧
  ∀ (w : Word) (r r' : OpRow), r ∈ opRows → r' ∈ opRows →
    w &&& r.format.mask = r.pattern → w &&& r'.format.mask = r'.pattern → r = r'

/-- Words the spec writes out decode to the operations it gives for them (95_test_vectors.md part B0). -/
def Obligations.SampleWordsDecode : Prop :=
  decode 0x10063000 = some (.srcctlSet 6 3) ∧ decode 0x12090000 = some (.donepinSetup 9) ∧
  decode 0x26000200 = some (.pwrthSet 1) ∧ decode 0x31000000 = some .capPoll ∧
  decode 0x32000004 = some (.capStatus 4) ∧ decode 0x45000611 = some (.lutWrite 1 1 3) ∧
  decode 0x460007E2 = some (.lutRead 2 30 3) ∧ decode 0x47000808 = some (.actclkSet 8 1) ∧
  decode 0x50000800 = some (.swapEn 1) ∧ decode 0x53000190 = some (.mmlutWrite 25) ∧
  decode 0x54000202 = some (.mmodelUpdate 2 1) ∧ decode 0x30000001 = none ∧ decode 0x47000811 = none

/-- An illegal word written to `CMD` while the host then waits ends at once with class `IllegalCommand` and changes nothing
else (R116). -/
def Obligations.IllegalWordRefused : Prop :=
  ∀ (s : State) (w : Word) (q : List HostAct), s.env.hostQ = .writeCmd w :: q → s.regs.busy = false → decode w = none →
    HostWaits (withHostQ s q) →
    ∃ t, step s = .next t ∧ EndedAtOnce { withHostQ s q with regs := { s.regs with cmd := w } } t 8

/-! ## The step -/

/-- A step whose host action writes a word that decodes to `i`, while DCC is not busy, is `exec i` on the state in which the
action is taken from the queue and `CMD` holds the word (R110); so the very next step runs the operation `withFetchWord`
places, whatever the state. -/
def Obligations.StepRunsDecoded : Prop :=
  (∀ (s : State) (w : Word) (q : List HostAct) (i : Instr), s.env.hostQ = .writeCmd w :: q → s.regs.busy = false →
    decode w = some i → step s = exec i { withHostQ s q with regs := { s.regs with cmd := w } }) ∧
  ∀ (s : State) (i : Instr), step (s.withFetchWord 32 (encode i).toNat) =
    exec i { s with regs := { s.regs with cmd := encode i, busy := false } }

/-- Nothing stops the machine: every step answers a next state, so every run is safe (60_exceptions.md R290, R299). -/
def Obligations.EveryStepAnswers : Prop := (∀ s : State, ∃ t, step s = .next t) ∧ ∀ (k : Nat) (s : State), SafeRun k s

/-- The host's writes of `OPLEN`, `OPB` and `CTRL` between operations reach exactly the register written; a `CMD` write while
DCC is busy is lost; a read changes no state but the model's record of it, and each register reads as what it holds, the
result registers while DCC is not busy (10_state.md R20, R21, R26). -/
def Obligations.HostAccess : Prop :=
  (∀ (s : State) (w : Word) (q : List HostAct), s.env.hostQ = .writeCmd w :: q → s.regs.busy = true →
    step s = .next (withHostQ s q)) ∧
  (∀ (s : State) (v : Word) (q : List HostAct), s.env.hostQ = .writeOplen v :: q →
    step s = .next { withHostQ s q with regs := { s.regs with oplen := v } }) ∧
  (∀ (s : State) (v : Word) (q : List HostAct), s.env.hostQ = .writeCtrl v :: q →
    step s = .next { withHostQ s q with regs := { s.regs with ctrl := v } }) ∧
  (∀ (s : State) (a : BitVec 16) (b : Byte) (q : List HostAct), s.env.hostQ = .writeOpb a b :: q → s.MemoryForm →
    ∃ t, step s = .next t ∧ t = { withHostQ s q with regs := { s.regs with opb := t.regs.opb } } ∧
      ∀ x, t.regs.opb.read x = if x = a.toNat then b else s.regs.opb.read x) ∧
  (∀ (s : State) (r : HostReg) (q : List HostAct), s.env.hostQ = .read r :: q →
    ∃ t, step s = .next t ∧ t.cfg = s.cfg ∧ t.regs = s.regs ∧ t.dcc = s.dcc ∧ t.chip = s.chip ∧
      t.env.seen = (r, hostRead s r) :: s.env.seen) ∧
  (∀ (s : State) (a : BitVec 16), hostRead s (.opb a) = (s.regs.opb.read a.toNat).setWidth 32) ∧
  (∀ s : State, hostRead s .oplen = s.regs.oplen ∧ hostRead s .ctrl = s.regs.ctrl ∧
    (hostRead s .state).getLsbD 31 = s.regs.busy ∧
    (hostRead s .state).toNat % 2 ^ 31 = (capStateCode s.dcc.capState).toNat) ∧
  [CapState.idle, .configured, .armed, .done, .error].map capStateCode = [0, 1, 2, 3, 4] ∧
  ∀ s : State, s.regs.busy = false → hostRead s .res = s.regs.res ∧ hostRead s .rlen = s.regs.rlen ∧
    ∀ (k : BitVec 12) (b : Byte), s.regs.rdb[k.toNat]? = some b → hostRead s (.rdb k) = b.setWidth 32

/-- What the host writes while an operation is in flight does not reach the operation: it ends as without the writes, a `CMD`
write starts nothing, and the `OPLEN`, `OPB` and `CTRL` writes are in the registers. The host reads `STATE` there with the
busy bit set and the `cap_state` of the start (10_state.md R21, R26, R31; 20_memory.md R94). That these writes and this
read land at the first boundary between two micro-steps is the model's reading of R87 (log 2). -/
def Obligations.HostWritesMissOperation : Prop :=
  (∀ (i : Instr) (s t : State) (ws q : List HostAct), HostWaits (withHostQ s q) →
    (∀ a ∈ ws, ∃ (w : Word) (x : BitVec 16) (b : Byte), a ∈ [.writeCmd w, .writeOplen w, .writeCtrl w, .writeOpb x b]) →
    exec i (withHostQ s q) = .next t →
    exec i (withHostQ s (ws ++ q)) = .next { t with regs := { t.regs with
      oplen := (ws.foldl hostAccess s).regs.oplen, opb := (ws.foldl hostAccess s).regs.opb
      ctrl := (ws.foldl hostAccess s).regs.ctrl } }) ∧
  ∀ (i : Instr) (s : State) (q : List HostAct), HostWaits (withHostQ s q) →
    ∃ t, exec i (withHostQ s (.read .state :: q)) = .next t ∧
      t.env.seen = (.state, stateWord true s.dcc.capState) :: s.env.seen

/-- Where the host does nothing, DCC does nothing: no register, no DCC-local state, no field or object only DCC writes, no
transaction (70_reset_and_hazards.md R331). That no other agent writes the directions, the mailbox objects and the fields is
the model's reading (log 21), and so is that bulk memory changes only while a trigger is pending (log 16); that an unpowered
LUT keeps its bytes is the model's choice (60_exceptions.md R305; log 23, DESIGN CHOICE, unsafe). -/
def Obligations.IdleStepLeavesDcc : Prop :=
  ∀ s t : State, s.env.hostQ = [] → step s = .next t →
    t.cfg = s.cfg ∧ t.regs = s.regs ∧ t.dcc = s.dcc ∧ t.env.bus = s.env.bus ∧ t.env.hostQ = [] ∧
    t.chip.srcctl = s.chip.srcctl ∧ t.chip.dir = s.chip.dir ∧ t.chip.dbgTrig = s.chip.dbgTrig ∧
    t.chip.chsel = s.chip.chsel ∧ t.chip.streamId = s.chip.streamId ∧ t.chip.streamTrig = s.chip.streamTrig ∧
    t.chip.capObj = s.chip.capObj ∧
    t.chip.modelObj = s.chip.modelObj ∧ t.chip.mmodelObj = s.chip.mmodelObj ∧ t.chip.swapEnObj = s.chip.swapEnObj ∧
    (∀ c, (t.chip.act.get c).lutPower = (s.chip.act.get c).lutPower ∧
      (t.chip.act.get c).actEn = (s.chip.act.get c).actEn ∧ (t.chip.act.get c).actPt = (s.chip.act.get c).actPt ∧
      (t.chip.act.get c).ramSel = (s.chip.act.get c).ramSel) ∧
    (s.chip.trigPending = false → t.chip.bulk = s.chip.bulk)

/-- What one move of each other agent does, and nothing else: while a trigger is pending the capture engine sets bit 0 of the
done flag, clears `trig_pending` and draws the detailed status of the captured channel (10_state.md R60), or, for an extended
peak search, stores a sample (43_lut_manager.md R246); the stream processor performs an outstanding request (R61); the
firmware rewrites the update status of a channel an update was requested for (44_swap_mode.md R266). That the captured
channel is the delivered one, what a sample may change, and which requests are outstanding are the model's (logs 16, 17,
18); so is that a sample lands whatever the power bit and RAM-select hold, and that an unpowered LUT keeps its bytes
(60_exceptions.md R305; log 23, unsafe). -/
def Obligations.AgentsMove : Prop :=
  ∀ (s : State) (m : EnvMove) (a : Answer) (rest : List Tick), s.env.hostQ = [] → s.env.script = ⟨[m], a⟩ :: rest →
    ∃ t, step s = .next t ∧ t.cfg = s.cfg ∧ t.regs = s.regs ∧ t.dcc = s.dcc ∧
      t.env = { s.env with script := rest, draws := s.env.draws + 1, streamReqs := t.env.streamReqs } ∧
      ((∀ k, m ≠ .stream k) → t.env.streamReqs = s.env.streamReqs) ∧
      (∀ record, m = .capture record → s.chip.trigPending = true →
        t.chip = { s.chip with doneFlag := t.chip.doneFlag, dstatus := t.chip.dstatus, trigPending := false } ∧
        (∀ k < 8, t.chip.doneFlag.getLsbD k = (k == 0 || s.chip.doneFlag.getLsbD k)) ∧
        ∀ c, t.chip.dstatus.get c = if c = s.env.trigChan then record else s.chip.dstatus.get c) ∧
      (∀ tx2 offset b, m = .peakSample tx2 offset b → s.chip.trigPending = true → s.env.trigExt = true → s.MemoryForm →
        t.chip = { s.chip with bulk := t.chip.bulk } ∧
        ∀ x, t.chip.bulk.read x =
          if x = lutAddress s.cfg (if tx2 then 1 else 0) 27 0 + offset.val then b else s.chip.bulk.read x) ∧
      (∀ record tx2 offset b, m = .capture record ∧ s.chip.trigPending = false ∨
        m = .peakSample tx2 offset b ∧ (s.chip.trigPending = false ∨ s.env.trigExt = false) → t.chip = s.chip) ∧
      (∀ k i en, m = .stream k → s.env.streamReqs[k]? = some (i, en) →
        t.chip = { s.chip with act := s.chip.act.set i { s.chip.act.get i with actClk := en } } ∧
        t.env.streamReqs = s.env.streamReqs.eraseIdx k) ∧
      (∀ k, m = .stream k → s.env.streamReqs[k]? = none → t.chip = s.chip ∧ t.env.streamReqs = s.env.streamReqs) ∧
      ∀ c record, m = .firmware c record →
        t.chip = if s.env.updLive.get c then { s.chip with updStatus := s.chip.updStatus.set c record } else s.chip

/-! ## Reset -/

/-- The values the spec gives for reset (10_state.md R63). -/
def Obligations.ResetValues : Prop :=
  State.reset.dcc.capState = .idle ∧ State.reset.regs.busy = false ∧ State.reset.regs.oplen = 0 ∧
  State.reset.regs.ctrl = 0x00000009 ∧ State.reset.regs.res = 0 ∧ State.reset.regs.rlen = 0 ∧
  State.reset.dcc.sessTrigPin = 0xFF ∧ State.reset.dcc.sessDonePin = 0xFF ∧ State.reset.dcc.sessSwapEn = 0 ∧
  State.reset.chip.trigPending = false ∧ hostRead State.reset .state = 0 ∧
  ∀ p : Pin, State.reset.dcc.tag.get p ≠ .captureDone ∧ State.reset.dcc.tag.get p ≠ .captureTrigger

/-- The DCC reset puts the host registers and the DCC-local state at their reset values and does not touch the chip; a reset
that arrives before the first transaction of `SRCCTL.SET` drops the operation without a result, nothing written (10_state.md
R64, 70_reset_and_hazards.md R330). That `trig_pending`, which the table of reset values lists as 0, stays with the chip at a
run-time reset is the model's reading (log 8). A reset of the chip alone gives every chip-resident element its new value and
leaves the registers, the session cache and the tags as they were (R345; its new values and `trig_pending`: log 31). -/
def Obligations.ResetsRestore : Prop :=
  (∀ (s t : State) (q : List HostAct), s.env.hostQ = .reset :: q → step s = .next t →
    t.dcc.capState = .idle ∧ t.regs.busy = false ∧ t.regs.oplen = 0 ∧ t.regs.ctrl = 0x00000009 ∧ t.regs.res = 0 ∧
    t.regs.rlen = 0 ∧ t.dcc.sessTrigPin = 0xFF ∧ t.dcc.sessDonePin = 0xFF ∧ t.dcc.sessSwapEn = 0 ∧
    (∀ p : Pin, t.dcc.tag.get p ≠ .captureDone ∧ t.dcc.tag.get p ≠ .captureTrigger) ∧
    t.chip = s.chip ∧ t.cfg = s.cfg ∧ t.env.hostQ = q ∧ t.env.bus = s.env.bus) ∧
  (∀ (s : State) (pin : PinCode) (val : BitVec 4) (q : List HostAct), pin.toNat ≤ 18 → s.env.hostQ = .reset :: q →
    ∃ t, exec (.srcctlSet pin val) s = .next t ∧ t.regs.busy = false ∧ t.regs.res = 0 ∧ t.dcc.capState = .idle ∧
      t.chip = (envTurn s).chip ∧ t.env.hostQ = q ∧ t.env.bus = s.env.bus) ∧
  ∀ (s : State) (c : Chip) (q : List HostAct), s.env.hostQ = .chipReset c :: q → State.MemoryForm { s with chip := c } →
    step s = .next { withHostQ s q with chip := { c with trigPending := s.chip.trigPending && c.trigPending } }

/-! ## Invariants -/

/-- The machine right after reset meets the invariant. -/
def Obligations.InvHoldsAtReset : Prop := State.reset.Inv

/-- Every step keeps every memory in canonical form and inside the bytes the spec gives it (10_state.md R20, R36 to R38). -/
def Obligations.StepKeepsMemoryForm : Prop := ∀ s t : State, s.MemoryForm → step s = .next t → t.MemoryForm

/-- Every operation and every step keeps pin ownership: at most one pin carries each capture tag, and none of 16..18 does;
an operation of the GPIO family that no reset drops changes no tag of another feature (40_gpio_arbiter.md R150). -/
def Obligations.OwnershipKept : Prop :=
  (∀ s t : State, s.Ownership → step s = .next t → t.Ownership) ∧
  (∀ (i : Instr) (s t : State), s.Ownership → exec i s = .next t → t.Ownership) ∧
  ∀ (pin : PinCode) (val : BitVec 4) (s t : State), .reset ∉ s.env.hostQ →
    ∀ i : Instr, i ∈ [.srcctlSet pin val, .srcctlGet pin, .donepinSetup pin, .donepinGet, .trigpinSetup pin, .trigpinGet] →
      exec i s = .next t → ∀ (p : Pin) (k : Nat), t.dcc.tag.get p = .other k ↔ s.dcc.tag.get p = .other k

/-- Every step leaves no operation in flight and a result word of the form the spec gives: reserved bits 0, a class 0..8,
`RLEN` the number of valid bytes of `RDB` (10_state.md R20, R25, R26, 60_exceptions.md R290). -/
def Obligations.StepKeepsResultForm : Prop :=
  ∀ s t : State, s.Quiescent → s.ResultForm → step s = .next t → t.Quiescent ∧ t.ResultForm

/-! ## The capture state machine -/

/-- The complete next-state function of `cap_state` (42_capture_fsm.md R203, which the spec derives from R200 to R202): for
every operation, for an illegal word, and for the DCC reset, which also ends an operation, or an illegal word's exit, in
flight (10_state.md R64). -/
def Obligations.CapStateNext : Prop :=
  (∀ (i : Instr) (s t : State), exec i s = .next t →
    t.dcc.capState = nextCapState s.dcc.capState i t.regs.res ∧
      (resClass t.regs.res = 0 ∨ resClass t.regs.res = 4 ∨ resClass t.regs.res = 5 ∨ resClass t.regs.res = 6 →
        admitted i s.dcc.capState = true) ∨
    .reset ∈ s.env.hostQ ∧ t.dcc.capState = .idle ∧ t.regs.res = 0) ∧
  (∀ (s t : State) (w : Word) (q : List HostAct), s.env.hostQ = .writeCmd w :: q → decode w = none → step s = .next t →
    t.dcc.capState = s.dcc.capState ∨ .reset ∈ q ∧ t.dcc.capState = .idle ∧ t.regs.res = 0) ∧
  ∀ (s t : State) (q : List HostAct), s.env.hostQ = .reset :: q → step s = .next t → t.dcc.capState = .idle

/-- The sequence gate: an operation refused in this `cap_state` makes no transaction, ends with class `SeqRefused` unless a
reset drops it, and changes nothing else; an operation that runs never ends with that class (42_capture_fsm.md R201). That the
run is marked as one that carries no claim about the chip (`claimless`) is the model's (log 13). -/
def Obligations.SequenceGate : Prop :=
  (∀ (i : Instr) (s : State), admitted i s.dcc.capState = false → HostWaits s →
    ∃ t, exec i s = .next t ∧ EndedAtOnce s t 7 ∧ t.env.claimless = true) ∧
  (∀ (i : Instr) (s : State), admitted i s.dcc.capState = false →
    ∃ t, exec i s = .next t ∧ t.env.bus = s.env.bus ∧ (t.regs.res = 7 ∨ .reset ∈ s.env.hostQ ∧ t.regs.res = 0)) ∧
  ∀ (i : Instr) (s t : State), admitted i s.dcc.capState = true → exec i s = .next t → resClass t.regs.res ≠ 7

/-! ## All operations -/

/-- Validation comes before mutation: an operation that ends with `InvalidParameter`, `NullInput` or `SeqRefused` has changed
no DCC-local state and made no transaction but successful reads (60_exceptions.md R292, 30_encoding.md R117). -/
def Obligations.ValidationBeforeMutation : Prop :=
  ∀ (i : Instr) (s t : State), .reset ∉ s.env.hostQ → exec i s = .next t →
    resClass t.regs.res = 1 ∨ resClass t.regs.res = 2 ∨ resClass t.regs.res = 7 →
    DccSame s t ∧ ∃ new, t.env.bus = new ++ s.env.bus ∧ ∀ e ∈ new, isReadTxn e.txn = true ∧ e.ok = true

/-- No operation reaches a space that is not listed for its family (20_memory.md R71; the swap test's read of the swap flag
stands with the LUT family, log 30). -/
def Obligations.FamilySpaces : Prop :=
  ∀ (i : Instr) (s t : State), exec i s = .next t →
    ∃ new, t.env.bus = new ++ s.env.bus ∧ ∀ e ∈ new, reaches s.cfg i e.txn

/-- What each operation leaves of the parameters, the DCC-local state and the host registers while the host waits: the
session cache is written only by the pin setups (`CAPCFG.SET` runs both), `SWAP.EN` and `SWAP.GETEN` (10_state.md R29), the
tags only by the pin setups, the operand registers by none. -/
def Obligations.SessionWriters : Prop :=
  ∀ (i : Instr) (s t : State), HostWaits s → exec i s = .next t →
    t.cfg = s.cfg ∧ t.regs.cmd = s.regs.cmd ∧ t.regs.oplen = s.regs.oplen ∧ t.regs.opb = s.regs.opb ∧
    t.regs.ctrl = s.regs.ctrl ∧
    (i ≠ .capcfgSet → (∀ pin, i ≠ .donepinSetup pin) → t.dcc.sessDonePin = s.dcc.sessDonePin) ∧
    (i ≠ .capcfgSet → (∀ pin, i ≠ .trigpinSetup pin) → t.dcc.sessTrigPin = s.dcc.sessTrigPin) ∧
    (i ≠ .swapGeten → (∀ en, i ≠ .swapEn en) → t.dcc.sessSwapEn = s.dcc.sessSwapEn) ∧
    (i ≠ .capcfgSet → (∀ pin, i ≠ .donepinSetup pin) → (∀ pin, i ≠ .trigpinSetup pin) → t.dcc.tag = s.dcc.tag)

/-- A channel mask that is not one of 1, 2, 4, 8 ends the operation at once with `InvalidParameter(CHANNEL)`
(43_lut_manager.md R230), where no earlier check of the operation fails; that an absent operand of `LUT.WRITE` is tested
before the channel is the model's reading of 60_exceptions.md R298 (log 14). -/
def Obligations.ChannelMustBeOneHot : Prop :=
  ∀ (ch : ChMask) (lut : BitVec 5) (sel : BitVec 2) (en : BitVec 1) (s : State), ch ∉ [1, 2, 4, 8] → HostWaits s →
    (∀ i : Instr, i ∈ [.modelGet ch, .mmodelGet ch sel, .lutAddr ch lut sel, .lutRead ch lut sel, .actclkSet ch en,
        .mmodelUpdate ch sel, .mmodelStatus ch] →
      ∃ t, exec i s = .next t ∧ EndedAtOnce s t 0x201) ∧
    (s.regs.oplen ≠ 0 → ∃ t, exec (.lutWrite ch lut sel) s = .next t ∧ EndedAtOnce s t 0x201) ∧
    (s.dcc.capState ≠ .error → ∃ t, exec (.capStatus ch) s = .next t ∧ EndedAtOnce s t 0x201) ∧
    (47 ≤ s.regs.oplen.toNat → ∀ i : Instr, i ∈ [.modelCfg ch, .mmodelCfg ch] →
      ∃ t, exec i s = .next t ∧ EndedAtOnce s t 0x201) ∧
    (124 ≤ s.regs.oplen.toNat → s.regs.oplen.toNat ≤ 65536 →
      ∃ t, exec (.swapWrite ch sel) s = .next t ∧ EndedAtOnce s t 0x201)

/-! ## GPIO arbiter -/

/-- `SRCCTL.SET`: a pin code above 18 ends it at once with `InvalidParameter(PIN)`; else it writes the nibble of the pin's
group and every other nibble stays; a transport failure ends it with the transport's class, and no other nibble changes
(40_gpio_arbiter.md R141). -/
def Obligations.SrcctlSetWrites : Prop :=
  ∀ (pin : PinCode) (val : BitVec 4) (s : State),
    (18 < pin.toNat → HostWaits s → ∃ t, exec (.srcctlSet pin val) s = .next t ∧ EndedAtOnce s t 0x101) ∧
    (pin.toNat ≤ 18 → HostWaits s → Served (tickAt s.env 1) →
      ∃ t, exec (.srcctlSet pin val) s = .next t ∧ EndedOk s t 0 [] ∧ DccSame s t ∧
        t.chip = { (envTurns 3 s).chip with srcctl := t.chip.srcctl } ∧
        (∀ g : Fin 5, t.chip.srcctl.get g = if g.val = pin.toNat / 4 then val else s.chip.srcctl.get g) ∧
        ∃ g : Fin 5, g.val = pin.toNat / 4 ∧ Sent s t [.fieldWrite (.srcctl g) val.toNat]) ∧
    (pin.toNat ≤ 18 → HostWaits s → ¬ Served (tickAt s.env 1) →
      ∃ t, exec (.srcctlSet pin val) s = .next t ∧ (Ended s t 5 [] ∨ Ended s t 6 []) ∧ DccSame s t ∧
        t.chip = { (envTurns 3 s).chip with srcctl := t.chip.srcctl } ∧
        ∀ g : Fin 5, g.val ≠ pin.toNat / 4 → t.chip.srcctl.get g = s.chip.srcctl.get g)

/-- A failed `SRCCTL.SET` reports the transport's class, `HardwareResetRequired` or `Timeout`, and leaves every bit of the
nibble at its old or its new value; no other nibble and nothing of the DCC-local state changes (10_state.md R62,
93_implementation_defined.md U9). The bitwise choice, and `Timeout` for a device error, which a field write cannot report, are
the model's (log 9). -/
def Obligations.SrcctlSetFails : Prop :=
  ∀ (pin : PinCode) (val : BitVec 4) (s : State), pin.toNat ≤ 18 → HostWaits s → ¬ Served (tickAt s.env 1) →
    ∃ t, exec (.srcctlSet pin val) s = .next t ∧ Ended s t (if (tickAt s.env 1).answer = .hwReset then 6 else 5) [] ∧
      DccSame s t ∧ t.chip = { (envTurns 3 s).chip with srcctl := t.chip.srcctl } ∧
      ∀ (g : Fin 5) (k : Nat), (t.chip.srcctl.get g).getLsbD k = (s.chip.srcctl.get g).getLsbD k ∨
        g.val = pin.toNat / 4 ∧ (t.chip.srcctl.get g).getLsbD k = val.getLsbD k

/-- `SRCCTL.GET`: a pin code above 18 ends it at once with `InvalidParameter(PIN)`; else it returns the nibble of the pin's
group; a transport failure ends it with the transport's class; it changes nothing (R142). -/
def Obligations.SrcctlGetReads : Prop :=
  ∀ (pin : PinCode) (s : State),
    (18 < pin.toNat → HostWaits s → ∃ t, exec (.srcctlGet pin) s = .next t ∧ EndedAtOnce s t 0x101) ∧
    (pin.toNat ≤ 18 → HostWaits s → Served (nextTick s.env) →
      ∃ (t : State) (g : Fin 5), g.val = pin.toNat / 4 ∧ exec (.srcctlGet pin) s = .next t ∧
        EndedOk s t ((s.chip.srcctl.get g).setWidth 8) [] ∧ DccSame s t ∧ t.chip = (envTurns 2 s).chip ∧
        Sent s t [.fieldRead (.srcctl g)]) ∧
    (pin.toNat ≤ 18 → HostWaits s → ¬ Served (nextTick s.env) →
      ∃ (t : State) (res : Word), exec (.srcctlGet pin) s = .next t ∧ Ended s t res [] ∧ (res = 5 ∨ res = 6) ∧
        ((nextTick s.env).answer = .timeout → res = 5) ∧ ((nextTick s.env).answer = .hwReset → res = 6) ∧ DccSame s t ∧
        t.chip = (envTurns 2 s).chip)

/-- `DONEPIN.GET` and `TRIGPIN.GET` return the lowest of the pins 0..15 that carries the tag, 0xFF if none does; they make no
transaction and change nothing (R143, R144, R145). -/
def Obligations.PinQueries : Prop :=
  ∀ s : State, HostWaits s → ∀ x ∈ [(Instr.donepinGet, Tag.captureDone), (Instr.trigpinGet, Tag.captureTrigger)],
    ∃ (t : State) (code : PinCode), exec x.1 s = .next t ∧ EndedOk s t code [] ∧ DccSame s t ∧ t.chip = (envTurn s).chip ∧
      Sent s t [] ∧
      ((∃ p : Pin, p.val ≤ 15 ∧ s.dcc.tag.get p = x.2 ∧ (∀ q : Pin, q < p → s.dcc.tag.get q ≠ x.2) ∧ code.toNat = p.val) ∨
        (∀ p : Pin, p.val ≤ 15 → s.dcc.tag.get p ≠ x.2) ∧ code = 0xFF)

/-- `DONEPIN.SETUP` with a legal pin that is free or held already: the held pin is released (an input, untagged), the
requested pin is acquired (tagged, an output, its group's nibble the memory-element value), the sentinel resets the nibble
of the released pin's group, the session cache takes the pin. With no pin held it makes three transactions, in the rule's
order (R146). -/
def Obligations.DonepinSetupMoves : Prop :=
  (∀ (pin : PinCode) (s : State), pin.toNat ≤ 15 ∨ pin = 0xFF → HostWaits s → Quiet 9 s →
    nibbleAccepted s.cfg s.chip.srcctl pin → mayAcquire s.dcc.tag .captureDone pin →
    ∃ t, exec (.donepinSetup pin) s = .next t ∧ EndedOk s t 0 [] ∧
      t.dcc = { s.dcc with
        tag := movedTags s.dcc.tag .captureDone pin, sessDonePin := pin, flight := t.dcc.flight } ∧
      t.chip = { s.chip with
        dir := movedDirs s.dcc.tag .captureDone .output pin s.chip.dir
        srcctl := movedNibbles s.cfg s.dcc.tag pin s.chip.srcctl }) ∧
  ∀ (p : Pin) (s : State), p.val ≤ 15 → HostWaits s → Quiet 9 s → nibbleAccepted s.cfg s.chip.srcctl (BitVec.ofNat 8 p.val) →
    s.dcc.tag.get p = .none → (∀ q : Pin, q.val ≤ 15 → s.dcc.tag.get q ≠ .captureDone) →
    ∃ (t : State) (g : Fin 5), g.val = p.val / 4 ∧ exec (.donepinSetup (BitVec.ofNat 8 p.val)) s = .next t ∧
      EndedOk s t 0 [] ∧ t.dcc.tag.get p = .captureDone ∧ t.chip.dir.get p = .output ∧
      t.chip.srcctl.get g = s.cfg.srcctlMemElem ∧
      Sent s t [.fieldRead (.srcctl g), .gpioDirSet p .output, .fieldWrite (.srcctl g) s.cfg.srcctlMemElem.toNat]

/-- A setup of a pin that another feature owns: `ResourceConflict`, the tags and the session cache as before. `DONEPIN.SETUP`
leaves the held pin an output again, or, with no pin held, everything as it was (R146 step 5a, R148); a nibble of another
source is a `ResourceConflict` before any mutation (step 2b). `TRIGPIN.SETUP` leaves the held pin an input, or, with none
held, everything as it was (R147 step 4a, whose sequence the spec infers: log 22). -/
def Obligations.PinConflictRollsBack : Prop :=
  (∀ (pin : PinCode) (s : State), pin.toNat ≤ 15 → HostWaits s → Quiet 6 s → nibbleAccepted s.cfg s.chip.srcctl pin →
    s.dcc.tag.get (pinOfCode pin) ≠ .none →
    (∀ q : Pin, scanTag s.dcc.tag .captureDone = some q → q.val ≠ pin.toNat →
      ∃ t, exec (.donepinSetup pin) s = .next t ∧ Ended s t 3 [] ∧ DccSame s t ∧
        t.chip = { s.chip with dir := s.chip.dir.set q .output }) ∧
    (scanTag s.dcc.tag .captureDone = none →
      ∃ t, exec (.donepinSetup pin) s = .next t ∧ Ended s t 3 [] ∧ DccSame s t ∧ t.chip = s.chip)) ∧
  (∀ (pin : PinCode) (s : State), pin.toNat ≤ 15 → HostWaits s → Served (nextTick s.env) →
    ¬ nibbleAccepted s.cfg s.chip.srcctl pin →
    ∃ t, exec (.donepinSetup pin) s = .next t ∧ Ended s t 3 [] ∧ DccSame s t ∧ t.chip = (envTurns 2 s).chip) ∧
  ∀ (pin : PinCode) (s : State), pin.toNat ≤ 15 → HostWaits s → Quiet 4 s → s.dcc.tag.get (pinOfCode pin) ≠ .none →
    (∀ q : Pin, scanTag s.dcc.tag .captureTrigger = some q → q.val ≠ pin.toNat →
      ∃ t, exec (.trigpinSetup pin) s = .next t ∧ Ended s t 3 [] ∧ DccSame s t ∧
        t.chip = { s.chip with dir := s.chip.dir.set q .input }) ∧
    (scanTag s.dcc.tag .captureTrigger = none →
      ∃ t, exec (.trigpinSetup pin) s = .next t ∧ Ended s t 3 [] ∧ DccSame s t ∧ t.chip = s.chip)

/-- `TRIGPIN.SETUP` with a legal pin that is free or held already: the held pin is released, the requested pin is tagged and
an input, no nibble changes, the session cache takes the pin (R147, whose sequence the spec infers: log 22). -/
def Obligations.TrigpinSetupMoves : Prop :=
  ∀ (pin : PinCode) (s : State), pin.toNat ≤ 15 ∨ pin = 0xFF → HostWaits s → Quiet 6 s →
    mayAcquire s.dcc.tag .captureTrigger pin →
    ∃ t, exec (.trigpinSetup pin) s = .next t ∧ EndedOk s t 0 [] ∧
      t.dcc = { s.dcc with
        tag := movedTags s.dcc.tag .captureTrigger pin, sessTrigPin := pin, flight := t.dcc.flight } ∧
      t.chip = { s.chip with dir := movedDirs s.dcc.tag .captureTrigger .input pin s.chip.dir }

/-- A pin code outside its legal set ends the operation at once with `InvalidParameter(PIN)`: above 18 for source control,
not in 0..15 and not the sentinel for a setup (R140, R141, R142, R146, R147). -/
def Obligations.PinCodesChecked : Prop :=
  (∀ (pin : PinCode) (val : BitVec 4) (s : State), 18 < pin.toNat → HostWaits s →
    ∀ i : Instr, i ∈ [.srcctlSet pin val, .srcctlGet pin] →
    ∃ t, exec i s = .next t ∧ EndedAtOnce s t 0x101) ∧
  ∀ (pin : PinCode) (s : State), 15 < pin.toNat → pin ≠ 0xFF → HostWaits s →
    ∀ i : Instr, i ∈ [.donepinSetup pin, .trigpinSetup pin] →
    ∃ t, exec i s = .next t ∧ EndedAtOnce s t 0x101

/-- A pin setup that fails, at whatever step and whatever the other agents and the transport do, leaves every tag and the
session cache as they were (R148, R150). -/
def Obligations.FailedSetupRestoresTags : Prop :=
  ∀ (pin : PinCode) (s t : State), ∀ i : Instr, i ∈ [.donepinSetup pin, .trigpinSetup pin] → exec i s = .next t →
    t.regs.res ≠ 0 → DccSame s t

/-! ## Capture configuration -/

/-- `CAPCFG.SET` with a legal record whose pins may be acquired: both setups done, the 58 bytes of `CAPOBJ` the serialized
record, `cap_state` Configured (41_capture_config.md R181). The trigger pin's part, its direction among it, is the spec's
inference (40_gpio_arbiter.md R147; log 22). -/
def Obligations.CapcfgSetConfigures : Prop :=
  ∀ (s : State) (c : CapConfig), s.dcc.capState = .idle ∨ s.dcc.capState = .configured → 58 ≤ s.regs.oplen.toNat →
    hostConfig (s.regs.opb.readBytes 0 58) = .ok c → (s.regs.ctrl.getLsbD 0 = true → rangeConfig c = .ok ()) →
    c.triggerPin.toNat ≤ 15 ∨ c.triggerPin = 0xFF → c.donePin.toNat ≤ 15 ∨ c.donePin = 0xFF →
    c.triggerPin ≠ c.donePin ∨ c.triggerPin = 0xFF → HostWaits s → Quiet 16 s → s.MemoryForm →
    mayAcquire s.dcc.tag .captureTrigger c.triggerPin →
    mayAcquire (movedTags s.dcc.tag .captureTrigger c.triggerPin) .captureDone c.donePin →
    nibbleAccepted s.cfg s.chip.srcctl c.donePin →
    ∃ t, exec .capcfgSet s = .next t ∧ EndedOk s t 0 [] ∧
      t.dcc = { s.dcc with
        capState := .configured
        tag := movedTags (movedTags s.dcc.tag .captureTrigger c.triggerPin) .captureDone c.donePin
        sessTrigPin := c.triggerPin, sessDonePin := c.donePin, flight := t.dcc.flight } ∧
      t.chip = { s.chip with
        dir := movedDirs (movedTags s.dcc.tag .captureTrigger c.triggerPin) .captureDone .output c.donePin
          (movedDirs s.dcc.tag .captureTrigger .input c.triggerPin s.chip.dir)
        srcctl := movedNibbles s.cfg (movedTags s.dcc.tag .captureTrigger c.triggerPin) c.donePin s.chip.srcctl
        capObj := t.chip.capObj } ∧
      ∀ a, t.chip.capObj.read a = if a < 58 then byteAt (serConfig s.cfg c) a else s.chip.capObj.read a

/-- `CAPCFG.SET` with a legal record is not all-or-nothing (R181, 70_reset_and_hazards.md R354). A conflict at the trigger pin
leaves the tags, the session cache and `cap_state`; a conflict at the done pin, owned or with a nibble of another source,
leaves the trigger pin set up and `cap_state` as it was; neither writes `CAPOBJ`. A transport failure, whatever the other
agents and the transport do, enters Error and leaves the parts before it done: none, the trigger pin, or both pins, the
last exactly where the write of `CAPOBJ` failed. The trigger pin's part is the spec's inference (log 22). -/
def Obligations.CapcfgSetStopsPartway : Prop :=
  ∀ (s : State) (c : CapConfig) (trigTags : Vector Tag 19), s.dcc.capState = .idle ∨ s.dcc.capState = .configured →
    58 ≤ s.regs.oplen.toNat → hostConfig (s.regs.opb.readBytes 0 58) = .ok c →
    (s.regs.ctrl.getLsbD 0 = true → rangeConfig c = .ok ()) → c.triggerPin.toNat ≤ 15 ∨ c.triggerPin = 0xFF →
    c.donePin.toNat ≤ 15 ∨ c.donePin = 0xFF → c.triggerPin ≠ c.donePin ∨ c.triggerPin = 0xFF → HostWaits s →
    trigTags = movedTags s.dcc.tag .captureTrigger c.triggerPin →
    (Quiet 16 s → ¬ mayAcquire s.dcc.tag .captureTrigger c.triggerPin →
      ∃ t, exec .capcfgSet s = .next t ∧ Ended s t 3 [] ∧ DccSame s t ∧ t.chip = { s.chip with dir := t.chip.dir }) ∧
    (Quiet 16 s → mayAcquire s.dcc.tag .captureTrigger c.triggerPin →
      ¬ mayAcquire trigTags .captureDone c.donePin ∨ ¬ nibbleAccepted s.cfg s.chip.srcctl c.donePin →
      ∃ t, exec .capcfgSet s = .next t ∧ Ended s t 3 [] ∧
        t.dcc = { s.dcc with tag := trigTags, sessTrigPin := c.triggerPin, flight := t.dcc.flight } ∧
        t.chip = { s.chip with dir := t.chip.dir }) ∧
    ∀ t, exec .capcfgSet s = .next t → resClass t.regs.res = 4 ∨ resClass t.regs.res = 5 ∨ resClass t.regs.res = 6 →
      t.chip.capObj = s.chip.capObj ∧
        (t.dcc = { s.dcc with capState := .error, flight := t.dcc.flight } ∨
          t.dcc = { s.dcc with
            capState := .error, tag := trigTags, sessTrigPin := c.triggerPin, flight := t.dcc.flight }) ∨
      t.env.bus.head? = some ⟨.cfgWrite s.cfg.objCapture 0 (serConfig s.cfg c), false⟩ ∧
        t.dcc = { s.dcc with
          capState := .error, tag := movedTags trigTags .captureDone c.donePin
          sessTrigPin := c.triggerPin, sessDonePin := c.donePin, flight := t.dcc.flight }

/-- `CAPCFG.GET` is refused in Error; else it returns the host form of the stored record with the pins the tag table names,
or `InvalidParameter` with the field code where a stored code decodes to nothing; it changes nothing, but a transport
failure enters Error with the class and fields of 60_exceptions.md R293 and R294 (R182, R179). Which code is reported where
two decode to nothing is the model's (log 15). -/
def Obligations.CapcfgGetReturns : Prop :=
  ∀ s : State,
    (s.dcc.capState = .error → HostWaits s → ∃ t, exec .capcfgGet s = .next t ∧ EndedAtOnce s t 7) ∧
    (s.dcc.capState ≠ .error → HostWaits s → Served (nextTick s.env) →
      ∃ t, exec .capcfgGet s = .next t ∧ DccSame s t ∧ t.chip = (envTurns 2 s).chip ∧
        Sent s t [.cfgRead s.cfg.objCapture 0 58] ∧
        match parseConfig s.cfg (codeOfPin (scanTag s.dcc.tag .captureTrigger))
          (codeOfPin (scanTag s.dcc.tag .captureDone)) (s.chip.capObj.readBytes 0 58) with
        | .ok c => EndedOk s t 0 (configHost c)
        | .error code => Ended s t (1 ||| (paramCodeNumber code).setWidth 32 <<< 8) []) ∧
    (s.dcc.capState ≠ .error → HostWaits s → ¬ Served (nextTick s.env) →
      ∃ t, exec .capcfgGet s = .next t ∧ EndedFailed s t (nextTick s.env).answer ∧
        t.dcc = { s.dcc with capState := .error, flight := t.dcc.flight } ∧ t.chip = (envTurns 2 s).chip)

/-- `CAPCTRL.SET` is refused outside Idle and Configured; a short operand is `NullInput`, an illegal field
`InvalidParameter` with its code; a legal record's 22 serialized bytes are written at offset 36 of `CAPOBJ`, no other byte
changes and `cap_state` stays (R183). -/
def Obligations.CapctrlSetWrites : Prop :=
  (∀ s : State, s.dcc.capState ≠ .idle → s.dcc.capState ≠ .configured → HostWaits s →
    ∃ t, exec .capctrlSet s = .next t ∧ EndedAtOnce s t 7) ∧
  ∀ s : State, s.dcc.capState = .idle ∨ s.dcc.capState = .configured → HostWaits s →
    (s.regs.oplen.toNat < 24 → ∃ t, exec .capctrlSet s = .next t ∧ EndedAtOnce s t 2) ∧
    (∀ code : ParamCode, 24 ≤ s.regs.oplen.toNat →
      hostCtrl (s.regs.opb.readBytes 0 24) = .error code ∨
        (∃ c, hostCtrl (s.regs.opb.readBytes 0 24) = .ok c ∧ 8191 < c.alignDelay.toNat) ∧
          s.regs.ctrl.getLsbD 0 = true ∧ code = .alignDelay →
      ∃ t, exec .capctrlSet s = .next t ∧ EndedAtOnce s t (1 ||| (paramCodeNumber code).setWidth 32 <<< 8)) ∧
    ∀ c : CapCtrl, 24 ≤ s.regs.oplen.toNat → hostCtrl (s.regs.opb.readBytes 0 24) = .ok c →
      (s.regs.ctrl.getLsbD 0 = true → c.alignDelay.toNat ≤ 8191) →
      Served (nextTick s.env) → s.MemoryForm →
      ∃ t, exec .capctrlSet s = .next t ∧ EndedOk s t 0 [] ∧ DccSame s t ∧
        t.chip = { (envTurns 2 s).chip with capObj := t.chip.capObj } ∧
        (∀ a, t.chip.capObj.read a =
          if 36 ≤ a ∧ a < 58 then byteAt (serCtrl s.cfg c) (a - 36) else s.chip.capObj.read a) ∧
        Sent s t [.cfgWrite s.cfg.objCapture 36 (serCtrl s.cfg c)]

/-- `CAPLVL.SET` and `PWRTH.SET` are refused outside Idle and Configured; a short operand is `NullInput`, band 3
`InvalidParameter(BAND)`, an illegal field, or with `RANGE_CHECK` one out of range, `InvalidParameter` with its code; a legal
level record's 4 serialized bytes are written at offset 28 of `CAPOBJ`, a legal threshold record's 8 bytes at the band's
offset, and no other byte changes (R185, R187). -/
def Obligations.LevelThresholdSets : Prop :=
  (∀ (s : State) (sel : BitVec 2), s.dcc.capState ≠ .idle → s.dcc.capState ≠ .configured → HostWaits s →
    ∀ i : Instr, i ∈ [.caplvlSet, .pwrthSet sel] → ∃ t, exec i s = .next t ∧ EndedAtOnce s t 7) ∧
  (∀ s : State, s.dcc.capState = .idle ∨ s.dcc.capState = .configured → HostWaits s →
    (s.regs.oplen.toNat < 4 → ∃ t, exec .caplvlSet s = .next t ∧ EndedAtOnce s t 2) ∧
    (4 ≤ s.regs.oplen.toNat → 2 < (s.regs.opb.read 2).toNat →
      ∃ t, exec .caplvlSet s = .next t ∧ EndedAtOnce s t 0x701) ∧
    (4 ≤ s.regs.oplen.toNat → (s.regs.opb.read 2).toNat ≤ 2 → 3 < (s.regs.opb.read 3).toNat →
      s.regs.ctrl.getLsbD 0 = true → ∃ t, exec .caplvlSet s = .next t ∧ EndedAtOnce s t 0x601) ∧
    ∀ v : CapLevel, 4 ≤ s.regs.oplen.toNat → hostLevel (s.regs.opb.readBytes 0 4) = .ok v →
      (s.regs.ctrl.getLsbD 0 = true → v.bandSel.toNat ≤ 3) → Served (nextTick s.env) → s.MemoryForm →
      ∃ t, exec .caplvlSet s = .next t ∧ EndedOk s t 0 [] ∧ DccSame s t ∧
        t.chip = { (envTurns 2 s).chip with capObj := t.chip.capObj } ∧
        (∀ a, t.chip.capObj.read a =
          if 28 ≤ a ∧ a < 32 then byteAt (serLevel s.cfg v) (a - 28) else s.chip.capObj.read a) ∧
        Sent s t [.cfgWrite s.cfg.objCapture 28 (serLevel s.cfg v)]) ∧
  ∀ (s : State) (sel : BitVec 2), s.dcc.capState = .idle ∨ s.dcc.capState = .configured → HostWaits s →
    (s.regs.oplen.toNat < 8 → ∃ t, exec (.pwrthSet sel) s = .next t ∧ EndedAtOnce s t 2) ∧
    (8 ≤ s.regs.oplen.toNat → sel = 3 → ∃ t, exec (.pwrthSet sel) s = .next t ∧ EndedAtOnce s t 0xC01) ∧
    (8 ≤ s.regs.oplen.toNat → sel.toNat ≤ 2 → 3 < (s.regs.opb.read 2).toNat →
      ∃ t, exec (.pwrthSet sel) s = .next t ∧ EndedAtOnce s t 0x801) ∧
    (∀ r : PwrThresh, 8 ≤ s.regs.oplen.toNat → sel.toNat ≤ 2 → hostThresh (s.regs.opb.readBytes 0 8) = .ok r →
      s.regs.ctrl.getLsbD 0 = true → 4096 < r.lowToHighPulseWidth.toNat ∨ 4096 < r.highToLowPulseWidth.toNat →
      ∃ t, exec (.pwrthSet sel) s = .next t ∧ EndedAtOnce s t 0x901) ∧
    ∀ r : PwrThresh, 8 ≤ s.regs.oplen.toNat → sel.toNat ≤ 2 → hostThresh (s.regs.opb.readBytes 0 8) = .ok r →
      (s.regs.ctrl.getLsbD 0 = true → r.lowToHighPulseWidth.toNat ≤ 4096 ∧ r.highToLowPulseWidth.toNat ≤ 4096) →
      Served (nextTick s.env) → s.MemoryForm →
      ∃ t, exec (.pwrthSet sel) s = .next t ∧ EndedOk s t 0 [] ∧ DccSame s t ∧
        t.chip = { (envTurns 2 s).chip with capObj := t.chip.capObj } ∧
        (∀ a, t.chip.capObj.read a =
          if 4 + 8 * sel.toNat ≤ a ∧ a < 12 + 8 * sel.toNat then byteAt (serThresh s.cfg r) (a - (4 + 8 * sel.toNat))
          else s.chip.capObj.read a) ∧
        Sent s t [.cfgWrite s.cfg.objCapture (4 + 8 * sel.toNat) (serThresh s.cfg r)]

/-- `CAPCTRL.GET`, `CAPLVL.GET` and `PWRTH.GET` are refused in Error; else they return the host form of the stored
sub-record, or `InvalidParameter` with the field code where a stored code decodes to nothing; band 3 is
`InvalidParameter(BAND)`; they change nothing (R184, R186, R188, R179). Which code is reported where two decode to nothing is
the model's (log 15). -/
def Obligations.SubrecordGets : Prop :=
  (∀ (s : State) (sel : BitVec 2), s.dcc.capState = .error → HostWaits s →
    ∀ i : Instr, i ∈ [.capctrlGet, .caplvlGet, .pwrthGet sel] →
    ∃ t, exec i s = .next t ∧ EndedAtOnce s t 7) ∧
  (∀ s : State, s.dcc.capState ≠ .error → HostWaits s → ∃ t, exec (.pwrthGet 3) s = .next t ∧ EndedAtOnce s t 0xC01) ∧
  ∀ s : State, s.dcc.capState ≠ .error → HostWaits s → Served (nextTick s.env) →
    (∃ t, exec .capctrlGet s = .next t ∧ DccSame s t ∧ t.chip = (envTurns 2 s).chip ∧
      Sent s t [.cfgRead s.cfg.objCapture 36 22] ∧
      match parseCtrl s.cfg (s.chip.capObj.readBytes 36 22) with
      | .ok c => EndedOk s t 0 (ctrlHost c)
      | .error code => Ended s t (1 ||| (paramCodeNumber code).setWidth 32 <<< 8) []) ∧
    (∃ t, exec .caplvlGet s = .next t ∧ DccSame s t ∧ t.chip = (envTurns 2 s).chip ∧
      Sent s t [.cfgRead s.cfg.objCapture 28 4] ∧
      match parseLevel s.cfg (s.chip.capObj.readBytes 28 4) with
      | .ok v => EndedOk s t 0 (levelHost v)
      | .error code => Ended s t (1 ||| (paramCodeNumber code).setWidth 32 <<< 8) []) ∧
    ∀ sel : BitVec 2, sel.toNat ≤ 2 →
      ∃ t, exec (.pwrthGet sel) s = .next t ∧ DccSame s t ∧ t.chip = (envTurns 2 s).chip ∧
        Sent s t [.cfgRead s.cfg.objCapture (4 + 8 * sel.toNat) 8] ∧
        match parseThresh s.cfg (s.chip.capObj.readBytes (4 + 8 * sel.toNat) 8) with
        | .ok r => EndedOk s t 0 (threshHost r)
        | .error code => Ended s t (1 ||| (paramCodeNumber code).setWidth 32 <<< 8) []

/-- Deserializing a serialized record gives it back, for every record and every legal choice of the code maps; for the
capture-config record with the pins the arbiter names. The converse does not hold: a reserved bit of byte 49 is ignored
(R180, which the spec derives from R174 to R179). A stored code outside the image of its map raises its field code, and
every other stored record decodes (R179); that the channel is tested before the size is the model's (log 15). The host forms
lose nothing: validating the host form of a record gives the record back, and every form has its fixed length
(30_encoding.md R119, R120; R174, R176, R177). -/
def Obligations.RecordRoundTrips : Prop :=
  (∀ cfg : Config, cfg.Valid →
    (∀ c : CapCtrl, parseCtrl cfg (serCtrl cfg c) = .ok c) ∧ (∀ v : CapLevel, parseLevel cfg (serLevel cfg v) = .ok v) ∧
    (∀ r : PwrThresh, parseThresh cfg (serThresh cfg r) = .ok r) ∧
    (∀ (c : CapConfig) (t d : PinCode),
      parseConfig cfg t d (serConfig cfg c) = .ok { c with triggerPin := t, donePin := d }) ∧
    ∀ c : CapCtrl, parseCtrl cfg ((serCtrl cfg c).modify 13 (· ||| 0x10)) = .ok c) ∧
  (∀ (cfg : Config) (k : List Byte),
    (3 < (byteAt k 12).toNat → parseCtrl cfg k = .error .channel) ∧
    ((byteAt k 12).toNat ≤ 3 →
      (byteAt k 14 ∉ cfg.capSizeCode.toList → parseCtrl cfg k = .error .capSize) ∧
      (byteAt k 14 ∈ cfg.capSizeCode.toList → ∃ c, parseCtrl cfg k = .ok c ∧
        c.captureType = parseType (byteAt k 13) (byteAt k 4))) ∧
    (byteAt k 2 ∉ cfg.bandDirCode.toList → parseLevel cfg k = .error .bandDir) ∧
    (byteAt k 2 ∈ cfg.bandDirCode.toList → ∃ v, parseLevel cfg k = .ok v) ∧
    (byteAt k 2 ∉ cfg.pwResCode.toList → parseThresh cfg k = .error .pwRes) ∧
    (byteAt k 2 ∈ cfg.pwResCode.toList → ∃ r, parseThresh cfg k = .ok r)) ∧
  (∀ c : CapCtrl, hostCtrl (ctrlHost c) = .ok c) ∧ (∀ v : CapLevel, hostLevel (levelHost v) = .ok v) ∧
  (∀ r : PwrThresh, hostThresh (threshHost r) = .ok r) ∧ (∀ c : CapConfig, hostConfig (configHost c) = .ok c) ∧
  ∀ (cfg : Config) (c : CapConfig), (serConfig cfg c).length = 58 ∧ (serCtrl cfg c.ctrl).length = 22 ∧
    (serLevel cfg c.level).length = 4 ∧ (serThresh cfg c.band01).length = 8 ∧ (configHost c).length = 58 ∧
    (ctrlHost c.ctrl).length = 24 ∧ (levelHost c.level).length = 4 ∧ (threshHost c.band01).length = 8

/-- The bytes of the chip records by offset (R174 to R177), the bytes of the host records a field is read from, with their
codes (30_encoding.md R119, R120), and the code an illegal or an out-of-range field raises: the structural checks in the order
the fields lie in the host record, the range checks in the same order (R172). -/
def Obligations.RecordLayouts : Prop :=
  (∀ (cfg : Config) (c : CapCtrl) (k : List Byte), k = serCtrl cfg c →
    le32 k 0 = c.extendedWindowUs ∧ byteAt k 4 = peakFlag c.captureType ∧ byteAt k 5 = c.peakDecay ∧
    byteAt k 6 = c.peakInputSel ∧ byteAt k 7 = c.iirEnable.setWidth 8 ||| c.iirBypass.setWidth 8 <<< 1 ∧
    le32 k 8 = c.peakWinCount ∧ byteAt k 12 = BitVec.ofNat 8 c.channel.val ∧
    byteAt k 13 = typeBits c.captureType ||| c.txObsSel.setWidth 8 <<< 1 ||| c.txAltObsSel.setWidth 8 <<< 2 ∧
    byteAt k 14 = cfg.capSizeCode.get c.captureSize ∧ byteAt k 15 = 0 ∧ le32 k 16 = c.captureDelay ∧
    le16 k 20 = c.alignDelay) ∧
  [CaptureType.immediate, .powerLevel, .peakDetection, .tddTxOnSync, .extendedPeakSearch].map
      (fun t => (typeBits t, peakFlag t)) = [(0x08, 0), (0x09, 0), (0x08, 1), (0x00, 0), (0x48, 1)] ∧
  (∀ (cfg : Config) (v : CapLevel), serLevel cfg v =
    [v.timeout.extractLsb' 0 8, v.timeout.extractLsb' 8 8, cfg.bandDirCode.get v.bandDir, v.bandSel]) ∧
  (∀ (cfg : Config) (r : PwrThresh), serThresh cfg r =
    [r.lowToHighLimit, r.highToLowLimit, cfg.pwResCode.get r.pulseWidthRes, 0,
      r.lowToHighPulseWidth.extractLsb' 0 8, r.lowToHighPulseWidth.extractLsb' 8 8,
      r.highToLowPulseWidth.extractLsb' 0 8, r.highToLowPulseWidth.extractLsb' 8 8]) ∧
  (∀ (cfg : Config) (c : CapConfig) (b : List Byte), b = serConfig cfg c →
    byteAt b 0 = c.fifoDelay ∧ byteAt b 1 = c.interpolationIndex ∧ le16 b 2 = c.envelopeDecay ∧
    slice b 4 8 = serThresh cfg c.band01 ∧ slice b 12 8 = serThresh cfg c.band12 ∧
    slice b 20 8 = serThresh cfg c.band23 ∧ slice b 28 4 = serLevel cfg c.level ∧ slice b 32 4 = [0, 0, 0, 0] ∧
    slice b 36 22 = serCtrl cfg c.ctrl) ∧
  [CaptureType.immediate, .powerLevel, .peakDetection, .tddTxOnSync, .extendedPeakSearch].map captureTypeCode =
    [0, 1, 2, 3, 4] ∧
  (∀ h : List Byte,
    (byteAt h 0 ∉ [1, 2, 4, 8] → hostCtrl h = .error .channel) ∧
    (byteAt h 0 ∈ [1, 2, 4, 8] → 4 < (byteAt h 1).toNat → hostCtrl h = .error .capType) ∧
    (byteAt h 0 ∈ [1, 2, 4, 8] → (byteAt h 1).toNat ≤ 4 → 1 < (byteAt h 2).toNat ∨ 1 < (byteAt h 3).toNat →
      hostCtrl h = .error .obsSel) ∧
    (byteAt h 0 ∈ [1, 2, 4, 8] → (byteAt h 1).toNat ≤ 4 → (byteAt h 2).toNat ≤ 1 → (byteAt h 3).toNat ≤ 1 →
      (le16 h 4 ∉ [32, 64, 128, 256, 512, 1024, 2048, 4096] → hostCtrl h = .error .capSize) ∧
      (le16 h 4 ∈ [32, 64, 128, 256, 512, 1024, 2048, 4096] →
        (1 < (byteAt h 12).toNat ∨ 1 < (byteAt h 13).toNat → hostCtrl h = .error .iirFlag) ∧
        ((byteAt h 12).toNat ≤ 1 → (byteAt h 13).toNat ≤ 1 →
          ∃ c, hostCtrl h = .ok c ∧ (byteAt h 0).toNat = 2 ^ c.channel.val ∧ byteAt h 1 = captureTypeCode c.captureType ∧
            byteAt h 2 = c.txObsSel.setWidth 8 ∧ byteAt h 3 = c.txAltObsSel.setWidth 8 ∧
            (le16 h 4).toNat = 32 * 2 ^ c.captureSize.val ∧ byteAt h 6 = c.peakDecay ∧ le32 h 7 = c.peakWinCount ∧
            byteAt h 11 = c.peakInputSel ∧ byteAt h 12 = c.iirEnable.setWidth 8 ∧ byteAt h 13 = c.iirBypass.setWidth 8 ∧
            le32 h 14 = c.extendedWindowUs ∧ le16 h 18 = c.alignDelay ∧ le32 h 20 = c.captureDelay)))) ∧
  (∀ h : List Byte, (2 < (byteAt h 2).toNat → hostLevel h = .error .bandDir) ∧
    ((byteAt h 2).toNat ≤ 2 → ∃ v, hostLevel h = .ok v ∧ v.timeout = le16 h 0 ∧ v.bandDir.val = (byteAt h 2).toNat ∧
      v.bandSel = byteAt h 3)) ∧
  (∀ h : List Byte, (3 < (byteAt h 2).toNat → hostThresh h = .error .pwRes) ∧
    ((byteAt h 2).toNat ≤ 3 → ∃ r, hostThresh h = .ok r ∧ r.lowToHighLimit = byteAt h 0 ∧ r.highToLowLimit = byteAt h 1 ∧
      r.pulseWidthRes.val = (byteAt h 2).toNat ∧ r.lowToHighPulseWidth = le16 h 4 ∧ r.highToLowPulseWidth = le16 h 6)) ∧
  (∀ h : List Byte,
    (3 < (byteAt h 8).toNat ∨ 3 < (byteAt h 16).toNat ∨ 3 < (byteAt h 24).toNat → hostConfig h = .error .pwRes) ∧
    ((byteAt h 8).toNat ≤ 3 → (byteAt h 16).toNat ≤ 3 → (byteAt h 24).toNat ≤ 3 →
      (2 < (byteAt h 32).toNat → hostConfig h = .error .bandDir) ∧
      ((byteAt h 32).toNat ≤ 2 →
        (∀ code, hostCtrl (slice h 34 24) = .error code → hostConfig h = .error code) ∧
        (∀ k, hostCtrl (slice h 34 24) = .ok k → ∃ c, hostConfig h = .ok c)))) ∧
  (∀ (c : CapConfig) (r : List PwrThresh), r = [c.band01, c.band12, c.band23] →
    ((∃ x ∈ r, 4096 < x.lowToHighPulseWidth.toNat ∨ 4096 < x.highToLowPulseWidth.toNat) →
      rangeConfig c = .error .pulseWidth) ∧
    ((∀ x ∈ r, x.lowToHighPulseWidth.toNat ≤ 4096 ∧ x.highToLowPulseWidth.toNat ≤ 4096) →
      (3 < c.level.bandSel.toNat → rangeConfig c = .error .bandSel) ∧
      (c.level.bandSel.toNat ≤ 3 →
        (8191 < c.ctrl.alignDelay.toNat → rangeConfig c = .error .alignDelay) ∧
        (c.ctrl.alignDelay.toNat ≤ 8191 → rangeConfig c = .ok ())))) ∧
  ∀ (h : List Byte) (c : CapConfig), hostConfig h = .ok c →
    c.triggerPin = byteAt h 0 ∧ c.donePin = byteAt h 1 ∧ c.fifoDelay = byteAt h 2 ∧ c.interpolationIndex = byteAt h 3 ∧
    c.envelopeDecay = le16 h 4 ∧ hostThresh (slice h 6 8) = .ok c.band01 ∧ hostThresh (slice h 14 8) = .ok c.band12 ∧
    hostThresh (slice h 22 8) = .ok c.band23 ∧ hostLevel (slice h 30 4) = .ok c.level ∧
    hostCtrl (slice h 34 24) = .ok c.ctrl

/-- The capture-type decode, in the order of its tests (R178). -/
def Obligations.ParseTypeOrder : Prop :=
  ∀ b49 b40 : Byte,
    (b49.getLsbD 6 = true → parseType b49 b40 = .extendedPeakSearch) ∧
    (b49.getLsbD 6 = false → b40 = 1 → parseType b49 b40 = .peakDetection) ∧
    (b49.getLsbD 6 = false → b40 ≠ 1 → b49.getLsbD 3 = false → parseType b49 b40 = .tddTxOnSync) ∧
    (b49.getLsbD 6 = false → b40 ≠ 1 → b49.getLsbD 3 = true → b49.getLsbD 0 = true → parseType b49 b40 = .powerLevel) ∧
    (b49.getLsbD 6 = false → b40 ≠ 1 → b49.getLsbD 3 = true → b49.getLsbD 0 = false → parseType b49 b40 = .immediate)

/-- Record checks, each of which ends the operation at once and before any mutation. `CAPCFG.SET`: an illegal field, and with
`RANGE_CHECK` one out of range, `InvalidParameter` with its code (41_capture_config.md R172); a pin code that is neither 0..15
nor the sentinel `InvalidParameter(PIN)`; the same pin twice `ResourceConflict` (R173). `CAPCTRL.SET`: with `RANGE_CHECK` an
`alignDelay` above 8191 `(ALIGNDELAY)`. `MODEL.CFG` and `MMODEL.CFG`, in the order of the rule: `modelSel` above 3, or 1,
`(MODEL)`; `bankSel` above 3 `(BANK)`; a compander size other than 8 and 9 `(COMPANDER)`; bank 1 or 3 with 9 bits `(BANK)`;
`outputShift` above 15 `(OUTSHIFT)` (43_lut_manager.md R231, R233, R247). The field codes have the numbers of
60_exceptions.md R296. -/
def Obligations.RecordChecksRefuse : Prop :=
  [ParamCode.pin, .channel, .capType, .capSize, .alignDelay, .bandSel, .bandDir, .pwRes, .pulseWidth, .obsSel, .iirFlag,
    .band, .model, .bank, .compander, .outShift, .lut, .len, .desc].map (fun c => (paramCodeNumber c).toNat) =
    (List.range 19).map (· + 1) ∧
  (∀ s : State, s.dcc.capState = .idle ∨ s.dcc.capState = .configured → 58 ≤ s.regs.oplen.toNat → HostWaits s →
    (∀ code : ParamCode, hostConfig (s.regs.opb.readBytes 0 58) = .error code →
      ∃ t, exec .capcfgSet s = .next t ∧ EndedAtOnce s t (1 ||| (paramCodeNumber code).setWidth 32 <<< 8)) ∧
    ∀ c : CapConfig, hostConfig (s.regs.opb.readBytes 0 58) = .ok c →
      (∀ code : ParamCode, s.regs.ctrl.getLsbD 0 = true → rangeConfig c = .error code →
        ∃ t, exec .capcfgSet s = .next t ∧ EndedAtOnce s t (1 ||| (paramCodeNumber code).setWidth 32 <<< 8)) ∧
      ((s.regs.ctrl.getLsbD 0 = true → rangeConfig c = .ok ()) →
        (15 < c.triggerPin.toNat ∧ c.triggerPin ≠ 0xFF ∨ 15 < c.donePin.toNat ∧ c.donePin ≠ 0xFF →
          ∃ t, exec .capcfgSet s = .next t ∧ EndedAtOnce s t 0x101) ∧
        (c.triggerPin.toNat ≤ 15 → c.donePin = c.triggerPin →
          ∃ t, exec .capcfgSet s = .next t ∧ EndedAtOnce s t 3))) ∧
  (∀ (s : State) (c : CapCtrl), s.dcc.capState = .idle ∨ s.dcc.capState = .configured → 24 ≤ s.regs.oplen.toNat →
    hostCtrl (s.regs.opb.readBytes 0 24) = .ok c → s.regs.ctrl.getLsbD 0 = true → 8191 < c.alignDelay.toNat →
    HostWaits s → ∃ t, exec .capctrlSet s = .next t ∧ EndedAtOnce s t 0x501) ∧
  ∀ (s : State) (ch : ChMask) (i : Instr) (last : Nat), ch ∈ [1, 2, 4, 8] → 47 ≤ s.regs.oplen.toNat → HostWaits s →
    (i, last) ∈ [(.modelCfg ch, 3), (.mmodelCfg ch, 1)] →
    (last < (s.regs.opb.read 0).toNat → ∃ t, exec i s = .next t ∧ EndedAtOnce s t 0xD01) ∧
    ((s.regs.opb.read 0).toNat ≤ last →
      (3 < (s.regs.opb.read 1).toNat → ∃ t, exec i s = .next t ∧ EndedAtOnce s t 0xE01) ∧
      ((s.regs.opb.read 1).toNat ≤ 3 →
        (s.regs.opb.read 3 ≠ 8 → s.regs.opb.read 3 ≠ 9 → ∃ t, exec i s = .next t ∧ EndedAtOnce s t 0xF01) ∧
        (s.regs.opb.read 3 = 9 → s.regs.opb.read 1 = 1 ∨ s.regs.opb.read 1 = 3 →
          ∃ t, exec i s = .next t ∧ EndedAtOnce s t 0xE01) ∧
        (s.regs.opb.read 3 = 8 ∨ s.regs.opb.read 3 = 9 ∧ (s.regs.opb.read 1 = 0 ∨ s.regs.opb.read 1 = 2) →
          15 < (s.regs.opb.read 4).toNat → ∃ t, exec i s = .next t ∧ EndedAtOnce s t 0x1001)))

/-- Operand checks: where an operand is absent or its length, LUT index or descriptor is outside its legal set, the operation
ends at once with `NullInput`, `InvalidParameter(LEN)`, `(LUT)` or `(DESC)`, in the order of its rule (R181 step 1;
43_lut_manager.md R231, R237, R238; 44_swap_mode.md R263, R264, R265). Descriptor `k` is read from
`OPB[4k..4k+3]` (30_encoding.md R122). That an absent operand of `LUT.WRITE` and
`MMLUT.WRITE` is tested before the channel and the LUT index is the model's reading of 60_exceptions.md R298 (log 14). -/
def Obligations.OperandChecksRefuse : Prop :=
  ∀ (s : State) (ch : ChMask) (lut : BitVec 5) (sel : BitVec 2) (n : Nat) (f : Flight), ch ∈ [1, 2, 4, 8] →
    n = s.regs.oplen.toNat → f = (startOperation s).dcc.flight → HostWaits s →
    (n = 0 → ∀ any : ChMask, ∀ i : Instr, i ∈ [.lutWrite any lut sel, .mmlutWrite lut] →
      ∃ t, exec i s = .next t ∧ EndedAtOnce s t 2) ∧
    (4096 - 1024 * sel.toNat < n → ∀ i : Instr, i ∈ [.lutWrite ch lut sel, .lutRead ch lut sel] →
      ∃ t, exec i s = .next t ∧ EndedAtOnce s t 0x1201) ∧
    (n ≠ 0 → 25 < lut.toNat → ∃ t, exec (.mmlutWrite lut) s = .next t ∧ EndedAtOnce s t 0x1101) ∧
    (lut.toNat ≤ 25 → n % 4 ≠ 0 ∨ 1024 < n → ∃ t, exec (.mmlutWrite lut) s = .next t ∧ EndedAtOnce s t 0x1201) ∧
    (n < 124 → ∃ t, exec (.swapWrite ch sel) s = .next t ∧ EndedAtOnce s t 2) ∧
    (65536 < n → ∃ t, exec (.swapWrite ch sel) s = .next t ∧ EndedAtOnce s t 0x1201) ∧
    (124 ≤ n → ∀ k < 31,
      descOff f k = (s.regs.opb.read (4 * k)).toNat + 256 * (s.regs.opb.read (4 * k + 1)).toNat ∧
      descSize f k = (s.regs.opb.read (4 * k + 2)).toNat + 256 * (s.regs.opb.read (4 * k + 3)).toNat) ∧
    (∀ k < 30, 124 ≤ n → n ≤ 65536 → descOff f k ≠ 0 →
      descOff f k < 124 ∨ descSize f k = 0 ∨ n < descOff f k + descSize f k →
      ∃ t, exec (.swapWrite ch sel) s = .next t ∧ EndedAtOnce s t 0x1301) ∧
    (n < 47 → ∀ i : Instr, i ∈ [.modelCfg ch, .mmodelCfg ch] → ∃ t, exec i s = .next t ∧ EndedAtOnce s t 2) ∧
    (n < 58 → s.dcc.capState = .idle ∨ s.dcc.capState = .configured →
      ∃ t, exec .capcfgSet s = .next t ∧ EndedAtOnce s t 2)

/-! ## Capture state machine operations -/

/-- `CAP.START` is refused outside Configured. It re-reads the control sub-record and delivers the trigger for the stored
channel, through the debug register for TddTxOnSync and through the mailbox for every other type; the machine is Armed, a
trigger pending, and the capture engine's channel and mode are the stored ones (log 16). A stored channel index above 3 is
`InvalidParameter(CHANNEL)`, `cap_state` unchanged; a transport failure at either transaction enters Error with the class
and fields of 60_exceptions.md R293 and R294 (42_capture_fsm.md R204; 10_state.md R60). A failed write of the debug register
reports no device error, and reads as `Timeout` where one is drawn (log 9). That a trigger whose transaction fails has not
reached the engine is the model's (log 10). -/
def Obligations.CapStartTriggers : Prop :=
  (∀ s : State, s.dcc.capState ≠ .configured → HostWaits s →
    ∃ t, exec .capStart s = .next t ∧ EndedAtOnce s t 7) ∧
  (∀ (s : State) (i : Chan) (type : CaptureType), s.dcc.capState = .configured →
    (s.chip.capObj.read 48).toNat = i.val → type = parseType (s.chip.capObj.read 49) (s.chip.capObj.read 40) →
    HostWaits s → Quiet 4 s →
    ∃ t, exec .capStart s = .next t ∧ EndedOk s t 0 [] ∧
      t.dcc = { s.dcc with capState := .armed, flight := t.dcc.flight } ∧ t.env.trigChan = i ∧
      (t.env.trigExt = true ↔ type = .extendedPeakSearch) ∧
      if type = .tddTxOnSync then
        t.chip = { s.chip with dbgTrig := 2 ^ i.val, trigPending := true } ∧
        Sent s t [.cfgRead s.cfg.objCapture 36 22, .regWrite s.cfg.dbgTrigReg (2 ^ i.val)]
      else
        t.chip = { s.chip with trigPending := true } ∧
        Sent s t [.cfgRead s.cfg.objCapture 36 22, .mboxSet s.cfg.cmdCaptureTrig []]) ∧
  (∀ s : State, s.dcc.capState = .configured → HostWaits s → Served (nextTick s.env) →
    3 < (s.chip.capObj.read 48).toNat →
    ∃ t, exec .capStart s = .next t ∧ Ended s t 0x201 [] ∧ DccSame s t ∧ t.chip = (envTurns 2 s).chip ∧
      Sent s t [.cfgRead s.cfg.objCapture 36 22]) ∧
  (∀ s : State, s.dcc.capState = .configured → HostWaits s → ¬ Served (nextTick s.env) →
    ∃ t, exec .capStart s = .next t ∧ EndedFailed s t (nextTick s.env).answer ∧
      t.dcc = { s.dcc with capState := .error, flight := t.dcc.flight } ∧ t.chip = (envTurns 2 s).chip) ∧
  ∀ (s : State) (a : Answer), s.dcc.capState = .configured → (s.chip.capObj.read 48).toNat ≤ 3 → HostWaits s →
    Quiet 1 s → tickAt s.env 1 = { moves := [], answer := a } → (tickAt s.env 2).moves = [] →
    ¬ Served { moves := [], answer := a } →
    ∃ t, exec .capStart s = .next t ∧
      (if parseType (s.chip.capObj.read 49) (s.chip.capObj.read 40) = .tddTxOnSync then
        Ended s t (if a = .hwReset then 6 else 5) [] else EndedFailed s t a) ∧
      t.dcc = { s.dcc with capState := .error, flight := t.dcc.flight } ∧
      t.chip = { s.chip with dbgTrig := t.chip.dbgTrig } ∧ t.env.trigChan = s.env.trigChan

/-- `CAP.POLL` is refused outside Armed. With the done flag clear it answers 0 and stays Armed; with the flag set it clears
it with a second command, answers 1 and is Done. A failure of either command enters Error with the class and fields of
60_exceptions.md R293 and R294 and answers no done; after a failed clear every bit of the flag is its old value or 0 (R205;
70_reset_and_hazards.md R342), bit by bit by the model's choice (93_implementation_defined.md U9, log 9). -/
def Obligations.CapPollAnswers : Prop :=
  (∀ s : State, s.dcc.capState ≠ .armed → HostWaits s → ∃ t, exec .capPoll s = .next t ∧ EndedAtOnce s t 7) ∧
  (∀ s : State, s.dcc.capState = .armed → HostWaits s → Served (nextTick s.env) →
    (envTurn s).chip.doneFlag.getLsbD 0 = false →
    ∃ t, exec .capPoll s = .next t ∧ EndedOk s t 0 [] ∧ DccSame s t ∧ t.chip = (envTurns 2 s).chip ∧
      Sent s t [.mboxGet s.cfg.cmdCaptureDone [] 1]) ∧
  (∀ s : State, s.dcc.capState = .armed → HostWaits s → Quiet 4 s → s.chip.doneFlag.getLsbD 0 = true →
    ∃ t, exec .capPoll s = .next t ∧ EndedOk s t 1 [] ∧
      t.dcc = { s.dcc with capState := .done, flight := t.dcc.flight } ∧ t.chip = { s.chip with doneFlag := 0 } ∧
      Sent s t [.mboxGet s.cfg.cmdCaptureDone [] 1, .mboxSet s.cfg.cmdCaptureDone [0]]) ∧
  (∀ s : State, s.dcc.capState = .armed → HostWaits s → ¬ Served (nextTick s.env) →
    ∃ t, exec .capPoll s = .next t ∧ EndedFailed s t (nextTick s.env).answer ∧
      t.dcc = { s.dcc with capState := .error, flight := t.dcc.flight } ∧ t.chip = (envTurns 2 s).chip) ∧
  ∀ (s : State) (a : Answer), s.dcc.capState = .armed → HostWaits s → Quiet 1 s →
    tickAt s.env 1 = { moves := [], answer := a } → (tickAt s.env 2).moves = [] → ¬ Served { moves := [], answer := a } →
    s.chip.doneFlag.getLsbD 0 = true →
    ∃ t, exec .capPoll s = .next t ∧ EndedFailed s t a ∧
      t.dcc = { s.dcc with capState := .error, flight := t.dcc.flight } ∧
      t.chip = { s.chip with doneFlag := t.chip.doneFlag } ∧
      ∀ k, t.chip.doneFlag.getLsbD k = true → s.chip.doneFlag.getLsbD k = true

/-- `CAP.STATUS` is refused in Error, and a mask that is not one-hot is `InvalidParameter(CHANNEL)`; else it asks for the
channel's detailed status and returns its ten result bytes; it changes nothing, but a transport failure enters Error with
the class and fields of 60_exceptions.md R293 and R294 (R206; 30_encoding.md R123). -/
def Obligations.CapStatusReturns : Prop :=
  ∀ (s : State) (ch : ChMask),
    (s.dcc.capState = .error → HostWaits s → ∃ t, exec (.capStatus ch) s = .next t ∧ EndedAtOnce s t 7) ∧
    (s.dcc.capState ≠ .error → ch ∉ [1, 2, 4, 8] → HostWaits s → ∃ t, exec (.capStatus ch) s = .next t ∧
      EndedAtOnce s t 0x201) ∧
    ∀ i : Chan, ch.toNat = 2 ^ i.val → s.dcc.capState ≠ .error → HostWaits s →
      (Served (nextTick s.env) →
        ∃ t, exec (.capStatus ch) s = .next t ∧ DccSame s t ∧ t.chip = (envTurns 2 s).chip ∧
          Sent s t [.mboxGet s.cfg.cmdDetailedStatus [s.cfg.calStatusId, s.cfg.dpdInitId, BitVec.ofNat 8 i.val] 26] ∧
          EndedOk s t 0 ([0, 1, 2, 3, 20, 21, 22].map (fun k => byteAt ((envTurn s).chip.dstatus.get i).toList k) ++
            [0] ++ [24, 25].map (fun k => byteAt ((envTurn s).chip.dstatus.get i).toList k))) ∧
      (¬ Served (nextTick s.env) →
        ∃ t, exec (.capStatus ch) s = .next t ∧ EndedFailed s t (nextTick s.env).answer ∧
          t.dcc = { s.dcc with capState := .error, flight := t.dcc.flight } ∧ t.chip = (envTurns 2 s).chip)

/-- `CAP.RDDONE` is refused outside Done; else it sends the read-done command and is Idle; where the command fails
`cap_state` is Error and the result has the class and fields of 60_exceptions.md R293 and R294 (R207, R202). -/
def Obligations.CapRddoneCloses : Prop :=
  (∀ s : State, s.dcc.capState ≠ .done → HostWaits s → ∃ t, exec .capRddone s = .next t ∧ EndedAtOnce s t 7) ∧
  ∀ s : State, s.dcc.capState = .done → HostWaits s →
    (Served (nextTick s.env) →
      ∃ t, exec .capRddone s = .next t ∧ EndedOk s t 0 [] ∧
        t.dcc = { s.dcc with capState := .idle, flight := t.dcc.flight } ∧ t.chip = (envTurns 3 s).chip ∧
        Sent s t [.mboxSet s.cfg.cmdCaptureReadDone []]) ∧
    (¬ Served (nextTick s.env) →
      ∃ t, exec .capRddone s = .next t ∧ EndedFailed s t (nextTick s.env).answer ∧
        t.dcc = { s.dcc with capState := .error, flight := t.dcc.flight } ∧ t.chip = (envTurns 2 s).chip)

/-! ## Models, LUTs, clock -/

/-- `MODEL.CFG` and `MMODEL.CFG` with a legal record write the channel mask and the 47 host bytes at the channel's record and
no other byte; the multi-model record's own `modelSel` picks the half (43_lut_manager.md R231, R233; 20_memory.md R72). -/
def Obligations.ModelCfgWrites : Prop :=
  ∀ (s : State) (ch : ChMask) (i : Chan) (m bank comp shift : Nat), ch.toNat = 2 ^ i.val → 47 ≤ s.regs.oplen.toNat →
    m = (s.regs.opb.read 0).toNat → bank = (s.regs.opb.read 1).toNat → comp = (s.regs.opb.read 3).toNat →
    shift = (s.regs.opb.read 4).toNat → bank ≤ 3 → comp = 8 ∨ comp = 9 → (comp = 9 → bank = 0 ∨ bank = 2) → shift ≤ 15 →
    HostWaits s → Served (nextTick s.env) → s.MemoryForm →
    (m ≤ 3 →
      ∃ t, exec (.modelCfg ch) s = .next t ∧ EndedOk s t 0 [] ∧ DccSame s t ∧
        t.chip = { (envTurns 2 s).chip with modelObj := t.chip.modelObj } ∧
        ∀ a, t.chip.modelObj.read a =
          if a = 48 * i.val then ch.setWidth 8
          else if 48 * i.val < a ∧ a < 48 * i.val + 48 then s.regs.opb.read (a - 48 * i.val - 1)
          else s.chip.modelObj.read a) ∧
    (m ≤ 1 →
      ∃ t, exec (.mmodelCfg ch) s = .next t ∧ EndedOk s t 0 [] ∧ DccSame s t ∧
        t.chip = { (envTurns 2 s).chip with mmodelObj := t.chip.mmodelObj } ∧
        ∀ a, t.chip.mmodelObj.read a =
          if a = 96 * i.val + 48 * m then ch.setWidth 8
          else if 96 * i.val + 48 * m < a ∧ a < 96 * i.val + 48 * m + 48 then
            s.regs.opb.read (a - (96 * i.val + 48 * m) - 1)
          else s.chip.mmodelObj.read a)

/-- `MODEL.GET` and `MMODEL.GET` return the 47 stored bytes after the channel tag and change nothing; a mask that is not
one-hot is `InvalidParameter(CHANNEL)`, model 2 or 3 `InvalidParameter(MODEL)` (R232, R234). -/
def Obligations.ModelGetsReturn : Prop :=
  (∀ (s : State) (ch : ChMask) (sel : BitVec 2), ch ∉ [1, 2, 4, 8] → HostWaits s →
    ∀ i : Instr, i ∈ [.modelGet ch, .mmodelGet ch sel] →
    ∃ t, exec i s = .next t ∧ EndedAtOnce s t 0x201) ∧
  (∀ (s : State) (ch : ChMask) (sel : BitVec 2), ch ∈ [1, 2, 4, 8] → 1 < sel.toNat → HostWaits s →
    ∃ t, exec (.mmodelGet ch sel) s = .next t ∧ EndedAtOnce s t 0xD01) ∧
  ∀ (s : State) (ch : ChMask) (i : Chan), ch.toNat = 2 ^ i.val → HostWaits s → Served (nextTick s.env) →
    (∃ t, exec (.modelGet ch) s = .next t ∧ DccSame s t ∧ t.chip = (envTurns 2 s).chip ∧
      EndedOk s t 0 ((List.range 47).map fun k => s.chip.modelObj.read (48 * i.val + 1 + k)) ∧
      Sent s t [.cfgRead s.cfg.objModel (48 * i.val) 48]) ∧
    ∀ sel : BitVec 2, sel.toNat ≤ 1 →
      ∃ t, exec (.mmodelGet ch sel) s = .next t ∧ DccSame s t ∧ t.chip = (envTurns 2 s).chip ∧
        EndedOk s t 0 ((List.range 47).map fun k => s.chip.mmodelObj.read (96 * i.val + 48 * sel.toNat + 1 + k)) ∧
        Sent s t [.cfgRead s.cfg.objMultimodel (96 * i.val + 48 * sel.toNat) 48]

/-- `LUT.ADDR` returns the address of the bank, little-endian, without a transaction; a mask that is not one-hot is
`InvalidParameter(CHANNEL)` (R235). -/
def Obligations.LutAddrResolves : Prop :=
  (∀ (s : State) (ch : ChMask) (lut : BitVec 5) (sel : BitVec 2) (i : Chan), ch.toNat = 2 ^ i.val → HostWaits s →
    ∃ (t : State) (a : BitVec 32), exec (.lutAddr ch lut sel) s = .next t ∧
      a = s.cfg.lutBase.get i + 4096 * lut.setWidth 32 + 1024 * sel.setWidth 32 ∧
      EndedOk s t 0 [a.extractLsb' 0 8, a.extractLsb' 8 8, a.extractLsb' 16 8, a.extractLsb' 24 8] ∧
      DccSame s t ∧ t.chip = (envTurn s).chip ∧ Sent s t []) ∧
  ∀ (s : State) (ch : ChMask) (lut : BitVec 5) (sel : BitVec 2), ch ∉ [1, 2, 4, 8] → HostWaits s →
    ∃ t, exec (.lutAddr ch lut sel) s = .next t ∧ EndedAtOnce s t 0x201

/-- For a legal choice of the bases the 32-bit sum of `LUT.ADDR` does not wrap (R236); the pages of an extended-peak capture
are contiguous from LUT 27, bank 0: page `k` lies at `LUT_BASE + 110592 + 1024*k`, inside the channel's window (R246). -/
def Obligations.LutWindowAddresses : Prop :=
  (∀ (cfg : Config) (i : Chan) (lut : BitVec 5) (sel : BitVec 2), cfg.Valid →
    (cfg.lutBase.get i + 4096 * lut.setWidth 32 + 1024 * sel.setWidth 32).toNat = lutAddress cfg i lut sel ∧
    lutAddress cfg i lut sel = (cfg.lutBase.get i).toNat + 4096 * lut.toNat + 1024 * sel.toNat ∧
    lutAddress cfg i lut sel + 1024 ≤ (cfg.lutBase.get i).toNat + 131072) ∧
  ∀ (cfg : Config) (c : Chan) (k : Nat), k < 16 →
    peakPageAddress cfg c k = (cfg.lutBase.get c).toNat + 110592 + 1024 * k ∧
    peakPageAddress cfg c k = peakBase cfg c + 1024 * k ∧
    peakPageAddress cfg c k + 1024 ≤ (cfg.lutBase.get c).toNat + 131072

/-- `ACTCLK.SET` with a stream processor that answers the request before the first status read: three register writes, one
read, the channel's clock at the target (R239; 10_state.md R61). With a stream processor that never acts: `Timeout` after
exactly 40 reads, the three registers written (R239, 60_exceptions.md R302). -/
def Obligations.ActclkSetSwitches : Prop :=
  ∀ (s : State) (ch : ChMask) (en : BitVec 1) (i : Chan), ch.toNat = 2 ^ i.val → HostWaits s →
    (Obliging 5 s →
      ∃ t, exec (.actclkSet ch en) s = .next t ∧ EndedOk s t 0 [] ∧ DccSame s t ∧
        t.chip = { s.chip with
          act := s.chip.act.set i { s.chip.act.get i with actClk := en }
          chsel := 2 ^ i.val, streamId := sidClk s.cfg en, streamTrig := 1 } ∧
        Sent s t [.regWrite s.cfg.chselReg (2 ^ i.val), .regWrite s.cfg.streamIdReg (sidClk s.cfg en),
          .regWrite s.cfg.streamTrigReg 1, .fieldRead (.actClk i)]) ∧
    (Quiet 44 s → (s.chip.act.get i).actClk ≠ en →
      ∃ t, exec (.actclkSet ch en) s = .next t ∧ Ended s t 5 [] ∧ DccSame s t ∧
        t.chip = { s.chip with chsel := 2 ^ i.val, streamId := sidClk s.cfg en, streamTrig := 1 } ∧
        Sent s t ([.regWrite s.cfg.chselReg (2 ^ i.val), .regWrite s.cfg.streamIdReg (sidClk s.cfg en),
          .regWrite s.cfg.streamTrigReg 1] ++ List.replicate 40 (.fieldRead (.actClk i))))

/-- `LUT.WRITE` of a length that fits: the data lie at the resolved address and no other byte changes; the actuator, the
clock and the power bit end as the rule says, for both swap modes and both power policies (R237, R240). That a LUT keeps its
bytes while its power bit is 0 (the written LUT where the power policy clears the bit again, every unpowered LUT of the
frame) is the model's choice (60_exceptions.md R305; log 23, DESIGN CHOICE, unsafe). -/
def Obligations.LutWriteStores : Prop :=
  ∀ (s : State) (ch : ChMask) (lut : BitVec 5) (sel : BitVec 2) (i : Chan), ch.toNat = 2 ^ i.val →
    s.regs.oplen.toNat ≠ 0 → s.regs.oplen.toNat ≤ 4096 - 1024 * sel.toNat → HostWaits s → Obliging 29 s → s.MemoryForm →
    ∃ t, exec (.lutWrite ch lut sel) s = .next t ∧ EndedOk s t 0 [] ∧ DccSame s t ∧
      t.chip = sequencedChip s.cfg (swapOnNow s) (s.regs.ctrl.getLsbD 2) i lut t.chip.bulk s.chip ∧
      ∀ a, t.chip.bulk.read a =
        if lutAddress s.cfg i lut sel ≤ a ∧ a < lutAddress s.cfg i lut sel + s.regs.oplen.toNat then
          s.regs.opb.read (a - lutAddress s.cfg i lut sel)
        else s.chip.bulk.read a

/-- `LUT.READ` returns the bytes that stood at the resolved address before it and changes no byte of memory; a length of 0
returns empty without a transaction (R238). Where the power bit of the LUT was 0 before the read, that the bytes returned are
those it held is the model's choice, not the spec's: whether an unpowered LUT keeps its contents is not in the source
(60_exceptions.md R305; N13, U19; log 23, DESIGN CHOICE, unsafe). That the frame holds for the bytes of an unpowered LUT
rests on the same log. -/
def Obligations.LutReadReturns : Prop :=
  ∀ (s : State) (ch : ChMask) (lut : BitVec 5) (sel : BitVec 2) (i : Chan), ch.toNat = 2 ^ i.val →
    (s.regs.oplen.toNat ≠ 0 → s.regs.oplen.toNat ≤ 4096 - 1024 * sel.toNat → HostWaits s → Obliging 29 s →
      ∃ t, exec (.lutRead ch lut sel) s = .next t ∧ DccSame s t ∧
        EndedOk s t 0 (s.chip.bulk.readBytes (lutAddress s.cfg i lut sel) s.regs.oplen.toNat) ∧
        t.chip = sequencedChip s.cfg (swapOnNow s) (s.regs.ctrl.getLsbD 3) i lut s.chip.bulk s.chip) ∧
    (s.regs.oplen = 0 → HostWaits s →
      ∃ t, exec (.lutRead ch lut sel) s = .next t ∧ EndedOk s t 0 [] ∧ DccSame s t ∧ t.chip = (envTurn s).chip ∧ Sent s t [])

/-- Whatever the other agents and the transport do (logs 2, 3, 16, 17): a `LUT.WRITE` that ends with class `Ok` while no
trigger is pending has its data at the resolved address, changed no other byte, and left the passthru bit and every other
channel's enable, passthru and RAM-select alone (R237); a `SWAP.WRITE` that ends with class `Ok` leaves the channel's
RAM-select at 31 (70_reset_and_hazards.md R352). That a LUT keeps its bytes while its power bit is 0 is the model's choice
(60_exceptions.md R305; log 23, DESIGN CHOICE, unsafe). -/
def Obligations.OkMeansDone : Prop :=
  ∀ (s t : State) (ch : ChMask) (lut : BitVec 5) (sel : BitVec 2) (i : Chan), ch.toNat = 2 ^ i.val → HostWaits s →
    resClass t.regs.res = 0 →
    (s.MemoryForm → s.chip.trigPending = false → exec (.lutWrite ch lut sel) s = .next t →
      (∀ a, t.chip.bulk.read a =
        if lutAddress s.cfg i lut sel ≤ a ∧ a < lutAddress s.cfg i lut sel + s.regs.oplen.toNat then
          s.regs.opb.read (a - lutAddress s.cfg i lut sel)
        else s.chip.bulk.read a) ∧
      (t.chip.act.get i).actPt = (s.chip.act.get i).actPt ∧
      ∀ c : Chan, c ≠ i → (t.chip.act.get c).actEn = (s.chip.act.get c).actEn ∧
        (t.chip.act.get c).actPt = (s.chip.act.get c).actPt ∧ (t.chip.act.get c).ramSel = (s.chip.act.get c).ramSel) ∧
    (exec (.swapWrite ch sel) s = .next t → (t.chip.act.get i).ramSel = 31)

/-! ## Swap mode and multi-model -/

/-- `SWAP.EN` writes the chip's flag first and mirrors it after success; where the write fails the cache keeps its value
(44_swap_mode.md R261). `SWAP.GETEN` answers from the session cache without a transaction, or, with `SWAP_QUERY_HW` set,
from the chip's flag, which then refreshes the cache; where that read fails the cache keeps its value (R262). A
failure ends with the class and fields of 60_exceptions.md R293 and R294. -/
def Obligations.SwapFlagAndCache : Prop :=
  (∀ (s : State) (en : BitVec 1), HostWaits s →
    (Served (nextTick s.env) → s.MemoryForm →
      ∃ t, exec (.swapEn en) s = .next t ∧ EndedOk s t 0 [] ∧
        t.dcc = { s.dcc with sessSwapEn := en, flight := t.dcc.flight } ∧
        t.chip = { (envTurns 3 s).chip with swapEnObj := t.chip.swapEnObj } ∧
        (∀ a, t.chip.swapEnObj.read a = if a = 0 then en.setWidth 8 else s.chip.swapEnObj.read a) ∧
        Sent s t [.cfgWrite s.cfg.objSwapModeEn 0 [en.setWidth 8]]) ∧
    (¬ Served (nextTick s.env) →
      ∃ t, exec (.swapEn en) s = .next t ∧ EndedFailed s t (nextTick s.env).answer ∧ DccSame s t ∧
        t.chip = { (envTurns 2 s).chip with swapEnObj := t.chip.swapEnObj })) ∧
  ∀ s : State, HostWaits s →
    (s.regs.ctrl.getLsbD 1 = false →
      ∃ t, exec .swapGeten s = .next t ∧ EndedOk s t (s.dcc.sessSwapEn.setWidth 8) [] ∧ DccSame s t ∧
        t.chip = (envTurn s).chip ∧ Sent s t []) ∧
    (s.regs.ctrl.getLsbD 1 = true → Served (nextTick s.env) →
      ∃ (t : State) (v : BitVec 1), v = (if s.chip.swapEnObj.read 0 = 0 then 0 else 1) ∧
        exec .swapGeten s = .next t ∧ EndedOk s t (v.setWidth 8) [] ∧
        t.dcc = { s.dcc with sessSwapEn := v, flight := t.dcc.flight } ∧ t.chip = (envTurns 3 s).chip ∧
        Sent s t [.cfgRead s.cfg.objSwapModeEn 0 1]) ∧
    (s.regs.ctrl.getLsbD 1 = true → ¬ Served (nextTick s.env) →
      ∃ t, exec .swapGeten s = .next t ∧ EndedFailed s t (nextTick s.env).answer ∧ DccSame s t ∧
        t.chip = (envTurns 2 s).chip)

/-- `SWAP.WRITE` with well-formed descriptors: both passes over the populated entries 29 down to 0, the second one LUT up in
the swap bank of the compander size, and RAM-select parked at 31 (R263, R264). That a LUT keeps its bytes while its power
bit is 0 is the model's choice (60_exceptions.md R305; log 23, DESIGN CHOICE, unsafe). -/
def Obligations.SwapWriteWrites : Prop :=
  ∀ (s : State) (ch : ChMask) (sel swapBank : BitVec 2) (i : Chan) (limit : Nat) (f : Flight), ch.toNat = 2 ^ i.val →
    f = (startOperation s).dcc.flight → 124 ≤ s.regs.oplen.toNat → s.regs.oplen.toNat ≤ 65536 →
    (s.chip.modelObj.read (48 * i.val + 4) = 8 ∧ swapBank = 3 ∧ limit = 1024 ∨
      s.chip.modelObj.read (48 * i.val + 4) = 9 ∧ swapBank = 2 ∧ limit = 2048 ∧ (sel = 0 ∨ sel = 2)) →
    (∀ k < 30, descOff f k ≠ 0 →
      124 ≤ descOff f k ∧ 1 ≤ descSize f k ∧ descOff f k + descSize f k ≤ s.regs.oplen.toNat ∧ descSize f k ≤ limit) →
    HostWaits s → Obliging 1686 s →
    ∃ t, exec (.swapWrite ch sel) s = .next t ∧ EndedOk s t 0 [] ∧ DccSame s t ∧
      t.chip =
        setField (swappedChip s.cfg (swapOnNow s) (s.regs.ctrl.getLsbD 2) i swapBank 1 f (List.range 30).reverse
          (setField (swappedChip s.cfg (swapOnNow s) (s.regs.ctrl.getLsbD 2) i sel 0 f (List.range 30).reverse s.chip)
            (.ramSel i) 31)) (.ramSel i) 31

/-- The checks `SWAP.WRITE` makes on the channel's model record, after its one read and before any mutation, in the order
of the rule: a compander size other than 8 and 9 `InvalidParameter(COMPANDER)`, a requested bank 1 or 3 with 9 bits
`(BANK)`, a populated entry above 1024 bytes with 8 bits or 2048 with 9 bits `(LEN)` (R263 steps 3 to 6). -/
def Obligations.SwapWriteChecksModel : Prop :=
  ∀ (s : State) (ch : ChMask) (sel : BitVec 2) (i : Chan) (comp : Byte) (f : Flight), ch.toNat = 2 ^ i.val →
    comp = s.chip.modelObj.read (48 * i.val + 4) → f = (startOperation s).dcc.flight → 124 ≤ s.regs.oplen.toNat →
    s.regs.oplen.toNat ≤ 65536 →
    (∀ k < 30, descOff f k ≠ 0 →
      124 ≤ descOff f k ∧ 1 ≤ descSize f k ∧ descOff f k + descSize f k ≤ s.regs.oplen.toNat) →
    HostWaits s → Served (nextTick s.env) →
    ∀ res : Word,
      comp ≠ 8 ∧ comp ≠ 9 ∧ res = 0xF01 ∨
      comp = 9 ∧ (sel = 1 ∨ sel = 3) ∧ res = 0xE01 ∨
      (∃ k < 30, descOff f k ≠ 0 ∧ (comp = 8 ∧ 1024 < descSize f k ∨
        comp = 9 ∧ (sel = 0 ∨ sel = 2) ∧ 2048 < descSize f k)) ∧ res = 0x1201 →
      ∃ t, exec (.swapWrite ch sel) s = .next t ∧ Ended s t res [] ∧ DccSame s t ∧ t.chip = (envTurns 2 s).chip ∧
        Sent s t [.cfgRead s.cfg.objModel (48 * i.val) 48]

/-- `MMLUT.WRITE` fills row `2*lut`, and row `2*lut+1` where the data reach it, with the data and then zeros; every other byte
stays (44_swap_mode.md R265). That an unpowered LUT keeps its bytes too is the model's choice (60_exceptions.md R305; log
23, DESIGN CHOICE, unsafe). -/
def Obligations.MmlutWriteFillsRows : Prop :=
  ∀ (s : State) (lut : BitVec 5) (base : Nat), lut.toNat ≤ 25 → base = s.cfg.corrBase.toNat + 1024 * lut.toNat →
    s.regs.oplen.toNat ≠ 0 → s.regs.oplen.toNat % 4 = 0 → s.regs.oplen.toNat ≤ 1024 → HostWaits s → Quiet 5 s →
    s.MemoryForm →
    ∃ t, exec (.mmlutWrite lut) s = .next t ∧ EndedOk s t 0 [] ∧ DccSame s t ∧
      t.chip = { s.chip with bulk := t.chip.bulk } ∧
      ∀ a, t.chip.bulk.read a =
        if base ≤ a ∧ a < base + (if s.regs.oplen.toNat ≤ 512 then 512 else 1024) then
          if a - base < s.regs.oplen.toNat then s.regs.opb.read (a - base) else 0
        else s.chip.bulk.read a

/-- `MMODEL.UPDATE` sends the update request of the channel and model and changes no DCC state, and the firmware may answer
it from then on, at the operation's last boundary already (R266; logs 2, 18); `MMODEL.STATUS` returns the channel's two
status bytes (R267). A mask that is not one-hot is `InvalidParameter(CHANNEL)`, model 2 or 3 `InvalidParameter(MODEL)`. -/
def Obligations.MmodelUpdateAndStatus : Prop :=
  (∀ (s : State) (ch : ChMask) (sel : BitVec 2), ch ∉ [1, 2, 4, 8] → HostWaits s →
    ∀ i : Instr, i ∈ [.mmodelUpdate ch sel, .mmodelStatus ch] → ∃ t, exec i s = .next t ∧ EndedAtOnce s t 0x201) ∧
  (∀ (s : State) (ch : ChMask) (sel : BitVec 2), ch ∈ [1, 2, 4, 8] → 1 < sel.toNat → HostWaits s →
    ∃ t, exec (.mmodelUpdate ch sel) s = .next t ∧ EndedAtOnce s t 0xD01) ∧
  ∀ (s : State) (ch : ChMask) (i : Chan), ch.toNat = 2 ^ i.val → HostWaits s → Served (nextTick s.env) →
    (∀ sel : BitVec 2, sel.toNat ≤ 1 →
      ∃ t, exec (.mmodelUpdate ch sel) s = .next t ∧ EndedOk s t 0 [] ∧ DccSame s t ∧
        t.chip = (envTurn (deliverUpdate i (envTurn s))).chip ∧ t.env.updLive.get i = true ∧
          Sent s t [.mboxSet s.cfg.cmdLutUpdate [ch.setWidth 8, sel.setWidth 8]]) ∧
    ∃ t, exec (.mmodelStatus ch) s = .next t ∧ EndedOk s t 0 ((envTurn s).chip.updStatus.get i).toList ∧ DccSame s t ∧
      t.chip = (envTurns 2 s).chip ∧ Sent s t [.mboxGet s.cfg.cmdLutUpdateStatus [ch.setWidth 8] 2]
end

