-- ==== Sys2Proof/Laws/Memory.lean ====
section
/-! SUPPORT. Byte memory: every operation keeps the canonical form and the bounds, and a read after a write gives the value
written at the address and what was there before at every other address. -/

namespace Sys2Proof.Machine

theorem Memory.wf_nil : Memory.wf [] := ⟨.nil, fun _ h => nomatch h⟩

theorem Memory.bounded_nil (n : Nat) : Memory.bounded [] n := fun _ h => nomatch h

theorem Memory.wf_tail {c : Host.Cell} {m : Memory} (h : Memory.wf (c :: m)) : Memory.wf m := by
  simp only [Memory.wf, List.pairwise_cons, List.mem_cons, forall_eq_or_imp] at h ⊢
  exact ⟨h.1.2, h.2.2⟩

/-- Putting a byte in front adds at most that entry. -/
theorem Memory.mem_put {m : Memory} {a : Nat} {v : Byte} {c : Host.Cell} (h : c ∈ Memory.put m a v) :
    c = (a, v) ∧ v ≠ Memory.unlisted ∨ c ∈ m := by
  unfold Memory.put at h
  split at h
  · exact .inr h
  · rcases List.mem_cons.1 h with h | h
    · exact .inl ⟨h, by assumption⟩
    · exact .inr h

/-- A write adds at most the entry of its address. -/
theorem Memory.mem_write {m : Memory} {a : Nat} {v : Byte} {c : Host.Cell} (h : c ∈ Memory.write m a v) :
    c = (a, v) ∧ v ≠ Memory.unlisted ∨ c ∈ m := by
  induction m with
  | nil => exact Memory.mem_put h
  | cons d m ih =>
    obtain ⟨b, u⟩ := d
    unfold Memory.write at h
    split at h
    · exact Memory.mem_put h
    · split at h
      · rcases Memory.mem_put h with h | h
        · exact .inl h
        · exact .inr (List.mem_cons_of_mem _ h)
      · rcases List.mem_cons.1 h with h | h
        · exact .inr (h ▸ List.mem_cons_self)
        · rcases ih h with h | h
          · exact .inl h
          · exact .inr (List.mem_cons_of_mem _ h)

theorem Memory.wf_put {m : Memory} {a : Nat} {v : Byte} (h : Memory.wf m) (ha : ∀ c ∈ m, a < c.1) :
    Memory.wf (Memory.put m a v) := by
  unfold Memory.put
  split
  · exact h
  · rename_i hv
    exact ⟨List.pairwise_cons.2 ⟨fun c hc => ha c hc, h.1⟩, fun c hc => by
      rcases List.mem_cons.1 hc with rfl | hc
      · exact hv
      · exact h.2 c hc⟩

theorem Memory.lt_of_wf_cons {b : Nat} {u : Byte} {m : Memory} (h : Memory.wf ((b, u) :: m)) :
    ∀ c ∈ m, b < c.1 := by
  intro c hc
  exact (List.pairwise_cons.1 h.1).1 c hc

/-- A write keeps the canonical form. -/
theorem Memory.wf_write {m : Memory} {a : Nat} {v : Byte} (h : Memory.wf m) : Memory.wf (Memory.write m a v) := by
  induction m with
  | nil => exact Memory.wf_put h (by simp)
  | cons d m ih =>
    obtain ⟨b, u⟩ := d
    have hlt := Memory.lt_of_wf_cons h
    unfold Memory.write
    split
    · refine Memory.wf_put h fun c hc => ?_
      rcases List.mem_cons.1 hc with rfl | hc
      · assumption
      · exact lt_trans (by assumption) (hlt c hc)
    · split
      · rename_i hab
        exact Memory.wf_put (Memory.wf_tail h) (hab ▸ hlt)
      · have hm := ih (Memory.wf_tail h)
        refine ⟨List.pairwise_cons.2 ⟨fun c hc => ?_, hm.1⟩, fun c hc => ?_⟩
        · rcases Memory.mem_write hc with ⟨rfl, _⟩ | hc
          · show b < a; omega
          · exact hlt c hc
        · rcases List.mem_cons.1 hc with rfl | hc
          · exact h.2 _ List.mem_cons_self
          · exact hm.2 c hc

/-- A write of a run of bytes keeps the canonical form. -/
theorem Memory.wf_writeBytes {bs : List Byte} {m : Memory} {a : Nat} (h : Memory.wf m) :
    Memory.wf (Memory.writeBytes m a bs) := by
  induction bs generalizing m a with
  | nil => exact h
  | cons b bs ih => exact ih (Memory.wf_write h)

/-- Every entry after a write of a run of bytes is an old one or lies in the run. -/
theorem Memory.mem_writeBytes {bs : List Byte} {m : Memory} {a : Nat} {c : Host.Cell}
    (h : c ∈ Memory.writeBytes m a bs) : a ≤ c.1 ∧ c.1 < a + bs.length ∨ c ∈ m := by
  induction bs generalizing m a with
  | nil => exact .inr h
  | cons b bs ih =>
    rcases ih h with h | h
    · left; simp only [List.length_cons]; omega
    · rcases Memory.mem_write h with ⟨rfl, _⟩ | h
      · left; simp
      · exact .inr h

theorem Memory.bounded_write {m : Memory} {a n : Nat} {v : Byte} (h : Memory.bounded m n) (ha : a < n) :
    Memory.bounded (Memory.write m a v) n := by
  intro c hc
  rcases Memory.mem_write hc with ⟨rfl, _⟩ | hc
  · exact ha
  · exact h c hc

theorem Memory.bounded_writeBytes {bs : List Byte} {m : Memory} {a n : Nat} (h : Memory.bounded m n)
    (ha : a + bs.length ≤ n) : Memory.bounded (Memory.writeBytes m a bs) n := by
  intro c hc
  rcases Memory.mem_writeBytes hc with hc | hc
  · omega
  · exact h c hc

theorem Memory.wf_below {m : Memory} {n : Nat} (h : Memory.wf m) : Memory.wf (m.below n) :=
  ⟨h.1.filter _, fun c hc => h.2 c (List.mem_of_mem_filter hc)⟩

/-- A memory given by a function is in canonical form. -/
theorem Memory.wf_ofFn (n : Nat) (f : Nat → Byte) : Memory.wf (Memory.ofFn n f) := by
  refine ⟨?_, fun c hc => ?_⟩
  · unfold Memory.ofFn
    rw [List.pairwise_filterMap]
    refine List.pairwise_lt_range.imp fun {x y} hxy c hc d hd => ?_
    grind
  · unfold Memory.ofFn at hc
    obtain ⟨a, _, ha⟩ := List.mem_filterMap.1 hc
    grind

theorem Memory.bounded_ofFn (n : Nat) (f : Nat → Byte) : Memory.bounded (Memory.ofFn n f) n := by
  intro c hc
  unfold Memory.ofFn at hc
  obtain ⟨a, ha, hc⟩ := List.mem_filterMap.1 hc
  have := List.mem_range.1 ha
  grind

theorem Memory.foldl_ofCells {P : Memory → Prop} {keep : Nat → Bool} (cells : List Host.Cell)
    (hw : ∀ m a v, keep a = true → P m → P (Memory.write m a v)) (m : Memory) (hm : P m) :
    P (cells.foldl (fun m c => if keep c.1 then Memory.write m c.1 c.2 else m) m) := by
  induction cells generalizing m with
  | nil => exact hm
  | cons c cells ih =>
    rw [List.foldl_cons]
    refine ih _ ?_
    split
    · exact hw m c.1 c.2 (by assumption) hm
    · exact hm

/-- A memory given by a list of bytes is in canonical form. -/
theorem Memory.wf_ofCells (keep : Nat → Bool) (cells : List Host.Cell) : Memory.wf (Memory.ofCells keep cells) :=
  Memory.foldl_ofCells cells (fun _ _ _ _ h => Memory.wf_write h) [] Memory.wf_nil

/-- It lists admitted addresses alone. -/
theorem Memory.keep_ofCells {keep : Nat → Bool} {cells : List Host.Cell} {c : Host.Cell}
    (h : c ∈ Memory.ofCells keep cells) : keep c.1 = true := by
  refine Memory.foldl_ofCells (P := fun m => ∀ c ∈ m, keep c.1 = true) cells ?_ [] (fun _ h => nomatch h) c h
  intro m a v ha hm c hc
  rcases Memory.mem_write hc with ⟨rfl, _⟩ | hc
  · exact ha
  · exact hm c hc

/-- A write beyond the last listed address appends the entry. -/
theorem Memory.write_last {m : Memory} {a : Nat} {v : Byte} (h : ∀ c ∈ m, c.1 < a) (hv : v ≠ Memory.unlisted) :
    Memory.write m a v = m ++ [(a, v)] := by
  induction m with
  | nil => simp [Memory.write, Memory.put, hv]
  | cons d m ih =>
    obtain ⟨b, u⟩ := d
    have hb : b < a := h (b, u) List.mem_cons_self
    rw [Memory.write, if_neg (by omega), if_neg (by omega), ih fun c hc => h c (List.mem_cons_of_mem _ hc)]
    rfl

/-- A canonical memory whose addresses are all admitted is the memory its own list gives. -/
theorem Memory.ofCells_self {keep : Nat → Bool} {m : Memory} (h : Memory.wf m) (hk : ∀ c ∈ m, keep c.1 = true) :
    Memory.ofCells keep m = m := by
  suffices ∀ (n pre : Memory), Memory.wf (pre ++ n) → (∀ c ∈ n, keep c.1 = true) →
      n.foldl (fun m c => if keep c.1 then Memory.write m c.1 c.2 else m) pre = pre ++ n from this m [] h hk
  intro n
  induction n with
  | nil => intro pre _ _; simp
  | cons c n ih =>
    intro pre hw hk
    have hpre : ∀ d ∈ pre, d.1 < c.1 := fun d hd => (List.pairwise_append.1 hw.1).2.2 d hd c List.mem_cons_self
    rw [List.foldl_cons, if_pos (hk c List.mem_cons_self), Memory.write_last hpre (hw.2 c (by simp)),
      ih _ (by simpa using hw) fun d hd => hk d (List.mem_cons_of_mem _ hd)]
    simp

/-- An address below every listed one reads as unlisted. -/
theorem Memory.read_of_lt {m : Memory} {a : Nat} (h : ∀ c ∈ m, a < c.1) : Memory.read m a = Memory.unlisted := by
  induction m with
  | nil => rfl
  | cons d m ih =>
    obtain ⟨b, u⟩ := d
    have hb : a < b := h (b, u) List.mem_cons_self
    unfold Memory.read
    rw [if_neg (by omega)]
    exact ih fun c hc => h c (List.mem_cons_of_mem _ hc)

theorem Memory.read_put {m : Memory} {a x : Nat} {v : Byte} (h : Memory.read m a = Memory.unlisted) :
    Memory.read (Memory.put m a v) x = if x = a then v else Memory.read m x := by
  unfold Memory.put
  split
  · rename_i hv
    split
    · rename_i hx; rw [hx, h, hv]
    · rfl
  · rfl

/-- Read after write: the value written at the address, the old byte at every other address. -/
theorem Memory.read_write {m : Memory} {a x : Nat} {v : Byte} (h : Memory.wf m) :
    Memory.read (Memory.write m a v) x = if x = a then v else Memory.read m x := by
  induction m with
  | nil => exact Memory.read_put rfl
  | cons d m ih =>
    obtain ⟨b, u⟩ := d
    have hlt := Memory.lt_of_wf_cons h
    unfold Memory.write
    split
    · refine Memory.read_put (Memory.read_of_lt fun c hc => ?_)
      rcases List.mem_cons.1 hc with rfl | hc
      · assumption
      · exact lt_trans (by assumption) (hlt c hc)
    · split
      · rename_i hab
        subst hab
        rw [Memory.read_put (Memory.read_of_lt hlt)]
        simp only [Memory.read]
        split <;> rfl
      · simp only [Memory.read, ih (Memory.wf_tail h)]
        split
        · rename_i hx; rw [if_neg (by omega)]
        · rfl

/-- Read after the write of a run of bytes. -/
theorem Memory.read_writeBytes {bs : List Byte} {m : Memory} {a x : Nat} (h : Memory.wf m) :
    Memory.read (Memory.writeBytes m a bs) x =
      if a ≤ x ∧ x < a + bs.length then byteAt bs (x - a) else Memory.read m x := by
  induction bs generalizing m a with
  | nil => rw [if_neg (by simp)]; rfl
  | cons b bs ih =>
    rw [Memory.writeBytes, ih (Memory.wf_write h), Memory.read_write h]
    simp only [List.length_cons, byteAt]
    by_cases h1 : x = a
    · subst h1; simp
    · by_cases h2 : a + 1 ≤ x ∧ x < a + 1 + bs.length
      · rw [if_pos h2, if_pos (by omega), show x - a = (x - (a + 1)) + 1 by omega]
        simp
      · rw [if_neg h2, if_neg h1, if_neg (by omega)]

theorem Memory.length_readBytes (m : Memory) (a n : Nat) : (Memory.readBytes m a n).length = n := by
  simp [Memory.readBytes]

theorem Memory.byteAt_readBytes {m : Memory} {a n k : Nat} (h : k < n) :
    byteAt (Memory.readBytes m a n) k = Memory.read m (a + k) := by
  simp [Memory.readBytes, byteAt, h]

/-- Reading back a run just written. -/
theorem Memory.readBytes_writeBytes {bs : List Byte} {m : Memory} {a : Nat} (h : Memory.wf m) :
    Memory.readBytes (Memory.writeBytes m a bs) a bs.length = bs := by
  refine List.ext_getElem (by simp [Memory.readBytes]) fun k h1 h2 => ?_
  simp [Memory.readBytes, Memory.read_writeBytes h, byteAt, h2]

theorem length_tornBytes (d : Nat) (old new : List Byte) : (tornBytes d old new).length = new.length := by
  simp [tornBytes]

theorem length_snapBytes (f : Flight) (off n : Nat) : (snapBytes f off n).length = n :=
  Memory.length_readBytes _ _ _

end Sys2Proof.Machine
end

