-- ==== Sys2Proof/Laws/Monad.lean ====
section
/-! SUPPORT. How micro-sequences run: one lemma per step form, and one rule per form for statements of the shape "from P it
runs on to Q or stops in E". Proofs about operations peel their sequences apart with these and unfold nothing. -/

namespace Sys2Proof.Machine

variable {α β γ : Type}

@[simp] theorem run_of (f : State → EStateM.Result Stop State α) (s : State) : (M.of f).run s = f s := rfl

@[simp] theorem run_pure (a : α) (s : State) : (pure a : M α).run s = .ok a s := rfl

/-- A sequence runs its first part and, if that runs on, its second. -/
theorem run_bind (x : M α) (f : α → M β) (s : State) :
    (x >>= f).run s = match x.run s with
      | .ok a s1 => (f a).run s1
      | .error e s1 => .error e s1 := by
  simp only [EStateM.run, bind, EStateM.bind]
  cases x s <;> rfl

theorem run_bind_ok {x : M α} {f : α → M β} {s s1 : State} {a : α} (h : x.run s = .ok a s1) :
    (x >>= f).run s = (f a).run s1 := by
  rw [run_bind, h]

theorem run_bind_error {x : M α} {f : α → M β} {s s1 : State} {e : Stop} (h : x.run s = .error e s1) :
    (x >>= f).run s = .error e s1 := by
  rw [run_bind, h]

@[simp] theorem run_bind_assoc (x : M α) (f : α → M β) (g : β → M γ) (s : State) :
    (x >>= f >>= g).run s = (x >>= fun a => f a >>= g).run s := by
  simp only [run_bind]
  cases x.run s <;> rfl

@[simp] theorem run_pure_bind (a : α) (f : α → M β) (s : State) : (pure a >>= f).run s = (f a).run s := rfl

@[simp] theorem run_ask (g : State → α) (s : State) : (ask g).run s = .ok (g s) s := rfl

@[simp] theorem run_ask_bind (g : State → α) (f : α → M β) (s : State) : (ask g >>= f).run s = (f (g s)).run s := rfl

@[simp] theorem run_update (g : State → State) (s : State) : (update g).run s = .ok () (g s) := rfl

@[simp] theorem run_update_bind (g : State → State) (f : Unit → M β) (s : State) :
    (update g >>= f).run s = (f ()).run (g s) := rfl

@[simp] theorem run_raise (c : ResultClass) (s : State) : (raise c : M α).run s = .error (.raised c) s := rfl

@[simp] theorem run_raise_bind (c : ResultClass) (f : α → M β) (s : State) :
    (raise c >>= f).run s = .error (.raised c) s := rfl

@[simp] theorem run_check (p : Prop) [Decidable p] (c : ResultClass) (s : State) :
    (check p c).run s = if p then .ok () s else .error (.raised c) s := rfl

@[simp] theorem run_check_bind (p : Prop) [Decidable p] (c : ResultClass) (f : Unit → M β) (s : State) :
    (check p c >>= f).run s = if p then (f ()).run s else .error (.raised c) s := by
  rw [run_bind, run_check]
  by_cases h : p <;> simp [h]

@[simp] theorem run_checkParam (p : Prop) [Decidable p] (c : ParamCode) (s : State) :
    (checkParam p c).run s = if p then .ok () s else .error (.raised (.invalidParameter c)) s := rfl

@[simp] theorem run_checkParam_bind (p : Prop) [Decidable p] (c : ParamCode) (f : Unit → M β) (s : State) :
    (checkParam p c >>= f).run s = if p then (f ()).run s else .error (.raised (.invalidParameter c)) s :=
  run_check_bind p (.invalidParameter c) f s

@[simp] theorem run_gate_bind (row : GateRow) (f : Unit → M β) (s : State) :
    (gate row >>= f).run s =
      if gateOpen row s.dcc.capState = true then (f ()).run s else .error (.raised .seqRefused) s :=
  run_check_bind _ .seqRefused f s

theorem run_gate (row : GateRow) (s : State) :
    (gate row).run s = if gateOpen row s.dcc.capState = true then .ok () s else .error (.raised .seqRefused) s := rfl

@[simp] theorem run_ite (p : Prop) [Decidable p] (x y : M α) (s : State) :
    (if p then x else y).run s = if p then x.run s else y.run s := by
  by_cases h : p <;> simp [h]

@[simp] theorem run_doIf (p : Prop) [Decidable p] (m : M Unit) (s : State) :
    (doIf p m).run s = if p then m.run s else .ok () s := run_ite p m (pure ()) s

@[simp] theorem run_doIf_bind (p : Prop) [Decidable p] (m : M Unit) (f : Unit → M β) (s : State) :
    (doIf p m >>= f).run s = if p then (m >>= f).run s else (f ()).run s := by
  unfold doIf
  by_cases h : p <;> simp [h]

@[simp] theorem run_liftParam_ok_bind (a : α) (f : α → M β) (s : State) :
    (liftParam (.ok a) >>= f).run s = (f a).run s := rfl

@[simp] theorem run_liftParam_error_bind (c : ParamCode) (f : α → M β) (s : State) :
    (liftParam (.error c) >>= f).run s = .error (.raised (.invalidParameter c)) s := rfl

@[simp] theorem run_snapLen_bind (f : Nat → M β) (s : State) :
    (snapLen >>= f).run s = (f s.dcc.flight.oplen.toNat).run s := rfl

@[simp] theorem run_snapCtrl_bind (f : Word → M β) (s : State) :
    (snapCtrl >>= f).run s = (f s.dcc.flight.ctrl).run s := rfl

/-- An operand record: the bytes, or `NullInput`. -/
@[simp] theorem run_needRecord_bind (n : Nat) (f : List Byte → M β) (s : State) :
    (needRecord n >>= f).run s =
      if n ≤ s.dcc.flight.oplen.toNat then (f (snapBytes s.dcc.flight 0 n)).run s
      else .error (.raised .nullInput) s := by
  simp only [needRecord, run_bind_assoc, run_snapLen_bind, run_check_bind, run_ask_bind]

/-- A one-hot channel operand runs on with its index; any other mask is `InvalidParameter(CHANNEL)`. -/
theorem run_needChannel_bind (ch : ChMask) (f : Chan → M β) (s : State) :
    (needChannel ch >>= f).run s = match chanIdx ch with
      | some i => (f i).run s
      | none => .error (.raised (.invalidParameter .channel)) s := by
  unfold needChannel orParam
  cases chanIdx ch <;> rfl

@[simp] theorem run_logUndo (u : Undo) (s : State) :
    (logUndo u).run s = .ok () (updateFlight (fun f => { f with undo := u :: f.undo }) s) := rfl

@[simp] theorem run_logUndo_bind (u : Undo) (f : Unit → M β) (s : State) :
    (logUndo u >>= f).run s = (f ()).run (updateFlight (fun fl => { fl with undo := u :: fl.undo }) s) := rfl

/-! ## Rules -/

/-- How a run ends: `Q` where it runs on, `E` where it stops. -/
def EndsIn (Q : α → State → Prop) (E : Stop → State → Prop) : EStateM.Result Stop State α → Prop
  | .ok a s => Q a s
  | .error e s => E e s

/-- From `P`, the sequence runs on to `Q` or stops in `E`. -/
def Runs (P : State → Prop) (m : M α) (Q : α → State → Prop) (E : Stop → State → Prop) : Prop :=
  ∀ s, P s → EndsIn Q E (m.run s)

theorem Runs.pure {P : State → Prop} {Q : α → State → Prop} {E : Stop → State → Prop} {a : α}
    (h : ∀ s, P s → Q a s) : Runs P (Pure.pure a) Q E := h

theorem Runs.bind {P : State → Prop} {R : α → State → Prop} {Q : β → State → Prop} {E : Stop → State → Prop} {x : M α}
    {f : α → M β} (hx : Runs P x R E) (hf : ∀ a, Runs (R a) (f a) Q E) : Runs P (x >>= f) Q E := by
  intro s hs
  have h := hx s hs
  rw [run_bind]
  cases hr : x.run s with
  | ok a s1 => rw [hr] at h; exact hf a s1 h
  | error e s1 => rw [hr] at h; exact h

theorem Runs.ask {P : State → Prop} {Q : α → State → Prop} {E : Stop → State → Prop} {g : State → α}
    (h : ∀ s, P s → Q (g s) s) : Runs P (Machine.ask g) Q E := h

theorem Runs.update {P : State → Prop} {Q : Unit → State → Prop} {E : Stop → State → Prop} {g : State → State}
    (h : ∀ s, P s → Q () (g s)) : Runs P (Machine.update g) Q E := h

theorem Runs.raise {P : State → Prop} {Q : α → State → Prop} {E : Stop → State → Prop} {c : ResultClass}
    (h : ∀ s, P s → E (.raised c) s) : Runs P (Machine.raise c) Q E := h

theorem Runs.check {P : State → Prop} {Q : Unit → State → Prop} {E : Stop → State → Prop} {p : Prop} [Decidable p]
    {c : ResultClass} (h : ∀ s, P s → p → Q () s) (he : ∀ s, P s → ¬ p → E (.raised c) s) :
    Runs P (Machine.check p c) Q E := by
  intro s hs
  rw [run_check]
  by_cases hp : p
  · rw [if_pos hp]; exact h s hs hp
  · rw [if_neg hp]; exact he s hs hp

theorem Runs.checkParam {P : State → Prop} {Q : Unit → State → Prop} {E : Stop → State → Prop} {p : Prop} [Decidable p]
    {c : ParamCode} (h : ∀ s, P s → p → Q () s) (he : ∀ s, P s → ¬ p → E (.raised (.invalidParameter c)) s) :
    Runs P (Machine.checkParam p c) Q E := Runs.check h he

theorem Runs.gate {P : State → Prop} {Q : Unit → State → Prop} {E : Stop → State → Prop} {row : GateRow}
    (h : ∀ s, P s → gateOpen row s.dcc.capState = true → Q () s)
    (he : ∀ s, P s → gateOpen row s.dcc.capState ≠ true → E (.raised .seqRefused) s) :
    Runs P (Machine.gate row) Q E := by
  intro s hs
  rw [run_gate]
  by_cases hp : gateOpen row s.dcc.capState = true
  · rw [if_pos hp]; exact h s hs hp
  · rw [if_neg hp]; exact he s hs hp

theorem Runs.ite {P : State → Prop} {Q : α → State → Prop} {E : Stop → State → Prop} {p : Prop} [Decidable p]
    {x y : M α} (hx : p → Runs P x Q E) (hy : ¬ p → Runs P y Q E) : Runs P (if p then x else y) Q E := by
  by_cases hp : p
  · rw [if_pos hp]; exact hx hp
  · rw [if_neg hp]; exact hy hp

theorem Runs.doIf {P : State → Prop} {Q : Unit → State → Prop} {E : Stop → State → Prop} {p : Prop} [Decidable p]
    {m : M Unit} (h : p → Runs P m Q E) (hn : ¬ p → ∀ s, P s → Q () s) : Runs P (Machine.doIf p m) Q E :=
  Runs.ite h fun hp => Runs.pure (hn hp)

theorem Runs.liftParam {P : State → Prop} {Q : α → State → Prop} {E : Stop → State → Prop} {e : Except ParamCode α}
    (h : ∀ a, e = .ok a → ∀ s, P s → Q a s) (he : ∀ c s, P s → E (.raised (.invalidParameter c)) s) :
    Runs P (Machine.liftParam e) Q E := by
  intro s hs
  cases e with
  | ok a => exact h a rfl s hs
  | error c => exact he c s hs

theorem Runs.weaken {P P' : State → Prop} {Q Q' : α → State → Prop} {E E' : Stop → State → Prop} {m : M α}
    (h : Runs P m Q E) (hp : ∀ s, P' s → P s) (hq : ∀ a s, Q a s → Q' a s) (he : ∀ e s, E e s → E' e s) :
    Runs P' m Q' E' := by
  intro s hs
  have := h s (hp s hs)
  cases hr : m.run s with
  | ok a s1 => rw [hr] at this; exact hq a s1 this
  | error e s1 => rw [hr] at this; exact he e s1 this

/-! ## Operations -/

/-- What an operation answers, by how its micro-sequence ends: the exit stands behind one more boundary. -/
theorem runOperation_ok {fam : Bool} {body : M Result} {s s1 : State} {r : Result}
    (h : body.run (startOperation s) = .ok r s1) : runOperation fam body s = leave (returnOk r) s1 := by
  unfold runOperation; rw [h]

theorem runOperation_raised {fam : Bool} {body : M Result} {s s1 : State} {c : ResultClass}
    (h : body.run (startOperation s) = .error (.raised c) s1) : runOperation fam body s = leave (takeResult fam c) s1 := by
  unfold runOperation; rw [h]

theorem runOperation_dropped {fam : Bool} {body : M Result} {s s1 : State}
    (h : body.run (startOperation s) = .error .dropped s1) : runOperation fam body s = s1 := by
  unfold runOperation; rw [h]

end Sys2Proof.Machine
end

