-- ==== Sys2Proof/Laws/State.lean ====
section
/-! SUPPORT. One lemma per field per update of the state, true by unfolding once, so that no later proof unfolds a record
update. -/

namespace Sys2Proof.Machine

/-! ## `updateChip` -/

@[simp] theorem updateChip_cfg (f : Chip → Chip) (s : State) : (updateChip f s).cfg = s.cfg := rfl
@[simp] theorem updateChip_regs (f : Chip → Chip) (s : State) : (updateChip f s).regs = s.regs := rfl
@[simp] theorem updateChip_dcc (f : Chip → Chip) (s : State) : (updateChip f s).dcc = s.dcc := rfl
@[simp] theorem updateChip_chip (f : Chip → Chip) (s : State) : (updateChip f s).chip = f s.chip := rfl
@[simp] theorem updateChip_env (f : Chip → Chip) (s : State) : (updateChip f s).env = s.env := rfl

/-! ## `updateDcc` -/

@[simp] theorem updateDcc_cfg (f : DccRegs → DccRegs) (s : State) : (updateDcc f s).cfg = s.cfg := rfl
@[simp] theorem updateDcc_regs (f : DccRegs → DccRegs) (s : State) : (updateDcc f s).regs = s.regs := rfl
@[simp] theorem updateDcc_dcc (f : DccRegs → DccRegs) (s : State) : (updateDcc f s).dcc = f s.dcc := rfl
@[simp] theorem updateDcc_chip (f : DccRegs → DccRegs) (s : State) : (updateDcc f s).chip = s.chip := rfl
@[simp] theorem updateDcc_env (f : DccRegs → DccRegs) (s : State) : (updateDcc f s).env = s.env := rfl

/-! ## `updateEnv` -/

@[simp] theorem updateEnv_cfg (f : Env → Env) (s : State) : (updateEnv f s).cfg = s.cfg := rfl
@[simp] theorem updateEnv_regs (f : Env → Env) (s : State) : (updateEnv f s).regs = s.regs := rfl
@[simp] theorem updateEnv_dcc (f : Env → Env) (s : State) : (updateEnv f s).dcc = s.dcc := rfl
@[simp] theorem updateEnv_chip (f : Env → Env) (s : State) : (updateEnv f s).chip = s.chip := rfl
@[simp] theorem updateEnv_env (f : Env → Env) (s : State) : (updateEnv f s).env = f s.env := rfl

/-! ## `updateFlight` -/

@[simp] theorem updateFlight_cfg (f : Flight → Flight) (s : State) : (updateFlight f s).cfg = s.cfg := rfl
@[simp] theorem updateFlight_regs (f : Flight → Flight) (s : State) : (updateFlight f s).regs = s.regs := rfl
@[simp] theorem updateFlight_chip (f : Flight → Flight) (s : State) : (updateFlight f s).chip = s.chip := rfl
@[simp] theorem updateFlight_env (f : Flight → Flight) (s : State) : (updateFlight f s).env = s.env := rfl
@[simp] theorem updateFlight_flight (f : Flight → Flight) (s : State) : (updateFlight f s).dcc.flight = f s.dcc.flight := rfl
@[simp] theorem updateFlight_capState (f : Flight → Flight) (s : State) : (updateFlight f s).dcc.capState = s.dcc.capState := rfl
@[simp] theorem updateFlight_sessTrigPin (f : Flight → Flight) (s : State) : (updateFlight f s).dcc.sessTrigPin = s.dcc.sessTrigPin := rfl
@[simp] theorem updateFlight_sessDonePin (f : Flight → Flight) (s : State) : (updateFlight f s).dcc.sessDonePin = s.dcc.sessDonePin := rfl
@[simp] theorem updateFlight_sessSwapEn (f : Flight → Flight) (s : State) : (updateFlight f s).dcc.sessSwapEn = s.dcc.sessSwapEn := rfl
@[simp] theorem updateFlight_tag (f : Flight → Flight) (s : State) : (updateFlight f s).dcc.tag = s.dcc.tag := rfl

/-! ## `withHostQ`, `passTick`, `logTxn` -/

@[simp] theorem withHostQ_cfg (s : State) (q : List HostAct) : (withHostQ s q).cfg = s.cfg := rfl
@[simp] theorem withHostQ_regs (s : State) (q : List HostAct) : (withHostQ s q).regs = s.regs := rfl
@[simp] theorem withHostQ_dcc (s : State) (q : List HostAct) : (withHostQ s q).dcc = s.dcc := rfl
@[simp] theorem withHostQ_chip (s : State) (q : List HostAct) : (withHostQ s q).chip = s.chip := rfl
@[simp] theorem withHostQ_hostQ (s : State) (q : List HostAct) : (withHostQ s q).env.hostQ = q := rfl
@[simp] theorem withHostQ_script (s : State) (q : List HostAct) : (withHostQ s q).env.script = s.env.script := rfl
@[simp] theorem withHostQ_draws (s : State) (q : List HostAct) : (withHostQ s q).env.draws = s.env.draws := rfl
@[simp] theorem withHostQ_streamReqs (s : State) (q : List HostAct) : (withHostQ s q).env.streamReqs = s.env.streamReqs := rfl
@[simp] theorem withHostQ_updLive (s : State) (q : List HostAct) : (withHostQ s q).env.updLive = s.env.updLive := rfl
@[simp] theorem withHostQ_trigChan (s : State) (q : List HostAct) : (withHostQ s q).env.trigChan = s.env.trigChan := rfl
@[simp] theorem withHostQ_trigExt (s : State) (q : List HostAct) : (withHostQ s q).env.trigExt = s.env.trigExt := rfl
@[simp] theorem withHostQ_bus (s : State) (q : List HostAct) : (withHostQ s q).env.bus = s.env.bus := rfl
@[simp] theorem withHostQ_seen (s : State) (q : List HostAct) : (withHostQ s q).env.seen = s.env.seen := rfl
@[simp] theorem withHostQ_claimless (s : State) (q : List HostAct) : (withHostQ s q).env.claimless = s.env.claimless := rfl
@[simp] theorem passTick_cfg (s : State) : (passTick s).cfg = s.cfg := rfl
@[simp] theorem passTick_regs (s : State) : (passTick s).regs = s.regs := rfl
@[simp] theorem passTick_dcc (s : State) : (passTick s).dcc = s.dcc := rfl
@[simp] theorem passTick_chip (s : State) : (passTick s).chip = s.chip := rfl
@[simp] theorem passTick_hostQ (s : State) : (passTick s).env.hostQ = s.env.hostQ := rfl
@[simp] theorem passTick_script (s : State) : (passTick s).env.script = s.env.script.tail := rfl
@[simp] theorem passTick_draws (s : State) : (passTick s).env.draws = s.env.draws + 1 := rfl
@[simp] theorem passTick_streamReqs (s : State) : (passTick s).env.streamReqs = s.env.streamReqs := rfl
@[simp] theorem passTick_updLive (s : State) : (passTick s).env.updLive = s.env.updLive := rfl
@[simp] theorem passTick_trigChan (s : State) : (passTick s).env.trigChan = s.env.trigChan := rfl
@[simp] theorem passTick_trigExt (s : State) : (passTick s).env.trigExt = s.env.trigExt := rfl
@[simp] theorem passTick_bus (s : State) : (passTick s).env.bus = s.env.bus := rfl
@[simp] theorem passTick_seen (s : State) : (passTick s).env.seen = s.env.seen := rfl
@[simp] theorem passTick_claimless (s : State) : (passTick s).env.claimless = s.env.claimless := rfl
@[simp] theorem logTxn_cfg (t : Txn) (ok : Bool) (s : State) : (logTxn t ok s).cfg = s.cfg := by cases ok <;> rfl
@[simp] theorem logTxn_regs (t : Txn) (ok : Bool) (s : State) : (logTxn t ok s).regs = s.regs := by cases ok <;> rfl
@[simp] theorem logTxn_chip (t : Txn) (ok : Bool) (s : State) : (logTxn t ok s).chip = s.chip := by cases ok <;> rfl
@[simp] theorem logTxn_capState (t : Txn) (ok : Bool) (s : State) : (logTxn t ok s).dcc.capState = s.dcc.capState := by cases ok <;> rfl
@[simp] theorem logTxn_sessTrigPin (t : Txn) (ok : Bool) (s : State) : (logTxn t ok s).dcc.sessTrigPin = s.dcc.sessTrigPin := by cases ok <;> rfl
@[simp] theorem logTxn_sessDonePin (t : Txn) (ok : Bool) (s : State) : (logTxn t ok s).dcc.sessDonePin = s.dcc.sessDonePin := by cases ok <;> rfl
@[simp] theorem logTxn_sessSwapEn (t : Txn) (ok : Bool) (s : State) : (logTxn t ok s).dcc.sessSwapEn = s.dcc.sessSwapEn := by cases ok <;> rfl
@[simp] theorem logTxn_tag (t : Txn) (ok : Bool) (s : State) : (logTxn t ok s).dcc.tag = s.dcc.tag := by cases ok <;> rfl
@[simp] theorem logTxn_flight_cmd (t : Txn) (ok : Bool) (s : State) : (logTxn t ok s).dcc.flight.cmd = s.dcc.flight.cmd := by cases ok <;> rfl
@[simp] theorem logTxn_flight_oplen (t : Txn) (ok : Bool) (s : State) : (logTxn t ok s).dcc.flight.oplen = s.dcc.flight.oplen := by cases ok <;> rfl
@[simp] theorem logTxn_flight_ctrl (t : Txn) (ok : Bool) (s : State) : (logTxn t ok s).dcc.flight.ctrl = s.dcc.flight.ctrl := by cases ok <;> rfl
@[simp] theorem logTxn_flight_opb (t : Txn) (ok : Bool) (s : State) : (logTxn t ok s).dcc.flight.opb = s.dcc.flight.opb := by cases ok <;> rfl
@[simp] theorem logTxn_flight_svPower (t : Txn) (ok : Bool) (s : State) : (logTxn t ok s).dcc.flight.svPower = s.dcc.flight.svPower := by cases ok <;> rfl
@[simp] theorem logTxn_flight_svEn (t : Txn) (ok : Bool) (s : State) : (logTxn t ok s).dcc.flight.svEn = s.dcc.flight.svEn := by cases ok <;> rfl
@[simp] theorem logTxn_flight_svPt (t : Txn) (ok : Bool) (s : State) : (logTxn t ok s).dcc.flight.svPt = s.dcc.flight.svPt := by cases ok <;> rfl
@[simp] theorem logTxn_flight_svRamSel (t : Txn) (ok : Bool) (s : State) : (logTxn t ok s).dcc.flight.svRamSel = s.dcc.flight.svRamSel := by cases ok <;> rfl
@[simp] theorem logTxn_flight_prev (t : Txn) (ok : Bool) (s : State) : (logTxn t ok s).dcc.flight.prev = s.dcc.flight.prev := by cases ok <;> rfl
@[simp] theorem logTxn_flight_undo (t : Txn) (ok : Bool) (s : State) : (logTxn t ok s).dcc.flight.undo = s.dcc.flight.undo := by cases ok <;> rfl
@[simp] theorem logTxn_flight_polls (t : Txn) (ok : Bool) (s : State) : (logTxn t ok s).dcc.flight.polls = s.dcc.flight.polls := by cases ok <;> rfl
@[simp] theorem logTxn_hostQ (t : Txn) (ok : Bool) (s : State) : (logTxn t ok s).env.hostQ = s.env.hostQ := by cases ok <;> rfl
@[simp] theorem logTxn_script (t : Txn) (ok : Bool) (s : State) : (logTxn t ok s).env.script = s.env.script := by cases ok <;> rfl
@[simp] theorem logTxn_draws (t : Txn) (ok : Bool) (s : State) : (logTxn t ok s).env.draws = s.env.draws := by cases ok <;> rfl
@[simp] theorem logTxn_streamReqs (t : Txn) (ok : Bool) (s : State) : (logTxn t ok s).env.streamReqs = s.env.streamReqs := by cases ok <;> rfl
@[simp] theorem logTxn_updLive (t : Txn) (ok : Bool) (s : State) : (logTxn t ok s).env.updLive = s.env.updLive := by cases ok <;> rfl
@[simp] theorem logTxn_trigChan (t : Txn) (ok : Bool) (s : State) : (logTxn t ok s).env.trigChan = s.env.trigChan := by cases ok <;> rfl
@[simp] theorem logTxn_trigExt (t : Txn) (ok : Bool) (s : State) : (logTxn t ok s).env.trigExt = s.env.trigExt := by cases ok <;> rfl
@[simp] theorem logTxn_bus (t : Txn) (ok : Bool) (s : State) : (logTxn t ok s).env.bus = ⟨t, ok⟩ :: s.env.bus := by cases ok <;> rfl
@[simp] theorem logTxn_seen (t : Txn) (ok : Bool) (s : State) : (logTxn t ok s).env.seen = s.env.seen := by cases ok <;> rfl
@[simp] theorem logTxn_claimless (t : Txn) (ok : Bool) (s : State) : (logTxn t ok s).env.claimless = s.env.claimless := by cases ok <;> rfl

/-! ## Start and exit of an operation -/

@[simp] theorem startOperation_cfg (s : State) : (startOperation s).cfg = s.cfg := rfl
@[simp] theorem startOperation_chip (s : State) : (startOperation s).chip = s.chip := rfl
@[simp] theorem startOperation_env (s : State) : (startOperation s).env = s.env := rfl
@[simp] theorem startOperation_regs_cmd (s : State) : (startOperation s).regs.cmd = s.regs.cmd := rfl
@[simp] theorem startOperation_regs_oplen (s : State) : (startOperation s).regs.oplen = s.regs.oplen := rfl
@[simp] theorem startOperation_regs_opb (s : State) : (startOperation s).regs.opb = s.regs.opb := rfl
@[simp] theorem startOperation_regs_ctrl (s : State) : (startOperation s).regs.ctrl = s.regs.ctrl := rfl
@[simp] theorem startOperation_regs_res (s : State) : (startOperation s).regs.res = s.regs.res := rfl
@[simp] theorem startOperation_regs_rlen (s : State) : (startOperation s).regs.rlen = s.regs.rlen := rfl
@[simp] theorem startOperation_regs_rdb (s : State) : (startOperation s).regs.rdb = s.regs.rdb := rfl
@[simp] theorem startOperation_regs_rdbDraw (s : State) : (startOperation s).regs.rdbDraw = s.regs.rdbDraw := rfl
@[simp] theorem startOperation_busy (s : State) : (startOperation s).regs.busy = true := rfl
@[simp] theorem startOperation_capState (s : State) : (startOperation s).dcc.capState = s.dcc.capState := rfl
@[simp] theorem startOperation_sessTrigPin (s : State) : (startOperation s).dcc.sessTrigPin = s.dcc.sessTrigPin := rfl
@[simp] theorem startOperation_sessDonePin (s : State) : (startOperation s).dcc.sessDonePin = s.dcc.sessDonePin := rfl
@[simp] theorem startOperation_sessSwapEn (s : State) : (startOperation s).dcc.sessSwapEn = s.dcc.sessSwapEn := rfl
@[simp] theorem startOperation_tag (s : State) : (startOperation s).dcc.tag = s.dcc.tag := rfl
@[simp] theorem startOperation_flight_cmd (s : State) : (startOperation s).dcc.flight.cmd = s.regs.cmd := rfl
@[simp] theorem startOperation_flight_oplen (s : State) : (startOperation s).dcc.flight.oplen = s.regs.oplen := rfl
@[simp] theorem startOperation_flight_ctrl (s : State) : (startOperation s).dcc.flight.ctrl = s.regs.ctrl := rfl
@[simp] theorem startOperation_flight_opb (s : State) :
    (startOperation s).dcc.flight.opb = s.regs.opb.below (min s.regs.oplen.toNat 65536) := rfl
@[simp] theorem endOperation_cfg (c : ResultClass) (r : Result) (s : State) : (endOperation c r s).cfg = s.cfg := rfl
@[simp] theorem endOperation_chip (c : ResultClass) (r : Result) (s : State) : (endOperation c r s).chip = s.chip := rfl
@[simp] theorem endOperation_regs_cmd (c : ResultClass) (r : Result) (s : State) : (endOperation c r s).regs.cmd = s.regs.cmd := rfl
@[simp] theorem endOperation_regs_oplen (c : ResultClass) (r : Result) (s : State) : (endOperation c r s).regs.oplen = s.regs.oplen := rfl
@[simp] theorem endOperation_regs_opb (c : ResultClass) (r : Result) (s : State) : (endOperation c r s).regs.opb = s.regs.opb := rfl
@[simp] theorem endOperation_regs_ctrl (c : ResultClass) (r : Result) (s : State) : (endOperation c r s).regs.ctrl = s.regs.ctrl := rfl
@[simp] theorem endOperation_res (c : ResultClass) (r : Result) (s : State) : (endOperation c r s).regs.res = resWord s.cfg c r.info := rfl
@[simp] theorem endOperation_rlen (c : ResultClass) (r : Result) (s : State) : (endOperation c r s).regs.rlen = BitVec.ofNat 32 r.data.length := rfl
@[simp] theorem endOperation_rdb (c : ResultClass) (r : Result) (s : State) : (endOperation c r s).regs.rdb = r.data := rfl
@[simp] theorem endOperation_rdbDraw (c : ResultClass) (r : Result) (s : State) : (endOperation c r s).regs.rdbDraw = s.env.draws := rfl
@[simp] theorem endOperation_busy (c : ResultClass) (r : Result) (s : State) : (endOperation c r s).regs.busy = false := rfl
@[simp] theorem endOperation_capState (c : ResultClass) (r : Result) (s : State) : (endOperation c r s).dcc.capState = s.dcc.capState := rfl
@[simp] theorem endOperation_sessTrigPin (c : ResultClass) (r : Result) (s : State) : (endOperation c r s).dcc.sessTrigPin = s.dcc.sessTrigPin := rfl
@[simp] theorem endOperation_sessDonePin (c : ResultClass) (r : Result) (s : State) : (endOperation c r s).dcc.sessDonePin = s.dcc.sessDonePin := rfl
@[simp] theorem endOperation_sessSwapEn (c : ResultClass) (r : Result) (s : State) : (endOperation c r s).dcc.sessSwapEn = s.dcc.sessSwapEn := rfl
@[simp] theorem endOperation_tag (c : ResultClass) (r : Result) (s : State) : (endOperation c r s).dcc.tag = s.dcc.tag := rfl
@[simp] theorem endOperation_flight (c : ResultClass) (r : Result) (s : State) : (endOperation c r s).dcc.flight = Flight.idle := rfl
@[simp] theorem endOperation_hostQ (c : ResultClass) (r : Result) (s : State) : (endOperation c r s).env.hostQ = s.env.hostQ := rfl
@[simp] theorem endOperation_script (c : ResultClass) (r : Result) (s : State) : (endOperation c r s).env.script = s.env.script := rfl
@[simp] theorem endOperation_draws (c : ResultClass) (r : Result) (s : State) : (endOperation c r s).env.draws = s.env.draws + 1 := rfl
@[simp] theorem endOperation_streamReqs (c : ResultClass) (r : Result) (s : State) : (endOperation c r s).env.streamReqs = s.env.streamReqs := rfl
@[simp] theorem endOperation_updLive (c : ResultClass) (r : Result) (s : State) : (endOperation c r s).env.updLive = s.env.updLive := rfl
@[simp] theorem endOperation_trigChan (c : ResultClass) (r : Result) (s : State) : (endOperation c r s).env.trigChan = s.env.trigChan := rfl
@[simp] theorem endOperation_trigExt (c : ResultClass) (r : Result) (s : State) : (endOperation c r s).env.trigExt = s.env.trigExt := rfl
@[simp] theorem endOperation_bus (c : ResultClass) (r : Result) (s : State) : (endOperation c r s).env.bus = s.env.bus := rfl
@[simp] theorem endOperation_seen (c : ResultClass) (r : Result) (s : State) : (endOperation c r s).env.seen = s.env.seen := rfl
@[simp] theorem endOperation_claimless (c : ResultClass) (r : Result) (s : State) : (endOperation c r s).env.claimless = (s.env.claimless || c == .seqRefused) := rfl

/-! ## The DCC reset -/

@[simp] theorem dccReset_cfg (s : State) : (dccReset s).cfg = s.cfg := rfl
@[simp] theorem dccReset_chip (s : State) : (dccReset s).chip = s.chip := rfl
@[simp] theorem dccReset_hostQ (s : State) : (dccReset s).env.hostQ = s.env.hostQ := rfl
@[simp] theorem dccReset_script (s : State) : (dccReset s).env.script = s.env.script := rfl
@[simp] theorem dccReset_draws (s : State) : (dccReset s).env.draws = s.env.draws + 1 := rfl
@[simp] theorem dccReset_streamReqs (s : State) : (dccReset s).env.streamReqs = s.env.streamReqs := rfl
@[simp] theorem dccReset_updLive (s : State) : (dccReset s).env.updLive = s.env.updLive := rfl
@[simp] theorem dccReset_trigChan (s : State) : (dccReset s).env.trigChan = s.env.trigChan := rfl
@[simp] theorem dccReset_trigExt (s : State) : (dccReset s).env.trigExt = s.env.trigExt := rfl
@[simp] theorem dccReset_bus (s : State) : (dccReset s).env.bus = s.env.bus := rfl
@[simp] theorem dccReset_seen (s : State) : (dccReset s).env.seen = s.env.seen := rfl
@[simp] theorem dccReset_claimless (s : State) : (dccReset s).env.claimless = s.env.claimless := rfl
@[simp] theorem dccReset_oplen (s : State) : (dccReset s).regs.oplen = 0 := rfl
@[simp] theorem dccReset_ctrl (s : State) : (dccReset s).regs.ctrl = ctrlReset := rfl
@[simp] theorem dccReset_res (s : State) : (dccReset s).regs.res = 0 := rfl
@[simp] theorem dccReset_rlen (s : State) : (dccReset s).regs.rlen = 0 := rfl
@[simp] theorem dccReset_rdb (s : State) : (dccReset s).regs.rdb = [] := rfl
@[simp] theorem dccReset_busy (s : State) : (dccReset s).regs.busy = false := rfl
@[simp] theorem dccReset_capState (s : State) : (dccReset s).dcc.capState = .idle := rfl
@[simp] theorem dccReset_sessTrigPin (s : State) : (dccReset s).dcc.sessTrigPin = pinInvalid := rfl
@[simp] theorem dccReset_sessDonePin (s : State) : (dccReset s).dcc.sessDonePin = pinInvalid := rfl
@[simp] theorem dccReset_sessSwapEn (s : State) : (dccReset s).dcc.sessSwapEn = 0 := rfl
@[simp] theorem dccReset_flight (s : State) : (dccReset s).dcc.flight = Flight.idle := rfl

/-! ## `chipReset` -/

@[simp] theorem chipReset_cfg (c : Chip) (s : State) : (chipReset c s).cfg = s.cfg := rfl
@[simp] theorem chipReset_regs (c : Chip) (s : State) : (chipReset c s).regs = s.regs := rfl
@[simp] theorem chipReset_dcc (c : Chip) (s : State) : (chipReset c s).dcc = s.dcc := rfl
@[simp] theorem chipReset_env (c : Chip) (s : State) : (chipReset c s).env = s.env := rfl
@[simp] theorem chipReset_srcctl (c : Chip) (s : State) : (chipReset c s).chip.srcctl = c.srcctl := rfl
@[simp] theorem chipReset_dir (c : Chip) (s : State) : (chipReset c s).chip.dir = c.dir := rfl
@[simp] theorem chipReset_act (c : Chip) (s : State) : (chipReset c s).chip.act = c.act := rfl
@[simp] theorem chipReset_dbgTrig (c : Chip) (s : State) : (chipReset c s).chip.dbgTrig = c.dbgTrig := rfl
@[simp] theorem chipReset_chsel (c : Chip) (s : State) : (chipReset c s).chip.chsel = c.chsel := rfl
@[simp] theorem chipReset_streamId (c : Chip) (s : State) : (chipReset c s).chip.streamId = c.streamId := rfl
@[simp] theorem chipReset_streamTrig (c : Chip) (s : State) : (chipReset c s).chip.streamTrig = c.streamTrig := rfl
@[simp] theorem chipReset_doneFlag (c : Chip) (s : State) : (chipReset c s).chip.doneFlag = c.doneFlag := rfl
@[simp] theorem chipReset_dstatus (c : Chip) (s : State) : (chipReset c s).chip.dstatus = c.dstatus := rfl
@[simp] theorem chipReset_updStatus (c : Chip) (s : State) : (chipReset c s).chip.updStatus = c.updStatus := rfl
@[simp] theorem chipReset_trigPending (c : Chip) (s : State) :
    (chipReset c s).chip.trigPending = (s.chip.trigPending && c.trigPending) := rfl

/-! ## Chip accessors -/

@[simp] theorem updateAct_srcctl (ch : Chip) (c : Chan) (f : Actuator → Actuator) : (updateAct ch c f).srcctl = ch.srcctl := rfl
@[simp] theorem updateAct_dir (ch : Chip) (c : Chan) (f : Actuator → Actuator) : (updateAct ch c f).dir = ch.dir := rfl
@[simp] theorem updateAct_dbgTrig (ch : Chip) (c : Chan) (f : Actuator → Actuator) : (updateAct ch c f).dbgTrig = ch.dbgTrig := rfl
@[simp] theorem updateAct_chsel (ch : Chip) (c : Chan) (f : Actuator → Actuator) : (updateAct ch c f).chsel = ch.chsel := rfl
@[simp] theorem updateAct_streamId (ch : Chip) (c : Chan) (f : Actuator → Actuator) : (updateAct ch c f).streamId = ch.streamId := rfl
@[simp] theorem updateAct_streamTrig (ch : Chip) (c : Chan) (f : Actuator → Actuator) : (updateAct ch c f).streamTrig = ch.streamTrig := rfl
@[simp] theorem updateAct_bulk (ch : Chip) (c : Chan) (f : Actuator → Actuator) : (updateAct ch c f).bulk = ch.bulk := rfl
@[simp] theorem updateAct_capObj (ch : Chip) (c : Chan) (f : Actuator → Actuator) : (updateAct ch c f).capObj = ch.capObj := rfl
@[simp] theorem updateAct_modelObj (ch : Chip) (c : Chan) (f : Actuator → Actuator) : (updateAct ch c f).modelObj = ch.modelObj := rfl
@[simp] theorem updateAct_mmodelObj (ch : Chip) (c : Chan) (f : Actuator → Actuator) : (updateAct ch c f).mmodelObj = ch.mmodelObj := rfl
@[simp] theorem updateAct_swapEnObj (ch : Chip) (c : Chan) (f : Actuator → Actuator) : (updateAct ch c f).swapEnObj = ch.swapEnObj := rfl
@[simp] theorem updateAct_doneFlag (ch : Chip) (c : Chan) (f : Actuator → Actuator) : (updateAct ch c f).doneFlag = ch.doneFlag := rfl
@[simp] theorem updateAct_dstatus (ch : Chip) (c : Chan) (f : Actuator → Actuator) : (updateAct ch c f).dstatus = ch.dstatus := rfl
@[simp] theorem updateAct_updStatus (ch : Chip) (c : Chan) (f : Actuator → Actuator) : (updateAct ch c f).updStatus = ch.updStatus := rfl
@[simp] theorem updateAct_trigPending (ch : Chip) (c : Chan) (f : Actuator → Actuator) : (updateAct ch c f).trigPending = ch.trigPending := rfl
@[simp] theorem setField_dir (ch : Chip) (f : Field) (v : BitVec f.width) : (setField ch f v).dir = ch.dir := by cases f <;> rfl
@[simp] theorem setField_dbgTrig (ch : Chip) (f : Field) (v : BitVec f.width) : (setField ch f v).dbgTrig = ch.dbgTrig := by cases f <;> rfl
@[simp] theorem setField_chsel (ch : Chip) (f : Field) (v : BitVec f.width) : (setField ch f v).chsel = ch.chsel := by cases f <;> rfl
@[simp] theorem setField_streamId (ch : Chip) (f : Field) (v : BitVec f.width) : (setField ch f v).streamId = ch.streamId := by cases f <;> rfl
@[simp] theorem setField_streamTrig (ch : Chip) (f : Field) (v : BitVec f.width) : (setField ch f v).streamTrig = ch.streamTrig := by cases f <;> rfl
@[simp] theorem setField_bulk (ch : Chip) (f : Field) (v : BitVec f.width) : (setField ch f v).bulk = ch.bulk := by cases f <;> rfl
@[simp] theorem setField_capObj (ch : Chip) (f : Field) (v : BitVec f.width) : (setField ch f v).capObj = ch.capObj := by cases f <;> rfl
@[simp] theorem setField_modelObj (ch : Chip) (f : Field) (v : BitVec f.width) : (setField ch f v).modelObj = ch.modelObj := by cases f <;> rfl
@[simp] theorem setField_mmodelObj (ch : Chip) (f : Field) (v : BitVec f.width) : (setField ch f v).mmodelObj = ch.mmodelObj := by cases f <;> rfl
@[simp] theorem setField_swapEnObj (ch : Chip) (f : Field) (v : BitVec f.width) : (setField ch f v).swapEnObj = ch.swapEnObj := by cases f <;> rfl
@[simp] theorem setField_doneFlag (ch : Chip) (f : Field) (v : BitVec f.width) : (setField ch f v).doneFlag = ch.doneFlag := by cases f <;> rfl
@[simp] theorem setField_dstatus (ch : Chip) (f : Field) (v : BitVec f.width) : (setField ch f v).dstatus = ch.dstatus := by cases f <;> rfl
@[simp] theorem setField_updStatus (ch : Chip) (f : Field) (v : BitVec f.width) : (setField ch f v).updStatus = ch.updStatus := by cases f <;> rfl
@[simp] theorem setField_trigPending (ch : Chip) (f : Field) (v : BitVec f.width) : (setField ch f v).trigPending = ch.trigPending := by cases f <;> rfl
@[simp] theorem setObj_srcctl (ch : Chip) (o : MboxObj) (m : Memory) : (setObj ch o m).srcctl = ch.srcctl := by cases o <;> rfl
@[simp] theorem setObj_dir (ch : Chip) (o : MboxObj) (m : Memory) : (setObj ch o m).dir = ch.dir := by cases o <;> rfl
@[simp] theorem setObj_act (ch : Chip) (o : MboxObj) (m : Memory) : (setObj ch o m).act = ch.act := by cases o <;> rfl
@[simp] theorem setObj_dbgTrig (ch : Chip) (o : MboxObj) (m : Memory) : (setObj ch o m).dbgTrig = ch.dbgTrig := by cases o <;> rfl
@[simp] theorem setObj_chsel (ch : Chip) (o : MboxObj) (m : Memory) : (setObj ch o m).chsel = ch.chsel := by cases o <;> rfl
@[simp] theorem setObj_streamId (ch : Chip) (o : MboxObj) (m : Memory) : (setObj ch o m).streamId = ch.streamId := by cases o <;> rfl
@[simp] theorem setObj_streamTrig (ch : Chip) (o : MboxObj) (m : Memory) : (setObj ch o m).streamTrig = ch.streamTrig := by cases o <;> rfl
@[simp] theorem setObj_bulk (ch : Chip) (o : MboxObj) (m : Memory) : (setObj ch o m).bulk = ch.bulk := by cases o <;> rfl
@[simp] theorem setObj_doneFlag (ch : Chip) (o : MboxObj) (m : Memory) : (setObj ch o m).doneFlag = ch.doneFlag := by cases o <;> rfl
@[simp] theorem setObj_dstatus (ch : Chip) (o : MboxObj) (m : Memory) : (setObj ch o m).dstatus = ch.dstatus := by cases o <;> rfl
@[simp] theorem setObj_updStatus (ch : Chip) (o : MboxObj) (m : Memory) : (setObj ch o m).updStatus = ch.updStatus := by cases o <;> rfl
@[simp] theorem setObj_trigPending (ch : Chip) (o : MboxObj) (m : Memory) : (setObj ch o m).trigPending = ch.trigPending := by cases o <;> rfl
@[simp] theorem getObj_setObj (ch : Chip) (o : MboxObj) (m : Memory) : getObj (setObj ch o m) o = m := by cases o <;> rfl
@[simp] theorem setReg_srcctl (ch : Chip) (r : ChipReg) (v : Nat) : (setReg ch r v).srcctl = ch.srcctl := by cases r <;> rfl
@[simp] theorem setReg_dir (ch : Chip) (r : ChipReg) (v : Nat) : (setReg ch r v).dir = ch.dir := by cases r <;> rfl
@[simp] theorem setReg_act (ch : Chip) (r : ChipReg) (v : Nat) : (setReg ch r v).act = ch.act := by cases r <;> rfl
@[simp] theorem setReg_bulk (ch : Chip) (r : ChipReg) (v : Nat) : (setReg ch r v).bulk = ch.bulk := by cases r <;> rfl
@[simp] theorem setReg_capObj (ch : Chip) (r : ChipReg) (v : Nat) : (setReg ch r v).capObj = ch.capObj := by cases r <;> rfl
@[simp] theorem setReg_modelObj (ch : Chip) (r : ChipReg) (v : Nat) : (setReg ch r v).modelObj = ch.modelObj := by cases r <;> rfl
@[simp] theorem setReg_mmodelObj (ch : Chip) (r : ChipReg) (v : Nat) : (setReg ch r v).mmodelObj = ch.mmodelObj := by cases r <;> rfl
@[simp] theorem setReg_swapEnObj (ch : Chip) (r : ChipReg) (v : Nat) : (setReg ch r v).swapEnObj = ch.swapEnObj := by cases r <;> rfl
@[simp] theorem setReg_doneFlag (ch : Chip) (r : ChipReg) (v : Nat) : (setReg ch r v).doneFlag = ch.doneFlag := by cases r <;> rfl
@[simp] theorem setReg_dstatus (ch : Chip) (r : ChipReg) (v : Nat) : (setReg ch r v).dstatus = ch.dstatus := by cases r <;> rfl
@[simp] theorem setReg_updStatus (ch : Chip) (r : ChipReg) (v : Nat) : (setReg ch r v).updStatus = ch.updStatus := by cases r <;> rfl
@[simp] theorem setReg_trigPending (ch : Chip) (r : ChipReg) (v : Nat) : (setReg ch r v).trigPending = ch.trigPending := by cases r <;> rfl
@[simp] theorem getReg_setReg (ch : Chip) (r : ChipReg) (v : Nat) : getReg (setReg ch r v) r = v := by cases r <;> rfl

/-- Reading a register file after one write to it. -/
theorem get_set {α : Type} {n : Nat} (v : Vector α n) (i j : Fin n) (x : α) :
    (v.set i x).get j = if i = j then x else v.get j := by
  show (v.set i x)[j.val] = if i = j then x else v[j.val]
  rw [Vector.getElem_set]
  by_cases h : i = j
  · subst h; simp
  · rw [if_neg h, if_neg (fun he => h (Fin.ext he))]

@[simp] theorem get_set_self {α : Type} {n : Nat} (v : Vector α n) (i : Fin n) (x : α) : (v.set i x).get i = x := by
  rw [get_set, if_pos rfl]

theorem get_set_ne {α : Type} {n : Nat} (v : Vector α n) {i j : Fin n} (x : α) (h : i ≠ j) :
    (v.set i x).get j = v.get j := by
  rw [get_set, if_neg h]

/-- A field reads back what was written to it. -/
@[simp] theorem getField_setField (ch : Chip) (f : Field) (v : BitVec f.width) : getField (setField ch f v) f = v := by
  cases f <;> simp only [getField, setField, updateAct, get_set_self]

theorem getObj_setObj_ne (ch : Chip) {o o' : MboxObj} (m : Memory) (h : o' ≠ o) :
    getObj (setObj ch o m) o' = getObj ch o' := by
  cases o <;> cases o' <;> first | rfl | exact absurd rfl h

theorem getReg_setReg_ne (ch : Chip) {r r' : ChipReg} (v : Nat) (h : r' ≠ r) :
    getReg (setReg ch r v) r' = getReg ch r' := by
  cases r <;> cases r' <;> first | rfl | exact absurd rfl h

end Sys2Proof.Machine
end

