-- ==== Sys2Proof/Laws/Ops.lean ====
section
/-! SUPPORT. What each shared operation can do, said once: the turn of the other agents at a boundary (`Between`), one
transport transaction (`transact_cases`, `Runs.transact`, `transact_served`), the DCC reset. Proofs about operations cite
these and unfold none of them. -/

namespace Sys2Proof.Machine

/-! ## Addresses -/

/-- Byte `k` of a run at a LUT address is mapped while the run stays inside the LUT (43_lut_manager.md R236). -/
theorem bulkMapped_lutAddress (cfg : Config) (i : Chan) (l : BitVec 5) (b : BitVec 2) {k : Nat}
    (h : 1024 * b.toNat + k < 4096) : bulkMapped cfg (lutAddress cfg i l b + k) = true := by
  have hl := l.isLt
  have hb : (cfg.lutBase.get i).toNat ≤ lutAddress cfg i l b + k ∧
      lutAddress cfg i l b + k < (cfg.lutBase.get i).toNat + Config.lutWindow := by
    unfold lutAddress Config.lutWindow; omega
  unfold bulkMapped
  rw [Bool.or_eq_true]
  left
  rw [List.any_eq_true]
  exact ⟨i, by fin_cases i <;> simp, by simpa using hb⟩

/-- Byte `k` of a correlator row is mapped (R236). -/
theorem bulkMapped_corrAddress (cfg : Config) {r k : Nat} (hr : r < 52) (hk : k < 512) :
    bulkMapped cfg (corrAddress cfg r + k) = true := by
  have hb : cfg.corrBase.toNat ≤ corrAddress cfg r + k ∧
      corrAddress cfg r + k < cfg.corrBase.toNat + Config.corrWindow := by
    unfold corrAddress Config.corrWindow; omega
  unfold bulkMapped
  rw [Bool.or_eq_true]
  right
  simpa using hb

/-- An extended-peak sample byte lies in LUTs 27..30 (43_lut_manager.md R246). -/
theorem bulkMapped_peakBase (cfg : Config) (i : Chan) {k : Nat} (h : k < 16384) :
    bulkMapped cfg (peakBase cfg i + k) = true := by
  have hb : (cfg.lutBase.get i).toNat ≤ peakBase cfg i + k ∧
      peakBase cfg i + k < (cfg.lutBase.get i).toNat + Config.lutWindow := by
    unfold peakBase lutAddress Config.lutWindow; simp; omega
  unfold bulkMapped
  rw [Bool.or_eq_true]
  left
  rw [List.any_eq_true]
  exact ⟨i, by fin_cases i <;> simp, by simpa using hb⟩

/-! ## What other agents may change between two micro-steps -/

/-- What the agents other than DCC may change at a boundary, and nothing else: from `s` to `t`. The operation in flight, the
results, the fields and objects DCC alone writes stay (10_state.md R21, R60, R61; 44_swap_mode.md R266). -/
structure Between (s t : State) : Prop where
  cfg : t.cfg = s.cfg
  cmd : t.regs.cmd = s.regs.cmd
  res : t.regs.res = s.regs.res
  rlen : t.regs.rlen = s.regs.rlen
  rdb : t.regs.rdb = s.regs.rdb
  busy : t.regs.busy = s.regs.busy
  dcc : t.dcc = s.dcc
  srcctl : t.chip.srcctl = s.chip.srcctl
  dir : t.chip.dir = s.chip.dir
  chsel : t.chip.chsel = s.chip.chsel
  streamId : t.chip.streamId = s.chip.streamId
  streamTrig : t.chip.streamTrig = s.chip.streamTrig
  dbgTrig : t.chip.dbgTrig = s.chip.dbgTrig
  lutPower : ∀ c, (t.chip.act.get c).lutPower = (s.chip.act.get c).lutPower
  actEn : ∀ c, (t.chip.act.get c).actEn = (s.chip.act.get c).actEn
  actPt : ∀ c, (t.chip.act.get c).actPt = (s.chip.act.get c).actPt
  ramSel : ∀ c, (t.chip.act.get c).ramSel = (s.chip.act.get c).ramSel
  capObj : t.chip.capObj = s.chip.capObj
  modelObj : t.chip.modelObj = s.chip.modelObj
  mmodelObj : t.chip.mmodelObj = s.chip.mmodelObj
  swapEnObj : t.chip.swapEnObj = s.chip.swapEnObj
  trigPending : t.chip.trigPending = true → s.chip.trigPending = true
  bulk : s.chip.trigPending = false → t.chip.bulk = s.chip.bulk
  bus : t.env.bus = s.env.bus
  claimless : t.env.claimless = s.env.claimless
  hostQ : t.env.hostQ <:+ s.env.hostQ
  form : s.MemoryForm → t.MemoryForm

theorem Between.refl (s : State) : Between s s := by
  constructor <;> first | rfl | (intro; rfl) | exact id

theorem Between.trans {s t u : State} (h : Between s t) (g : Between t u) : Between s u where
  cfg := g.cfg.trans h.cfg
  cmd := g.cmd.trans h.cmd
  res := g.res.trans h.res
  rlen := g.rlen.trans h.rlen
  rdb := g.rdb.trans h.rdb
  busy := g.busy.trans h.busy
  dcc := g.dcc.trans h.dcc
  srcctl := g.srcctl.trans h.srcctl
  dir := g.dir.trans h.dir
  chsel := g.chsel.trans h.chsel
  streamId := g.streamId.trans h.streamId
  streamTrig := g.streamTrig.trans h.streamTrig
  dbgTrig := g.dbgTrig.trans h.dbgTrig
  lutPower c := (g.lutPower c).trans (h.lutPower c)
  actEn c := (g.actEn c).trans (h.actEn c)
  actPt c := (g.actPt c).trans (h.actPt c)
  ramSel c := (g.ramSel c).trans (h.ramSel c)
  capObj := g.capObj.trans h.capObj
  modelObj := g.modelObj.trans h.modelObj
  mmodelObj := g.mmodelObj.trans h.mmodelObj
  swapEnObj := g.swapEnObj.trans h.swapEnObj
  trigPending ht := h.trigPending (g.trigPending ht)
  bulk hs := by
    have ht : t.chip.trigPending = false := by
      cases hp : t.chip.trigPending with
      | false => rfl
      | true => rw [h.trigPending hp] at hs; cases hs
    rw [g.bulk ht, h.bulk hs]
  bus := g.bus.trans h.bus
  claimless := g.claimless.trans h.claimless
  hostQ := g.hostQ.trans h.hostQ
  form hs := g.form (h.form hs)

theorem Between.passTick (s : State) : Between s (passTick s) := by
  constructor <;> first | rfl | (intro; rfl) | exact id

theorem Between.engineDone (r : Vector Byte 26) (s : State) : Between s (engineDone r s) := by
  unfold Machine.engineDone
  split
  · rename_i h
    constructor <;> first | rfl | (intro; rfl) | exact id | exact List.suffix_refl _ | exact fun _ => h
  · exact .refl s

theorem Between.engineSample (x : Bool) (o : Fin 16384) (b : Byte) (s : State) :
    Between s (engineSample x o b s) := by
  unfold Machine.engineSample
  split
  · rename_i h
    have hp : s.chip.trigPending = true := (Bool.and_eq_true _ _ ▸ h).1
    constructor <;> first | rfl | (intro; rfl) | exact id | exact List.suffix_refl _ | skip
    · intro hn; rw [hp] at hn; cases hn
    · rintro ⟨h1, h2, h3, h4, h5, hw, hm⟩
      refine ⟨h1, h2, h3, h4, h5, Memory.wf_write hw, fun c hc => ?_⟩
      rcases Memory.mem_write hc with ⟨rfl, _⟩ | hc
      · exact bulkMapped_peakBase _ _ o.isLt
      · exact hm c hc
  · exact .refl s

/-- A write to the clock status changes no other actuator field. -/
theorem setField_actClk_act (ch : Chip) (i c : Chan) (v : BitVec 1) :
    ((setField ch (.actClk i) v).act.get c).lutPower = (ch.act.get c).lutPower ∧
    ((setField ch (.actClk i) v).act.get c).actEn = (ch.act.get c).actEn ∧
    ((setField ch (.actClk i) v).act.get c).actPt = (ch.act.get c).actPt ∧
    ((setField ch (.actClk i) v).act.get c).ramSel = (ch.act.get c).ramSel := by
  simp only [setField, updateAct, get_set]
  split
  · rename_i h; subst h; exact ⟨rfl, rfl, rfl, rfl⟩
  · exact ⟨rfl, rfl, rfl, rfl⟩

theorem Between.streamRun (k : Nat) (s : State) : Between s (streamRun k s) := by
  unfold Machine.streamRun
  split
  · rename_i i en _
    constructor <;> first | rfl | (intro; rfl) | exact id | exact List.suffix_refl _ | skip
    · exact fun c => (setField_actClk_act s.chip i c en).1
    · exact fun c => (setField_actClk_act s.chip i c en).2.1
    · exact fun c => (setField_actClk_act s.chip i c en).2.2.1
    · exact fun c => (setField_actClk_act s.chip i c en).2.2.2
  · exact .refl s

theorem Between.firmwareStatus (c : Chan) (r : Vector Byte 2) (s : State) : Between s (firmwareStatus c r s) := by
  unfold Machine.firmwareStatus
  split
  · constructor <;> first | rfl | (intro; rfl) | exact id
  · exact .refl s

theorem Between.runMove (s : State) (m : EnvMove) : Between s (runMove s m) := by
  cases m with
  | capture r => exact .engineDone r s
  | peakSample x o b => exact .engineSample x o b s
  | stream k => exact .streamRun k s
  | firmware c r => exact .firmwareStatus c r s

theorem Between.runMoves (ms : List EnvMove) (s : State) : Between s (runMoves ms s) := by
  induction ms generalizing s with
  | nil => exact .refl s
  | cons m ms ih => exact (Between.runMove s m).trans (ih (Machine.runMove s m))

/-- The turn of the agents behind the transport. -/
theorem Between.envTurn (s : State) : Between s (envTurn s) :=
  (Between.passTick s).trans (.runMoves _ _)

theorem Between.hostAccess (s : State) (a : HostAct) : Between s (hostAccess s a) := by
  cases a with
  | writeOpb a b =>
    constructor <;> first | rfl | (intro; rfl) | exact id | exact List.suffix_refl _ | skip
    rintro ⟨⟨hw, hb⟩, h⟩
    exact ⟨⟨Memory.wf_write hw, Memory.bounded_write hb a.isLt⟩, h⟩
  | _ => constructor <;> first | rfl | (intro; rfl) | exact id

theorem Between.withHostQ {s : State} {q : List HostAct} (h : q <:+ s.env.hostQ) : Between s (withHostQ s q) := by
  constructor <;> first | rfl | (intro; rfl) | exact id | exact h

/-- The host's turn: it changes what `Between` allows, or it asserts the reset after that. -/
theorem hostTurn_cases (q : List HostAct) (s : State) (h : q <:+ s.env.hostQ) :
    (∃ s1, Between s s1 ∧ hostTurn q s = (s1, false)) ∨
    (∃ s1, Between s s1 ∧ .reset ∈ q ∧ hostTurn q s = (dccReset s1, true)) := by
  induction q generalizing s with
  | nil => exact .inl ⟨_, .withHostQ (List.nil_suffix), rfl⟩
  | cons a q ih =>
    have hq : q <:+ s.env.hostQ := (List.suffix_cons a q).trans h
    have hs : q <:+ (hostAccess s a).env.hostQ := by cases a <;> exact hq
    have go : (∃ s1, Between s s1 ∧ hostTurn q (hostAccess s a) = (s1, false)) ∨
        (∃ s1, Between s s1 ∧ .reset ∈ a :: q ∧ hostTurn q (hostAccess s a) = (dccReset s1, true)) := by
      rcases ih (hostAccess s a) hs with ⟨s1, hb, he⟩ | ⟨s1, hb, hm, he⟩
      · exact .inl ⟨s1, (Between.hostAccess s a).trans hb, he⟩
      · exact .inr ⟨s1, (Between.hostAccess s a).trans hb, List.mem_cons_of_mem _ hm, he⟩
    cases a with
    | wait => exact .inl ⟨_, .withHostQ h, rfl⟩
    | chipReset c => exact .inl ⟨_, .withHostQ h, rfl⟩
    | pause => exact .inl ⟨_, .withHostQ hq, rfl⟩
    | reset => exact .inr ⟨_, .withHostQ hq, List.mem_cons_self, rfl⟩
    | writeCmd w => exact go
    | writeOplen v => exact go
    | writeOpb x b => exact go
    | writeCtrl v => exact go
    | read r => exact go

/-- A property that every move keeps is kept by a turn of the agents behind the transport. -/
theorem runMoves_keeps {P : State → Prop} (h : ∀ s m, P s → P (runMove s m)) (ms : List EnvMove) (s : State) (hs : P s) :
    P (runMoves ms s) := by
  induction ms generalizing s with
  | nil => exact hs
  | cons m ms ih => exact ih (runMove s m) (h s m hs)

/-- What a move leaves of the environment: all but the outstanding stream requests. -/
theorem runMove_env (s : State) (m : EnvMove) :
    (runMove s m).env = { s.env with streamReqs := (runMove s m).env.streamReqs } := by
  cases m <;> simp only [runMove, engineDone, engineSample, streamRun, firmwareStatus] <;> split <;> rfl

/-- What a turn leaves of the environment. -/
theorem envTurn_env (s : State) :
    (envTurn s).env = { (passTick s).env with streamReqs := (envTurn s).env.streamReqs } := by
  refine runMoves_keeps (P := fun u => u.env = { (passTick s).env with streamReqs := u.env.streamReqs }) ?_ _ _ rfl
  intro u m h
  rw [runMove_env, h]

@[simp] theorem envTurn_hostQ (s : State) : (envTurn s).env.hostQ = s.env.hostQ := by rw [envTurn_env]; rfl
@[simp] theorem envTurn_script (s : State) : (envTurn s).env.script = s.env.script.tail := by rw [envTurn_env]; rfl
@[simp] theorem envTurn_draws (s : State) : (envTurn s).env.draws = s.env.draws + 1 := by rw [envTurn_env]; rfl
@[simp] theorem envTurn_updLive (s : State) : (envTurn s).env.updLive = s.env.updLive := by rw [envTurn_env]; rfl
@[simp] theorem envTurn_trigChan (s : State) : (envTurn s).env.trigChan = s.env.trigChan := by rw [envTurn_env]; rfl
@[simp] theorem envTurn_trigExt (s : State) : (envTurn s).env.trigExt = s.env.trigExt := by rw [envTurn_env]; rfl
@[simp] theorem envTurn_bus (s : State) : (envTurn s).env.bus = s.env.bus := by rw [envTurn_env]; rfl
@[simp] theorem envTurn_seen (s : State) : (envTurn s).env.seen = s.env.seen := by rw [envTurn_env]; rfl
@[simp] theorem envTurn_claimless (s : State) : (envTurn s).env.claimless = s.env.claimless := by rw [envTurn_env]; rfl
@[simp] theorem envTurn_cfg (s : State) : (envTurn s).cfg = s.cfg := (Between.envTurn s).cfg
@[simp] theorem envTurn_dcc (s : State) : (envTurn s).dcc = s.dcc := (Between.envTurn s).dcc

@[simp] theorem envTurn_regs (s : State) : (envTurn s).regs = s.regs := by
  refine runMoves_keeps (P := fun u => u.regs = s.regs) ?_ _ _ rfl
  intro u m h
  rw [← h]
  cases m <;> simp only [runMove, engineDone, engineSample, streamRun, firmwareStatus] <;> split <;> rfl

/-- A turn does not look at the host registers, at the state local to DCC, nor at the parts of the chip and of the record of
transactions that DCC alone writes: what DCC does to them commutes with the turns of the other agents. -/
theorem envTurn_with (s : State) (r : HostRegs) (d : DccRegs) (src : Vector (BitVec 4) 5) (dir : Vector Dir 19)
    (t h i g : Nat) (co mo mm sw : Memory) (b : List BusEntry) :
    envTurn { s with
      regs := r, dcc := d
      chip := { s.chip with
        srcctl := src, dir := dir, dbgTrig := t, chsel := h, streamId := i, streamTrig := g, capObj := co, modelObj := mo
        mmodelObj := mm, swapEnObj := sw }
      env := { s.env with bus := b } } =
    { envTurn s with
      regs := r, dcc := d
      chip := { (envTurn s).chip with
        srcctl := src, dir := dir, dbgTrig := t, chsel := h, streamId := i, streamTrig := g, capObj := co, modelObj := mo
        mmodelObj := mm, swapEnObj := sw }
      env := { (envTurn s).env with bus := b } } := by
  have hm : ∀ ms (u : State), runMoves ms { u with
      regs := r, dcc := d
      chip := { u.chip with
        srcctl := src, dir := dir, dbgTrig := t, chsel := h, streamId := i, streamTrig := g, capObj := co, modelObj := mo
        mmodelObj := mm, swapEnObj := sw }
      env := { u.env with bus := b } } = { runMoves ms u with
      regs := r, dcc := d
      chip := { (runMoves ms u).chip with
        srcctl := src, dir := dir, dbgTrig := t, chsel := h, streamId := i, streamTrig := g, capObj := co, modelObj := mo
        mmodelObj := mm, swapEnObj := sw }
      env := { (runMoves ms u).env with bus := b } } := by
    intro ms
    induction ms with
    | nil => exact fun _ => rfl
    | cons m ms ih =>
      intro u
      refine Eq.trans (congrArg (runMoves ms) ?_) (ih (runMove u m))
      cases m <;> simp only [runMove, engineDone, engineSample, streamRun, firmwareStatus] <;> split <;> rfl
  exact hm _ (passTick s)

/-- The same, for a state named by what it shares with `s`: it is `s` but for the parts DCC alone writes. -/
structure SameElsewhere (s t : State) : Prop where
  cfg : t.cfg = s.cfg
  chip : t.chip = { s.chip with
    srcctl := t.chip.srcctl, dir := t.chip.dir, dbgTrig := t.chip.dbgTrig, chsel := t.chip.chsel
    streamId := t.chip.streamId, streamTrig := t.chip.streamTrig, capObj := t.chip.capObj, modelObj := t.chip.modelObj
    mmodelObj := t.chip.mmodelObj, swapEnObj := t.chip.swapEnObj }
  env : t.env = { s.env with bus := t.env.bus }

theorem SameElsewhere.eq {s t : State} (h : SameElsewhere s t) : t = { s with
    regs := t.regs, dcc := t.dcc
    chip := { s.chip with
      srcctl := t.chip.srcctl, dir := t.chip.dir, dbgTrig := t.chip.dbgTrig, chsel := t.chip.chsel
      streamId := t.chip.streamId, streamTrig := t.chip.streamTrig, capObj := t.chip.capObj, modelObj := t.chip.modelObj
      mmodelObj := t.chip.mmodelObj, swapEnObj := t.chip.swapEnObj }
    env := { s.env with bus := t.env.bus } } := by
  obtain ⟨h1, h2, h3⟩ := h
  cases t; cases s
  simp only at h1 h2 h3
  subst h1
  simp only [State.mk.injEq, true_and]
  exact ⟨h2, h3⟩

/-- A turn from a state that differs only in what DCC alone writes: the same turn, and that part as it was. -/
theorem SameElsewhere.envTurn {s t : State} (h : SameElsewhere s t) :
    (envTurn t).chip = { (Machine.envTurn s).chip with
      srcctl := t.chip.srcctl, dir := t.chip.dir, dbgTrig := t.chip.dbgTrig, chsel := t.chip.chsel
      streamId := t.chip.streamId, streamTrig := t.chip.streamTrig, capObj := t.chip.capObj, modelObj := t.chip.modelObj
      mmodelObj := t.chip.mmodelObj, swapEnObj := t.chip.swapEnObj } ∧
    (Machine.envTurn t).env = { (Machine.envTurn s).env with bus := t.env.bus } := by
  have he := envTurn_with s t.regs t.dcc t.chip.srcctl t.chip.dir t.chip.dbgTrig t.chip.chsel t.chip.streamId
    t.chip.streamTrig t.chip.capObj t.chip.modelObj t.chip.mmodelObj t.chip.swapEnObj t.env.bus
  rw [← h.eq] at he
  rw [he]
  exact ⟨rfl, rfl⟩

/-- Two states that agree elsewhere agree elsewhere after a turn. -/
theorem SameElsewhere.turn {s t : State} (h : SameElsewhere s t) : SameElsewhere (Machine.envTurn s) (Machine.envTurn t) := by
  obtain ⟨hc, he⟩ := h.envTurn
  refine ⟨by simp [h.cfg], ?_, by rw [he]⟩
  rw [hc]

theorem SameElsewhere.refl (s : State) : SameElsewhere s s := ⟨rfl, rfl, rfl⟩

theorem SameElsewhere.trans {s t u : State} (h : SameElsewhere s t) (g : SameElsewhere t u) : SameElsewhere s u :=
  ⟨g.cfg.trans h.cfg, by rw [g.chip, h.chip], by rw [g.env, h.env]⟩

/-- The same over `n` turns. -/
theorem SameElsewhere.turns {s t : State} (n : Nat) (h : SameElsewhere s t) : SameElsewhere (envTurns n s) (envTurns n t) := by
  induction n generalizing s t with
  | zero => exact h
  | succ n ih => exact ih h.turn

@[simp] theorem envTurn_startOperation_chip (s : State) : (envTurn (startOperation s)).chip = (envTurn s).chip := by
  have h : SameElsewhere s (startOperation s) := ⟨rfl, rfl, rfl⟩
  rw [h.envTurn.1]
  simp only [startOperation_chip, ← (Between.envTurn s).srcctl, ← (Between.envTurn s).dir, ← (Between.envTurn s).dbgTrig,
    ← (Between.envTurn s).chsel, ← (Between.envTurn s).streamId, ← (Between.envTurn s).streamTrig,
    ← (Between.envTurn s).capObj, ← (Between.envTurn s).modelObj, ← (Between.envTurn s).mmodelObj,
    ← (Between.envTurn s).swapEnObj]

@[simp] theorem envTurn_startOperation_env (s : State) : (envTurn (startOperation s)).env = (envTurn s).env := by
  have h : SameElsewhere s (startOperation s) := ⟨rfl, rfl, rfl⟩
  rw [h.envTurn.2, startOperation_env, ← envTurn_bus s]

/-- A boundary: the other agents change what `Between` allows and the transport's answer is ready, or the host resets DCC. -/
theorem boundary_cases (s : State) :
    (∃ s1, Between s s1 ∧ boundary.run s = .ok (nextTick s.env).answer s1) ∨
    (∃ s1, Between s s1 ∧ .reset ∈ s.env.hostQ ∧ boundary.run s = .error .dropped (dccReset s1)) := by
  have he := Between.envTurn s
  have hq := envTurn_hostQ s
  unfold boundary
  rw [run_of]
  rcases hostTurn_cases s.env.hostQ (envTurn s) (hq ▸ List.suffix_refl _) with ⟨s1, hb, h⟩ | ⟨s1, hb, hm, h⟩
  · rw [h]; exact .inl ⟨s1, he.trans hb, rfl⟩
  · rw [h]; exact .inr ⟨s1, he.trans hb, hm, rfl⟩

/-- A boundary without a transaction. -/
theorem turn_cases (s : State) :
    (∃ s1, Between s s1 ∧ turn.run s = .ok () s1) ∨
    (∃ s1, Between s s1 ∧ .reset ∈ s.env.hostQ ∧ turn.run s = .error .dropped (dccReset s1)) := by
  unfold turn
  rcases boundary_cases s with ⟨s1, hb, h⟩ | ⟨s1, hb, hr, h⟩
  · rw [run_bind_ok h]; exact .inl ⟨s1, hb, rfl⟩
  · rw [run_bind_error h]; exact .inr ⟨s1, hb, hr, rfl⟩

/-- The rule for it. -/
theorem Runs.turn {P : State → Prop} {Q : Unit → State → Prop} {E : Stop → State → Prop}
    (hok : ∀ s s1, P s → Between s s1 → Q () s1)
    (hdrop : ∀ s s1, P s → Between s s1 → .reset ∈ s.env.hostQ → E .dropped (dccReset s1)) :
    Runs P Machine.turn Q E := by
  intro s hs
  rcases turn_cases s with ⟨s1, hb, h⟩ | ⟨s1, hb, hr, h⟩
  · rw [h]; exact hok s s1 hs hb
  · rw [h]; exact hdrop s s1 hs hb hr

/-- The rule for a write of DCC-local state. -/
theorem Runs.writeLocal {P : State → Prop} {Q : Unit → State → Prop} {E : Stop → State → Prop} {f : DccRegs → DccRegs}
    (hok : ∀ s s1, P s → Between s s1 → Q () (updateDcc f s1))
    (hdrop : ∀ s s1, P s → Between s s1 → .reset ∈ s.env.hostQ → E .dropped (dccReset s1)) :
    Runs P (Machine.writeLocal f) Q E :=
  Runs.bind (R := fun _ s1 => ∃ s, P s ∧ Between s s1) (Runs.turn (fun s _ h hb => ⟨s, h, hb⟩) hdrop)
    fun _ => Runs.update fun s1 ⟨s, h, hb⟩ => hok s s1 h hb

/-- The exit of an operation: behind one more boundary, unless a reset drops the operation there. -/
theorem leave_cases (exit : State → State) (s : State) :
    (∃ s1, Between s s1 ∧ leave exit s = exit s1) ∨
    (∃ s1, Between s s1 ∧ .reset ∈ s.env.hostQ ∧ leave exit s = dccReset s1) := by
  unfold leave
  rcases turn_cases s with ⟨s1, hb, h⟩ | ⟨s1, hb, hr, h⟩
  · rw [h]; exact .inl ⟨s1, hb, rfl⟩
  · rw [h]; exact .inr ⟨s1, hb, hr, rfl⟩

/-- A rule for a whole operation: what its sequence establishes, the boundary before the exit and the exit keep. -/
theorem runOperation_of_runs {fam : Bool} {body : M Result} {P : State → Prop} {Q : Result → State → Prop}
    {E : Stop → State → Prop} {C : State → Prop} {s : State} (h : Runs P body Q E) (hp : P (startOperation s))
    (hq : ∀ r t u, Q r t → Between t u → C (returnOk r u))
    (he : ∀ c t u, E (.raised c) t → Between t u → C (takeResult fam c u))
    (hd : ∀ t, E .dropped t → C t)
    (hr : ∀ r t u, Q r t → Between t u → .reset ∈ t.env.hostQ → C (dccReset u))
    (hx : ∀ c t u, E (.raised c) t → Between t u → .reset ∈ t.env.hostQ → C (dccReset u)) :
    C (runOperation fam body s) := by
  have := h _ hp
  unfold runOperation
  cases hm : body.run (startOperation s) with
  | ok r s1 =>
    rw [hm] at this
    rcases leave_cases (returnOk r) s1 with ⟨u, hb, hl⟩ | ⟨u, hb, hres, hl⟩
    · exact (congrArg C hl).mpr (hq r s1 u this hb)
    · exact (congrArg C hl).mpr (hr r s1 u this hb hres)
  | error e s1 =>
    rw [hm] at this
    cases e with
    | dropped => exact hd s1 this
    | raised c =>
      rcases leave_cases (takeResult fam c) s1 with ⟨u, hb, hl⟩ | ⟨u, hb, hres, hl⟩
      · exact (congrArg C hl).mpr (he c s1 u this hb)
      · exact (congrArg C hl).mpr (hx c s1 u this hb hres)

/-! ## One transport transaction -/

/-- Every failure of a transaction is a transport failure (60_exceptions.md R293). -/
theorem answerFailure_class {m : Bool} {a : Answer} {c : ResultClass} (h : answerFailure m a = some c) :
    isTransportFailure c = true := by
  unfold answerFailure at h
  split at h
  · cases h
  · cases h; rfl
  · cases h; rfl
  · split at h
    · cases h
    · split at h <;> cases h <;> rfl

/-- Everything one transaction can do: its effect after a boundary, its torn effect and a transport failure after a
boundary, or a reset that drops the operation. -/
theorem transact_cases {α : Type} (t : Txn) (done : State → α × State) (torn : Nat → State → State) (s : State) :
    (∃ s1, Between s s1 ∧ (transact t done torn).run s = .ok (done s1).1 (logTxn t true (done s1).2)) ∨
    (∃ s1 c, Between s s1 ∧ isTransportFailure c = true ∧
      (transact t done torn).run s = .error (.raised c) (logTxn t false (torn s1.env.draws s1))) ∨
    (∃ s1, Between s s1 ∧ .reset ∈ s.env.hostQ ∧ (transact t done torn).run s = .error .dropped (dccReset s1)) := by
  unfold transact
  rcases boundary_cases s with ⟨s1, hb, h⟩ | ⟨s1, hb, hr, h⟩
  · rw [run_bind_ok h]
    cases ha : answerFailure (isMailbox t) (nextTick s.env).answer with
    | none => exact .inl ⟨s1, hb, rfl⟩
    | some c => exact .inr (.inl ⟨s1, c, hb, answerFailure_class ha, rfl⟩)
  · rw [run_bind_error h]
    exact .inr (.inr ⟨s1, hb, hr, rfl⟩)

/-- The rule for a transaction. -/
theorem Runs.transact {α : Type} {P : State → Prop} {Q : α → State → Prop} {E : Stop → State → Prop} {t : Txn}
    {done : State → α × State} {torn : Nat → State → State}
    (hok : ∀ s s1, P s → Between s s1 → Q (done s1).1 (logTxn t true (done s1).2))
    (hfail : ∀ s s1 c, P s → Between s s1 → isTransportFailure c = true →
      E (.raised c) (logTxn t false (torn s1.env.draws s1)))
    (hdrop : ∀ s s1, P s → Between s s1 → .reset ∈ s.env.hostQ → E .dropped (dccReset s1)) :
    Runs P (Machine.transact t done torn) Q E := by
  intro s hs
  rcases transact_cases t done torn s with ⟨s1, hb, h⟩ | ⟨s1, c, hb, hc, h⟩ | ⟨s1, hb, hr, h⟩
  · rw [h]; exact hok s s1 hs hb
  · rw [h]; exact hfail s s1 c hs hb hc
  · rw [h]; exact hdrop s s1 hs hb hr

/-! ## Transactions while the host waits -/

theorem HostWaits.of_hostQ {s t : State} (h : HostWaits s) (hq : t.env.hostQ = s.env.hostQ) : HostWaits t := by
  unfold HostWaits at *; rw [hq]; exact h

/-- While the host waits its turn changes nothing, and the boundary is the turn of the agents behind the transport. -/
theorem boundary_of_waits {s : State} (h : HostWaits s) :
    boundary.run s = .ok (nextTick s.env).answer (envTurn s) := by
  have hq := envTurn_hostQ s
  have ht : hostTurn s.env.hostQ (envTurn s) = (envTurn s, false) := by
    rcases h with h | h
    · have : envTurn s = withHostQ (envTurn s) [] := by rw [← h, ← hq]; rfl
      rw [h]; exact congrArg (·, false) this.symm
    · cases hs : s.env.hostQ with
      | nil => rw [hs] at h; cases h
      | cons a q =>
        rw [hs] at h; cases h
        have : envTurn s = withHostQ (envTurn s) (.wait :: q) := by rw [← hs, ← hq]; rfl
        exact congrArg (·, false) this.symm
  unfold boundary
  rw [run_of, ht]

/-- A boundary without a transaction, while the host waits. -/
theorem turn_of_waits {s : State} (h : HostWaits s) : turn.run s = .ok () (envTurn s) := by
  unfold turn
  rw [run_bind_ok (boundary_of_waits h), run_pure]

theorem writeLocal_of_waits {f : DccRegs → DccRegs} {s : State} (h : HostWaits s) :
    (writeLocal f).run s = .ok () (updateDcc f (envTurn s)) := by
  unfold writeLocal
  rw [run_bind_ok (turn_of_waits h), run_update]

theorem setCapState_of_waits {c : CapState} {s : State} (h : HostWaits s) :
    (setCapState c).run s = .ok () (updateDcc (fun d => { d with capState := c }) (envTurn s)) := writeLocal_of_waits h

theorem setTag_of_waits {p : Pin} {t : Tag} {s : State} (h : HostWaits s) :
    (setTag p t).run s = .ok () (updateDcc (fun d => { d with tag := d.tag.set p t }) (envTurn s)) := writeLocal_of_waits h

theorem leave_of_waits {exit : State → State} {s : State} (h : HostWaits s) : leave exit s = exit (envTurn s) := by
  unfold leave
  rw [turn_of_waits h]

/-- A transaction the transport answers with success, while the host waits. -/
theorem transact_served {α : Type} {t : Txn} {done : State → α × State} {torn : Nat → State → State} {s : State}
    (h : HostWaits s) (ha : answerFailure (isMailbox t) (nextTick s.env).answer = none) :
    (transact t done torn).run s = .ok (done (envTurn s)).1 (logTxn t true (done (envTurn s)).2) := by
  unfold transact
  rw [run_bind_ok (boundary_of_waits h), ha, run_of]

/-- A transaction the transport fails, while the host waits. -/
theorem transact_failed {α : Type} {t : Txn} {done : State → α × State} {torn : Nat → State → State} {s : State}
    {c : ResultClass} (h : HostWaits s) (ha : answerFailure (isMailbox t) (nextTick s.env).answer = some c) :
    (transact t done torn).run s =
      .error (.raised c) (logTxn t false (torn (envTurn s).env.draws (envTurn s))) := by
  unfold transact
  rw [run_bind_ok (boundary_of_waits h), ha, run_of]

/-- An answer that is a success for a mailbox transaction is one for every transaction (60_exceptions.md R293, R294). -/
theorem answerFailure_of_served {t : Tick} (h : Served t) (m : Bool) : answerFailure m t.answer = none := by
  unfold Served at h
  cases m
  · revert h
    unfold answerFailure
    cases t.answer <;> simp
  · exact h

/-! ## The transport primitives, answered with success while the host waits (20_memory.md R74 to R81) -/

theorem fieldRead_served {f : Field} {s : State} (h : HostWaits s) (ha : Served (nextTick s.env)) :
    (fieldRead f).run s = .ok (getField (envTurn s).chip f) (logTxn (.fieldRead f) true (envTurn s)) := by
  unfold fieldRead readTxn
  exact transact_served h (answerFailure_of_served ha _)

/-- What no other agent writes: every field but the clock status. -/
def Field.ownedByDcc : Field → Bool
  | .actClk _ => false
  | _ => true

/-- No agent but DCC writes the register of such a field, so its image is the register at the write (20_memory.md R92;
log 21). -/
theorem Between.copyRegister {s t : State} (h : Between s t) {f : Field} (hf : f.ownedByDcc = true) :
    copyRegister s.chip f t.chip = t.chip := by
  have hset : ∀ (v : Vector Actuator 4) (c : Chan) (a : Actuator), a = v.get c → v.set c a = v := by
    intro v c a ha
    refine Vector.ext fun k hk => ?_
    rw [Vector.getElem_set]
    split
    · rename_i hck; subst hck; exact ha
    · rfl
  have hctl : ∀ c, copyControl s.chip c t.chip = t.chip := by
    intro c
    unfold copyControl updateAct
    rw [hset _ _ _ (by rw [← h.actEn c, ← h.actPt c, ← h.ramSel c])]
  cases f with
  | srcctl g => unfold Machine.copyRegister; simp only [← h.srcctl]
  | lutPower c l =>
    unfold Machine.copyRegister updateAct
    simp only
    rw [hset _ _ _ (by rw [← h.lutPower c])]
  | actEn c => exact hctl c
  | actPt c => exact hctl c
  | ramSel c => exact hctl c
  | actClk c => cases hf

/-- Everything a `FieldWrite` can do: the field written after a boundary or two, the field torn and a transport failure, or
a reset that drops the operation. -/
theorem fieldWrite_cases {f : Field} (hf : f.ownedByDcc = true) (v : BitVec f.width) (s : State) :
    (∃ s1, Between s s1 ∧ (fieldWrite f v).run s =
      .ok () (logTxn (.fieldWrite f v.toNat) true (updateChip (fun ch => setField ch f v) s1))) ∨
    (∃ s1 c d, Between s s1 ∧ isTransportFailure c = true ∧ (fieldWrite f v).run s = .error (.raised c)
      (logTxn (.fieldWrite f v.toNat) false
        (updateChip (fun ch => setField ch f (tornBits d 0 (getField ch f) v)) s1))) ∨
    (∃ s1, Between s s1 ∧ .reset ∈ s.env.hostQ ∧ (fieldWrite f v).run s = .error .dropped (dccReset s1)) := by
  unfold fieldWrite writeTxn
  rcases turn_cases s with ⟨s1, hb, h⟩ | ⟨s1, hb, hr, h⟩
  · rw [run_bind_ok h, run_ask_bind]
    rcases transact_cases (.fieldWrite f v.toNat)
      (fun u => ((), updateChip (fun ch => setField (Machine.copyRegister s1.chip f ch) f v) u))
      (fun d => updateChip fun ch => setField ch f (tornBits d 0 (getField ch f) v)) s1 with
      ⟨s2, hb2, h2⟩ | ⟨s2, c, hb2, hc, h2⟩ | ⟨s2, hb2, hr, h2⟩
    · refine .inl ⟨s2, hb.trans hb2, ?_⟩
      rw [h2]
      show EStateM.Result.ok () (logTxn _ true (updateChip _ s2)) = _
      unfold updateChip
      simp only [hb2.copyRegister hf]
    · exact .inr (.inl ⟨s2, c, _, hb.trans hb2, hc, h2⟩)
    · exact .inr (.inr ⟨s2, hb.trans hb2, hb.hostQ.subset hr, h2⟩)
  · rw [run_bind_error h]
    exact .inr (.inr ⟨s1, hb, hr, rfl⟩)

/-- The rule for a `FieldWrite`. -/
theorem Runs.fieldWrite {P : State → Prop} {Q : Unit → State → Prop} {E : Stop → State → Prop} {f : Field}
    {v : BitVec f.width} (hf : f.ownedByDcc = true)
    (hok : ∀ s s1, P s → Between s s1 →
      Q () (logTxn (.fieldWrite f v.toNat) true (updateChip (fun ch => setField ch f v) s1)))
    (hfail : ∀ s s1 c d, P s → Between s s1 → isTransportFailure c = true →
      E (.raised c) (logTxn (.fieldWrite f v.toNat) false
        (updateChip (fun ch => setField ch f (tornBits d 0 (getField ch f) v)) s1)))
    (hdrop : ∀ s s1, P s → Between s s1 → .reset ∈ s.env.hostQ → E .dropped (dccReset s1)) :
    Runs P (Machine.fieldWrite f v) Q E := by
  intro s hs
  rcases fieldWrite_cases hf v s with ⟨s1, hb, h⟩ | ⟨s1, c, d, hb, hc, h⟩ | ⟨s1, hb, hr, h⟩
  · rw [h]; exact hok s s1 hs hb
  · rw [h]; exact hfail s s1 c d hs hb hc
  · rw [h]; exact hdrop s s1 hs hb hr

/-- Two boundaries, and the transport's answer is that of the second. -/
theorem fieldWrite_served {f : Field} {v : BitVec f.width} {s : State} (hf : f.ownedByDcc = true) (h : HostWaits s)
    (ha : Served (nextTick (envTurn s).env)) :
    (fieldWrite f v).run s = .ok () (logTxn (.fieldWrite f v.toNat) true
      (updateChip (fun ch => setField ch f v) (envTurn (envTurn s)))) := by
  unfold fieldWrite writeTxn
  rw [run_bind_ok (turn_of_waits h), run_ask_bind]
  rw [transact_served (h.of_hostQ (envTurn_hostQ s)) (answerFailure_of_served ha _)]
  show EStateM.Result.ok () (logTxn _ true (updateChip _ _)) = _
  unfold updateChip
  simp only [(Between.envTurn (envTurn s)).copyRegister hf]

theorem fieldWrite_failed {f : Field} {v : BitVec f.width} {s : State} {c : ResultClass} (h : HostWaits s)
    (ha : answerFailure false (nextTick (envTurn s).env).answer = some c) :
    (fieldWrite f v).run s = .error (.raised c) (logTxn (.fieldWrite f v.toNat) false
      (updateChip (fun ch => setField ch f (tornBits (s.env.draws + 2) 0 (getField ch f) v)) (envTurn (envTurn s)))) := by
  unfold fieldWrite writeTxn
  have hw : HostWaits (envTurn s) := h.of_hostQ (envTurn_hostQ s)
  rw [run_bind_ok (turn_of_waits h), run_ask_bind]
  rw [transact_failed (t := .fieldWrite f v.toNat) hw ha]
  simp

theorem memRead_served {a n : Nat} {s : State} (h : HostWaits s) (ha : Served (nextTick s.env)) :
    (memRead a n).run s = .ok ((envTurn s).chip.bulk.readBytes a n) (logTxn (.memRead a n) true (envTurn s)) := by
  unfold memRead readTxn
  exact transact_served h (answerFailure_of_served ha _)

theorem memWrite_served {a : Nat} {bs : List Byte} {s : State} (h : HostWaits s) (ha : Served (nextTick s.env)) :
    (memWrite a bs).run s =
      .ok () (logTxn (.memWrite a bs) true
        (updateChip (fun ch => { ch with bulk := ch.bulk.writeBytes a bs }) (envTurn s))) := by
  unfold memWrite writeTxn
  exact transact_served h (answerFailure_of_served ha _)

theorem gpioDirSet_served {p : Pin} {d : Dir} {s : State} (h : HostWaits s) (ha : Served (nextTick s.env)) :
    (gpioDirSet p d).run s =
      .ok () (logTxn (.gpioDirSet p d) true (updateChip (fun ch => { ch with dir := ch.dir.set p d }) (envTurn s))) := by
  unfold gpioDirSet writeTxn
  exact transact_served h (answerFailure_of_served ha _)

theorem mboxCfgRead_served {o : MboxObj} {off n : Nat} {s : State} (h : HostWaits s) (ha : Served (nextTick s.env)) :
    (mboxCfgRead o off n).run s = .ok ((getObj (envTurn s).chip o).readBytes off n)
      (logTxn (.cfgRead (objId s.cfg o) off n) true (envTurn s)) := by
  unfold mboxCfgRead readTxn
  rw [run_ask_bind]
  exact transact_served h (answerFailure_of_served ha _)

theorem mboxCfgWrite_served {o : MboxObj} {off : Nat} {bs : List Byte} {s : State} (h : HostWaits s)
    (ha : Served (nextTick s.env)) :
    (mboxCfgWrite o off bs).run s = .ok () (logTxn (.cfgWrite (objId s.cfg o) off bs) true
      (updateChip (fun ch => setObj ch o ((getObj ch o).writeBytes off bs)) (envTurn s))) := by
  unfold mboxCfgWrite writeTxn
  rw [run_ask_bind]
  exact transact_served h (answerFailure_of_served ha _)

theorem mboxGet_served {α : Type} {c : MboxCmd} {sel : List Byte} {n : Nat} {get : State → α} {s : State}
    (h : HostWaits s) (ha : Served (nextTick s.env)) :
    (mboxGet c sel n get).run s = .ok (get (envTurn s)) (logTxn (.mboxGet (cmdId s.cfg c) sel n) true (envTurn s)) := by
  unfold mboxGet readTxn
  rw [run_ask_bind]
  exact transact_served h (answerFailure_of_served ha _)

theorem mboxSet_served {c : MboxCmd} {payload : List Byte} {put : State → State} {torn : Nat → State → State} {s : State}
    (h : HostWaits s) (ha : Served (nextTick s.env)) :
    (mboxSet c payload put torn).run s =
      .ok () (logTxn (.mboxSet (cmdId s.cfg c) payload) true (put (envTurn s))) := by
  unfold mboxSet writeTxn
  rw [run_ask_bind]
  exact transact_served h (answerFailure_of_served ha _)

theorem regWrite_served {r : ChipReg} {v : Nat} {request : State → State} {s : State} (h : HostWaits s)
    (ha : Served (nextTick s.env)) :
    (regWrite r v request).run s = .ok () (logTxn (.regWrite (regAddress s.cfg r) v) true
      (request (updateChip (fun ch => setReg ch r v) (envTurn s)))) := by
  unfold regWrite writeTxn
  rw [run_ask_bind]
  exact transact_served h (answerFailure_of_served ha _)

/-! ## Environments -/

theorem tickAt_zero (e : Env) : tickAt e 0 = nextTick e := by
  unfold tickAt nextTick
  cases e.script <;> rfl

/-- The ticks from a state on which one boundary has passed. -/
theorem tickAt_succ {e e' : Env} (hs : e'.script = e.script.tail) (hd : e'.draws = e.draws + 1) (k : Nat) :
    tickAt e' k = tickAt e (k + 1) := by
  unfold tickAt
  rw [hs, hd]
  cases e.script <;> simp [Nat.add_assoc, Nat.add_comm 1]

theorem Quiet.head {n : Nat} {s : State} (h : Quiet (n + 1) s) : nextTick s.env = { moves := [], answer := .ok } :=
  tickAt_zero s.env ▸ h 0 (Nat.zero_lt_succ n)

theorem Quiet.served {n : Nat} {s : State} (h : Quiet (n + 1) s) : Served (nextTick s.env) := by rw [h.head]; rfl

/-- At a quiet boundary nothing happens but the passing of the tick. -/
theorem Quiet.envTurn {n : Nat} {s : State} (h : Quiet (n + 1) s) : envTurn s = passTick s := by
  unfold Machine.envTurn; rw [h.head]; rfl

theorem Quiet.next {n : Nat} {s t : State} (h : Quiet (n + 1) s) (hs : t.env.script = s.env.script.tail)
    (hd : t.env.draws = s.env.draws + 1) : Quiet n t :=
  fun k hk => (tickAt_succ hs hd k).trans (h (k + 1) (Nat.succ_lt_succ hk))

theorem Quiet.of_env {n : Nat} {s t : State} (h : Quiet n s) (hs : t.env.script = s.env.script)
    (hd : t.env.draws = s.env.draws) : Quiet n t := by
  intro k hk
  rw [← h k hk]
  unfold tickAt
  rw [hs, hd]

theorem Quiet.mono {m n : Nat} {s : State} (h : Quiet n s) (hm : m ≤ n) : Quiet m s :=
  fun k hk => h k (Nat.lt_of_lt_of_le hk hm)

/-- The ticks of an obliging environment, without the state of the stream processor. -/
def Obliges (n : Nat) (s : State) : Prop := ∀ k < n, tickAt s.env k = { moves := [.stream 0], answer := .ok }

theorem Obliges.head {n : Nat} {s : State} (h : Obliges (n + 1) s) :
    nextTick s.env = { moves := [.stream 0], answer := .ok } := tickAt_zero s.env ▸ h 0 (Nat.zero_lt_succ n)

theorem Obliges.served {n : Nat} {s : State} (h : Obliges (n + 1) s) : Served (nextTick s.env) := by rw [h.head]; rfl

/-- At an obliging boundary the stream processor performs the oldest outstanding request. -/
theorem Obliges.envTurn {n : Nat} {s : State} (h : Obliges (n + 1) s) : envTurn s = streamRun 0 (passTick s) := by
  unfold Machine.envTurn; rw [h.head]; rfl

/-- With no outstanding request nothing happens at an obliging boundary. -/
theorem Obliges.envTurn_none {n : Nat} {s : State} (h : Obliges (n + 1) s) (hr : s.env.streamReqs = []) :
    Machine.envTurn s = passTick s := by
  rw [h.envTurn]; unfold streamRun; simp [hr]

theorem Obliges.next {n : Nat} {s t : State} (h : Obliges (n + 1) s) (hs : t.env.script = s.env.script.tail)
    (hd : t.env.draws = s.env.draws + 1) : Obliges n t :=
  fun k hk => (tickAt_succ hs hd k).trans (h (k + 1) (Nat.succ_lt_succ hk))

theorem Obliges.of_env {n : Nat} {s t : State} (h : Obliges n s) (hs : t.env.script = s.env.script)
    (hd : t.env.draws = s.env.draws) : Obliges n t := by
  intro k hk
  rw [← h k hk]
  unfold tickAt
  rw [hs, hd]

theorem Obliges.mono {m n : Nat} {s : State} (h : Obliges n s) (hm : m ≤ n) : Obliges m s :=
  fun k hk => h k (Nat.lt_of_lt_of_le hk hm)

/-! ## The DCC reset -/

theorem dccReset_tag (s : State) (p : Pin) : (dccReset s).dcc.tag.get p = resetTag s.env.draws p := by
  show (Vector.ofFn (resetTag s.env.draws))[p.val] = _
  rw [Vector.getElem_ofFn]

/-- A DCC reset leaves no capture tag (10_state.md R63). -/
theorem resetTag_ne (d : Nat) (p : Pin) : resetTag d p ≠ .captureDone ∧ resetTag d p ≠ .captureTrigger := by
  unfold resetTag
  cases Config.resetOwner d p.val <;> simp

theorem dccReset_opb (s : State) :
    (dccReset s).regs.opb = Memory.ofFn 65536 (Config.resetOpbByte s.env.draws) := by
  simp only [dccReset]

/-- A DCC reset keeps the form of the memories (10_state.md R63, R64). -/
theorem dccReset_form {s : State} (h : s.MemoryForm) : (dccReset s).MemoryForm := by
  refine ⟨?_, h.2⟩
  rw [dccReset_opb]
  generalize 65536 = n
  exact ⟨Memory.wf_ofFn _ _, Memory.bounded_ofFn _ _⟩

/-! ## The chip reset -/

/-- A reset of the chip alone keeps the form of the memories (70_reset_and_hazards.md R345; log 31). -/
theorem chipReset_form {s : State} (c : Chip) (h : s.MemoryForm) : (chipReset c s).MemoryForm := by
  have hb : ∀ (n : Nat) (cells : List Host.Cell), Memory.bounded (Memory.ofCells (· < n) cells) n :=
    fun n cells x hx => by simpa using Memory.keep_ofCells hx
  exact ⟨h.1, ⟨Memory.wf_ofCells (· < 58) c.capObj, hb _ _⟩, ⟨Memory.wf_ofCells (· < 192) c.modelObj, hb _ _⟩,
    ⟨Memory.wf_ofCells (· < 384) c.mmodelObj, hb _ _⟩, ⟨Memory.wf_ofCells (· < 1) c.swapEnObj, hb _ _⟩,
    Memory.wf_ofCells (bulkMapped s.cfg) c.bulk, fun x hx => Memory.keep_ofCells (cells := c.bulk) hx⟩

end Sys2Proof.Machine
end

