-- ==== Sys2Proof/Laws/Claims.lean ====
section
/-! SUPPORT. The result word, the end of an operation and the operand snapshot, said once in the terms the statements use. -/

namespace Sys2Proof.Machine

/-! ## The result word (10_state.md R25, 60_exceptions.md R291) -/

theorem resFields_eq (cls : BitVec 4) (info dev : Byte) (nm : BitVec 3) :
    resFields cls info dev nm =
      cls.setWidth 32 ||| (info.setWidth 32 <<< 8) ||| (dev.setWidth 32 <<< 16) ||| (nm.setWidth 32 <<< 24) := by
  unfold resFields
  ext i hi
  simp only [← BitVec.getLsbD_eq_getElem, BitVec.getLsbD_append, BitVec.getLsbD_or, BitVec.getLsbD_shiftLeft,
    BitVec.getLsbD_setWidth]
  interval_cases i <;> simp

theorem resWord_ok (cfg : Config) (info : Byte) : resWord cfg .ok info = info.setWidth 32 <<< 8 := by
  show resFields 0 info 0 0 = _
  rw [resFields_eq]; simp

theorem resWord_invalidParameter (cfg : Config) (p : ParamCode) (info : Byte) :
    resWord cfg (.invalidParameter p) info = 1 ||| (paramCodeNumber p).setWidth 32 <<< 8 := by
  show resFields 1 (paramCodeNumber p) 0 0 = _
  rw [resFields_eq]; simp

@[simp] theorem resWord_nullInput (cfg : Config) (info : Byte) : resWord cfg .nullInput info = 2 := rfl
@[simp] theorem resWord_resourceConflict (cfg : Config) (info : Byte) : resWord cfg .resourceConflict info = 3 := rfl
@[simp] theorem resWord_timeout (cfg : Config) (info : Byte) : resWord cfg .timeout info = 5 := rfl
@[simp] theorem resWord_hardwareResetRequired (cfg : Config) (info : Byte) :
    resWord cfg .hardwareResetRequired info = 6 := rfl
@[simp] theorem resWord_seqRefused (cfg : Config) (info : Byte) : resWord cfg .seqRefused info = 7 := rfl
@[simp] theorem resWord_illegalCommand (cfg : Config) (info : Byte) : resWord cfg .illegalCommand info = 8 := rfl

/-- `RES.class` and the reserved bits of a result word written as its four fields. -/
theorem resFields_class (cls : BitVec 4) (info dev : Byte) (nm : BitVec 3) :
    resClass (resFields cls info dev nm) = cls.toNat ∧ resFields cls info dev nm &&& 0xF80000F0 = 0 ∧
      resInfo (resFields cls info dev nm) = info := by
  have hc : resFields cls info dev nm &&& 0xF = cls.setWidth 32 := by
    unfold resFields
    ext i hi
    simp only [← BitVec.getLsbD_eq_getElem, BitVec.getLsbD_and, BitVec.getLsbD_append, BitVec.getLsbD_setWidth]
    interval_cases i <;> simp
  refine ⟨?_, ?_, ?_⟩
  · unfold resClass
    rw [hc, BitVec.toNat_setWidth]
    exact Nat.mod_eq_of_lt (by have := cls.isLt; omega)
  · unfold resFields
    ext i hi
    simp only [← BitVec.getLsbD_eq_getElem, BitVec.getLsbD_and, BitVec.getLsbD_append]
    interval_cases i <;> simp
  · unfold resInfo resFields
    ext i hi
    simp only [← BitVec.getLsbD_eq_getElem, BitVec.getLsbD_extractLsb', BitVec.getLsbD_append]
    interval_cases i <;> simp

theorem resWord_eq (cfg : Config) (c : ResultClass) (info : Byte) :
    ∃ i d n, resWord cfg c info = resFields (classNumber c) i d n := by
  cases c <;> exact ⟨_, _, _, rfl⟩

/-- `RES.class` is the number of the class. -/
theorem resClass_resWord (cfg : Config) (c : ResultClass) (info : Byte) :
    resClass (resWord cfg c info) = (classNumber c).toNat := by
  obtain ⟨i, d, n, h⟩ := resWord_eq cfg c info
  rw [h]; exact (resFields_class _ i d n).1

/-- The reserved bits of `RES` are 0. -/
theorem resWord_reserved (cfg : Config) (c : ResultClass) (info : Byte) : resWord cfg c info &&& 0xF80000F0 = 0 := by
  obtain ⟨i, d, n, h⟩ := resWord_eq cfg c info
  rw [h]; exact (resFields_class _ i d n).2.1

theorem resInfo_ok (cfg : Config) (info : Byte) : resInfo (resWord cfg .ok info) = info :=
  (resFields_class 0 info 0 0).2.2

/-- The result word of a failed mailbox transaction, as the statements write it (60_exceptions.md R293, R294). -/
theorem resWord_failure {cfg : Config} {a : Answer} {c : ResultClass} (h : answerFailure true a = some c) :
    resWord cfg c 0 = failureWord cfg a := by
  cases a with
  | ok => cases h
  | timeout => cases h; rfl
  | hwReset => cases h; rfl
  | deviceError code =>
    have hn : (deviceName cfg code).setWidth 32 = if code = cfg.errHwInUse then (1 : Word)
        else if code = cfg.errStream then 2 else if code = cfg.errCapture then 3 else 4 := by
      unfold deviceName; split_ifs <;> rfl
    simp only [answerFailure, if_true] at h
    split_ifs at h
    cases h
    show resFields 4 0 code (deviceName cfg code) = _
    simp [resFields_eq, hn, failureWord]

/-! ## The end of an operation -/

/-- What an operation whose sequence ran on to `u` leaves, `u` with the host registers and the queue of the start. -/
theorem endedOk_returnOk {s u : State} {r : Result} (h1 : u.cfg = s.cfg) (h2 : u.regs = { s.regs with busy := true })
    (h3 : u.env.hostQ = s.env.hostQ) (h4 : u.env.claimless = s.env.claimless) :
    EndedOk s (returnOk r u) r.info r.data := by
  refine ⟨⟨h1, ?_, rfl, h3⟩, ?_⟩
  · simp only [returnOk, endOperation, h2, resWord_ok]
  · show (u.env.claimless || _) = _
    rw [h4]; simp

/-- What an operation whose sequence stopped in `u` with class `c` leaves. -/
theorem ended_takeResult {s u : State} {fam : Bool} {c : ResultClass} (h1 : u.cfg = s.cfg)
    (h2 : u.regs = { s.regs with busy := true }) (h3 : u.env.hostQ = s.env.hostQ) :
    Ended s (takeResult fam c u) (resWord s.cfg c 0) [] := by
  unfold takeResult
  split
  · exact ⟨h1, by simp [endOperation, h1, h2], rfl, h3⟩
  · exact ⟨h1, by simp [endOperation, h1, h2], rfl, h3⟩

@[simp] theorem takeResult_chip (fam : Bool) (c : ResultClass) (s : State) : (takeResult fam c s).chip = s.chip := by
  unfold takeResult; split <;> rfl
@[simp] theorem takeResult_cfg (fam : Bool) (c : ResultClass) (s : State) : (takeResult fam c s).cfg = s.cfg := by
  unfold takeResult; split <;> rfl
@[simp] theorem takeResult_bus (fam : Bool) (c : ResultClass) (s : State) : (takeResult fam c s).env.bus = s.env.bus := by
  unfold takeResult; split <;> rfl
@[simp] theorem takeResult_res (fam : Bool) (c : ResultClass) (s : State) :
    (takeResult fam c s).regs.res = resWord s.cfg c 0 := by
  unfold takeResult; split <;> rfl
@[simp] theorem takeResult_tag (fam : Bool) (c : ResultClass) (s : State) :
    (takeResult fam c s).dcc.tag = s.dcc.tag := by
  unfold takeResult; split <;> rfl

/-- The exit path enters `Error` on a transport failure of a capture-family operation, and only then (42_capture_fsm.md
R202). -/
theorem takeResult_capState (fam : Bool) (c : ResultClass) (s : State) :
    (takeResult fam c s).dcc.capState = if (fam && isTransportFailure c) = true then .error else s.dcc.capState := by
  unfold takeResult; split <;> rfl

theorem hostWaits_start {s : State} (h : HostWaits s) : HostWaits (startOperation s) := h.of_hostQ rfl

/-- An operation that stops before its first effect leaves all but its result. -/
theorem endedAtOnce_takeResult {s : State} {fam : Bool} {c : ResultClass} (hw : HostWaits s)
    (h : isTransportFailure c = false) :
    EndedAtOnce s (leave (takeResult fam c) (startOperation s)) (resWord s.cfg c 0) := by
  rw [leave_of_waits (hostWaits_start hw)]
  refine ⟨ended_takeResult (by simp) (by simp; rfl) (by simp), ?_, ?_, ?_⟩
  · unfold takeResult DccSame
    rw [h, Bool.and_false]
    simp [endOperation]
  · simp
  · unfold Sent; simp

/-- A byte below the cut reads as before. -/
theorem Memory.read_below (m : Memory) (n a : Nat) (h : a < n) : Memory.read (m.below n) a = Memory.read m a := by
  induction m with
  | nil => rfl
  | cons c m ih =>
    obtain ⟨b, v⟩ := c
    unfold Memory.below at ih ⊢
    rw [List.filter_cons]
    by_cases hb : b < n
    · rw [if_pos (by simpa using hb)]
      unfold Memory.read
      rw [ih]
    · rw [if_neg (by simpa using hb), ih]
      conv => rhs; unfold Memory.read
      rw [if_neg (by omega)]

/-! ## Inside an operation -/

/-- `u` is a state inside the operation that started in `s`, after the transactions `txns`, all of them served. -/
structure Inside (s u : State) (txns : List Txn) : Prop where
  cfg : u.cfg = s.cfg
  regs : u.regs = { s.regs with busy := true }
  hostQ : u.env.hostQ = s.env.hostQ
  claimless : u.env.claimless = s.env.claimless
  bus : u.env.bus = (txns.map fun x => BusEntry.mk x true).reverse ++ s.env.bus
  oplen : u.dcc.flight.oplen = s.regs.oplen
  ctrl : u.dcc.flight.ctrl = s.regs.ctrl
  opb : u.dcc.flight.opb = (startOperation s).dcc.flight.opb

theorem Inside.start (s : State) : Inside s (startOperation s) [] := ⟨rfl, rfl, rfl, rfl, rfl, rfl, rfl, rfl⟩

/-- The state after one more boundary. -/
theorem Inside.turn {s u : State} {l : List Txn} (h : Inside s u l) : Inside s (envTurn u) l where
  cfg := by simpa using h.cfg
  regs := by simpa using h.regs
  hostQ := by simpa using h.hostQ
  claimless := by simpa using h.claimless
  bus := by simpa using h.bus
  oplen := by simpa using h.oplen
  ctrl := by simpa using h.ctrl
  opb := by simpa using h.opb

/-- The state after one more served transaction whose effect is `f` on the chip. -/
theorem Inside.txn {s u : State} {l : List Txn} (h : Inside s u l) (t : Txn) (f : Chip → Chip) :
    Inside s (logTxn t true (updateChip f (envTurn u))) (l ++ [t]) where
  cfg := by simpa using h.cfg
  regs := by simpa using h.regs
  hostQ := by simpa using h.hostQ
  claimless := by simpa using h.claimless
  bus := by simp [h.bus]
  oplen := by simpa using h.oplen
  ctrl := by simpa using h.ctrl
  opb := by simpa using h.opb

/-- The state after one more served transaction that reads. -/
theorem Inside.read {s u : State} {l : List Txn} (h : Inside s u l) (t : Txn) :
    Inside s (logTxn t true (envTurn u)) (l ++ [t]) := h.txn t id

theorem Inside.updateFlight {s u : State} {l : List Txn} (h : Inside s u l) {f : Flight → Flight}
    (ho : (f u.dcc.flight).oplen = u.dcc.flight.oplen) (hc : (f u.dcc.flight).ctrl = u.dcc.flight.ctrl)
    (hb : (f u.dcc.flight).opb = u.dcc.flight.opb) : Inside s (updateFlight f u) l :=
  ⟨h.cfg, h.regs, h.hostQ, h.claimless, h.bus, ho.trans h.oplen, hc.trans h.ctrl, hb.trans h.opb⟩

theorem Inside.updateDcc {s u : State} {l : List Txn} (h : Inside s u l) {f : DccRegs → DccRegs}
    (hf : (f u.dcc).flight = u.dcc.flight) : Inside s (updateDcc f u) l :=
  ⟨h.cfg, h.regs, h.hostQ, h.claimless, h.bus, (congrArg Flight.oplen hf).trans h.oplen,
    (congrArg Flight.ctrl hf).trans h.ctrl, (congrArg Flight.opb hf).trans h.opb⟩

theorem Inside.updateEnv {s u : State} {l : List Txn} (h : Inside s u l) {f : Env → Env}
    (hq : (f u.env).hostQ = u.env.hostQ) (hc : (f u.env).claimless = u.env.claimless) (hb : (f u.env).bus = u.env.bus) :
    Inside s (updateEnv f u) l :=
  ⟨h.cfg, h.regs, hq.trans h.hostQ, hc.trans h.claimless, hb.trans h.bus, h.oplen, h.ctrl, h.opb⟩

/-- The host still waits inside an operation that started while it waited. -/
theorem Inside.waits {s u : State} {l : List Txn} (h : Inside s u l) (hw : HostWaits s) : HostWaits u :=
  hw.of_hostQ h.hostQ

/-- The bytes of the snapshot are the bytes of `OPB` at the start. -/
theorem Inside.snapBytes {s u : State} {l : List Txn} (h : Inside s u l) {off n : Nat}
    (h1 : off + n ≤ s.regs.oplen.toNat) (h2 : off + n ≤ 65536) :
    snapBytes u.dcc.flight off n = s.regs.opb.readBytes off n := by
  unfold Machine.snapBytes
  rw [h.opb]
  unfold Memory.readBytes
  refine List.map_congr_left fun k hk => ?_
  have := List.mem_range.1 hk
  exact Memory.read_below _ _ _ (by omega)

/-- The exit, while the host waits: a turn of the other agents, then the end. -/
theorem Inside.leave {s u : State} {l : List Txn} (h : Inside s u l) (hw : HostWaits s) (exit : State → State) :
    leave exit u = exit (envTurn u) := leave_of_waits (h.waits hw)

theorem Inside.endedOk {s u : State} {l : List Txn} (h : Inside s u l) (r : Result) :
    EndedOk s (returnOk r u) r.info r.data := endedOk_returnOk h.cfg h.regs h.hostQ h.claimless

theorem Inside.ended {s u : State} {l : List Txn} (h : Inside s u l) (fam : Bool) (c : ResultClass) :
    Ended s (takeResult fam c u) (resWord s.cfg c 0) [] := ended_takeResult h.cfg h.regs h.hostQ

/-- The end after a failed mailbox transaction. -/
theorem Inside.endedFailed {s u : State} {l : List Txn} (h : Inside s u l) (fam : Bool) {a : Answer} {c : ResultClass}
    (ha : answerFailure true a = some c) : EndedFailed s (takeResult fam c u) a := by
  unfold EndedFailed
  rw [← resWord_failure ha]
  exact h.ended fam c

theorem Inside.sent {s u : State} {l : List Txn} (h : Inside s u l) (r : Result) : Sent s (returnOk r u) l := h.bus

/-- After `return Ok` the DCC-local state is that of the last micro-step without the hidden state. -/
theorem dcc_returnOk {u : State} {r : Result} {d : DccRegs} (h : u.dcc = { d with flight := u.dcc.flight }) :
    (returnOk r u).dcc = { d with flight := (returnOk r u).dcc.flight } := by
  show ({ u.dcc with flight := Flight.idle } : DccRegs) = _
  rw [h]; rfl

theorem dccSame_returnOk {s u : State} {r : Result} (h : u.dcc = { s.dcc with flight := u.dcc.flight }) :
    DccSame s (returnOk r u) := dcc_returnOk h

theorem logTxn_dcc (t : Txn) (ok : Bool) (s : State) :
    (logTxn t ok s).dcc = { s.dcc with flight := (logTxn t ok s).dcc.flight } := by cases ok <;> rfl

@[simp] theorem returnOk_chip (r : Result) (s : State) : (returnOk r s).chip = s.chip := rfl

/-! ## The operand snapshot (10_state.md R31) -/

/-- A byte of the snapshot is the byte of `OPB` at the `CMD` write, below `OPLEN` and inside `OPB`. -/
theorem snap_read (s : State) {a : Nat} (h1 : a < s.regs.oplen.toNat) (h2 : a < 65536) :
    (startOperation s).dcc.flight.opb.read a = s.regs.opb.read a :=
  Memory.read_below _ _ _ (by omega)

theorem snapBytes_start (s : State) {off n : Nat} (h1 : off + n ≤ s.regs.oplen.toNat) (h2 : off + n ≤ 65536) :
    snapBytes (startOperation s).dcc.flight off n = s.regs.opb.readBytes off n := by
  unfold snapBytes Memory.readBytes
  refine List.map_congr_left fun k hk => ?_
  have := List.mem_range.1 hk
  exact snap_read s (by omega) (by omega)

theorem byteAt_lt {bs : List Byte} {k : Nat} (h : k < bs.length) : byteAt bs k = bs[k] := by
  simp [byteAt, h]

end Sys2Proof.Machine
end

