-- ==== Sys2Proof/Laws/PerInstr.lean ====
section
/-! SUPPORT. Laws of every operation as syntax, one lemma per constructor of `Instr`. -/

namespace Sys2Proof.Laws.FieldsRoundTrip

/-- The opcode map reads the operation back from its slices, with every operand at every value (30_encoding.md R113,
R126): no operand bit is dropped, and the slices the format does not use pass the check of R116. -/
def Statement (i : Instr) : Prop := decodeFields (encodeFields i) = some i

theorem srcctlSet (pin : PinCode) (val : BitVec 4) : Statement (.srcctlSet pin val) := rfl
theorem srcctlGet (pin : PinCode) : Statement (.srcctlGet pin) := rfl
theorem donepinSetup (pin : PinCode) : Statement (.donepinSetup pin) := rfl
theorem donepinGet : Statement .donepinGet := rfl
theorem trigpinSetup (pin : PinCode) : Statement (.trigpinSetup pin) := rfl
theorem trigpinGet : Statement .trigpinGet := rfl
theorem capcfgSet : Statement .capcfgSet := rfl
theorem capcfgGet : Statement .capcfgGet := rfl
theorem capctrlSet : Statement .capctrlSet := rfl
theorem capctrlGet : Statement .capctrlGet := rfl
theorem caplvlSet : Statement .caplvlSet := rfl
theorem caplvlGet : Statement .caplvlGet := rfl
theorem pwrthSet (sel : BitVec 2) : Statement (.pwrthSet sel) := rfl
theorem pwrthGet (sel : BitVec 2) : Statement (.pwrthGet sel) := rfl
theorem capStart : Statement .capStart := rfl
theorem capPoll : Statement .capPoll := rfl
theorem capStatus (ch : ChMask) : Statement (.capStatus ch) := rfl
theorem capRddone : Statement .capRddone := rfl
theorem modelCfg (ch : ChMask) : Statement (.modelCfg ch) := rfl
theorem modelGet (ch : ChMask) : Statement (.modelGet ch) := rfl
theorem mmodelCfg (ch : ChMask) : Statement (.mmodelCfg ch) := rfl
theorem mmodelGet (ch : ChMask) (sel : BitVec 2) : Statement (.mmodelGet ch sel) := rfl
theorem lutAddr (ch : ChMask) (lut : BitVec 5) (sel : BitVec 2) : Statement (.lutAddr ch lut sel) := rfl
theorem lutWrite (ch : ChMask) (lut : BitVec 5) (sel : BitVec 2) : Statement (.lutWrite ch lut sel) := rfl
theorem lutRead (ch : ChMask) (lut : BitVec 5) (sel : BitVec 2) : Statement (.lutRead ch lut sel) := rfl
theorem actclkSet (ch : ChMask) (en : BitVec 1) : Statement (.actclkSet ch en) := rfl
theorem swapEn (en : BitVec 1) : Statement (.swapEn en) := rfl
theorem swapGeten : Statement .swapGeten := rfl
theorem swapWrite (ch : ChMask) (sel : BitVec 2) : Statement (.swapWrite ch sel) := rfl
theorem mmlutWrite (lut : BitVec 5) : Statement (.mmlutWrite lut) := rfl
theorem mmodelUpdate (ch : ChMask) (sel : BitVec 2) : Statement (.mmodelUpdate ch sel) := rfl
theorem mmodelStatus (ch : ChMask) : Statement (.mmodelStatus ch) := rfl

end Sys2Proof.Laws.FieldsRoundTrip
end

