-- ==== Sys2Proof/Laws/Sequences.lean ====
section
/-! SUPPORT. What the shared micro-sequences can do, said once: the rules for reading and writing transactions, a failed
transaction, the undo log, and the sequences of the LUT manager in an environment that serves every transaction (`Goes`). -/

namespace Sys2Proof.Machine

variable {α : Type}

/-! ## Rules for the two kinds of transaction -/

/-- The rule for a reading transaction. -/
theorem Runs.readTxn {P : State → Prop} {Q : α → State → Prop} {E : Stop → State → Prop} {t : Txn} {get : State → α}
    (hok : ∀ s s1, P s → Between s s1 → Q (get s1) (logTxn t true s1))
    (hfail : ∀ s s1 c, P s → Between s s1 → isTransportFailure c = true → E (.raised c) (logTxn t false s1))
    (hdrop : ∀ s s1, P s → Between s s1 → .reset ∈ s.env.hostQ → E .dropped (dccReset s1)) :
    Runs P (Machine.readTxn t get) Q E := Runs.transact hok hfail hdrop

/-- The rule for a writing transaction. -/
theorem Runs.writeTxn {P : State → Prop} {Q : Unit → State → Prop} {E : Stop → State → Prop} {t : Txn}
    {put : State → State} {torn : Nat → State → State}
    (hok : ∀ s s1, P s → Between s s1 → Q () (logTxn t true (put s1)))
    (hfail : ∀ s s1 c, P s → Between s s1 → isTransportFailure c = true →
      E (.raised c) (logTxn t false (torn s1.env.draws s1)))
    (hdrop : ∀ s s1, P s → Between s s1 → .reset ∈ s.env.hostQ → E .dropped (dccReset s1)) :
    Runs P (Machine.writeTxn t put torn) Q E := Runs.transact hok hfail hdrop

/-- An answer that is no success for a mailbox transaction is none for any transaction (60_exceptions.md R293). -/
theorem answerFailure_of_not_served {t : Tick} (h : ¬ Served t) (m : Bool) :
    ∃ c, answerFailure m t.answer = some c ∧ isTransportFailure c = true := by
  cases hc : answerFailure m t.answer with
  | some c => exact ⟨c, rfl, answerFailure_class hc⟩
  | none =>
    refine absurd ?_ h
    unfold Served
    cases m with
    | true => exact hc
    | false =>
      revert hc
      unfold answerFailure
      cases t.answer with
      | deviceError code => by_cases h0 : code = 0 <;> simp [h0]
      | _ => simp

/-- A failed reading transaction, while the host waits. -/
theorem readTxn_failed {t : Txn} {get : State → α} {s : State} (h : HostWaits s) (hs : ¬ Served (nextTick s.env)) :
    ∃ c, isTransportFailure c = true ∧
      (Machine.readTxn t get).run s = .error (.raised c) (logTxn t false (envTurn s)) := by
  obtain ⟨c, ha, hc⟩ := answerFailure_of_not_served hs (isMailbox t)
  exact ⟨c, hc, transact_failed h ha⟩

/-- A failed writing transaction, while the host waits. -/
theorem writeTxn_failed {t : Txn} {put : State → State} {torn : Nat → State → State} {s : State} (h : HostWaits s)
    (hs : ¬ Served (nextTick s.env)) :
    ∃ c, isTransportFailure c = true ∧ (Machine.writeTxn t put torn).run s =
      .error (.raised c) (logTxn t false (torn (envTurn s).env.draws (envTurn s))) := by
  obtain ⟨c, ha, hc⟩ := answerFailure_of_not_served hs (isMailbox t)
  exact ⟨c, hc, transact_failed h ha⟩

/-! ## The undo log (40_gpio_arbiter.md R148) -/

/-- The tags after a replay of the log. -/
def undoTags : List Undo → Vector Tag 19 → Vector Tag 19
  | [], tag => tag
  | .tag p t :: us, tag => undoTags us (tag.set p t)
  | .dir _ _ :: us, tag => undoTags us tag

/-- What a step whose failure is dropped can do: it goes on as the step did, or the operation is dropped. -/
theorem dropFailure_cases (m : M Unit) (s : State) :
    (∃ t, (dropFailure m).run s = .ok () t ∧ (m.run s = .ok () t ∨ ∃ c, m.run s = .error (.raised c) t)) ∨
    (∃ t, (dropFailure m).run s = .error .dropped t ∧ m.run s = .error .dropped t) := by
  unfold dropFailure
  rw [run_of]
  cases h : m.run s with
  | ok a t => exact .inl ⟨t, rfl, .inl rfl⟩
  | error e t =>
    cases e with
    | raised c => exact .inl ⟨t, rfl, .inr ⟨c, rfl⟩⟩
    | dropped => exact .inr ⟨t, rfl, rfl⟩

/-- The rule for it. -/
theorem Runs.dropFailure {P : State → Prop} {Q : Unit → State → Prop} {E : Stop → State → Prop} {m : M Unit}
    (h : Runs P m Q fun e s => match e with
      | .raised _ => Q () s
      | .dropped => E .dropped s) : Runs P (Machine.dropFailure m) Q E := by
  intro s hs
  have := h s hs
  unfold Machine.dropFailure
  rw [run_of]
  cases hr : m.run s with
  | ok a t => rw [hr] at this; exact this
  | error e t =>
    rw [hr] at this
    cases e with
    | raised c => exact this
    | dropped => exact this

/-- A replay of the log reaches the tags the log names and keeps what direction writes and tag writes keep; nothing but a
reset stops it. -/
theorem Runs.replayUndo {I : State → Prop} {E : Stop → State → Prop}
    (htag : ∀ (p : Pin) t s s1, I s → Between s s1 → I (updateDcc (fun d => { d with tag := d.tag.set p t }) s1))
    (hdir : ∀ p d s s1, I s → Between s s1 →
      I (logTxn (.gpioDirSet p d) true (updateChip (fun ch => { ch with dir := ch.dir.set p d }) s1)))
    (hbad : ∀ p d s s1 n, I s → Between s s1 → I (logTxn (.gpioDirSet p d) false (updateChip (fun ch => { ch with
      dir := ch.dir.set p (if (Config.tornMask n 0).testBit 0 then d else ch.dir.get p) }) s1)))
    (hdrop : ∀ s s1, I s → Between s s1 → .reset ∈ s.env.hostQ → E .dropped (dccReset s1))
    (us : List Undo) (tag : Vector Tag 19) :
    Runs (fun s => I s ∧ undoTags us s.dcc.tag = tag) (Machine.replayUndo us) (fun _ s => I s ∧ s.dcc.tag = tag) E := by
  induction us with
  | nil => exact Runs.pure fun s h => h
  | cons u us ih =>
    cases u with
    | tag p t =>
      refine Runs.bind (R := fun _ s => I s ∧ undoTags us s.dcc.tag = tag) ?_ fun _ => ih
      refine Runs.writeLocal (fun s s1 h hb => ⟨htag p t s s1 h.1 hb, ?_⟩) fun s s1 h hb hr => hdrop s s1 h.1 hb hr
      rw [updateDcc_dcc, hb.dcc]; exact h.2
    | dir p d =>
      refine Runs.bind (R := fun _ s => I s ∧ undoTags us s.dcc.tag = tag) ?_ fun _ => ih
      refine Runs.dropFailure ?_
      unfold gpioDirSet
      refine Runs.writeTxn ?_ ?_ ?_
      · refine fun s s1 h hb => ⟨hdir p d s s1 h.1 hb, ?_⟩
        rw [logTxn_dcc, updateChip_dcc, hb.dcc]; exact h.2
      · refine fun s s1 c h hb _ => ⟨hbad p d s s1 _ h.1 hb, ?_⟩
        rw [logTxn_dcc, updateChip_dcc, hb.dcc]; exact h.2
      · exact fun s s1 h hb hr => hdrop s s1 h.1 hb hr

/-- A pin setup's mutating steps: they run on, or they fail and the log is replayed before the error is surfaced, or the
operation is dropped. -/
theorem Runs.withRollback {P : State → Prop} {Q : Unit → State → Prop} {E : Stop → State → Prop} {m : M Unit}
    {F : ResultClass → State → Prop} {D : State → Prop}
    (h : Runs (fun s => ∃ s0, P s0 ∧ s = updateFlight (fun f => { f with undo := [] }) s0) m Q fun e s => match e with
      | .raised c => F c s
      | .dropped => D s)
    (hr : ∀ c s, F c s → EndsIn (fun _ => E (.raised c)) E ((Machine.replayUndo s.dcc.flight.undo).run s))
    (hd : ∀ s, D s → E .dropped s) : Runs P (Machine.withRollback m) Q E := by
  intro s hs
  have := h _ ⟨s, hs, rfl⟩
  unfold Machine.withRollback
  rw [run_of]
  cases hm : m.run (updateFlight (fun f => { f with undo := [] }) s) with
  | ok a t => rw [hm] at this; exact this
  | error e t =>
    rw [hm] at this
    cases e with
    | dropped => exact hd t this
    | raised c =>
      have hrep := hr c t this
      show EndsIn Q E ((Machine.replayUndo t.dcc.flight.undo >>= fun _ => Machine.raise c : M Unit).run t)
      rw [run_bind]
      cases hx : (Machine.replayUndo t.dcc.flight.undo).run t with
      | ok a u => rw [hx] at hrep; exact hrep
      | error e u => rw [hx] at hrep; exact hrep

/-! ## Sequences in an environment that serves every transaction -/

/-- The next boundary changes nothing and the transport answers with success. -/
structure Calm (s : State) : Prop where
  waits : HostWaits s
  served : Served (nextTick s.env)
  turn : envTurn s = passTick s

theorem Quiet.calm {n : Nat} {s : State} (h : Quiet (n + 1) s) (hw : HostWaits s) : Calm s := ⟨hw, h.served, h.envTurn⟩

theorem Obliges.calm {n : Nat} {s : State} (h : Obliges (n + 1) s) (hw : HostWaits s) (hr : s.env.streamReqs = []) : Calm s :=
  ⟨hw, h.served, h.envTurn_none hr⟩

/-- The next two boundaries are calm: a `FieldWrite` takes both. -/
def Calm2 (s : State) : Prop := Calm s ∧ Calm (passTick s)

theorem Quiet.calm2 {n : Nat} {s : State} (h : Quiet (n + 2) s) (hw : HostWaits s) : Calm2 s :=
  ⟨h.calm hw, (h.next (n := n + 1) rfl rfl).calm (hw.of_hostQ rfl)⟩

theorem Obliges.calm2 {n : Nat} {s : State} (h : Obliges (n + 2) s) (hw : HostWaits s) (hr : s.env.streamReqs = []) :
    Calm2 s :=
  ⟨h.calm hw hr, (h.next (n := n + 1) rfl rfl).calm (hw.of_hostQ rfl) hr⟩

/-- From `s` to `u` over `n` boundaries and by the served transactions `txns`: the chip is `chip`, and nothing else has
changed but what the boundaries and transactions use up and note, and the saved values of the operation in flight. -/
structure Goes (s u : State) (chip : Chip) (n : Nat) (txns : List Txn) : Prop where
  cfg : u.cfg = s.cfg
  regs : u.regs = s.regs
  chip : u.chip = chip
  dcc : u.dcc = { s.dcc with flight := u.dcc.flight }
  oplen : u.dcc.flight.oplen = s.dcc.flight.oplen
  ctrl : u.dcc.flight.ctrl = s.dcc.flight.ctrl
  opb : u.dcc.flight.opb = s.dcc.flight.opb
  env : u.env = { s.env with
    script := s.env.script.drop n, draws := s.env.draws + n
    bus := (txns.map fun x => BusEntry.mk x true).reverse ++ s.env.bus }

theorem Goes.refl (s : State) : Goes s s s.chip 0 [] := ⟨rfl, rfl, rfl, rfl, rfl, rfl, rfl, rfl⟩

theorem Goes.trans {s u v : State} {c c' : Chip} {n n' : Nat} {l l' : List Txn} (h : Goes s u c n l)
    (g : Goes u v c' n' l') : Goes s v c' (n + n') (l ++ l') where
  cfg := g.cfg.trans h.cfg
  regs := g.regs.trans h.regs
  chip := g.chip
  dcc := by rw [g.dcc, h.dcc]
  oplen := g.oplen.trans h.oplen
  ctrl := g.ctrl.trans h.ctrl
  opb := g.opb.trans h.opb
  env := by rw [g.env, h.env]; simp [List.drop_drop, Nat.add_assoc]

/-- One more calm boundary. -/
theorem Goes.pass {s u : State} {c : Chip} {n : Nat} {l : List Txn} (h : Goes s u c n l) : Goes s (passTick u) c (n + 1) l where
  cfg := h.cfg
  regs := h.regs
  chip := h.chip
  dcc := h.dcc
  oplen := h.oplen
  ctrl := h.ctrl
  opb := h.opb
  env := by
    show ({ u.env with script := u.env.script.tail, draws := u.env.draws + 1 } : Env) = _
    rw [h.env]; simp [Nat.add_assoc]

/-- A note in the hidden state that leaves the snapshot alone. -/
theorem Goes.note {s u : State} {c : Chip} {n : Nat} {l : List Txn} (h : Goes s u c n l) {f : Flight → Flight}
    (ho : (f u.dcc.flight).oplen = u.dcc.flight.oplen) (hc : (f u.dcc.flight).ctrl = u.dcc.flight.ctrl)
    (hb : (f u.dcc.flight).opb = u.dcc.flight.opb) : Goes s (updateFlight f u) c n l where
  cfg := h.cfg
  regs := h.regs
  chip := h.chip
  dcc := by
    show ({ u.dcc with flight := f u.dcc.flight } : DccRegs) = { s.dcc with flight := f u.dcc.flight }
    rw [h.dcc]
  oplen := ho.trans h.oplen
  ctrl := hc.trans h.ctrl
  opb := hb.trans h.opb
  env := h.env

theorem Goes.waits {s u : State} {c : Chip} {n : Nat} {l : List Txn} (h : Goes s u c n l) (hw : HostWaits s) :
    HostWaits u := hw.of_hostQ (by rw [h.env])

theorem Goes.streamReqs {s u : State} {c : Chip} {n : Nat} {l : List Txn} (h : Goes s u c n l) :
    u.env.streamReqs = s.env.streamReqs := by rw [h.env]

/-- The ticks after `n` boundaries. -/
theorem Goes.tickAt {s u : State} {c : Chip} {n : Nat} {l : List Txn} (h : Goes s u c n l) (k : Nat) :
    Machine.tickAt u.env k = Machine.tickAt s.env (n + k) := by
  rw [h.env]
  unfold Machine.tickAt
  simp [List.getElem?_drop, Nat.add_assoc]

theorem Goes.obliges {s u : State} {c : Chip} {n : Nat} {l : List Txn} {m : Nat} (h : Goes s u c n l)
    (ho : Obliges (n + m) s) : Obliges m u := fun k hk => (h.tickAt k).trans (ho _ (by omega))

theorem Goes.quiet {s u : State} {c : Chip} {n : Nat} {l : List Txn} {m : Nat} (h : Goes s u c n l)
    (hq : Quiet (n + m) s) : Quiet m u := fun k hk => (h.tickAt k).trans (hq _ (by omega))

/-- The same, the saved values of the operation in flight included: only the counters of the hidden state move. -/
structure GoesOn (s u : State) (chip : Chip) (n : Nat) (txns : List Txn) : Prop extends Goes s u chip n txns where
  flight : u.dcc.flight =
    { s.dcc.flight with microStep := u.dcc.flight.microStep, polls := u.dcc.flight.polls }

theorem GoesOn.trans {s u v : State} {c c' : Chip} {n n' : Nat} {l l' : List Txn} (h : GoesOn s u c n l)
    (g : GoesOn u v c' n' l') : GoesOn s v c' (n + n') (l ++ l') :=
  ⟨h.toGoes.trans g.toGoes, by rw [g.flight, h.flight]⟩

theorem GoesOn.svPower {s u : State} {c : Chip} {n : Nat} {l : List Txn} (h : GoesOn s u c n l) :
    u.dcc.flight.svPower = s.dcc.flight.svPower := (congrArg Flight.svPower h.flight :)

theorem GoesOn.svEn {s u : State} {c : Chip} {n : Nat} {l : List Txn} (h : GoesOn s u c n l) :
    u.dcc.flight.svEn = s.dcc.flight.svEn := (congrArg Flight.svEn h.flight :)

theorem GoesOn.svPt {s u : State} {c : Chip} {n : Nat} {l : List Txn} (h : GoesOn s u c n l) :
    u.dcc.flight.svPt = s.dcc.flight.svPt := (congrArg Flight.svPt h.flight :)

theorem GoesOn.svRamSel {s u : State} {c : Chip} {n : Nat} {l : List Txn} (h : GoesOn s u c n l) :
    u.dcc.flight.svRamSel = s.dcc.flight.svRamSel := (congrArg Flight.svRamSel h.flight :)

/-- The effect `f` of a transaction after a calm boundary. -/
theorem GoesOn.effect (s : State) (t : Txn) (f : Chip → Chip) :
    GoesOn s (logTxn t true (updateChip f (passTick s))) (f s.chip) 1 [t] := by
  refine ⟨⟨rfl, rfl, rfl, rfl, rfl, rfl, rfl, ?_⟩, rfl⟩
  show ({ (passTick s).env with bus := ⟨t, true⟩ :: (passTick s).env.bus } : Env) = _
  simp [passTick, updateEnv]

/-- One calm transaction whose effect on the chip is `f`. -/
theorem GoesOn.step {s : State} (h : Calm s) (t : Txn) (f : Chip → Chip) :
    GoesOn s (logTxn t true (updateChip f (Machine.envTurn s))) (f s.chip) 1 [t] := by
  rw [h.turn]; exact GoesOn.effect s t f

theorem GoesOn.pass (s : State) : GoesOn s (passTick s) s.chip 1 [] := ⟨(Goes.refl s).pass, rfl⟩

theorem fieldRead_calm {s : State} (h : Calm s) (f : Field) :
    ∃ u, (fieldRead f).run s = .ok (getField s.chip f) u ∧ GoesOn s u s.chip 1 [.fieldRead f] := by
  refine ⟨_, ?_, GoesOn.step h (.fieldRead f) id⟩
  rw [fieldRead_served h.waits h.served, h.turn]; rfl

/-- A `FieldWrite` passes two boundaries: before its read and before its write. -/
theorem fieldWrite_calm {s : State} (h : Calm2 s) (f : Field) (hf : f.ownedByDcc = true) (v : BitVec f.width) :
    ∃ u, (fieldWrite f v).run s = .ok () u ∧ GoesOn s u (setField s.chip f v) 2 [.fieldWrite f v.toNat] := by
  have hs := h.2.served
  rw [← h.1.turn] at hs
  refine ⟨_, fieldWrite_served hf h.1.waits hs, ?_⟩
  rw [h.1.turn, h.2.turn]
  exact (GoesOn.pass s).trans (GoesOn.effect (passTick s) (.fieldWrite f v.toNat) fun ch => setField ch f v)

theorem memRead_calm {s : State} (h : Calm s) (a n : Nat) :
    ∃ u, (memRead a n).run s = .ok (s.chip.bulk.readBytes a n) u ∧ GoesOn s u s.chip 1 [.memRead a n] := by
  refine ⟨_, ?_, GoesOn.step h (.memRead a n) id⟩
  rw [memRead_served h.waits h.served, h.turn]; rfl

theorem memWrite_calm {s : State} (h : Calm s) (a : Nat) (bs : List Byte) :
    ∃ u, (memWrite a bs).run s = .ok () u ∧
      GoesOn s u { s.chip with bulk := s.chip.bulk.writeBytes a bs } 1 [.memWrite a bs] :=
  ⟨_, memWrite_served h.waits h.served, GoesOn.step h _ fun ch => { ch with bulk := ch.bulk.writeBytes a bs }⟩

theorem gpioDirSet_calm {s : State} (h : Calm s) (p : Pin) (d : Dir) :
    ∃ u, (gpioDirSet p d).run s = .ok () u ∧
      GoesOn s u { s.chip with dir := s.chip.dir.set p d } 1 [.gpioDirSet p d] :=
  ⟨_, gpioDirSet_served h.waits h.served, GoesOn.step h _ fun ch => { ch with dir := ch.dir.set p d }⟩

theorem mboxCfgRead_calm {s : State} (h : Calm s) (o : MboxObj) (off n : Nat) :
    ∃ u, (mboxCfgRead o off n).run s = .ok ((getObj s.chip o).readBytes off n) u ∧
      GoesOn s u s.chip 1 [.cfgRead (objId s.cfg o) off n] := by
  refine ⟨_, ?_, GoesOn.step h (.cfgRead (objId s.cfg o) off n) id⟩
  rw [mboxCfgRead_served h.waits h.served, h.turn]; rfl

theorem mboxCfgWrite_calm {s : State} (h : Calm s) (o : MboxObj) (off : Nat) (bs : List Byte) :
    ∃ u, (mboxCfgWrite o off bs).run s = .ok () u ∧
      GoesOn s u (setObj s.chip o ((getObj s.chip o).writeBytes off bs)) 1 [.cfgWrite (objId s.cfg o) off bs] :=
  ⟨_, mboxCfgWrite_served h.waits h.served, GoesOn.step h _ fun ch => setObj ch o ((getObj ch o).writeBytes off bs)⟩

/-- A register write that delivers no request. -/
theorem regWrite_calm {s : State} (h : Calm s) (r : ChipReg) (v : Nat) :
    ∃ u, (regWrite r v id).run s = .ok () u ∧ GoesOn s u (setReg s.chip r v) 1 [.regWrite (regAddress s.cfg r) v] :=
  ⟨_, regWrite_served h.waits h.served, GoesOn.step h _ fun ch => setReg ch r v⟩

/-- A write of DCC-local state at a calm boundary. -/
theorem writeLocal_calm {s : State} (h : Calm s) (f : DccRegs → DccRegs) :
    (writeLocal f).run s = .ok () (updateDcc f (passTick s)) := by
  rw [writeLocal_of_waits h.waits, h.turn]

/-- The stream processor performs the only outstanding request. -/
theorem streamRun_only {s : State} {i : Chan} {en : BitVec 1} (h : s.env.streamReqs = [(i, en)]) :
    streamRun 0 s = updateEnv (fun e => { e with streamReqs := [] }) (updateChip (fun ch => setField ch (.actClk i) en) s) := by
  unfold streamRun
  simp only [h, List.getElem?_cons_zero]
  simp [updateEnv, updateChip, h]

/-! ## The clock sequence (43_lut_manager.md R239) with an obliging stream processor -/

/-- Four transactions, and the channel's clock is at the target. -/
theorem clockSeq_obliges {s : State} (i : Chan) (en : BitVec 1) (hw : HostWaits s) (hr : s.env.streamReqs = [])
    (ho : Obliges 4 s) :
    ∃ u, (clockSeq i en).run s = .ok () u ∧
      GoesOn s u { s.chip with
        act := s.chip.act.set i { s.chip.act.get i with actClk := en }
        chsel := 2 ^ i.val, streamId := sidClk s.cfg en, streamTrig := 1 } 4
        [.regWrite s.cfg.chselReg (2 ^ i.val), .regWrite s.cfg.streamIdReg (sidClk s.cfg en),
          .regWrite s.cfg.streamTrigReg 1, .fieldRead (.actClk i)] := by
  obtain ⟨u1, h1, g1⟩ := regWrite_calm (ho.calm hw hr) .chsel (2 ^ i.val)
  obtain ⟨u2, h2, g2⟩ := regWrite_calm ((g1.obliges (m := 3) ho).calm (g1.waits hw) (g1.streamReqs.trans hr)) .streamId
    (sidClk s.cfg en)
  have g12 := g1.trans g2
  have o2 : Obliges 2 u2 := g12.obliges (m := 2) ho
  have c2 := o2.calm (g12.waits hw) (g12.streamReqs.trans hr)
  have h3 := regWrite_served (r := .streamTrig) (v := 1) (request := deliverStream i en) c2.waits c2.served
  rw [c2.turn] at h3
  obtain ⟨u3, hu3⟩ : ∃ u3, u3 = updateFlight (fun f => { f with polls := f.polls + 1 }) (updateFlight
      (fun f => { f with polls := 0 }) (logTxn (.regWrite (regAddress u2.cfg .streamTrig) 1) true
        (deliverStream i en (updateChip (fun ch => setReg ch .streamTrig 1) (passTick u2))))) := ⟨_, rfl⟩
  have e3 : u3.env = { u2.env with
      script := u2.env.script.tail, draws := u2.env.draws + 1, streamReqs := [(i, en)]
      bus := ⟨.regWrite s.cfg.streamTrigReg 1, true⟩ :: u2.env.bus } := by
    rw [hu3]
    show ({ u2.env with
      script := u2.env.script.tail, draws := u2.env.draws + 1, streamReqs := u2.env.streamReqs ++ [(i, en)]
      bus := ⟨.regWrite (regAddress u2.cfg .streamTrig) 1, true⟩ :: u2.env.bus } : Env) = _
    rw [g12.streamReqs.trans hr, g12.cfg]
    rfl
  have o3 : Obliges 1 u3 := o2.next (by rw [e3]) (by rw [e3])
  have w3 : HostWaits u3 := c2.waits.of_hostQ (by rw [e3])
  have t3 : envTurn u3 = updateEnv (fun e => { e with streamReqs := [] })
      (updateChip (fun ch => setField ch (.actClk i) en) (passTick u3)) := by
    rw [o3.envTurn]
    exact streamRun_only (by rw [passTick_streamReqs, e3])
  have h4 := fieldRead_served (f := .actClk i) w3 o3.served
  rw [t3] at h4
  have hv : getField (updateEnv (fun e => { e with streamReqs := [] })
      (updateChip (fun ch => setField ch (.actClk i) en) (passTick u3))).chip (.actClk i) = en :=
    getField_setField u3.chip (.actClk i) en
  rw [hv] at h4
  obtain ⟨u4, hu4⟩ : ∃ u4, u4 = logTxn (.fieldRead (.actClk i)) true (updateEnv (fun e => { e with streamReqs := [] })
      (updateChip (fun ch => setField ch (.actClk i) en) (passTick u3))) := ⟨_, rfl⟩
  rw [← hu4] at h4
  have h5 : (clockSeq i en).run s = .ok () u4 := by
    unfold clockSeq
    rw [run_ask_bind, run_bind_ok h1, run_bind_ok h2, run_bind_ok h3, run_update_bind]
    show (update _ >>= _ : M Unit).run _ = _
    rw [run_update_bind, ← hu3, run_bind_ok h4, if_pos rfl]
    exact run_pure _ _
  refine ⟨u4, h5, ?_, ?_⟩
  · rw [hu4]
    have d3 : u3.dcc = { u2.dcc with flight := u3.dcc.flight } := by rw [hu3]; rfl
    constructor
    · show u3.cfg = s.cfg
      rw [hu3]; exact g12.cfg
    · show u3.regs = s.regs
      rw [hu3]; exact g12.regs
    · show setField u3.chip (.actClk i) en = _
      have c3 : u3.chip = setReg u2.chip .streamTrig 1 := by rw [hu3]; rfl
      rw [c3, g12.chip, g1.chip]; rfl
    · show ({ u3.dcc with flight := _ } : DccRegs) = _
      rw [d3, g12.dcc]; rfl
    · show u3.dcc.flight.oplen = _
      rw [hu3]; exact g12.oplen
    · show u3.dcc.flight.ctrl = _
      rw [hu3]; exact g12.ctrl
    · show u3.dcc.flight.opb = _
      rw [hu3]; exact g12.opb
    · show ({ u3.env with
        script := u3.env.script.tail, draws := u3.env.draws + 1, streamReqs := []
        bus := ⟨.fieldRead (.actClk i), true⟩ :: u3.env.bus } : Env) = _
      rw [e3, g12.env]
      simp [← hr, regAddress, g1.cfg]
  · have h4 : u4.dcc.flight = { u2.dcc.flight with microStep := u4.dcc.flight.microStep, polls := u4.dcc.flight.polls } := by
      rw [hu4, hu3]; rfl
    rw [h4, g12.flight]

/-- With a stream processor that never acts the poll reads the clock `k` times and times out (R239 step 5). -/
theorem pollClock_quiet (i : Chan) (en : BitVec 1) (k : Nat) {s : State} (hw : HostWaits s) (hq : Quiet k s)
    (hne : (s.chip.act.get i).actClk ≠ en) :
    ∃ u, (pollClock i en k).run s = .error (.raised .timeout) u ∧
      Goes s u s.chip k (List.replicate k (.fieldRead (.actClk i))) := by
  induction k generalizing s with
  | zero => exact ⟨s, rfl, Goes.refl s⟩
  | succ k ih =>
    have n := (Goes.refl s).note (f := fun f => { f with polls := f.polls + 1 }) rfl rfl rfl
    have hn : Quiet (k + 1) (updateFlight (fun f => { f with polls := f.polls + 1 }) s) := hq.of_env rfl rfl
    obtain ⟨v, hv, gv⟩ := fieldRead_calm (hn.calm (n.waits hw)) (.actClk i)
    have g := n.trans gv.toGoes
    obtain ⟨u, hu, gu⟩ := ih (g.waits hw) (g.quiet (m := k) (hq.mono (by omega)))
      (by rw [g.chip]; exact hne)
    rw [g.chip] at gu
    refine ⟨u, ?_, ?_⟩
    · unfold pollClock
      rw [run_update_bind]
      refine (run_bind_ok hv).trans ?_
      rw [run_ite]
      exact (if_neg hne).trans hu
    · have := g.trans gu
      rwa [show 0 + 1 + k = k + 1 by omega] at this

/-! ## The LUT access sequence (43_lut_manager.md R237) with an obliging stream processor -/

/-- What the swap test answers inside an operation (R240). -/
def swapOnIn (s : State) : Bool :=
  if ctrlSwapQueryHw s.dcc.flight.ctrl then s.chip.swapEnObj.read 0 != 0 else s.dcc.sessSwapEn == 1

theorem swapOn_calm {s : State} (h : Calm s) :
    ∃ u n l, swapOn.run s = .ok (swapOnIn s) u ∧ GoesOn s u s.chip n l ∧ n ≤ 1 := by
  unfold swapOn swapOnIn
  rw [run_snapCtrl_bind, run_ite]
  by_cases hc : ctrlSwapQueryHw s.dcc.flight.ctrl = true
  · rw [if_pos hc, if_pos hc]
    obtain ⟨u, hr, hg⟩ := mboxCfgRead_calm h .swapModeEn 0 1
    refine ⟨u, _, _, ?_, hg, Nat.le_refl 1⟩
    unfold readSwapFlag
    rw [run_bind_ok hr]
    rfl
  · rw [if_neg hc, if_neg hc]
    exact ⟨s, 0, [], rfl, ⟨Goes.refl s, rfl⟩, Nat.zero_le 1⟩

theorem saveActuator_obliges {s : State} (i : Chan) (l : BitVec 5) (hw : HostWaits s) (hr : s.env.streamReqs = [])
    (ho : Obliges 4 s) :
    ∃ u, (saveActuator i l).run s = .ok () u ∧
      Goes s u s.chip 4
        [.fieldRead (.lutPower i l), .fieldRead (.actEn i), .fieldRead (.actPt i), .fieldRead (.ramSel i)] ∧
      u.dcc.flight.svPower = getField s.chip (.lutPower i l) ∧ u.dcc.flight.svEn = getField s.chip (.actEn i) ∧
      u.dcc.flight.svPt = getField s.chip (.actPt i) ∧ u.dcc.flight.svRamSel = getField s.chip (.ramSel i) := by
  obtain ⟨u1, h1, g1⟩ := fieldRead_calm (ho.calm hw hr) (.lutPower i l)
  have n1 := g1.toGoes.note (f := fun f => { f with svPower := getField s.chip (.lutPower i l) }) rfl rfl rfl
  obtain ⟨u2, h2, g2⟩ := fieldRead_calm ((n1.obliges (m := 3) ho).calm (n1.waits hw) (n1.streamReqs.trans hr)) (.actEn i)
  rw [n1.chip] at h2 g2
  have n2 := (n1.trans g2.toGoes).note (f := fun f => { f with svEn := getField s.chip (.actEn i) }) rfl rfl rfl
  obtain ⟨u3, h3, g3⟩ := fieldRead_calm ((n2.obliges (m := 2) ho).calm (n2.waits hw) (n2.streamReqs.trans hr)) (.actPt i)
  rw [n2.chip] at h3 g3
  have n3 := (n2.trans g3.toGoes).note (f := fun f => { f with svPt := getField s.chip (.actPt i) }) rfl rfl rfl
  obtain ⟨u4, h4, g4⟩ := fieldRead_calm ((n3.obliges (m := 1) ho).calm (n3.waits hw) (n3.streamReqs.trans hr)) (.ramSel i)
  rw [n3.chip] at h4 g4
  have n4 := (n3.trans g4.toGoes).note (f := fun f => { f with svRamSel := getField s.chip (.ramSel i) }) rfl rfl rfl
  refine ⟨_, ?_, n4, ?_, ?_, ?_, rfl⟩
  · unfold saveActuator
    rw [run_bind_ok h1, run_update_bind, run_bind_ok h2, run_update_bind, run_bind_ok h3, run_update_bind,
      run_bind_ok h4, run_update]
  · exact g4.svPower.trans (g3.svPower.trans g2.svPower)
  · exact g4.svEn.trans g3.svEn
  · exact g4.svPt

theorem restoreActuator_obliges {s : State} (i : Chan) (hw : HostWaits s) (hr : s.env.streamReqs = [])
    (ho : Obliges 6 s) :
    ∃ u l, (restoreActuator i).run s = .ok () u ∧
      GoesOn s u (setField (setField (setField s.chip (.actEn i) s.dcc.flight.svEn) (.actPt i) s.dcc.flight.svPt)
        (.ramSel i) s.dcc.flight.svRamSel) 6 l := by
  obtain ⟨u1, h1, g1⟩ := fieldWrite_calm (ho.calm2 hw hr) (.actEn i) rfl s.dcc.flight.svEn
  obtain ⟨u2, h2, g2⟩ := fieldWrite_calm ((g1.obliges (m := 4) ho).calm2 (g1.waits hw) (g1.streamReqs.trans hr))
    (.actPt i) rfl s.dcc.flight.svPt
  have g12 := g1.trans g2
  obtain ⟨u3, h3, g3⟩ := fieldWrite_calm ((g12.obliges (m := 2) ho).calm2 (g12.waits hw) (g12.streamReqs.trans hr))
    (.ramSel i) rfl s.dcc.flight.svRamSel
  rw [g12.chip, g1.chip] at g3
  refine ⟨u3, _, ?_, g12.trans g3⟩
  unfold restoreActuator
  rw [run_ask_bind, run_bind_ok h1, run_bind_ok h2, h3]

/-- The chip after a whole access sequence is the one `sequencedChip` names. -/
theorem sequencedChip_eq (cfg : Config) (swap pol : Bool) (i : Chan) (l : BitVec 5) (bulk : Memory) (ch : Chip) :
    (let c1 := setField (setField ch (.lutPower i l) 1) (.actEn i) 1
     let c2 : Chip := { c1 with
       act := c1.act.set i { c1.act.get i with actClk := 1 }
       chsel := 2 ^ i.val, streamId := sidClk cfg 1, streamTrig := 1 }
     let c3 : Chip := { setField c2 (.ramSel i) l with bulk := bulk }
     let c4 := if swap = false then setField (setField (setField c3 (.actEn i) (getField ch (.actEn i)))
       (.actPt i) (getField ch (.actPt i))) (.ramSel i) (getField ch (.ramSel i)) else c3
     let c5 : Chip := { c4 with
       act := c4.act.set i { c4.act.get i with actClk := 0 }
       chsel := 2 ^ i.val, streamId := sidClk cfg 0, streamTrig := 1 }
     if pol = true then setField c5 (.lutPower i l) (getField ch (.lutPower i l)) else c5) =
    sequencedChip cfg swap pol i l bulk ch := by
  have hv : ∀ (v : Vector (BitVec 1) 32), v.set l.toNat (v.get l.toFin) l.isLt = v := by
    intro v
    refine Vector.ext fun k hk => ?_
    simp only [Vector.getElem_set]
    split
    · rename_i h; subst h; rfl
    · rfl
  have hs : ∀ (v : Vector Actuator 4) (a b : Actuator), (v.set i a).set i b = v.set i b := by
    intro v a b
    exact Vector.set_set ..
  cases swap <;> cases pol <;>
    simp [setField, updateAct, getField, sequencedChip, sequencedActuator, sidClk, hs, hv]

theorem doIf_restoreActuator_obliges {s : State} (i : Chan) (swap : Bool) (hw : HostWaits s)
    (hr : s.env.streamReqs = []) (ho : Obliges 6 s) :
    ∃ u n l, (doIf (swap = false) (restoreActuator i)).run s = .ok () u ∧ n ≤ 6 ∧
      GoesOn s u (if swap = false then setField (setField (setField s.chip (.actEn i) s.dcc.flight.svEn)
        (.actPt i) s.dcc.flight.svPt) (.ramSel i) s.dcc.flight.svRamSel else s.chip) n l := by
  rw [run_doIf]
  by_cases h : swap = false
  · simp only [if_pos h]
    obtain ⟨u, l, h1, h3⟩ := restoreActuator_obliges i hw hr ho
    exact ⟨u, 6, l, h1, Nat.le_refl 6, h3⟩
  · simp only [if_neg h]
    exact ⟨s, 0, [], rfl, Nat.zero_le 6, Goes.refl s, rfl⟩

theorem restorePower_obliges {s : State} (i : Chan) (l : BitVec 5) (pol : Bool) (hw : HostWaits s)
    (hr : s.env.streamReqs = []) (ho : Obliges 2 s) :
    ∃ u n txns, (restorePower i l pol).run s = .ok () u ∧ n ≤ 2 ∧
      GoesOn s u (if pol = true then setField s.chip (.lutPower i l) s.dcc.flight.svPower else s.chip) n txns := by
  unfold restorePower
  rw [run_ask_bind, run_doIf]
  by_cases h : pol = true
  · simp only [if_pos h]
    obtain ⟨u, h1, h2⟩ := fieldWrite_calm (ho.calm2 hw hr) (.lutPower i l) rfl s.dcc.flight.svPower
    exact ⟨u, 2, [.fieldWrite (.lutPower i l) s.dcc.flight.svPower.toNat], h1, Nat.le_refl 2, h2⟩
  · simp only [if_neg h]
    exact ⟨s, 0, [], rfl, Nat.zero_le 2, Goes.refl s, rfl⟩

/-- The whole sequence around a transfer `xfer` of one calm transaction that leaves `bulk`. -/
theorem lutAccess_obliges {α : Type} {s : State} {i : Chan} {l : BitVec 5} {policy : Word → Bool} {xfer : M α} {a : α}
    {bulk : Memory} {x : Txn} (hw : HostWaits s) (hr : s.env.streamReqs = []) (ho : Obliges 28 s)
    (hx : ∀ v : State, Calm v → v.cfg = s.cfg → v.chip.bulk = s.chip.bulk → ∃ w, xfer.run v = .ok a w ∧
      GoesOn v w { v.chip with bulk := bulk } 1 [x]) :
    ∃ u n txns, (lutAccess i l policy xfer).run s = .ok a u ∧ n ≤ 28 ∧
      Goes s u (sequencedChip s.cfg (swapOnIn s) (policy s.dcc.flight.ctrl) i l bulk s.chip) n txns := by
  obtain ⟨u1, h1, g1, sp, se, st, sr⟩ := saveActuator_obliges i l hw hr (ho.mono (by omega))
  have o1 : Obliges 24 u1 := g1.obliges ho
  obtain ⟨u2, h2, g2⟩ := fieldWrite_calm (o1.calm2 (g1.waits hw) (g1.streamReqs.trans hr)) (.lutPower i l) rfl 1
  have w2 : HostWaits u2 := g2.waits (g1.waits hw)
  have r2 : u2.env.streamReqs = [] := g2.streamReqs.trans (g1.streamReqs.trans hr)
  have o2 : Obliges 22 u2 := g2.obliges o1
  obtain ⟨u3, h3, g3⟩ := fieldWrite_calm (o2.calm2 w2 r2) (.actEn i) rfl 1
  have w3 : HostWaits u3 := g3.waits w2
  have r3 : u3.env.streamReqs = [] := g3.streamReqs.trans r2
  have o3 : Obliges 20 u3 := g3.obliges o2
  obtain ⟨u4, h4, g4⟩ := clockSeq_obliges i 1 w3 r3 (o3.mono (by omega))
  have w4 : HostWaits u4 := g4.waits w3
  have r4 : u4.env.streamReqs = [] := g4.streamReqs.trans r3
  have o4 : Obliges 16 u4 := g4.obliges o3
  obtain ⟨u5, h5, g5⟩ := fieldWrite_calm (o4.calm2 w4 r4) (.ramSel i) rfl l
  have w5 : HostWaits u5 := g5.waits w4
  have r5 : u5.env.streamReqs = [] := g5.streamReqs.trans r4
  have o5 : Obliges 14 u5 := g5.obliges o4
  have g15 := g1.trans (g2.toGoes.trans (g3.toGoes.trans (g4.toGoes.trans g5.toGoes)))
  have c4 := g4.chip
  have c5 := g5.chip
  rw [c4, g3.chip, g2.chip, g1.chip, g3.cfg, g2.cfg, g1.cfg] at c5
  obtain ⟨u6, h6, g6⟩ := hx u5 (o5.calm w5 r5) g15.cfg (by rw [c5]; simp)
  have w6 : HostWaits u6 := g6.waits w5
  have r6 : u6.env.streamReqs = [] := g6.streamReqs.trans r5
  have o6 : Obliges 13 u6 := g6.obliges o5
  obtain ⟨u7, k7, l7, h7, g7, n7⟩ := swapOn_calm (o6.calm w6 r6)
  have w7 : HostWaits u7 := g7.waits w6
  have r7 : u7.env.streamReqs = [] := g7.streamReqs.trans r6
  have o7 : Obliges 12 u7 := g7.obliges (o6.mono (by omega))
  obtain ⟨u8, k8, l8, h8, n8, g8⟩ := doIf_restoreActuator_obliges i (swapOnIn u6) w7 r7 (o7.mono (by omega))
  have w8 : HostWaits u8 := g8.waits w7
  have r8 : u8.env.streamReqs = [] := g8.streamReqs.trans r7
  have o8 : Obliges 6 u8 := g8.obliges (o7.mono (by omega))
  obtain ⟨u9, h9, g9⟩ := clockSeq_obliges i 0 w8 r8 (o8.mono (by omega))
  have w9 : HostWaits u9 := g9.waits w8
  have r9 : u9.env.streamReqs = [] := g9.streamReqs.trans r8
  have o9 : Obliges 2 u9 := g9.obliges o8
  obtain ⟨u10, k10, l10, h10, n10, g10⟩ := restorePower_obliges i l (policy u9.dcc.flight.ctrl) w9 r9 o9
  have g6' := g15.trans g6.toGoes
  have g9' := g6'.trans (g7.toGoes.trans (g8.toGoes.trans g9.toGoes))
  have hall := g9'.trans g10.toGoes
  have hsw : swapOnIn u6 = swapOnIn s := by
    unfold swapOnIn
    rw [g6'.ctrl, g6'.dcc, g6.chip, c5]
    simp
  have hse : u7.dcc.flight.svEn = getField s.chip (.actEn i) :=
    g7.svEn.trans (g6.svEn.trans (g5.svEn.trans (g4.svEn.trans (g3.svEn.trans (g2.svEn.trans se)))))
  have hst : u7.dcc.flight.svPt = getField s.chip (.actPt i) :=
    g7.svPt.trans (g6.svPt.trans (g5.svPt.trans (g4.svPt.trans (g3.svPt.trans (g2.svPt.trans st)))))
  have hsr : u7.dcc.flight.svRamSel = getField s.chip (.ramSel i) :=
    g7.svRamSel.trans (g6.svRamSel.trans (g5.svRamSel.trans (g4.svRamSel.trans (g3.svRamSel.trans
      (g2.svRamSel.trans sr)))))
  have hsp : u9.dcc.flight.svPower = getField s.chip (.lutPower i l) :=
    g9.svPower.trans (g8.svPower.trans (g7.svPower.trans (g6.svPower.trans (g5.svPower.trans (g4.svPower.trans
      (g3.svPower.trans (g2.svPower.trans sp)))))))
  have hchip : (if policy u9.dcc.flight.ctrl = true then setField u9.chip (.lutPower i l) u9.dcc.flight.svPower else u9.chip) =
      sequencedChip s.cfg (swapOnIn s) (policy s.dcc.flight.ctrl) i l bulk s.chip := by
    rw [hsp, g9.chip, g8.chip, hse, hst, hsr, g7.chip, g6.chip, c5, g9'.ctrl, hsw,
      (g6'.trans (g7.toGoes.trans g8.toGoes)).cfg]
    exact sequencedChip_eq s.cfg (swapOnIn s) (policy s.dcc.flight.ctrl) i l bulk s.chip
  rw [hchip] at hall
  refine ⟨u10, _, _, ?_, ?_, hall⟩
  · unfold lutAccess
    rw [run_bind_ok h1, run_bind_ok h2, run_bind_ok h3, run_bind_ok h4, run_bind_ok h5, run_bind_ok h6, run_bind_ok h7,
      run_bind_ok h8, run_bind_ok h9, run_snapCtrl_bind, run_bind_ok h10, run_pure]
  · omega

/-! ## The pin setups (40_gpio_arbiter.md R146, R147) in a quiet environment -/

/-- A change of the tags alone. -/
def withTags (tag : Vector Tag 19) (s : State) : State := updateDcc (fun d => { d with tag := tag }) s

theorem Goes.withTags {s u : State} {c : Chip} {n : Nat} {l : List Txn} (h : Goes s u c n l) (tag : Vector Tag 19) :
    Goes (withTags tag s) (Machine.withTags tag u) c n l where
  cfg := h.cfg
  regs := h.regs
  chip := h.chip
  dcc := by
    show ({ u.dcc with tag := tag } : DccRegs) = { s.dcc with tag := tag, flight := u.dcc.flight }
    rw [h.dcc]
  oplen := h.oplen
  ctrl := h.ctrl
  opb := h.opb
  env := h.env

theorem Goes.tag {s u : State} {c : Chip} {n : Nat} {l : List Txn} (h : Goes s u c n l) : u.dcc.tag = s.dcc.tag := by
  rw [h.dcc]

/-- A tag written at a calm boundary. -/
theorem setTag_calm {s : State} (h : Calm s) (p : Pin) (t : Tag) :
    (setTag p t).run s = .ok () (withTags (s.dcc.tag.set p t) (passTick s)) := writeLocal_calm h _

/-- The tags and directions once the pin that carried the feature is released. -/
def releasedTags (prev : Option Pin) (tag : Vector Tag 19) : Vector Tag 19 :=
  match prev with
  | some q => tag.set q .none
  | none => tag

def releasedDirs (prev : Option Pin) (dir : Vector Dir 19) : Vector Dir 19 :=
  match prev with
  | some q => dir.set q .input
  | none => dir

theorem movedTags_eq (tag : Vector Tag 19) (f : Tag) (pin : PinCode) :
    movedTags tag f pin = if pin = pinInvalid then releasedTags (scanTag tag f) tag
      else (releasedTags (scanTag tag f) tag).set (pinOfCode pin) f := rfl

theorem movedDirs_eq (tag : Vector Tag 19) (f : Tag) (d : Dir) (pin : PinCode) (dir : Vector Dir 19) :
    movedDirs tag f d pin dir = if pin = pinInvalid then releasedDirs (scanTag tag f) dir
      else (releasedDirs (scanTag tag f) dir).set (pinOfCode pin) d := rfl

/-- A pin that may be acquired is free once the held pin is released. -/
theorem released_free {tag : Vector Tag 19} {f : Tag} {pin : PinCode} (h : mayAcquire tag f pin) (hp : pin ≠ pinInvalid) :
    (releasedTags (scanTag tag f) tag).get (pinOfCode pin) = .none := by
  unfold releasedTags
  rcases h with h | h | h
  · exact absurd h hp
  · cases scanTag tag f with
    | none => exact h
    | some q =>
      simp only [get_set]
      split <;> simp [h]
  · rw [h]; exact get_set_self tag _ _

theorem withRollback_ok {m : M Unit} {s u : State}
    (h : m.run (updateFlight (fun f => { f with undo := [] }) s) = .ok () u) : (withRollback m).run s = .ok () u := by
  unfold withRollback
  rw [run_of, h]

theorem releaseTrig_quiet {s : State} (prev : Option Pin) (hw : HostWaits s) (hq : Quiet 2 s) :
    ∃ u n l, (releaseTrig prev).run s = .ok () u ∧ n ≤ 2 ∧
      Goes (withTags (releasedTags prev s.dcc.tag) s) u { s.chip with dir := releasedDirs prev s.chip.dir } n l := by
  cases prev with
  | none => exact ⟨s, 0, [], rfl, Nat.zero_le 2, Goes.refl s⟩
  | some q =>
    obtain ⟨u, h, g⟩ := gpioDirSet_calm (hq.calm hw) q .input
    have n := ((g.toGoes.pass).withTags (s.dcc.tag.set q .none)).note
      (f := fun f => { f with undo := .tag q .captureTrigger :: f.undo }) rfl rfl rfl
    refine ⟨_, 2, [.gpioDirSet q .input], ?_, Nat.le_refl 2, n⟩
    unfold releaseTrig
    simp only [run_bind_ok h, run_bind_ok (setTag_calm ((g.quiet (m := 1) hq).calm (g.waits hw)) q .none), run_logUndo]
    rw [g.tag]

theorem releaseDone_quiet {s : State} (prev : Option Pin) (hw : HostWaits s) (hq : Quiet 2 s) :
    ∃ u n l, (releaseDone prev).run s = .ok () u ∧ n ≤ 2 ∧
      Goes (withTags (releasedTags prev s.dcc.tag) s) u { s.chip with dir := releasedDirs prev s.chip.dir } n l := by
  cases prev with
  | none => exact ⟨s, 0, [], rfl, Nat.zero_le 2, Goes.refl s⟩
  | some q =>
    obtain ⟨u, h, g⟩ := gpioDirSet_calm (hq.calm hw) q .input
    have g1 := g.toGoes.note (f := fun f => { f with undo := .dir q .output :: f.undo }) rfl rfl rfl
    have n := ((g1.pass).withTags (s.dcc.tag.set q .none)).note
      (f := fun f => { f with undo := .tag q .captureDone :: f.undo }) rfl rfl rfl
    refine ⟨_, 2, [.gpioDirSet q .input], ?_, Nat.le_refl 2, n⟩
    unfold releaseDone
    simp only [run_bind_ok h, run_logUndo_bind,
      run_bind_ok (setTag_calm ((g1.quiet (m := 1) hq).calm (g1.waits hw)) q .none), run_logUndo]
    rw [g1.tag]

theorem acquireTrig_quiet {s : State} (p : Pin) (hw : HostWaits s) (hq : Quiet 2 s) (h : s.dcc.tag.get p = .none) :
    ∃ u n l, (acquireTrig p).run s = .ok () u ∧ n ≤ 2 ∧
      Goes (withTags (s.dcc.tag.set p .captureTrigger) s) u { s.chip with dir := s.chip.dir.set p .input } n l := by
  have n := ((Goes.refl s).pass.withTags (s.dcc.tag.set p .captureTrigger)).note
    (f := fun f => { f with undo := .tag p .none :: f.undo }) rfl rfl rfl
  obtain ⟨u, hr, g⟩ := gpioDirSet_calm ((n.quiet (m := 1) (hq.of_env rfl rfl)).calm (n.waits hw)) p .input
  refine ⟨u, _, _, ?_, Nat.le_refl 2, n.trans g.toGoes⟩
  unfold acquireTrig
  rw [run_ask_bind, run_check_bind, if_pos h, run_bind_ok (setTag_calm (hq.calm hw) p .captureTrigger), run_logUndo_bind]
  exact hr

theorem acquireDone_quiet {s : State} (p : Pin) (hw : HostWaits s) (hq : Quiet 4 s) (h : s.dcc.tag.get p = .none) :
    ∃ u n l, (acquireDone p).run s = .ok () u ∧ n ≤ 4 ∧
      Goes (withTags (s.dcc.tag.set p .captureDone) s) u { s.chip with
        dir := s.chip.dir.set p .output, srcctl := s.chip.srcctl.set (groupOfPin p) s.cfg.srcctlMemElem } n l := by
  have n := ((Goes.refl s).pass.withTags (s.dcc.tag.set p .captureDone)).note
    (f := fun f => { f with undo := .tag p .none :: f.undo }) rfl rfl rfl
  obtain ⟨u, hr, g⟩ := gpioDirSet_calm ((n.quiet (m := 3) (hq.of_env rfl rfl)).calm (n.waits hw)) p .output
  have n2 := (n.trans g.toGoes).note (f := fun f => { f with undo := .dir p .input :: f.undo }) rfl rfl rfl
  obtain ⟨v, hv, gv⟩ := fieldWrite_calm ((n2.quiet (m := 2) (hq.of_env rfl rfl)).calm2 (n2.waits hw))
    (.srcctl (groupOfPin p)) rfl s.cfg.srcctlMemElem
  have n3 := n2.trans gv.toGoes
  rw [n2.chip] at n3
  refine ⟨v, _, _, ?_, Nat.le_refl 4, n3⟩
  unfold acquireDone
  rw [run_ask_bind, run_check_bind, if_pos h, run_bind_ok (setTag_calm (hq.calm hw) p .captureDone), run_logUndo_bind]
  refine (run_bind_ok hr).trans ?_
  rw [run_logUndo_bind, run_ask_bind]
  have hc : (updateFlight (fun f => { f with undo := .dir p .input :: f.undo }) u).cfg.srcctlMemElem = s.cfg.srcctlMemElem :=
    congrArg Config.srcctlMemElem n2.cfg
  rw [hc]
  exact hv

theorem resetNibble_quiet {s : State} (prev : Option Pin) (hw : HostWaits s) (hq : Quiet 2 s) :
    ∃ u n l, (resetNibble prev).run s = .ok () u ∧ n ≤ 2 ∧
      Goes s u { s.chip with srcctl := match prev with
        | some q => s.chip.srcctl.set (groupOfPin q) s.cfg.srcctlDefault
        | none => s.chip.srcctl } n l := by
  cases prev with
  | none => exact ⟨s, 0, [], rfl, Nat.zero_le 2, Goes.refl s⟩
  | some q =>
    obtain ⟨u, h, g⟩ := fieldWrite_calm (hq.calm2 hw) (.srcctl (groupOfPin q)) rfl s.cfg.srcctlDefault
    exact ⟨u, 2, [.fieldWrite (.srcctl (groupOfPin q)) s.cfg.srcctlDefault.toNat], h, Nat.le_refl 2, g.toGoes⟩

/-- `TRIGPIN.SETUP`'s moves: the held pin released, the requested one acquired. -/
theorem moveTrigPin_quiet {s : State} (pin : PinCode) (hw : HostWaits s) (hq : Quiet 4 s)
    (h : mayAcquire s.dcc.tag .captureTrigger pin) :
    ∃ u n l, (moveTrigPin pin).run s = .ok () u ∧ n ≤ 4 ∧
      Goes (withTags (movedTags s.dcc.tag .captureTrigger pin) s) u
        { s.chip with dir := movedDirs s.dcc.tag .captureTrigger .input pin s.chip.dir } n l := by
  have n0 := (Goes.refl s).note (f := fun f => { f with prev := scanTag s.dcc.tag .captureTrigger }) rfl rfl rfl
  obtain ⟨u1, k1, l1, h1, b1, g1⟩ := releaseTrig_quiet (scanTag s.dcc.tag .captureTrigger) (n0.waits hw)
    (n0.quiet (m := 2) (hq.mono (by omega)))
  have g01 := (n0.withTags (releasedTags (scanTag s.dcc.tag .captureTrigger) s.dcc.tag)).trans g1
  have hrun : (moveTrigPin pin).run s =
      (if pin = pinInvalid then (pure () : M Unit) else acquireTrig (pinOfCode pin)).run u1 := by
    unfold moveTrigPin findPrev
    rw [run_bind_assoc, run_update_bind, run_ask_bind]
    exact run_bind_ok h1
  rw [hrun, movedTags_eq, movedDirs_eq, run_ite]
  by_cases hp : pin = pinInvalid
  · simp only [if_pos hp]
    exact ⟨u1, _, _, rfl, by omega, g01⟩
  · simp only [if_neg hp]
    have ht : u1.dcc.tag = releasedTags (scanTag s.dcc.tag .captureTrigger) s.dcc.tag := g01.tag
    obtain ⟨u2, k2, l2, h2, b2, g2⟩ := acquireTrig_quiet (pinOfCode pin) (g01.waits hw)
      (g01.quiet (m := 2) (hq.mono (by omega))) (by rw [ht]; exact released_free h hp)
    rw [ht, g01.chip] at g2
    exact ⟨u2, _, _, h2, by omega, (g01.withTags _).trans g2⟩

/-- `DONEPIN.SETUP`'s moves. -/
theorem moveDonePin_quiet {s : State} (pin : PinCode) (hw : HostWaits s) (hq : Quiet 6 s)
    (h : mayAcquire s.dcc.tag .captureDone pin) :
    ∃ u n l, (moveDonePin pin).run s = .ok () u ∧ n ≤ 6 ∧
      Goes (withTags (movedTags s.dcc.tag .captureDone pin) s) u { s.chip with
        dir := movedDirs s.dcc.tag .captureDone .output pin s.chip.dir
        srcctl := movedNibbles s.cfg s.dcc.tag pin s.chip.srcctl } n l := by
  have n0 := (Goes.refl s).note (f := fun f => { f with prev := scanTag s.dcc.tag .captureDone }) rfl rfl rfl
  obtain ⟨u1, k1, l1, h1, b1, g1⟩ := releaseDone_quiet (scanTag s.dcc.tag .captureDone) (n0.waits hw)
    (n0.quiet (m := 2) (hq.mono (by omega)))
  have g01 := (n0.withTags (releasedTags (scanTag s.dcc.tag .captureDone) s.dcc.tag)).trans g1
  have hrun : (moveDonePin pin).run s =
      (if pin = pinInvalid then resetNibble (scanTag s.dcc.tag .captureDone) else acquireDone (pinOfCode pin)).run u1 := by
    unfold moveDonePin findPrev
    rw [run_bind_assoc, run_update_bind, run_ask_bind]
    exact run_bind_ok h1
  rw [hrun, movedTags_eq, movedDirs_eq, run_ite]
  unfold movedNibbles
  by_cases hp : pin = pinInvalid
  · simp only [if_pos hp]
    obtain ⟨u2, k2, l2, h2, b2, g2⟩ := resetNibble_quiet (scanTag s.dcc.tag .captureDone) (g01.waits hw)
      (g01.quiet (m := 2) (hq.mono (by omega)))
    rw [g01.chip, g01.cfg] at g2
    exact ⟨u2, _, _, h2, by omega, g01.trans g2⟩
  · simp only [if_neg hp]
    have ht : u1.dcc.tag = releasedTags (scanTag s.dcc.tag .captureDone) s.dcc.tag := g01.tag
    obtain ⟨u2, k2, l2, h2, b2, g2⟩ := acquireDone_quiet (pinOfCode pin) (g01.waits hw)
      (g01.quiet (m := 4) (hq.mono (by omega))) (by rw [ht]; exact released_free h hp)
    rw [ht, g01.chip, g01.cfg] at g2
    exact ⟨u2, _, _, h2, by omega, (g01.withTags _).trans g2⟩

end Sys2Proof.Machine
end

