-- ==== Sys2Proof/Tests/Slice0.lean ====
section
/-! SUPPORT. Tests of the model against the spec's own words and vectors, and for every obligation with hypotheses a witness
that meets them. Every expected value comes from 95_test_vectors.md (the vector is named) or from the rule named. -/

namespace Sys2Proof.Tests
open Sys2Proof Sys2Proof.Machine

/-! ## Well-formedness: an ill-formed term for each check, which the check refuses -/

/-- Pin 19 is no pin of the chip (40_gpio_arbiter.md R140). -/
theorem test_wf_refuses_srcctl_pin : (Instr.srcctlSet 19 0).wellFormed = false ∧ (Instr.srcctlGet 40).wellFormed = false ∧
    (Instr.srcctlGet 18).wellFormed = true := by decide

/-- Pins 16..18 are mapped but not assignable; the sentinel is legal (R140, R146). -/
theorem test_wf_refuses_setup_pin : (Instr.donepinSetup 16).wellFormed = false ∧
    (Instr.trigpinSetup 18).wellFormed = false ∧ (Instr.donepinSetup 15).wellFormed = true ∧
    (Instr.trigpinSetup 0xFF).wellFormed = true := by decide

/-- Band 3 does not exist (41_capture_config.md R187, R188). -/
theorem test_wf_refuses_band : (Instr.pwrthSet 3).wellFormed = false ∧ (Instr.pwrthGet 3).wellFormed = false := by decide

/-- A mask with no or two channels names none (00_scope.md R12). -/
theorem test_wf_refuses_channel : (Instr.capStatus 3).wellFormed = false ∧ (Instr.modelCfg 0).wellFormed = false ∧
    (Instr.modelGet 5).wellFormed = false ∧ (Instr.mmodelCfg 15).wellFormed = false ∧
    (Instr.lutAddr 6 0 0).wellFormed = false ∧ (Instr.lutWrite 0 0 0).wellFormed = false ∧
    (Instr.lutRead 3 0 0).wellFormed = false ∧ (Instr.actclkSet 0 1).wellFormed = false ∧
    (Instr.swapWrite 7 0).wellFormed = false ∧ (Instr.mmodelStatus 9).wellFormed = false ∧
    (Instr.mmodelGet 0 0).wellFormed = false ∧ (Instr.mmodelUpdate 0 0).wellFormed = false := by decide

/-- Models 2 and 3 do not exist for the multi-model operations (43_lut_manager.md R234, 44_swap_mode.md R266). -/
theorem test_wf_refuses_model : (Instr.mmodelGet 1 2).wellFormed = false ∧ (Instr.mmodelUpdate 1 3).wellFormed = false := by
  decide

/-- Multi-model LUT 26 does not exist (44_swap_mode.md R265). -/
theorem test_wf_refuses_lut : (Instr.mmlutWrite 26).wellFormed = false ∧ (Instr.mmlutWrite 25).wellFormed = true := by decide

/-- Vectors B3 to B7: the illegal words. -/
theorem test_illegal_words : wordLegal 0x00000000 = false ∧ wordLegal 0x56000000 = false ∧ wordLegal 0x30000001 = false ∧
    wordLegal 0x13010000 = false ∧ wordLegal 0x47000811 = false ∧ decode 0x00000000 = none ∧ decode 0x56000000 = none ∧
    decode 0x30000001 = none ∧ decode 0x13010000 = none ∧ decode 0x47000811 = none := by decide

/-- No two rows of the opcode map share an opcode (30_encoding.md R113). -/
theorem test_rows_distinct : (opRows.map OpRow.op).Nodup ∧ opRows.length = 32 := by decide

/-! ## Decoding: a word of every operation, written out from the slices of 30_encoding.md R111 -/

/-- 40_gpio_arbiter.md family; the last word is vector B2. -/
theorem test_decode_gpio : decode 0x10063000 = some (.srcctlSet 6 3) ∧ decode 0x11110000 = some (.srcctlGet 17) ∧
    decode 0x12090000 = some (.donepinSetup 9) ∧ decode 0x13000000 = some .donepinGet ∧
    decode 0x14FF0000 = some (.trigpinSetup 0xFF) ∧ decode 0x15000000 = some .trigpinGet ∧
    decode 0x10115000 = some (.srcctlSet 17 5) := by decide

/-- 41_capture_config.md family. -/
theorem test_decode_capcfg : decode 0x20000000 = some .capcfgSet ∧ decode 0x21000000 = some .capcfgGet ∧
    decode 0x22000000 = some .capctrlSet ∧ decode 0x23000000 = some .capctrlGet ∧ decode 0x24000000 = some .caplvlSet ∧
    decode 0x25000000 = some .caplvlGet ∧ decode 0x26000200 = some (.pwrthSet 1) ∧
    decode 0x27000400 = some (.pwrthGet 2) := by decide

/-- 42_capture_fsm.md family. -/
theorem test_decode_capfsm : decode 0x30000000 = some .capStart ∧ decode 0x31000000 = some .capPoll ∧
    decode 0x32000004 = some (.capStatus 4) ∧ decode 0x33000000 = some .capRddone := by decide

/-- 43_lut_manager.md family; 0x45000611 is vector B1, 0x44000452 is in B41. -/
theorem test_decode_lut : decode 0x40000002 = some (.modelCfg 2) ∧ decode 0x41000002 = some (.modelGet 2) ∧
    decode 0x42000008 = some (.mmodelCfg 8) ∧ decode 0x43000401 = some (.mmodelGet 1 2) ∧
    decode 0x44000452 = some (.lutAddr 2 5 2) ∧ decode 0x45000611 = some (.lutWrite 1 1 3) ∧
    decode 0x460007E2 = some (.lutRead 2 30 3) ∧ decode 0x47000808 = some (.actclkSet 8 1) := by decide

/-- 44_swap_mode.md family. -/
theorem test_decode_swap : decode 0x50000800 = some (.swapEn 1) ∧ decode 0x51000000 = some .swapGeten ∧
    decode 0x52000201 = some (.swapWrite 1 1) ∧ decode 0x53000190 = some (.mmlutWrite 25) ∧
    decode 0x54000202 = some (.mmodelUpdate 2 1) ∧ decode 0x55000008 = some (.mmodelStatus 8) := by decide

/-- The encoder writes the same words. -/
theorem test_encode : encode (.srcctlSet 6 3) = 0x10063000 ∧ encode (.lutRead 2 30 3) = 0x460007E2 ∧
    encode (.actclkSet 8 1) = 0x47000808 ∧ encode (.mmlutWrite 25) = 0x53000190 := by decide

/-! ## Small states -/

/-- `s` before `n` boundaries at which every transaction succeeds and no other agent moves. -/
def quiet (n : Nat) (s : State) : State := { s with env := { s.env with script := List.replicate n {} } }

/-- `s` before `n` boundaries at which the stream processor performs the oldest request. -/
def obliging (n : Nat) (s : State) : State :=
  { s with env := { s.env with script := List.replicate n { moves := [.stream 0] } } }

/-- `s` before the boundaries `ticks`. -/
def scripted (ticks : List Tick) (s : State) : State := { s with env := { s.env with script := ticks } }

/-- `s` with the operands `bs` in `OPB` and their number in `OPLEN`. -/
def operands (bs : List Byte) (s : State) : State :=
  { s with regs := { s.regs with oplen := BitVec.ofNat 32 bs.length, opb := Memory.writeBytes [] 0 bs } }

/-- `s` with another `CTRL`. -/
def control (v : Word) (s : State) : State := { s with regs := { s.regs with ctrl := v } }

/-- `s` with the number of operand bytes `n`. -/
def oplen (n : Nat) (s : State) : State := { s with regs := { s.regs with oplen := BitVec.ofNat 32 n } }

/-- `s` in `cap_state` `c`. -/
def inState (c : CapState) (s : State) : State := { s with dcc := { s.dcc with capState := c } }

/-- `s` with another chip. -/
def chip (f : Chip → Chip) (s : State) : State := { s with chip := f s.chip }

/-- The state after `DONEPIN.SETUP` of pin 9 (vector B10). -/
def doneOn9 (s : State) : State :=
  { s with
    dcc := { s.dcc with tag := s.dcc.tag.set 9 .captureDone, sessDonePin := 9 }
    chip := { s.chip with dir := s.chip.dir.set 9 .output, srcctl := s.chip.srcctl.set 2 1 } }

/-- `n` quiet ticks, one answered with `a`, and quiet ones after it. -/
def failAt (n : Nat) (a : Answer) : List Tick :=
  List.replicate n ({} : Tick) ++ { answer := a } :: List.replicate 16 ({} : Tick)

/-- The state after the step in which the host writes the command word `w`, the boundaries past the end of the script quiet:
every operation has at least the boundary before its exit. -/
def after (w : Word) (s : State) : State :=
  match step (State.withFetchWord { s with env := { s.env with script := s.env.script ++ List.replicate 64 {} } } 32 w.toNat) with
  | .next t => t
  | .fault _ => s
  | .refused _ => s

/-- `RES` after that step. -/
def resAfter (w : Word) (s : State) : Word := (after w s).regs.res

/-- The transactions of that step, in order. -/
def sentAfter (w : Word) (s : State) : List Txn := ((after w s).env.bus.map BusEntry.txn).reverse

/-- The host record of vector B20. -/
def b20Host : List Byte :=
  [0xFF, 0x09, 0, 0, 0, 0, 0x20, 0x10, 1, 0, 0, 1, 0, 2, 0x20, 0x10, 1, 0, 0, 1, 0, 2, 0x20, 0x10, 1, 0, 0, 1, 0, 2] ++
  [0xE8, 3, 0, 0, 1, 0, 1, 0, 0, 1, 0, 0, 0, 0, 0, 0, 1, 0, 0, 0, 0, 0, 0x23, 1, 0x10, 0, 0, 0]

/-- The chip record of vector B20. -/
def b20Chip : List Byte :=
  [0, 0, 0, 0, 0x20, 0x10, 1, 0, 0, 1, 0, 2, 0x20, 0x10, 1, 0, 0, 1, 0, 2, 0x20, 0x10, 1, 0, 0, 1, 0, 2, 0xE8, 3] ++
  [0, 0, 0, 0, 0, 0, 0, 0, 0, 0, 0, 0, 0, 1, 0, 0, 0, 0, 0, 0x0A, 3, 0, 0x10, 0, 0, 0, 0x23, 1]

/-- The host record of vector B21. -/
def b21Host : List Byte := [4, 4, 0, 1, 0, 0x10, 7, 0x45, 0x23, 1, 0, 2, 0, 1, 0x88, 0x13, 0, 0, 0xFF, 0x1F, 0, 0, 0, 0]

/-- The chip record of vector B21. -/
def b21Chip : List Byte := [0x88, 0x13, 0, 0, 1, 7, 2, 2, 0x45, 0x23, 1, 0, 2, 0x4C, 7, 0, 0, 0, 0, 0, 0xFF, 0x1F]

/-- The model record of program P1, step 1 of P2: 47 host bytes. -/
def modelHost : List Byte := [0, 0, 0x10, 8, 4, 3, 0, 1, 2] ++ List.replicate 38 0

/-- `s` with the bytes `bs` at offset `a` of `CAPOBJ`. -/
def capObj (a : Nat) (bs : List Byte) (s : State) : State :=
  chip (fun ch => { ch with capObj := Memory.writeBytes [] a bs }) s

/-- `s` with the compander size `v` stored in the model record of Tx1. -/
def compander (v : Byte) (s : State) : State := chip (fun ch => { ch with modelObj := Memory.writeBytes [] 4 [v] }) s

/-- `s` with the stored swap flag on. -/
def swapFlag (s : State) : State := chip (fun ch => { ch with swapEnObj := Memory.writeBytes [] 0 [1] }) s

/-- The operands of program P2, step 3, cut short: entry 0 at 124 with 4 bytes, no other. -/
def swapHost : List Byte := [0x7C, 0, 4, 0] ++ List.replicate 120 0 ++ [0xA0, 0xA1, 0xA2, 0xA3]

/-! ## Steps on the spec's vectors -/

/-- B2: `SRCCTL.SET` of pin 17 writes group 4. -/
theorem test_srcctlSet : (after 0x10115000 (quiet 1 .reset)).chip.srcctl.toList = [0, 0, 0, 0, 5] ∧
    resAfter 0x10115000 (quiet 1 .reset) = 0 := by decide

/-- 20_memory.md R92 (a): the stream processor moves between the read and the write of a field write's register, and its
move is not undone: it is a field of another register. -/
theorem test_fieldWrite_two_steps :
    let s := scripted [{}, { moves := [.stream 0] }] { State.reset with env := { Env.reset with streamReqs := [(0, 1)] } }
    ((after 0x10115000 s).chip.act.get 0).actClk = 1 ∧ (after 0x10115000 s).chip.srcctl.toList = [0, 0, 0, 0, 5] := by decide

/-- 20_memory.md R87: the engine finishes between the trigger and the `cap_state` write of `CAP.START`, and the operation ends
with the done flag set already. -/
theorem test_engine_finishes_inside :
    let s := inState .configured (capObj 0 b20Chip (scripted [{}, {}, { moves := [.capture (Vector.replicate 26 1)] }] .reset))
    (after 0x30000000 s).chip.doneFlag = 1 ∧ (after 0x30000000 s).chip.trigPending = false ∧
    (after 0x30000000 s).dcc.capState = .armed := by decide

/-- 70_reset_and_hazards.md R345: after a reset of the chip alone the swap flag is off and the cache on. -/
theorem test_chipReset :
    let s := { State.reset with
      dcc := { DccRegs.reset with sessSwapEn := 1 }
      env := { Env.reset with hostQ := [.chipReset Chip.reset] } }
    ∃ t, step (swapFlag s) = .next t ∧ t.chip.swapEnObj = [] ∧ t.dcc = s.dcc ∧ t.regs = s.regs := ⟨_, rfl, by decide, rfl, rfl⟩

/-- B9, and R142 after B10: the nibble of group 2 is M = 1. -/
theorem test_srcctlGet : resAfter 0x11130000 .reset = 0x00000101 ∧
    resAfter 0x110B0000 (doneOn9 (quiet 1 .reset)) = 0x00000100 := by decide

/-- B10: the transactions in order and the end state. -/
theorem test_donepinSetup : sentAfter 0x12090000 (quiet 3 .reset) =
      [.fieldRead (.srcctl 2), .gpioDirSet 9 .output, .fieldWrite (.srcctl 2) 1] ∧
    (after 0x12090000 (quiet 3 .reset)).dcc.tag.get 9 = .captureDone ∧
    (after 0x12090000 (quiet 3 .reset)).dcc.sessDonePin = 9 ∧ resAfter 0x12100000 .reset = 0x00000101 := by decide

/-- B18: a failed acquire is rolled back, newest entry first. -/
theorem test_donepinSetup_rollback :
    sentAfter 0x120A0000 (doneOn9 (scripted (failAt 4 .timeout) .reset)) =
      [.fieldRead (.srcctl 2), .gpioDirSet 9 .input, .gpioDirSet 10 .output, .gpioDirSet 9 .output] ∧
    (after 0x120A0000 (doneOn9 (scripted (failAt 4 .timeout) .reset))).dcc.tag =
      (doneOn9 .reset).dcc.tag ∧
    resAfter 0x120A0000 (doneOn9 (scripted (failAt 4 .timeout) .reset)) = 5 := by decide

/-- B11 and B70. -/
theorem test_donepinGet : resAfter 0x13000000 (doneOn9 .reset) = 0x00000900 ∧ resAfter 0x13000000 .reset = 0x0000FF00 := by
  decide

/-- P3 steps 2 and 3; B19 is a pin of another feature. -/
theorem test_trigpinSetup : resAfter 0x14090000 (doneOn9 .reset) = 3 ∧
    sentAfter 0x14030000 (doneOn9 (quiet 1 .reset)) = [.gpioDirSet 3 .input] ∧
    (after 0x14030000 (doneOn9 (quiet 1 .reset))).dcc.tag.get 3 = .captureTrigger := by decide

/-- B70. -/
theorem test_trigpinGet : resAfter 0x15000000 .reset = 0x0000FF00 := by decide

/-- B20: the 58 bytes written and the end state. -/
theorem test_capcfgSet : (sentAfter 0x20000000 (operands b20Host (quiet 4 .reset))).getLast? =
      some (.cfgWrite 1 0 b20Chip) ∧
    (after 0x20000000 (operands b20Host (quiet 4 .reset))).dcc.capState = .configured ∧
    (after 0x20000000 (operands b20Host (quiet 4 .reset))).dcc.sessDonePin = 9 := by decide

/-- B24: both pins 5 is a conflict, pin 16 is no setup pin. -/
theorem test_capcfgSet_pins : resAfter 0x20000000 (operands (5 :: 5 :: b20Host.drop 2) .reset) = 3 ∧
    resAfter 0x20000000 (operands (16 :: b20Host.drop 1) .reset) = 0x00000101 := by decide

/-- B20: `CAPCFG.GET` returns the record; R201: not in Error. -/
theorem test_capcfgGet : (after 0x21000000 (doneOn9 (capObj 0 b20Chip (quiet 1 .reset)))).regs.rdb = b20Host ∧
    resAfter 0x21000000 (inState .error .reset) = 7 := by decide

/-- B21: the 22 bytes written; 8192 with and without the range check. -/
theorem test_capctrlSet : sentAfter 0x22000000 (operands b21Host (quiet 1 .reset)) = [.cfgWrite 1 36 b21Chip] ∧
    resAfter 0x22000000 (operands (b21Host.take 18 ++ [0, 0x20, 0, 0, 0, 0]) .reset) = 0x00000501 ∧
    resAfter 0x22000000 (control 8 (operands (b21Host.take 18 ++ [0, 0x20, 0, 0, 0, 0]) (quiet 1 .reset))) = 0 := by decide

/-- B21 read back; B25: undecodable size and channel codes. -/
theorem test_capctrlGet : (after 0x23000000 (capObj 36 b21Chip (quiet 1 .reset))).regs.rdb = b21Host ∧
    resAfter 0x23000000 (capObj 50 [9] (quiet 1 .reset)) = 0x00000401 ∧
    resAfter 0x23000000 (capObj 48 [4] (quiet 1 .reset)) = 0x00000201 := by decide

/-- B23: the level record, and its checks. -/
theorem test_caplvlSet : sentAfter 0x24000000 (operands [0xE8, 3, 2, 3] (quiet 1 .reset)) =
      [.cfgWrite 1 28 [0xE8, 3, 2, 3]] ∧
    resAfter 0x24000000 (operands [0xE8, 3, 3, 3] .reset) = 0x00000701 ∧
    resAfter 0x24000000 (operands [0xE8, 3, 2, 4] .reset) = 0x00000601 ∧
    resAfter 0x24000000 (operands [0xE8, 3, 2] .reset) = 2 := by decide

/-- R186 on the bytes of B23. -/
theorem test_caplvlGet : (after 0x25000000 (capObj 28 [0xE8, 3, 2, 3] (quiet 1 .reset))).regs.rdb = [0xE8, 3, 2, 3] ∧
    (after 0x25000000 (capObj 28 [0xE8, 3, 2, 3] (quiet 1 .reset))).regs.rlen = 4 := by decide

/-- B23: the threshold of band 12, and its checks. -/
theorem test_pwrthSet : sentAfter 0x26000200 (operands [0x20, 0x10, 1, 0, 0, 1, 0, 2] (quiet 1 .reset)) =
      [.cfgWrite 1 12 [0x20, 0x10, 1, 0, 0, 1, 0, 2]] ∧
    resAfter 0x26000200 (operands [0x20, 0x10, 1, 0, 1, 0x10, 0, 2] .reset) = 0x00000901 ∧
    resAfter 0x26000600 (operands [0x20, 0x10, 1, 0, 0, 1, 0, 2] .reset) = 0x00000C01 := by decide

/-- R188 on the bytes of B23. -/
theorem test_pwrthGet : (after 0x27000200 (capObj 12 [0x20, 0x10, 1, 0, 0, 1, 0, 2] (quiet 1 .reset))).regs.rdb =
    [0x20, 0x10, 1, 0, 0, 1, 0, 2] ∧ resAfter 0x27000600 .reset = 0x00000C01 := by decide

/-- B33 and B30: the mailbox trigger, and the gate. -/
theorem test_capStart : sentAfter 0x30000000 (inState .configured (capObj 0 b20Chip (quiet 2 .reset))) =
      [.cfgRead 1 36 22, .mboxSet 1 []] ∧
    (after 0x30000000 (inState .configured (capObj 0 b20Chip (quiet 2 .reset)))).chip.trigPending = true ∧
    resAfter 0x30000000 .reset = 7 := by decide

/-- B34 and B25: the debug register for TddTxOnSync, and an undecodable channel. -/
theorem test_capStart_tdd : sentAfter 0x30000000 (inState .configured (capObj 48 [1] (quiet 2 .reset))) =
      [.cfgRead 1 36 22, .regWrite 1 2] ∧
    resAfter 0x30000000 (inState .configured (capObj 48 [4] (quiet 2 .reset))) = 0x00000201 := by decide

/-- B36: a set flag is cleared by a second command and answers 1. -/
theorem test_capPoll : sentAfter 0x31000000 (inState .armed (chip (fun ch => { ch with doneFlag := 1 }) (quiet 2 .reset))) =
      [.mboxGet 2 [] 1, .mboxSet 2 [0]] ∧
    (after 0x31000000 (inState .armed (chip (fun ch => { ch with doneFlag := 1 }) (quiet 2 .reset)))).dcc.capState = .done ∧
    resAfter 0x31000000 (inState .armed (chip (fun ch => { ch with doneFlag := 1 }) (quiet 2 .reset))) = 0x00000100 := by
  decide

/-- B38: a failed clear is an error of the operation; B37: only bit 0 counts. -/
theorem test_capPoll_fails :
    resAfter 0x31000000 (inState .armed (chip (fun ch => { ch with doneFlag := 0xFE }) (quiet 1 .reset))) = 0 ∧
    resAfter 0x31000000 (inState .armed (chip (fun ch => { ch with doneFlag := 1 })
      (scripted [{}, { answer := .deviceError 2 }] .reset))) = 0x02020004 ∧
    (after 0x31000000 (inState .armed (chip (fun ch => { ch with doneFlag := 1 })
      (scripted [{}, { answer := .deviceError 2 }] .reset)))).dcc.capState = .error := by decide

/-- P1 step 5: the ten result bytes, bandTransitionCount 2, powerBandStatus 1, captureCount 1. -/
theorem test_capStatus : (after 0x32000001 (chip (fun ch => { ch with
      dstatus := ch.dstatus.set 0 #v[0, 0, 0, 0, 9, 9, 9, 9, 9, 9, 9, 9, 9, 9, 9, 9, 9, 9, 9, 9, 0, 2, 1, 9, 1, 0] })
      (quiet 1 .reset))).regs.rdb = [0, 0, 0, 0, 0, 2, 1, 0, 1, 0] := by decide

/-- B39 and the gate. -/
theorem test_capRddone : sentAfter 0x33000000 (inState .done (quiet 1 .reset)) = [.mboxSet 3 []] ∧
    (after 0x33000000 (inState .done (quiet 1 .reset))).dcc.capState = .idle ∧ resAfter 0x33000000 .reset = 7 := by decide

/-- P2 step 1: the tag byte and the 47 host bytes; B40: a short record. -/
theorem test_modelCfg : sentAfter 0x40000001 (operands modelHost (quiet 1 .reset)) = [.cfgWrite 2 0 (1 :: modelHost)] ∧
    resAfter 0x40000001 (operands (modelHost.take 46) .reset) = 2 := by decide

/-- B40: the checks of the record. -/
theorem test_modelCfg_checks : resAfter 0x40000002 (operands ([0, 1, 0x10, 9] ++ modelHost.drop 4) .reset) = 0x00000E01 ∧
    resAfter 0x40000002 (operands ([0, 0, 0x10, 10] ++ modelHost.drop 4) .reset) = 0x00000F01 ∧
    resAfter 0x40000002 (operands ([0, 0, 0x10, 8, 16] ++ modelHost.drop 5) .reset) = 0x00001001 ∧
    resAfter 0x40000002 (operands (4 :: modelHost.drop 1) .reset) = 0x00000D01 := by decide

/-- B40: the record without its tag byte. -/
theorem test_modelGet : (after 0x41000002 (chip (fun ch => { ch with modelObj := Memory.writeBytes [] 48 (2 :: modelHost) })
    (quiet 1 .reset))).regs.rdb = modelHost := by decide

/-- B40: Tx1 Model1 at offset 48, Tx4 Model0 at offset 288, model 2 refused. -/
theorem test_mmodelCfg : sentAfter 0x42000001 (operands (1 :: modelHost.drop 1) (quiet 1 .reset)) =
      [.cfgWrite 3 48 (1 :: 1 :: modelHost.drop 1)] ∧
    sentAfter 0x42000008 (operands modelHost (quiet 1 .reset)) = [.cfgWrite 3 288 (8 :: modelHost)] ∧
    resAfter 0x42000001 (operands (2 :: modelHost.drop 1) .reset) = 0x00000D01 := by decide

/-- B40: model 2 refused; R234: Tx2 Model1 at offset 144. -/
theorem test_mmodelGet : resAfter 0x43000401 .reset = 0x00000D01 ∧
    sentAfter 0x43000202 (quiet 1 .reset) = [.cfgRead 3 144 48] := by decide

/-- B41; the last, B8, with an operand present. -/
theorem test_lutAddr : (after 0x440007F8 .reset).regs.rdb = [0, 0xFC, 7, 0x60] ∧
    (after 0x44000452 .reset).regs.rdb = [0, 0x58, 2, 0x60] ∧ resAfter 0x45000013 (oplen 1 .reset) = 0x00000201 := by decide

/-- B42: the data and the end state, RAM-select restored, power left on. -/
theorem test_lutWrite : (after 0x45000052 (operands [0xDE, 0xAD, 0xBE, 0xEF]
      (chip (fun ch => setField ch (.ramSel 1) 3) (obliging 29 .reset)))).chip.bulk =
      [(0x60025000, 0xDE), (0x60025001, 0xAD), (0x60025002, 0xBE), (0x60025003, 0xEF)] ∧
    (after 0x45000052 (operands [0xDE, 0xAD, 0xBE, 0xEF]
      (chip (fun ch => setField ch (.ramSel 1) 3) (obliging 29 .reset)))).chip.act.get 1 =
      { Actuator.reset with lutPower := Actuator.reset.lutPower.set 5 1, ramSel := 3 } := by decide +kernel

/-- B43: the length bound of bank 3; 60_exceptions.md R298: an absent operand comes before a bad channel. -/
theorem test_lutWrite_len : resAfter 0x45000013 .reset = 2 ∧ resAfter 0x45000611 (oplen 1025 .reset) = 0x00001201 ∧
    resAfter 0x45000051 (oplen 4097 .reset) = 0x00001201 ∧ resAfter 0x45000611 (oplen 0 .reset) = 2 := by decide

/-- B43: a length of 0, and the address and last write of a read with the power policy set. -/
theorem test_lutRead : resAfter 0x460007E2 .reset = 0 ∧
    (sentAfter 0x460007E2 (oplen 4 (obliging 29 .reset)))[11]? = some (.memRead 0x6003EC00 4) ∧
    (sentAfter 0x460007E2 (oplen 4 (obliging 29 .reset))).getLast? = some (.fieldWrite (.lutPower 1 30) 0) := by decide +kernel

/-- B46: the stream processor acts between the second and the third read. -/
theorem test_actclkSet : sentAfter 0x47000808 (scripted [{}, {}, {}, {}, {}, { moves := [.stream 0] }] .reset) =
      [.regWrite 2 8, .regWrite 3 1, .regWrite 4 1, .fieldRead (.actClk 3), .fieldRead (.actClk 3),
        .fieldRead (.actClk 3)] ∧
    ((after 0x47000808 (scripted [{}, {}, {}, {}, {}, { moves := [.stream 0] }] .reset)).chip.act.get 3).actClk = 1 := by
  decide

/-- B47: 40 reads and a timeout. -/
theorem test_actclkSet_timeout : resAfter 0x47000808 (quiet 43 .reset) = 5 ∧
    (sentAfter 0x47000808 (quiet 43 .reset)).length = 43 := by decide

/-- B50 and B50a. -/
theorem test_swapEn : sentAfter 0x50000800 (quiet 1 .reset) = [.cfgWrite 4 0 [1]] ∧
    (after 0x50000800 (quiet 1 .reset)).dcc.sessSwapEn = 1 ∧
    (after 0x50000800 (scripted [{ answer := .timeout }] .reset)).dcc.sessSwapEn = 0 := by decide

/-- B51 and B51a. -/
theorem test_swapGeten : resAfter 0x51000000 (swapFlag .reset) = 0 ∧
    resAfter 0x51000000 (control 0xB (swapFlag (quiet 1 .reset))) = 0x00000100 ∧
    (after 0x51000000 (control 0xB (swapFlag (quiet 1 .reset)))).dcc.sessSwapEn = 1 := by decide

/-- P2 step 3 with entry 0 alone: the active write, the swap write one LUT up in bank 3, RAM-select parked. -/
theorem test_swapWrite : (after 0x52000001 (operands swapHost (compander 8 (obliging 64 .reset)))).chip.bulk =
      [(0x60000000, 0xA0), (0x60000001, 0xA1), (0x60000002, 0xA2), (0x60000003, 0xA3), (0x60001C00, 0xA0),
        (0x60001C01, 0xA1), (0x60001C02, 0xA2), (0x60001C03, 0xA3)] ∧
    ((after 0x52000001 (operands swapHost (compander 8 (obliging 64 .reset)))).chip.act.get 0).ramSel = 31 := by decide +kernel

/-- B52b, B52c, B53, B53a. -/
theorem test_swapWrite_checks : resAfter 0x52000201 (compander 9 (operands swapHost (quiet 1 .reset))) = 0x00000E01 ∧
    resAfter 0x52000001 (operands swapHost (quiet 1 .reset)) = 0x00000F01 ∧
    resAfter 0x52000001 (oplen 123 .reset) = 2 ∧
    resAfter 0x52000001 (operands ([100, 0] ++ swapHost.drop 2) .reset) = 0x00001301 := by decide +kernel

/-- B54: zero fill, then the data. -/
theorem test_mmlutWrite : sentAfter 0x53000030 (operands [1, 2, 3, 4, 5, 6, 7, 8] (quiet 2 .reset)) =
      [.memWrite 0x61000C00 (List.replicate 512 0), .memWrite 0x61000C00 [1, 2, 3, 4, 5, 6, 7, 8]] := by decide +kernel

/-- B55, B55a, B55b; 60_exceptions.md R298: an absent operand comes before a bad LUT. -/
theorem test_mmlutWrite_checks : resAfter 0x530001A0 .reset = 2 ∧ resAfter 0x53000030 (oplen 6 .reset) = 0x00001201 ∧
    resAfter 0x53000030 (oplen 1028 .reset) = 0x00001201 ∧ resAfter 0x530001A0 (oplen 8 .reset) = 0x00001101 := by decide

/-- B56. -/
theorem test_mmodelUpdate : sentAfter 0x54000202 (quiet 1 .reset) = [.mboxSet 4 [2, 1]] := by decide

/-- B57. -/
theorem test_mmodelStatus : (after 0x55000008 (chip (fun ch => { ch with updStatus := ch.updStatus.set 3 #v[1, 2] })
    (quiet 1 .reset))).regs.rdb = [1, 2] := by decide

/-- B3: an illegal word. -/
theorem test_illegal_step : resAfter 0x00000000 .reset = 8 ∧ sentAfter 0x30000001 .reset = [] := by decide

/-- B22: the rows whose order of tests matters. -/
theorem test_parseType : parseType 0x4F 1 = .extendedPeakSearch ∧ parseType 0x00 1 = .peakDetection ∧
    parseType 0x01 0 = .tddTxOnSync ∧ parseType 0x09 0 = .powerLevel ∧ parseType 0x0E 0 = .immediate ∧
    parseType 0x08 2 = .immediate ∧ parseType 0xB8 0 = .immediate := by decide

/-- B44 and B45: pages 0, 5 and 15 of Tx1 and the sample group. -/
theorem test_peak : peakPageAddress Config.suggested 0 0 = 0x6001B000 ∧ peakPageAddress Config.suggested 0 5 = 0x6001C400 ∧
    peakPageAddress Config.suggested 0 15 = 0x6001EC00 ∧ peakPageAddress Config.suggested 1 0 = 0x6003B000 ∧
    peakPages 512 = (512, 2) ∧ sampleGroup [0x34, 0x12, 0x78, 0x56] = (0x1234, 0x5678) := by decide

/-- B6x: result words of device errors. -/
theorem test_resWord : resWord Config.suggested (.deviceCommandError 1) 0 = 0x01010004 ∧
    resWord Config.suggested (.deviceCommandError 3) 0 = 0x03030004 ∧
    resWord Config.suggested (.deviceCommandError 0x7F) 0 = 0x047F0004 ∧
    resWord Config.suggested (.invalidParameter .desc) 0 = 0x00001301 ∧
    failureWord Config.suggested (.deviceError 1) = 0x01010004 ∧
    failureWord Config.suggested (.deviceError 3) = 0x03030004 ∧
    failureWord Config.suggested (.deviceError 0x7F) = 0x047F0004 := by decide

/-- The suggested parameters meet the constraints of 00_scope.md R7. -/
theorem test_suggested_valid : Config.suggested.Valid := by decide

/-! ## Witnesses: a concrete state and operands that meet the hypotheses of each obligation, clause by clause -/

theorem quiet_holds (n : Nat) (s : State) : Quiet n (quiet n s) := by
  intro k hk
  simp [tickAt, quiet, hk]

theorem obliging_holds (n : Nat) (s : State) (h : s.env.streamReqs = []) : Obliging n (obliging n s) := by
  refine ⟨h, fun k hk => ?_⟩
  simp [tickAt, obliging, hk]

theorem served_quiet (n : Nat) (s : State) : Served (nextTick (quiet (n + 1) s).env) := rfl

theorem reset_waits (s : State) (h : s.env.hostQ = []) : HostWaits s := .inl h

theorem reset_form : State.reset.MemoryForm := by
  refine ⟨?_, ?_, ?_, ?_, ?_, ?_⟩ <;> decide

/-- `s` with the host's queue `q`. -/
def hostDoes (q : List HostAct) (s : State) : State := withHostQ s q

theorem test_witness_EncodeDecodeAgree : decode 0x460007E2 = some (.lutRead 2 30 3) := by decide

theorem test_witness_LegalWordsDecode : (⟨0x47, .ce⟩ : OpRow) ∈ opRows ∧
    (0x47000808 : Word) &&& Format.ce.mask = (⟨0x47, .ce⟩ : OpRow).pattern := by decide

theorem test_witness_IllegalWordRefused : (hostDoes [.writeCmd 0x30000001] .reset).env.hostQ = .writeCmd 0x30000001 :: [] ∧
    (hostDoes [.writeCmd 0x30000001] .reset).regs.busy = false ∧ decode 0x30000001 = none ∧
    HostWaits (withHostQ (hostDoes [.writeCmd 0x30000001] .reset) []) := ⟨rfl, rfl, by decide, .inl rfl⟩

theorem test_witness_StepRunsDecoded : (hostDoes [.writeCmd 0x31000000] .reset).env.hostQ = .writeCmd 0x31000000 :: [] ∧
    (hostDoes [.writeCmd 0x31000000] .reset).regs.busy = false ∧ decode 0x31000000 = some .capPoll := by decide

/-- A state that no run reaches: busy between two steps. -/
def busyState (q : List HostAct) : State :=
  { hostDoes q .reset with regs := { State.reset.regs with busy := true } }

theorem test_witness_HostAccess : (busyState [.writeCmd 0]).env.hostQ = .writeCmd 0 :: [] ∧
    (busyState [.writeCmd 0]).regs.busy = true ∧
    (hostDoes [.writeOplen 58] .reset).env.hostQ = .writeOplen 58 :: [] ∧
    (hostDoes [.writeCtrl 8] .reset).env.hostQ = .writeCtrl 8 :: [] ∧
    (hostDoes [.writeOpb 0xFFFF 7] .reset).env.hostQ = .writeOpb 0xFFFF 7 :: [] ∧
    (hostDoes [.read .state] .reset).env.hostQ = .read .state :: [] := by decide

theorem test_witness_HostAccess_form : (hostDoes [.writeOpb 0xFFFF 7] .reset).MemoryForm := reset_form

theorem test_witness_HostAccess_rdb : (after 0x44000452 .reset).regs.busy = false ∧
    (after 0x44000452 .reset).regs.rdb[(3 : BitVec 12).toNat]? = some 0x60 := by decide

/-- One host write of each kind, and the read of `STATE`. -/
theorem test_witness_HostWritesMissOperation :
    let ws : List HostAct := [.writeCmd 0, .writeOplen 5, .writeCtrl 8, .writeOpb 0xFFFF 7]
    HostWaits (withHostQ State.reset []) ∧
    (∀ a ∈ ws, ∃ (w : Word) (x : BitVec 16) (b : Byte), a ∈ [.writeCmd w, .writeOplen w, .writeCtrl w, .writeOpb x b]) ∧
    exec (.donepinSetup 9) (withHostQ State.reset []) =
      .next (runOperation false (donepinSetup 9) (withHostQ State.reset [])) := by
  refine ⟨.inl rfl, ?_, rfl⟩
  simp only [List.forall_mem_cons, List.not_mem_nil, false_implies, implies_true, and_true]
  exact ⟨⟨0, 0, 0, by decide⟩, ⟨5, 0, 0, by decide⟩, ⟨8, 0, 0, by decide⟩, ⟨0, 0xFFFF, 7, by decide⟩⟩

/-- A state with a trigger of an extended peak search pending and a stream request outstanding, before the move `m`. -/
def agentState (m : EnvMove) : State :=
  { State.reset with
    chip := { Chip.reset with trigPending := true }
    env := { Env.reset with
      script := [⟨[m], .ok⟩], streamReqs := [(2, 1)], trigExt := true, trigChan := 3, updLive := Vector.replicate 4 true } }

/-- Each agent's move where it may be made, the last sample address, and each where it may not. -/
theorem test_witness_AgentsMove :
    let c := EnvMove.capture (Vector.replicate 26 1)
    let p := EnvMove.peakSample true 16383 9
    let f := EnvMove.firmware 3 #v[1, 2]
    (∀ m : EnvMove, (agentState m).env.hostQ = [] ∧ (agentState m).env.script = ⟨[m], .ok⟩ :: []) ∧
    (agentState c).chip.trigPending = true ∧ (agentState p).env.trigExt = true ∧ (agentState p).MemoryForm ∧
    (agentState (.stream 0)).env.streamReqs[0]? = some (2, 1) ∧ (agentState (.stream 1)).env.streamReqs[1]? = none ∧
    (agentState f).env.updLive.get 3 = true ∧ (scripted [⟨[p], .ok⟩] .reset).chip.trigPending = false ∧
    (scripted [⟨[p], .ok⟩] .reset).env.trigExt = false :=
  ⟨fun _ => ⟨rfl, rfl⟩, rfl, rfl, reset_form, rfl, rfl, rfl, rfl, rfl⟩

theorem test_witness_IdleStepLeavesDcc : State.reset.env.hostQ = [] ∧ step .reset = .next (envTurn .reset) ∧
    State.reset.chip.trigPending = false := ⟨rfl, rfl, rfl⟩

theorem test_witness_ResetsRestore : (hostDoes [.reset] .reset).env.hostQ = .reset :: [] ∧
    step (hostDoes [.reset] .reset) = .next (dccReset (withHostQ (hostDoes [.reset] .reset) [])) ∧
    (18 : PinCode).toNat ≤ 18 ∧ (0 : PinCode).toNat ≤ 18 ∧
    (hostDoes [.chipReset Chip.reset] .reset).env.hostQ = .chipReset Chip.reset :: [] ∧
    State.MemoryForm { hostDoes [.chipReset Chip.reset] .reset with chip := Chip.reset } :=
  ⟨rfl, rfl, by decide, by decide, rfl, reset_form⟩

theorem test_witness_StepKeepsMemoryForm : (hostDoes [.writeOpb 0xFFFF 7] .reset).MemoryForm ∧
    ∃ t, step (hostDoes [.writeOpb 0xFFFF 7] .reset) = .next t := ⟨reset_form, _, rfl⟩

theorem test_witness_OwnershipKept : (doneOn9 .reset).Ownership ∧
    (∃ t, step ((doneOn9 .reset).withFetchWord 32 0x120A0000) = .next t) ∧
    (∃ t, exec (.donepinSetup 10) (doneOn9 .reset) = .next t) ∧ .reset ∉ (doneOn9 .reset).env.hostQ :=
  ⟨by decide, ⟨_, rfl⟩, ⟨_, rfl⟩, by decide⟩

theorem test_witness_StepKeepsResultForm : State.reset.Quiescent ∧ State.reset.ResultForm ∧
    ∃ t, step (State.reset.withFetchWord 32 0x44000452) = .next t := ⟨by decide, by decide, _, rfl⟩

theorem test_witness_CapStateNext :
    let s := inState .armed (quiet 2 .reset)
    exec .capPoll s = .next (runOperation true capPoll s) ∧ resClass (runOperation true capPoll s).regs.res = 0 ∧
    resClass (runOperation true capPoll (inState .armed (scripted [{ answer := .timeout }, {}] .reset))).regs.res = 5 ∧
    (hostDoes [.writeCmd 0x30000001] .reset).env.hostQ = .writeCmd 0x30000001 :: [] ∧ decode 0x30000001 = none ∧
    (hostDoes [.reset] .reset).env.hostQ = .reset :: [] := ⟨rfl, by decide, by decide, rfl, by decide, rfl⟩

/-- An illegal word with a reset behind it in the queue: the reset lands before the exit (10_state.md R64). -/
theorem test_witness_CapStateNext_illegal :
    let s := hostDoes [.writeCmd 0, .reset] (inState .armed (quiet 1 .reset))
    s.env.hostQ = .writeCmd 0 :: [.reset] ∧ decode 0 = none ∧
    step s = .next (illegalCommand { withHostQ s [.reset] with regs := { s.regs with cmd := 0 } }) ∧
    (illegalCommand { withHostQ s [.reset] with regs := { s.regs with cmd := 0 } }).dcc.capState = .idle :=
  ⟨rfl, by decide, rfl, by decide⟩

theorem test_witness_CapStateNext_steps : (∃ t, step (hostDoes [.writeCmd 0x30000001] .reset) = .next t) ∧
    ∃ t, step (hostDoes [.reset] .reset) = .next t := ⟨⟨_, rfl⟩, _, rfl⟩

theorem test_witness_SequenceGate : HostWaits State.reset ∧ admitted .capStart State.reset.dcc.capState = false ∧
    admitted .capcfgSet State.reset.dcc.capState = true ∧ ∃ t, exec .capcfgSet .reset = .next t :=
  ⟨.inl rfl, by decide, by decide, _, rfl⟩

theorem test_witness_ValidationBeforeMutation : .reset ∉ (quiet 1 .reset).env.hostQ ∧
    (∃ t, exec (.srcctlSet 19 0) (quiet 1 .reset) = .next t ∧ resClass t.regs.res = 1) ∧
    (∃ t, exec .caplvlSet (quiet 1 .reset) = .next t ∧ resClass t.regs.res = 2) ∧
    (∃ t, exec .capStart (quiet 1 .reset) = .next t ∧ resClass t.regs.res = 7) :=
  ⟨by decide, ⟨_, rfl, by decide⟩, ⟨_, rfl, by decide⟩, _, rfl, by decide⟩

theorem test_witness_FamilySpaces : ∃ t, exec (.lutWrite 1 0 0) (operands [1] (obliging 29 .reset)) = .next t :=
  ⟨_, rfl⟩

theorem test_witness_SessionWriters : HostWaits State.reset ∧ (∃ t, exec (.lutWrite 1 0 0) .reset = .next t) ∧
    Instr.lutWrite 1 0 0 ≠ .capcfgSet ∧ (∀ pin, Instr.lutWrite 1 0 0 ≠ .donepinSetup pin) ∧
    (∀ pin, Instr.lutWrite 1 0 0 ≠ .trigpinSetup pin) ∧ Instr.lutWrite 1 0 0 ≠ .swapGeten ∧
    ∀ en, Instr.lutWrite 1 0 0 ≠ .swapEn en :=
  ⟨.inl rfl, ⟨_, rfl⟩, by decide, by decide, by decide, by decide, by decide⟩

theorem test_witness_ChannelMustBeOneHot : (0 : ChMask) ∉ [(1 : ChMask), 2, 4, 8] ∧
    (15 : ChMask) ∉ [(1 : ChMask), 2, 4, 8] ∧ State.reset.dcc.capState ≠ .error ∧ (oplen 1 .reset).regs.oplen ≠ 0 ∧
    47 ≤ (oplen 47 .reset).regs.oplen.toNat ∧ 124 ≤ (oplen 124 .reset).regs.oplen.toNat ∧
    124 ≤ (oplen 65536 .reset).regs.oplen.toNat ∧ (oplen 65536 .reset).regs.oplen.toNat ≤ 65536 := by decide

theorem test_witness_SrcctlSetWrites : 18 < (19 : PinCode).toNat ∧ (0 : PinCode).toNat ≤ 18 ∧ (18 : PinCode).toNat ≤ 18 ∧
    HostWaits (quiet 2 .reset) ∧ Served (tickAt (quiet 2 .reset).env 1) ∧ HostWaits (scripted (failAt 1 .hwReset) .reset) ∧
    ¬ Served (tickAt (scripted (failAt 1 .hwReset) .reset).env 1) :=
  ⟨by decide, by decide, by decide, .inl rfl, rfl, .inl rfl, fun h => nomatch h⟩

/-- A timeout and a `HardwareResetRequired` at the write of the register. -/
theorem test_witness_SrcctlSetFails : (18 : PinCode).toNat ≤ 18 ∧ HostWaits (scripted (failAt 1 .timeout) .reset) ∧
    ¬ Served (tickAt (scripted (failAt 1 .timeout) .reset).env 1) ∧
    ¬ Served (tickAt (scripted (failAt 1 .hwReset) .reset).env 1) ∧
    (tickAt (scripted (failAt 1 .hwReset) .reset).env 1).answer = .hwReset :=
  ⟨by decide, .inl rfl, (fun h => nomatch h), (fun h => nomatch h), rfl⟩

theorem test_witness_SrcctlGetReads : 18 < (255 : PinCode).toNat ∧ (18 : PinCode).toNat ≤ 18 ∧ HostWaits (quiet 1 .reset) ∧
    Served (nextTick (quiet 1 .reset).env) ∧ HostWaits (scripted [{ answer := .timeout }] .reset) ∧
    ¬ Served (nextTick (scripted [{ answer := .timeout }] .reset).env) :=
  ⟨by decide, by decide, .inl rfl, rfl, .inl rfl, fun h => nomatch h⟩

theorem test_witness_PinQueries : HostWaits State.reset ∧ HostWaits (doneOn9 .reset) := ⟨.inl rfl, .inl rfl⟩

/-- First clause at pin 15 with no pin held, at the sentinel, and at the held pin 9; second clause at pin 15. -/
theorem test_witness_DonepinSetupMoves : HostWaits (quiet 9 .reset) ∧ Quiet 9 (quiet 9 .reset) ∧
    ((15 : PinCode).toNat ≤ 15 ∨ (15 : PinCode) = 0xFF) ∧
    nibbleAccepted Config.suggested State.reset.chip.srcctl 15 ∧ mayAcquire State.reset.dcc.tag .captureDone 15 ∧
    nibbleAccepted Config.suggested State.reset.chip.srcctl 0xFF ∧ mayAcquire State.reset.dcc.tag .captureDone 0xFF ∧
    nibbleAccepted Config.suggested (doneOn9 .reset).chip.srcctl 9 ∧
    mayAcquire (doneOn9 .reset).dcc.tag .captureDone 9 ∧ State.reset.dcc.tag.get 15 = .none ∧
    ∀ q : Pin, q.val ≤ 15 → State.reset.dcc.tag.get q ≠ .captureDone :=
  ⟨.inl rfl, quiet_holds 9 _, .inl (by decide), .inr (.inl (by decide)), .inr (.inl (by decide)), .inl rfl, .inl rfl,
    .inr (.inr (by decide)), .inr (.inr (by decide)), by decide, by decide⟩

/-- `s` with pin 4 tagged for a feature outside this block. -/
def otherOn4 (s : State) : State := { s with dcc := { s.dcc with tag := s.dcc.tag.set 4 (.other 2) } }

/-- The state after `TRIGPIN.SETUP` of pin 3. -/
def trigOn3 (s : State) : State :=
  { s with dcc := { s.dcc with tag := s.dcc.tag.set 3 .captureTrigger, sessTrigPin := 3 } }

/-- Pin 4 of another feature, with pin 9 held, with pin 3 held, and with no pin held. -/
theorem test_witness_PinConflictRollsBack :
    let s := otherOn4 (doneOn9 (quiet 6 .reset))
    let u := otherOn4 (quiet 6 .reset)
    let v := otherOn4 (trigOn3 (quiet 4 .reset))
    HostWaits s ∧ Quiet 6 s ∧ (4 : PinCode).toNat ≤ 15 ∧ nibbleAccepted s.cfg s.chip.srcctl 4 ∧
    s.dcc.tag.get (pinOfCode 4) ≠ .none ∧ scanTag s.dcc.tag .captureDone = some 9 ∧ (9 : Pin).val ≠ (4 : PinCode).toNat ∧
    Quiet 6 u ∧ nibbleAccepted u.cfg u.chip.srcctl 4 ∧ u.dcc.tag.get (pinOfCode 4) ≠ .none ∧
    scanTag u.dcc.tag .captureDone = none ∧ scanTag u.dcc.tag .captureTrigger = none ∧
    HostWaits v ∧ Quiet 4 v ∧ v.dcc.tag.get (pinOfCode 4) ≠ .none ∧ scanTag v.dcc.tag .captureTrigger = some 3 ∧
    (3 : Pin).val ≠ (4 : PinCode).toNat :=
  ⟨.inl rfl, quiet_holds 6 .reset, by decide, .inr (.inl (by decide)), by decide, by decide, by decide, quiet_holds 6 .reset,
    .inr (.inl (by decide)), by decide, by decide, by decide, .inl rfl, quiet_holds 4 .reset, by decide, by decide, by decide⟩

/-- B16: nibble 7 in group 1. -/
theorem test_witness_PinConflict_nibble :
    let s := chip (fun ch => { ch with srcctl := ch.srcctl.set 1 7 }) (quiet 1 .reset)
    HostWaits s ∧ Served (nextTick s.env) ∧ (5 : PinCode).toNat ≤ 15 ∧ ¬ nibbleAccepted s.cfg s.chip.srcctl 5 :=
  ⟨.inl rfl, rfl, by decide, by unfold nibbleAccepted; decide⟩

theorem test_witness_TrigpinSetupMoves : ((15 : PinCode).toNat ≤ 15 ∨ (15 : PinCode) = 0xFF) ∧
    HostWaits (quiet 6 .reset) ∧ Quiet 6 (quiet 6 .reset) ∧ mayAcquire State.reset.dcc.tag .captureTrigger 15 ∧
    mayAcquire State.reset.dcc.tag .captureTrigger 0xFF :=
  ⟨.inl (by decide), .inl rfl, quiet_holds 6 _, .inr (.inl (by decide)), .inl rfl⟩

theorem test_witness_PinCodesChecked : 18 < (19 : PinCode).toNat ∧ 15 < (16 : PinCode).toNat ∧
    (16 : PinCode) ≠ 0xFF ∧ 15 < (254 : PinCode).toNat ∧ (254 : PinCode) ≠ 0xFF := by decide

theorem test_witness_FailedSetupRestoresTags :
    let s := doneOn9 (scripted (failAt 4 .timeout) .reset)
    exec (.donepinSetup 10) s = .next (runOperation false (donepinSetup 10) s) ∧
    (runOperation false (donepinSetup 10) s).regs.res ≠ 0 ∧
    exec (.trigpinSetup 9) s = .next (runOperation false (trigpinSetup 9) s) ∧
    (runOperation false (trigpinSetup 9) s).regs.res ≠ 0 := ⟨rfl, by decide, rfl, by decide⟩

/-- The record of vector B20. -/
def b20 : CapConfig :=
  let t : PwrThresh := { lowToHighLimit := 0x20, highToLowLimit := 0x10, pulseWidthRes := 1, lowToHighPulseWidth := 0x100,
                         highToLowPulseWidth := 0x200 }
  { triggerPin := 0xFF, donePin := 9, fifoDelay := 0, interpolationIndex := 0, envelopeDecay := 0
    band01 := t, band12 := t, band23 := t, level := { timeout := 1000, bandDir := 0, bandSel := 0 }
    ctrl := { channel := 0, captureType := .immediate, txObsSel := 1, txAltObsSel := 0, captureSize := 3, peakDecay := 0
              peakWinCount := 0, peakInputSel := 0, iirEnable := 1, iirBypass := 0, extendedWindowUs := 0
              alignDelay := 0x123, captureDelay := 0x10 } }

/-- The state of vector B20. -/
def b20State : State := operands b20Host (quiet 16 .reset)

theorem b20_form : b20State.MemoryForm := by
  refine ⟨?_, ?_, ?_, ?_, ?_, ?_⟩ <;> decide

theorem test_witness_CapcfgSetConfigures : (b20State.dcc.capState = .idle ∨ b20State.dcc.capState = .configured) ∧
    58 ≤ b20State.regs.oplen.toNat ∧ hostConfig (b20State.regs.opb.readBytes 0 58) = .ok b20 ∧
    rangeConfig b20 = .ok () ∧ (b20.triggerPin.toNat ≤ 15 ∨ b20.triggerPin = 0xFF) ∧
    (b20.donePin.toNat ≤ 15 ∨ b20.donePin = 0xFF) ∧ (b20.triggerPin ≠ b20.donePin ∨ b20.triggerPin = 0xFF) ∧
    HostWaits b20State ∧ Quiet 16 b20State ∧ b20State.MemoryForm ∧
    mayAcquire b20State.dcc.tag .captureTrigger b20.triggerPin ∧
    mayAcquire (movedTags b20State.dcc.tag .captureTrigger b20.triggerPin) .captureDone b20.donePin ∧
    nibbleAccepted b20State.cfg b20State.chip.srcctl b20.donePin :=
  ⟨by decide, by decide, by rfl, by rfl, by decide, by decide, by decide, .inl rfl, quiet_holds 16 (operands b20Host .reset),
    b20_form, .inl rfl, .inr (.inl (by decide)), .inr (.inl (by decide))⟩

/-- `b20State` with the trigger pin 4, for the conflicts and the failures. -/
def b20Trig (s : State) : State := operands (4 :: b20Host.drop 1) s

/-- A conflict at the trigger pin, one at the done pin (owned, and a nibble of another source), and a failure of the trigger
pin's part, of the done pin's part, and of the write. -/
theorem test_witness_CapcfgSetStopsPartway :
    let c := { b20 with triggerPin := 4 }
    let s := b20Trig (otherOn4 (quiet 16 .reset))
    let u := b20Trig (quiet 16 { State.reset with dcc := { DccRegs.reset with tag := DccRegs.reset.tag.set 9 (.other 1) } })
    let v := b20Trig (chip (fun ch => { ch with srcctl := ch.srcctl.set 2 7 }) (quiet 16 .reset))
    let f := fun n => b20Trig (scripted (failAt n .timeout) .reset)
    (∀ x ∈ [s, u, v, f 1], (x.dcc.capState = .idle ∨ x.dcc.capState = .configured) ∧ 58 ≤ x.regs.oplen.toNat) ∧
    hostConfig (s.regs.opb.readBytes 0 58) = .ok c ∧ rangeConfig c = .ok () ∧ c.triggerPin.toNat ≤ 15 ∧
    c.donePin.toNat ≤ 15 ∧ c.triggerPin ≠ c.donePin ∧ HostWaits s ∧ HostWaits u ∧ HostWaits v ∧ HostWaits (f 1) ∧
    Quiet 16 s ∧ Quiet 16 u ∧ Quiet 16 v ∧ ¬ mayAcquire s.dcc.tag .captureTrigger c.triggerPin ∧
    mayAcquire u.dcc.tag .captureTrigger c.triggerPin ∧
    ¬ mayAcquire (movedTags u.dcc.tag .captureTrigger c.triggerPin) .captureDone c.donePin ∧
    mayAcquire v.dcc.tag .captureTrigger c.triggerPin ∧ ¬ nibbleAccepted v.cfg v.chip.srcctl c.donePin ∧
    (∀ n, exec .capcfgSet (f n) = .next (runOperation true capcfgSet (f n))) ∧
    (∀ n ∈ [1, 3, 9], resClass (runOperation true capcfgSet (f n)).regs.res = 5) ∧
    (runOperation true capcfgSet (f 1)).dcc.sessTrigPin = 0xFF ∧ (runOperation true capcfgSet (f 3)).dcc.sessTrigPin = 4 ∧
    (runOperation true capcfgSet (f 3)).dcc.sessDonePin = 0xFF ∧ (runOperation true capcfgSet (f 9)).dcc.sessDonePin = 9 := by
  refine ⟨by decide, rfl, rfl, by decide, by decide, by decide, .inl rfl, .inl rfl, .inl rfl, .inl rfl,
    quiet_holds 16 (b20Trig (otherOn4 .reset)),
    quiet_holds 16 (b20Trig { State.reset with dcc := { DccRegs.reset with tag := DccRegs.reset.tag.set 9 (.other 1) } }),
    quiet_holds 16 (b20Trig (chip (fun ch => { ch with srcctl := ch.srcctl.set 2 7 }) .reset)),
    by unfold mayAcquire; decide, .inr (.inl (by decide)), by unfold mayAcquire; decide, .inr (.inl (by decide)),
    by unfold nibbleAccepted; decide, fun _ => rfl, ?_, ?_, ?_, ?_, ?_⟩ <;> decide +kernel

/-- Both cases of the match: the record of B20, and an undecodable size code; a refused and a failed read. -/
theorem test_witness_CapcfgGetReturns : (inState .error .reset).dcc.capState = .error ∧
    State.reset.dcc.capState ≠ .error ∧ HostWaits (quiet 1 .reset) ∧ Served (nextTick (quiet 1 .reset).env) ∧
    parseConfig Config.suggested 0xFF 9 ((capObj 0 b20Chip .reset).chip.capObj.readBytes 0 58) = .ok b20 ∧
    parseConfig Config.suggested 0xFF 9 ((capObj 50 [9] .reset).chip.capObj.readBytes 0 58) = .error .capSize ∧
    HostWaits (scripted [{ answer := .timeout }] .reset) ∧
    ¬ Served (nextTick (scripted [{ answer := .timeout }] .reset).env) :=
  ⟨rfl, by decide, .inl rfl, rfl, rfl, rfl, .inl rfl, fun h => nomatch h⟩

/-- The control record of vector B21. -/
def b21 : CapCtrl :=
  { channel := 2, captureType := .extendedPeakSearch, txObsSel := 0, txAltObsSel := 1, captureSize := 7, peakDecay := 7
    peakWinCount := 0x12345, peakInputSel := 2, iirEnable := 0, iirBypass := 1, extendedWindowUs := 5000
    alignDelay := 8191, captureDelay := 0 }

theorem test_witness_CapctrlSetWrites :
    let s := operands b21Host (quiet 1 .reset)
    (s.dcc.capState = .idle ∨ s.dcc.capState = .configured) ∧ 24 ≤ s.regs.oplen.toNat ∧
    hostCtrl (s.regs.opb.readBytes 0 24) = .ok b21 ∧ (s.regs.ctrl.getLsbD 0 = true → b21.alignDelay.toNat ≤ 8191) ∧
    HostWaits s ∧ Served (nextTick s.env) ∧ s.MemoryForm := by
  refine ⟨by decide, by decide, rfl, by decide, .inl rfl, rfl, ?_, ?_, ?_, ?_, ?_, ?_⟩ <;> decide

/-- The refused, the short, the illegal and the out-of-range operand. -/
theorem test_witness_CapctrlSet_checks :
    let s := operands (b21Host.take 18 ++ [0, 0x20, 0, 0, 0, 0]) .reset
    let u := operands (3 :: b21Host.drop 1) .reset
    (inState .done .reset).dcc.capState ≠ .idle ∧ (inState .done .reset).dcc.capState ≠ .configured ∧
    (oplen 23 .reset).regs.oplen.toNat < 24 ∧ 24 ≤ u.regs.oplen.toNat ∧
    hostCtrl (u.regs.opb.readBytes 0 24) = .error .channel ∧ 24 ≤ s.regs.oplen.toNat ∧
    hostCtrl (s.regs.opb.readBytes 0 24) = .ok { b21 with alignDelay := 8192 } ∧
    8191 < ({ b21 with alignDelay := 8192 } : CapCtrl).alignDelay.toNat ∧ s.regs.ctrl.getLsbD 0 = true :=
  ⟨by decide, by decide, by decide, by decide, rfl, by decide, rfl, by decide, by decide⟩

theorem test_witness_LevelThresholdSets_level :
    let s := operands [0xE8, 3, 2, 3] (quiet 1 .reset)
    (s.dcc.capState = .idle ∨ s.dcc.capState = .configured) ∧ 4 ≤ s.regs.oplen.toNat ∧
    hostLevel (s.regs.opb.readBytes 0 4) = .ok { timeout := 1000, bandDir := 2, bandSel := 3 } ∧
    HostWaits s ∧ Served (nextTick s.env) ∧ s.MemoryForm := by
  refine ⟨by decide, by decide, rfl, .inl rfl, rfl, ?_, ?_, ?_, ?_, ?_, ?_⟩ <;> decide

theorem test_witness_LevelThresholdSets_levelChecks :
    let s := operands [0xE8, 3, 3, 3] .reset
    let u := operands [0xE8, 3, 2, 4] .reset
    (inState .armed .reset).dcc.capState ≠ .idle ∧ (inState .armed .reset).dcc.capState ≠ .configured ∧
    (oplen 3 .reset).regs.oplen.toNat < 4 ∧ 4 ≤ s.regs.oplen.toNat ∧ 2 < (s.regs.opb.read 2).toNat ∧
    4 ≤ u.regs.oplen.toNat ∧ (u.regs.opb.read 2).toNat ≤ 2 ∧ 3 < (u.regs.opb.read 3).toNat ∧
    u.regs.ctrl.getLsbD 0 = true := by decide

theorem test_witness_LevelThresholdSets_thresholdChecks :
    let s := operands [0x20, 0x10, 4, 0, 0, 0x10, 0, 0x10] .reset
    let u := operands [0x20, 0x10, 3, 0, 1, 0x10, 0, 0x10] .reset
    (inState .done .reset).dcc.capState ≠ .idle ∧ (inState .done .reset).dcc.capState ≠ .configured ∧
    (oplen 7 .reset).regs.oplen.toNat < 8 ∧ 8 ≤ s.regs.oplen.toNat ∧ (2 : BitVec 2).toNat ≤ 2 ∧
    3 < (s.regs.opb.read 2).toNat ∧ 8 ≤ u.regs.oplen.toNat ∧
    hostThresh (u.regs.opb.readBytes 0 8) = .ok { lowToHighLimit := 0x20, highToLowLimit := 0x10, pulseWidthRes := 3
                                                  lowToHighPulseWidth := 4097, highToLowPulseWidth := 4096 } ∧
    u.regs.ctrl.getLsbD 0 = true ∧ 4096 < (4097 : BitVec 16).toNat :=
  ⟨by decide, by decide, by decide, by decide, by decide, by decide, by decide, rfl, by decide, by decide⟩

/-- Band 2 and the greatest pulse width. -/
theorem test_witness_LevelThresholdSets_threshold :
    let s := operands [0x20, 0x10, 3, 0, 0, 0x10, 0, 0x10] (quiet 1 .reset)
    (s.dcc.capState = .idle ∨ s.dcc.capState = .configured) ∧ 8 ≤ s.regs.oplen.toNat ∧ (2 : BitVec 2).toNat ≤ 2 ∧
    hostThresh (s.regs.opb.readBytes 0 8) = .ok { lowToHighLimit := 0x20, highToLowLimit := 0x10, pulseWidthRes := 3
                                                  lowToHighPulseWidth := 4096, highToLowPulseWidth := 4096 } ∧
    HostWaits s ∧ Served (nextTick s.env) ∧ s.MemoryForm := by
  refine ⟨by decide, by decide, by decide, rfl, .inl rfl, rfl, ?_, ?_, ?_, ?_, ?_, ?_⟩ <;> decide

/-- Both cases of each match. -/
theorem test_witness_SubrecordGets : (inState .error .reset).dcc.capState = .error ∧ State.reset.dcc.capState ≠ .error ∧
    HostWaits (quiet 1 .reset) ∧ Served (nextTick (quiet 1 .reset).env) ∧
    parseCtrl Config.suggested ((capObj 36 b21Chip .reset).chip.capObj.readBytes 36 22) = .ok b21 ∧
    parseCtrl Config.suggested ((capObj 48 [4] .reset).chip.capObj.readBytes 36 22) = .error .channel ∧
    parseLevel Config.suggested ((capObj 28 [1, 0, 2, 3] .reset).chip.capObj.readBytes 28 4) =
      .ok { timeout := 1, bandDir := 2, bandSel := 3 } ∧
    parseLevel Config.suggested ((capObj 30 [3] .reset).chip.capObj.readBytes 28 4) = .error .bandDir ∧
    parseThresh Config.suggested ((capObj 22 [4] .reset).chip.capObj.readBytes 20 8) = .error .pwRes ∧
    (2 : BitVec 2).toNat ≤ 2 := ⟨rfl, by decide, .inl rfl, rfl, rfl, rfl, rfl, rfl, rfl, by decide⟩

/-- A legal choice of the codes; stored bytes outside and inside each image, the last legal channel. -/
theorem test_witness_RecordRoundTrips : Config.suggested.Valid ∧ 3 < (byteAt (b21Chip.set 12 4) 12).toNat ∧
    (byteAt (b21Chip.set 12 3) 12).toNat ≤ 3 ∧ byteAt (b21Chip.set 14 8) 14 ∉ Config.suggested.capSizeCode.toList ∧
    byteAt b21Chip 14 ∈ Config.suggested.capSizeCode.toList ∧ byteAt [0, 0, 3] 2 ∉ Config.suggested.bandDirCode.toList ∧
    byteAt [0, 0, 2] 2 ∈ Config.suggested.bandDirCode.toList ∧ byteAt [0, 0, 4] 2 ∉ Config.suggested.pwResCode.toList ∧
    byteAt [0, 0, 3] 2 ∈ Config.suggested.pwResCode.toList :=
  ⟨test_suggested_valid, by decide, by decide, by decide, by decide, by decide, by decide, by decide, by decide⟩

/-- A host record that raises each code in turn, and one that raises none; the extreme bytes of the level and threshold
records; the record of vector B20. -/
theorem test_witness_RecordLayouts :
    let ok := fun h : List Byte => byteAt h 0 ∈ [(1 : Byte), 2, 4, 8] ∧ (byteAt h 1).toNat ≤ 4 ∧ (byteAt h 2).toNat ≤ 1 ∧
      (byteAt h 3).toNat ≤ 1 ∧ le16 h 4 ∈ [(32 : BitVec 16), 64, 128, 256, 512, 1024, 2048, 4096]
    byteAt (3 :: b21Host.drop 1) 0 ∉ [(1 : Byte), 2, 4, 8] ∧ 4 < (byteAt (b21Host.set 1 5) 1).toNat ∧
    1 < (byteAt (b21Host.set 2 2) 2).toNat ∧ 1 < (byteAt (b21Host.set 3 2) 3).toNat ∧
    le16 (b21Host.set 4 1) 4 ∉ [(32 : BitVec 16), 64, 128, 256, 512, 1024, 2048, 4096] ∧ ok b21Host ∧
    1 < (byteAt (b21Host.set 12 2) 12).toNat ∧ 1 < (byteAt (b21Host.set 13 2) 13).toNat ∧
    (byteAt b21Host 12).toNat ≤ 1 ∧ (byteAt b21Host 13).toNat ≤ 1 ∧ 2 < (byteAt [0, 0, 3, 0] 2).toNat ∧
    (byteAt [0, 0, 2, 255] 2).toNat ≤ 2 ∧ 3 < (byteAt [0, 0, 4, 0, 0, 0, 0, 0] 2).toNat ∧
    (byteAt [0, 0, 3, 0, 0, 0, 0, 0] 2).toNat ≤ 3 ∧ hostConfig b20Host = .ok b20 :=
  ⟨by decide, by decide, by decide, by decide, by decide, by decide, by decide, by decide, by decide, by decide, by decide,
    by decide, by decide, by decide, rfl⟩

/-- The capture-config record with each check at its boundary: three resolutions, the band direction, a control record that
fails, one that does not; the three ranges. -/
theorem test_witness_RecordLayouts_config :
    let out := { b20.band23 with highToLowPulseWidth := 4097 }
    3 < (byteAt (b20Host.set 8 4) 8).toNat ∧ 3 < (byteAt (b20Host.set 16 4) 16).toNat ∧
    3 < (byteAt (b20Host.set 24 4) 24).toNat ∧ (byteAt b20Host 8).toNat ≤ 3 ∧ (byteAt b20Host 16).toNat ≤ 3 ∧
    (byteAt b20Host 24).toNat ≤ 3 ∧ 2 < (byteAt (b20Host.set 32 3) 32).toNat ∧ (byteAt b20Host 32).toNat ≤ 2 ∧
    hostCtrl (slice (b20Host.set 35 5) 34 24) = .error .capType ∧ hostCtrl (slice b20Host 34 24) = .ok b20.ctrl ∧
    (∃ x ∈ [b20.band01, b20.band12, out], 4096 < x.lowToHighPulseWidth.toNat ∨ 4096 < x.highToLowPulseWidth.toNat) ∧
    (∀ x ∈ [b20.band01, b20.band12, b20.band23],
      x.lowToHighPulseWidth.toNat ≤ 4096 ∧ x.highToLowPulseWidth.toNat ≤ 4096) ∧
    3 < ({ b20.level with bandSel := 4 } : CapLevel).bandSel.toNat ∧ b20.level.bandSel.toNat ≤ 3 ∧
    8191 < ({ b20.ctrl with alignDelay := 8192 } : CapCtrl).alignDelay.toNat ∧ b20.ctrl.alignDelay.toNat ≤ 8191 :=
  ⟨by decide, by decide, by decide, by decide, by decide, by decide, by decide, by decide, rfl, rfl, by decide, by decide,
    by decide, by decide, by decide, by decide⟩

theorem test_witness_ParseTypeOrder : (0x48 : Byte).getLsbD 6 = true ∧ (0x08 : Byte).getLsbD 6 = false ∧
    (0x00 : Byte).getLsbD 3 = false ∧ (0x09 : Byte).getLsbD 3 = true ∧ (0x09 : Byte).getLsbD 0 = true ∧
    (0x08 : Byte).getLsbD 0 = false := by decide

/-- `CAPCFG.SET` and `CAPCTRL.SET`: an illegal field, a field out of range, a bad pin code, the same pin twice. -/
theorem test_witness_RecordChecksRefuse :
    let s := operands (b21Host.take 18 ++ [0, 0x20, 0, 0, 0, 0]) .reset
    let bad := operands (b20Host.set 34 3) .reset
    let out := operands (b20Host.set 33 4) .reset
    let pin := operands (16 :: b20Host.drop 1) .reset
    let same := operands (9 :: b20Host.drop 1) .reset
    (s.dcc.capState = .idle ∨ s.dcc.capState = .configured) ∧ 24 ≤ s.regs.oplen.toNat ∧
    hostCtrl (s.regs.opb.readBytes 0 24) = .ok { b21 with alignDelay := 8192 } ∧ s.regs.ctrl.getLsbD 0 = true ∧
    8191 < (8192 : BitVec 16).toNat ∧ 58 ≤ bad.regs.oplen.toNat ∧
    hostConfig (bad.regs.opb.readBytes 0 58) = .error .channel ∧
    hostConfig (out.regs.opb.readBytes 0 58) = .ok { b20 with level := { b20.level with bandSel := 4 } } ∧
    rangeConfig { b20 with level := { b20.level with bandSel := 4 } } = .error .bandSel ∧
    hostConfig (pin.regs.opb.readBytes 0 58) = .ok { b20 with triggerPin := 16 } ∧
    rangeConfig { b20 with triggerPin := 16 } = .ok () ∧
    15 < (16 : PinCode).toNat ∧ (16 : PinCode) ≠ 0xFF ∧
    hostConfig (same.regs.opb.readBytes 0 58) = .ok { b20 with triggerPin := 9 } ∧ b20.donePin = 9 :=
  ⟨by decide, by decide, rfl, by decide, by decide, by decide, rfl, rfl, rfl, rfl, rfl, by decide, by decide, rfl, rfl⟩

/-- The model records: each field at its first illegal value. -/
theorem test_witness_RecordChecks_models :
    let r := fun h => operands (h ++ modelHost.drop 5) .reset
    (8 : ChMask) ∈ [(1 : ChMask), 2, 4, 8] ∧ 47 ≤ (r [4, 0, 0, 8, 0]).regs.oplen.toNat ∧
    ((Instr.modelCfg 8, 3) : Instr × Nat) ∈ [(.modelCfg 8, 3), (.mmodelCfg 8, 1)] ∧
    3 < ((r [4, 0, 0, 8, 0]).regs.opb.read 0).toNat ∧ 1 < ((r [2, 0, 0, 8, 0]).regs.opb.read 0).toNat ∧
    3 < ((r [0, 4, 0, 8, 0]).regs.opb.read 1).toNat ∧ (r [0, 0, 0, 10, 0]).regs.opb.read 3 ≠ 8 ∧
    (r [0, 0, 0, 10, 0]).regs.opb.read 3 ≠ 9 ∧ (r [1, 3, 0, 9, 0]).regs.opb.read 3 = 9 ∧
    (r [1, 3, 0, 9, 0]).regs.opb.read 1 = 3 ∧ 15 < ((r [1, 3, 0, 8, 16]).regs.opb.read 4).toNat ∧
    (r [1, 3, 0, 8, 16]).regs.opb.read 3 = 8 := by decide

/-- One state for each clause; the descriptors of entry 29 are bad in each of the three ways. -/
theorem test_witness_OperandChecksRefuse :
    let d := fun off size => (startOperation (operands (List.replicate 116 0 ++ [off, 0, size, 0] ++
      List.replicate 4 0) .reset)).dcc.flight
    (8 : ChMask) ∈ [(1 : ChMask), 2, 4, 8] ∧ 0 = State.reset.regs.oplen.toNat ∧ (oplen 1 .reset).regs.oplen.toNat ≠ 0 ∧
    4096 - 1024 * (3 : BitVec 2).toNat < (oplen 1025 .reset).regs.oplen.toNat ∧ 25 < (26 : BitVec 5).toNat ∧
    (25 : BitVec 5).toNat ≤ 25 ∧ (oplen 6 .reset).regs.oplen.toNat % 4 ≠ 0 ∧ 1024 < (oplen 1028 .reset).regs.oplen.toNat ∧
    (oplen 123 .reset).regs.oplen.toNat < 124 ∧ 65536 < (oplen 65537 .reset).regs.oplen.toNat ∧
    (descOff (d 123 1) 29 ≠ 0 ∧ descOff (d 123 1) 29 < 124) ∧ (descOff (d 124 0) 29 = 124 ∧ descSize (d 124 0) 29 = 0) ∧
    124 < descOff (d 124 1) 29 + descSize (d 124 1) 29 ∧ (oplen 46 .reset).regs.oplen.toNat < 47 ∧
    (oplen 57 .reset).regs.oplen.toNat < 58 ∧ State.reset.dcc.capState = .idle := by decide +kernel

/-- The last channel, with the mailbox trigger and with the debug register. -/
theorem test_witness_CapStartTriggers :
    let s := inState .configured (capObj 48 [3, 8] (quiet 4 .reset))
    let u := inState .configured (capObj 48 [3, 0] (quiet 4 .reset))
    s.dcc.capState = .configured ∧ (s.chip.capObj.read 48).toNat = (3 : Chan).val ∧ HostWaits s ∧ Quiet 4 s ∧
    parseType (s.chip.capObj.read 49) (s.chip.capObj.read 40) ≠ .tddTxOnSync ∧
    u.dcc.capState = .configured ∧ (u.chip.capObj.read 48).toNat = (3 : Chan).val ∧ HostWaits u ∧ Quiet 4 u ∧
    parseType (u.chip.capObj.read 49) (u.chip.capObj.read 40) = .tddTxOnSync :=
  ⟨rfl, by decide, .inl rfl, quiet_holds 4 .reset, by decide, rfl, by decide, .inl rfl, quiet_holds 4 .reset, by decide⟩

/-- A refused start, a bad stored channel, and a failure at each of the two transactions, the second through the debug register
and through the mailbox. -/
theorem test_witness_CapStart_checks :
    let u := inState .configured (capObj 48 [4] (quiet 2 .reset))
    let f := inState .configured (scripted [{ answer := .timeout }] .reset)
    let g := inState .configured (scripted [{}, { answer := .deviceError 3 }, {}] .reset)
    let m := capObj 48 [3, 8] g
    State.reset.dcc.capState ≠ .configured ∧ u.dcc.capState = .configured ∧ HostWaits u ∧ Served (nextTick u.env) ∧
    3 < (u.chip.capObj.read 48).toNat ∧ f.dcc.capState = .configured ∧ HostWaits f ∧ ¬ Served (nextTick f.env) ∧
    g.dcc.capState = .configured ∧ (g.chip.capObj.read 48).toNat ≤ 3 ∧ HostWaits g ∧ Quiet 1 g ∧
    tickAt g.env 1 = { moves := [], answer := .deviceError 3 } ∧ (tickAt g.env 2).moves = [] ∧
    ¬ Served { moves := [], answer := .deviceError 3 } ∧
    parseType (g.chip.capObj.read 49) (g.chip.capObj.read 40) = .tddTxOnSync ∧ (m.chip.capObj.read 48).toNat ≤ 3 ∧
    parseType (m.chip.capObj.read 49) (m.chip.capObj.read 40) ≠ .tddTxOnSync :=
  ⟨by decide, rfl, .inl rfl, rfl, by decide, rfl, .inl rfl, (fun h => nomatch h), rfl, by decide, .inl rfl,
    (fun | 0, _ => rfl), rfl, rfl, by unfold Served; decide, by decide, by decide, by decide⟩

theorem test_witness_CapPollAnswers :
    let s := inState .armed (chip (fun ch => { ch with doneFlag := 0xFE }) (quiet 1 .reset))
    let u := inState .armed (chip (fun ch => { ch with doneFlag := 0x01 }) (quiet 4 .reset))
    State.reset.dcc.capState ≠ .armed ∧ s.dcc.capState = .armed ∧ HostWaits s ∧ Served (nextTick s.env) ∧
    (envTurn s).chip.doneFlag.getLsbD 0 = false ∧
    u.dcc.capState = .armed ∧ HostWaits u ∧ Quiet 4 u ∧ u.chip.doneFlag.getLsbD 0 = true :=
  ⟨by decide, rfl, .inl rfl, rfl, by decide, rfl, .inl rfl, quiet_holds 4 .reset, by decide⟩

theorem test_witness_CapPoll_fails :
    let s := inState .armed (chip (fun ch => { ch with doneFlag := 1 }) (scripted [{}, { answer := .timeout }, {}] .reset))
    let f := inState .armed (scripted [{ answer := .timeout }] .reset)
    s.dcc.capState = .armed ∧ HostWaits s ∧ Quiet 1 s ∧ tickAt s.env 1 = { moves := [], answer := .timeout } ∧
    (tickAt s.env 2).moves = [] ∧
    ¬ Served { moves := [], answer := .timeout } ∧ s.chip.doneFlag.getLsbD 0 = true ∧
    f.dcc.capState = .armed ∧ HostWaits f ∧ ¬ Served (nextTick f.env) :=
  ⟨rfl, .inl rfl, (fun | 0, _ => rfl), rfl, rfl, (fun h => nomatch h), by decide, rfl, .inl rfl, fun h => nomatch h⟩

theorem test_witness_CapStatusReturns : (inState .error .reset).dcc.capState = .error ∧
    (3 : ChMask) ∉ [(1 : ChMask), 2, 4, 8] ∧ (8 : ChMask).toNat = 2 ^ (3 : Chan).val ∧
    State.reset.dcc.capState ≠ .error ∧ HostWaits (quiet 1 .reset) ∧ Served (nextTick (quiet 1 .reset).env) ∧
    HostWaits (scripted [{ answer := .timeout }] .reset) ∧
    ¬ Served (nextTick (scripted [{ answer := .timeout }] .reset).env) :=
  ⟨rfl, by decide, by decide, by decide, .inl rfl, rfl, .inl rfl, fun h => nomatch h⟩

theorem test_witness_CapRddoneCloses :
    let s := inState .done (quiet 1 .reset)
    let u := inState .done (scripted [{ answer := .hwReset }] .reset)
    State.reset.dcc.capState ≠ .done ∧ s.dcc.capState = .done ∧ HostWaits s ∧ Served (nextTick s.env) ∧
    u.dcc.capState = .done ∧ HostWaits u ∧ ¬ Served (nextTick u.env) :=
  ⟨by decide, rfl, .inl rfl, rfl, rfl, .inl rfl, fun h => nomatch h⟩

theorem test_witness_ModelCfgWrites :
    let s := operands ([1, 2, 0x10, 9, 15] ++ modelHost.drop 5) (quiet 1 .reset)
    (8 : ChMask).toNat = 2 ^ (3 : Chan).val ∧ 47 ≤ s.regs.oplen.toNat ∧ 1 = (s.regs.opb.read 0).toNat ∧
    2 = (s.regs.opb.read 1).toNat ∧ 9 = (s.regs.opb.read 3).toNat ∧ 15 = (s.regs.opb.read 4).toNat ∧
    HostWaits s ∧ Served (nextTick s.env) ∧ s.MemoryForm := by
  refine ⟨by decide, by decide, by decide, by decide, by decide, by decide, .inl rfl, rfl, ?_, ?_, ?_, ?_, ?_, ?_⟩ <;> decide

theorem test_witness_ModelGetsReturn : (8 : ChMask).toNat = 2 ^ (3 : Chan).val ∧ HostWaits (quiet 1 .reset) ∧
    Served (nextTick (quiet 1 .reset).env) ∧ (1 : BitVec 2).toNat ≤ 1 ∧ (0 : ChMask) ∉ [(1 : ChMask), 2, 4, 8] ∧
    (8 : ChMask) ∈ [(1 : ChMask), 2, 4, 8] ∧ 1 < (2 : BitVec 2).toNat :=
  ⟨by decide, .inl rfl, rfl, by decide, by decide, by decide, by decide⟩

theorem test_witness_LutAddrResolves : (8 : ChMask).toNat = 2 ^ (3 : Chan).val ∧ (3 : ChMask) ∉ [(1 : ChMask), 2, 4, 8] := by
  decide

theorem test_witness_LutWindowAddresses : State.reset.cfg.Valid ∧ 15 < 16 ∧
    peakPageAddress Config.suggested 3 15 = 0x6007EC00 := ⟨test_suggested_valid, by decide, by decide⟩

/-- A stream processor that answers, and one that never acts. -/
theorem test_witness_ActclkSetSwitches : (8 : ChMask).toNat = 2 ^ (3 : Chan).val ∧ HostWaits (obliging 5 .reset) ∧
    Obliging 5 (obliging 5 .reset) ∧ HostWaits (quiet 44 .reset) ∧ Quiet 44 (quiet 44 .reset) ∧
    ((quiet 44 .reset).chip.act.get 3).actClk ≠ 1 :=
  ⟨by decide, .inl rfl, obliging_holds 5 _ rfl, .inl rfl, quiet_holds 44 _, by decide⟩

/-- The longest write to bank 3. -/
theorem test_witness_LutWriteStores :
    let s := oplen 1024 (obliging 29 .reset)
    (8 : ChMask).toNat = 2 ^ (3 : Chan).val ∧ s.regs.oplen.toNat ≠ 0 ∧
    s.regs.oplen.toNat ≤ 4096 - 1024 * (3 : BitVec 2).toNat ∧ HostWaits s ∧ Obliging 29 s ∧ s.MemoryForm :=
  ⟨by decide, by decide, by decide, .inl rfl, obliging_holds 29 (oplen 1024 .reset) rfl, reset_form⟩

theorem test_witness_LutReadReturns :
    let s := oplen 1024 (obliging 29 .reset)
    (8 : ChMask).toNat = 2 ^ (3 : Chan).val ∧ s.regs.oplen.toNat ≠ 0 ∧
    s.regs.oplen.toNat ≤ 4096 - 1024 * (3 : BitVec 2).toNat ∧ HostWaits s ∧ Obliging 29 s ∧
    State.reset.regs.oplen = 0 :=
  ⟨by decide, by decide, by decide, .inl rfl, obliging_holds 29 (oplen 1024 .reset) rfl, rfl⟩

theorem test_witness_OkMeansDone :
    let s := operands [0xDE, 0xAD] (obliging 29 .reset)
    (2 : ChMask).toNat = 2 ^ (1 : Chan).val ∧ HostWaits s ∧ s.MemoryForm ∧ s.chip.trigPending = false ∧
    exec (.lutWrite 2 5 0) s = .next (runOperation false (lutWrite 2 5 0) s) ∧
    resClass (runOperation false (lutWrite 2 5 0) s).regs.res = 0 := by
  refine ⟨by decide, .inl rfl, ?_, rfl, rfl, by decide +kernel⟩
  refine ⟨?_, ?_, ?_, ?_, ?_, ?_⟩ <;> decide

theorem test_witness_OkMeansDone_swap :
    let s := compander 8 (operands swapHost (obliging 64 .reset))
    HostWaits s ∧ exec (.swapWrite 1 0) s = .next (runOperation false (swapWrite 1 0) s) ∧
    resClass (runOperation false (swapWrite 1 0) s).regs.res = 0 := ⟨.inl rfl, rfl, by decide +kernel⟩

/-- Both operations served and failed, and the query that makes no transaction. -/
theorem test_witness_SwapFlagAndCache :
    let f := scripted [{ answer := .timeout }] .reset
    HostWaits (quiet 1 .reset) ∧ Served (nextTick (quiet 1 .reset).env) ∧ (quiet 1 .reset).MemoryForm ∧ HostWaits f ∧
    ¬ Served (nextTick f.env) ∧ State.reset.regs.ctrl.getLsbD 1 = false ∧
    (control 0xB (quiet 1 .reset)).regs.ctrl.getLsbD 1 = true ∧ HostWaits (control 0xB (quiet 1 .reset)) ∧
    Served (nextTick (control 0xB (quiet 1 .reset)).env) ∧ ¬ Served (nextTick (control 0xB f).env) :=
  ⟨.inl rfl, rfl, reset_form, .inl rfl, (fun h => nomatch h), by decide, by decide, .inl rfl, rfl, fun h => nomatch h⟩

/-- The state of program P2, step 3, with entry 0 alone, in both compander sizes. -/
def swapState (v : Byte) : State := compander v (operands swapHost (obliging 1686 .reset))

theorem test_witness_SwapWriteWrites :
    let f := (startOperation (swapState 8)).dcc.flight
    (1 : ChMask).toNat = 2 ^ (0 : Chan).val ∧ 124 ≤ (swapState 8).regs.oplen.toNat ∧
    (swapState 8).regs.oplen.toNat ≤ 65536 ∧ (swapState 8).chip.modelObj.read (48 * (0 : Chan).val + 4) = 8 ∧
    (swapState 9).chip.modelObj.read (48 * (0 : Chan).val + 4) = 9 ∧ descOff f 0 ≠ 0 ∧
    (∀ k < 30, descOff f k ≠ 0 → 124 ≤ descOff f k ∧ 1 ≤ descSize f k ∧
      descOff f k + descSize f k ≤ (swapState 8).regs.oplen.toNat ∧ descSize f k ≤ 1024) ∧
    HostWaits (swapState 8) ∧ Obliging 1686 (swapState 8) :=
  ⟨by decide, by decide +kernel, by decide +kernel, by decide, by decide, by decide +kernel, by decide +kernel, .inl rfl,
    obliging_holds 1686 (compander 8 (operands swapHost .reset)) rfl⟩

/-- A compander size that is neither, a bank of the wrong kind, and entries above the limit of each size. -/
theorem test_witness_SwapWriteChecksModel :
    let big := fun (hi : Byte) (n : Nat) => oplen n (operands ([0x7C, 0, 1, hi] ++ List.replicate 120 0) (quiet 1 .reset))
    let f := fun (hi : Byte) (n : Nat) => (startOperation (big hi n)).dcc.flight
    let good := fun (f : Flight) (n : Nat) => ∀ k < 30, descOff f k ≠ 0 →
      124 ≤ descOff f k ∧ 1 ≤ descSize f k ∧ descOff f k + descSize f k ≤ n
    (1 : ChMask).toNat = 2 ^ (0 : Chan).val ∧ HostWaits (big 4 1200) ∧ Served (nextTick (big 4 1200).env) ∧
    124 ≤ (big 4 1200).regs.oplen.toNat ∧ (big 8 2400).regs.oplen.toNat ≤ 65536 ∧
    (compander 7 (big 0 125)).chip.modelObj.read (48 * (0 : Chan).val + 4) = 7 ∧ good (f 0 125) 125 ∧
    good (f 4 1200) 1200 ∧ descOff (f 4 1200) 0 ≠ 0 ∧ 1024 < descSize (f 4 1200) 0 ∧
    good (f 8 2400) 2400 ∧ 2048 < descSize (f 8 2400) 0 := by
  refine ⟨by decide, .inl rfl, rfl, ?_, ?_, ?_, ?_, ?_, ?_, ?_, ?_, ?_⟩ <;> decide +kernel

/-- The last LUT, with the longest write and with one that stays in the first row. -/
theorem test_witness_MmlutWriteFillsRows :
    let s := oplen 1024 (quiet 5 .reset)
    (25 : BitVec 5).toNat ≤ 25 ∧ 0x61006400 = s.cfg.corrBase.toNat + 1024 * (25 : BitVec 5).toNat ∧
    s.regs.oplen.toNat ≠ 0 ∧ s.regs.oplen.toNat % 4 = 0 ∧ s.regs.oplen.toNat ≤ 1024 ∧ HostWaits s ∧ Quiet 5 s ∧
    s.MemoryForm :=
  ⟨by decide, by decide, by decide, by decide, by decide, .inl rfl, quiet_holds 5 (oplen 1024 .reset), reset_form⟩

theorem test_witness_MmodelUpdateAndStatus : (8 : ChMask).toNat = 2 ^ (3 : Chan).val ∧ HostWaits (quiet 1 .reset) ∧
    Served (nextTick (quiet 1 .reset).env) ∧ (1 : BitVec 2).toNat ≤ 1 ∧ (9 : ChMask) ∉ [(1 : ChMask), 2, 4, 8] ∧
    (8 : ChMask) ∈ [(1 : ChMask), 2, 4, 8] ∧ 1 < (2 : BitVec 2).toNat :=
  ⟨by decide, .inl rfl, rfl, by decide, by decide, by decide, by decide⟩

end Sys2Proof.Tests
end

section
/-! PROOF. `SRCCTL.SET` and `SRCCTL.GET` (40_gpio_arbiter.md R140 to R142): a refused pin code, the write of one nibble and
its read, each served and failed, for every move of the other agents at the boundaries of the operation. -/

namespace Sys2Proof.Machine

/-! ## Pin codes (40_gpio_arbiter.md R140) -/

theorem pinMapped_iff (pin : PinCode) : pinMapped pin = true ↔ pin.toNat ≤ 18 := by
  simp [pinMapped]

theorem run_pinMapped_bind {α : Type} {pin : PinCode} (h : pin.toNat ≤ 18) (f : Unit → M α) (s : State) :
    (checkParam (pinMapped pin) .pin >>= f).run s = (f ()).run s := by
  rw [run_checkParam_bind, if_pos ((pinMapped_iff pin).2 h)]

theorem run_pinUnmapped_bind {α : Type} {pin : PinCode} (h : 18 < pin.toNat) (f : Unit → M α) (s : State) :
    (checkParam (pinMapped pin) .pin >>= f).run s = .error (.raised (.invalidParameter .pin)) s := by
  rw [run_checkParam_bind, if_neg (by rw [pinMapped_iff]; omega)]

/-- The group of a pin code (10_state.md R32). -/
abbrev groupOfCode (pin : PinCode) : Fin 5 := groupOfPin (pinOfCode pin)

theorem groupOfCode_val {pin : PinCode} (h : pin.toNat ≤ 18) : (groupOfCode pin).val = pin.toNat / 4 := by
  simp only [groupOfPin, pinOfCode, Fin.val_ofNat]
  omega

/-! ## Transactions that are no mailbox transactions -/

/-- How a transaction on a field, a memory, a register or a pin fails: a device error drawn for it reads as `Timeout`
(60_exceptions.md R293; log 9). -/
def fieldFailure (a : Answer) : ResultClass := if a = .hwReset then .hardwareResetRequired else .timeout

theorem answerFailure_field {t : Tick} (h : ¬ Served t) : answerFailure false t.answer = some (fieldFailure t.answer) := by
  unfold Served at h
  cases ha : t.answer with
  | ok => rw [ha] at h; exact absurd rfl h
  | timeout => rfl
  | hwReset => rfl
  | deviceError code =>
    rw [ha] at h
    have hc : code ≠ 0 := fun hc => h (if_pos hc)
    exact if_neg hc

theorem resWord_fieldFailure (cfg : Config) (a : Answer) (info : Byte) :
    resWord cfg (fieldFailure a) info = if a = .hwReset then 6 else 5 := by
  unfold fieldFailure
  split_ifs <;> rfl

theorem fieldRead_failed {f : Field} {s : State} (h : HostWaits s) (ha : ¬ Served (nextTick s.env)) :
    (fieldRead f).run s = .error (.raised (fieldFailure (nextTick s.env).answer))
      (logTxn (.fieldRead f) false (envTurn s)) := by
  unfold fieldRead readTxn
  exact transact_failed h (answerFailure_field ha)

/-! ## Turns of the other agents -/

theorem nextTick_envTurn (s : State) : nextTick (envTurn s).env = tickAt s.env 1 :=
  (tickAt_zero _).symm.trans (tickAt_succ (envTurn_script s) (envTurn_draws s) 0)

theorem envTurns_succ (n : Nat) (s : State) : envTurns (n + 1) s = envTurn (envTurns n s) := by
  induction n generalizing s with
  | zero => rfl
  | succ n ih => exact ih (envTurn s)

theorem envTurns_srcctl (n : Nat) (s : State) : (envTurns n s).chip.srcctl = s.chip.srcctl := by
  induction n with
  | zero => rfl
  | succ n ih => rw [envTurns_succ, (Between.envTurn _).srcctl, ih]

/-- `u` is a state inside the operation that started in `s`, after `n` boundaries: the other agents had their turns there, and
DCC has left the nibbles at `src` and nothing else of the chip or of the state local to DCC changed. -/
structure NibblesAfter (n : Nat) (src : Vector (BitVec 4) 5) (s u : State) : Prop where
  elsewhere : SameElsewhere (envTurns n s) u
  chip : u.chip = { (envTurns n s).chip with srcctl := src }
  dcc : u.dcc = { s.dcc with flight := u.dcc.flight }

theorem NibblesAfter.start (s : State) : NibblesAfter 0 s.chip.srcctl s (startOperation s) := ⟨⟨rfl, rfl, rfl⟩, rfl, rfl⟩

/-- One more boundary: what the other agents do there does not depend on the nibbles. -/
theorem NibblesAfter.turn {n : Nat} {src : Vector (BitVec 4) 5} {s u : State} (h : NibblesAfter n src s u) :
    NibblesAfter (n + 1) src s (envTurn u) where
  elsewhere := by rw [envTurns_succ]; exact h.elsewhere.turn
  chip := by
    have b := Between.envTurn (envTurns n s)
    rw [envTurns_succ, h.elsewhere.envTurn.1, h.chip]
    simp only [← b.dir, ← b.dbgTrig, ← b.chsel, ← b.streamId, ← b.streamTrig, ← b.capObj, ← b.modelObj, ← b.mmodelObj,
      ← b.swapEnObj]
  dcc := by rw [envTurn_dcc]; exact h.dcc

/-- The effect of a transaction that leaves `x` in the nibble of group `g`. -/
theorem NibblesAfter.write {n : Nat} {src : Vector (BitVec 4) 5} {s u : State} (h : NibblesAfter n src s u) (t : Txn)
    (ok : Bool) (g : Fin 5) (x : Chip → BitVec 4) :
    NibblesAfter n (src.set g (x u.chip)) s (logTxn t ok (updateChip (fun ch => setField ch (.srcctl g) (x ch)) u)) where
  elsewhere := h.elsewhere.trans ⟨by simp, by simp [setField], by cases ok <;> rfl⟩
  chip := by
    rw [logTxn_chip, updateChip_chip]
    show ({ u.chip with srcctl := u.chip.srcctl.set g (x u.chip) } : Chip) = _
    generalize x u.chip = v
    rw [h.chip]
  dcc := by rw [logTxn_dcc, updateChip_dcc, h.dcc]

/-- A transaction that changes nothing. -/
theorem NibblesAfter.read {n : Nat} {src : Vector (BitVec 4) 5} {s u : State} (h : NibblesAfter n src s u) (t : Txn)
    (ok : Bool) : NibblesAfter n src s (logTxn t ok u) where
  elsewhere := h.elsewhere.trans ⟨by simp, by simp, by cases ok <;> rfl⟩
  chip := by rw [logTxn_chip]; exact h.chip
  dcc := by rw [logTxn_dcc, h.dcc]

theorem NibblesAfter.chip_same {n : Nat} {s u : State} (h : NibblesAfter n s.chip.srcctl s u) :
    u.chip = (envTurns n s).chip := by
  rw [h.chip, ← envTurns_srcctl n s]

/-! ## How an operation outside the capture families ends -/

/-- An operation refused before its first boundary. -/
theorem endedAtOnce_of_refused {fam : Bool} {body : M Result} {s : State} {c : ResultClass} (hw : HostWaits s)
    (hc : isTransportFailure c = false) (h : body.run (startOperation s) = .error (.raised c) (startOperation s)) :
    EndedAtOnce s (runOperation fam body s) (resWord s.cfg c 0) := by
  rw [runOperation_raised h]
  exact endedAtOnce_takeResult hw hc

/-- An operation whose transaction `t` failed and left the chip changed by `f`, while the host waits. -/
theorem Inside.failed {s u : State} {l : List Txn} {fam : Bool} {body : M Result} {c : ResultClass} {t : Txn}
    {f : Chip → Chip} (h : Inside s u l) (hw : HostWaits s)
    (hrun : body.run (startOperation s) = .error (.raised c) (logTxn t false (updateChip f u))) :
    runOperation fam body s = takeResult fam c (envTurn (logTxn t false (updateChip f u))) ∧
      Ended s (runOperation fam body s) (resWord s.cfg c 0) [] := by
  have hout := (runOperation_raised (fam := fam) hrun).trans (leave_of_waits ((h.waits hw).of_hostQ (by simp)))
  refine ⟨hout, ?_⟩
  rw [hout]
  exact ended_takeResult (by simpa using h.cfg) (by simpa using h.regs) (by simpa using h.hostQ)

theorem dccSame_takeResult {s u : State} {c : ResultClass} (h : u.dcc = { s.dcc with flight := u.dcc.flight }) :
    DccSame s (takeResult false c u) := dccSame_returnOk (r := {}) h

/-! ## `SRCCTL.SET` (40_gpio_arbiter.md R141) -/

theorem srcctlSet_run {pin : PinCode} (h : pin.toNat ≤ 18) (val : BitVec 4) (s : State) :
    (srcctlSet pin val).run s = (fieldWrite (.srcctl (groupOfCode pin)) val >>= fun _ => pure {} : M Result).run s :=
  run_pinMapped_bind h _ s

/-- Served: three boundaries, one `FieldWrite`, the nibble of the group written. -/
theorem srcctlSet_served {pin : PinCode} {val : BitVec 4} {s : State} (hp : pin.toNat ≤ 18) (hw : HostWaits s)
    (ha : Served (tickAt s.env 1)) :
    ∃ u, runOperation false (srcctlSet pin val) s = returnOk {} u ∧
      Inside s u [.fieldWrite (.srcctl (groupOfCode pin)) val.toNat] ∧
      NibblesAfter 3 (s.chip.srcctl.set (groupOfCode pin) val) s u := by
  have hw0 := hostWaits_start hw
  have hrun := (srcctlSet_run hp val (startOperation s)).trans
    (run_bind_ok (fieldWrite_served rfl hw0 (by rw [nextTick_envTurn]; exact ha)))
  have hin := (Inside.start s).turn.txn (.fieldWrite (.srcctl (groupOfCode pin)) val.toNat)
    (fun ch => setField ch (.srcctl (groupOfCode pin)) val)
  exact ⟨_, (runOperation_ok hrun).trans (hin.leave hw _), hin.turn,
    ((NibblesAfter.start s).turn.turn.write _ true _ fun _ => val).turn⟩

/-- Failed: the nibble of the group is left torn. -/
theorem srcctlSet_failed {pin : PinCode} {val : BitVec 4} {s : State} (hp : pin.toNat ≤ 18) (hw : HostWaits s)
    (ha : ¬ Served (tickAt s.env 1)) :
    ∃ u, runOperation false (srcctlSet pin val) s = takeResult false (fieldFailure (tickAt s.env 1).answer) u ∧
      Ended s (runOperation false (srcctlSet pin val) s) (if (tickAt s.env 1).answer = .hwReset then 6 else 5) [] ∧
      NibblesAfter 3 (s.chip.srcctl.set (groupOfCode pin)
        (tornBits (s.env.draws + 2) 0 (s.chip.srcctl.get (groupOfCode pin)) val)) s u := by
  have hw0 := hostWaits_start hw
  have hrun := (srcctlSet_run hp val (startOperation s)).trans
    (run_bind_error (fieldWrite_failed hw0 (by rw [nextTick_envTurn]; exact answerFailure_field ha)))
  have hnib := (NibblesAfter.start s).turn.turn
  obtain ⟨hout, hend⟩ := (Inside.start s).turn.turn.failed (fam := false) (body := srcctlSet pin val) hw hrun
  rw [resWord_fieldFailure] at hend
  have hn := (hnib.write (.fieldWrite (.srcctl (groupOfCode pin)) val.toNat) false (groupOfCode pin)
    fun ch => tornBits (s.env.draws + 2) 0 (ch.srcctl.get (groupOfCode pin)) val).turn
  rw [hnib.chip] at hn
  exact ⟨_, hout, hend, hn⟩

/-- Settles O24: each clause is the operation's end state, refused, served or failed. -/
theorem srcctlSetWrites : Obligations.SrcctlSetWrites := by
  intro pin val s
  refine ⟨fun hp hw => ⟨_, rfl, ?_⟩, fun hp hw ha => ⟨_, rfl, ?_⟩, fun hp hw ha => ⟨_, rfl, ?_⟩⟩
  · exact endedAtOnce_of_refused hw rfl (run_pinUnmapped_bind hp _ _)
  · obtain ⟨u, hout, hin, hnib⟩ := srcctlSet_served (val := val) hp hw ha
    have hg := groupOfCode_val hp
    rw [hout]
    refine ⟨hin.endedOk {}, dccSame_returnOk hnib.dcc, ?_, fun g => ?_, _, hg, hin.sent {}⟩
    · rw [returnOk_chip, hnib.chip]
    · rw [returnOk_chip, hnib.chip, get_set]
      simp only [← hg, Fin.ext_iff, eq_comm]
  · obtain ⟨u, hout, hend, hnib⟩ := srcctlSet_failed (val := val) hp hw ha
    refine ⟨?_, ?_⟩
    · split_ifs at hend
      · exact .inr hend
      · exact .inl hend
    · rw [hout]
      refine ⟨dccSame_takeResult hnib.dcc, ?_, fun g hg => ?_⟩
      · rw [takeResult_chip, hnib.chip]
      · rw [takeResult_chip, hnib.chip, get_set_ne]
        exact fun he => hg (he ▸ groupOfCode_val hp)

/-! ## `SRCCTL.GET` (40_gpio_arbiter.md R142) -/

theorem srcctlGet_run {pin : PinCode} (h : pin.toNat ≤ 18) (s : State) :
    (srcctlGet pin).run s =
      (fieldRead (.srcctl (groupOfCode pin)) >>= fun n => pure { info := BitVec.setWidth 8 n } : M Result).run s :=
  run_pinMapped_bind h _ s

/-- Served: two boundaries, one `FieldRead`, the nibble of the group returned. -/
theorem srcctlGet_served {pin : PinCode} {s : State} (hp : pin.toNat ≤ 18) (hw : HostWaits s)
    (ha : Served (nextTick s.env)) :
    ∃ u, runOperation false (srcctlGet pin) s =
        returnOk { info := (s.chip.srcctl.get (groupOfCode pin)).setWidth 8 } u ∧
      Inside s u [.fieldRead (.srcctl (groupOfCode pin))] ∧ NibblesAfter 2 s.chip.srcctl s u := by
  have hrun := (srcctlGet_run hp (startOperation s)).trans (run_bind_ok (fieldRead_served (hostWaits_start hw) ha))
  have hin := (Inside.start s).read (.fieldRead (.srcctl (groupOfCode pin)))
  have hget : getField (envTurn (startOperation s)).chip (.srcctl (groupOfCode pin)) =
      s.chip.srcctl.get (groupOfCode pin) :=
    congrArg (fun v => v.get (groupOfCode pin)) (Between.envTurn (startOperation s)).srcctl
  rw [hget] at hrun
  exact ⟨_, (runOperation_ok hrun).trans (hin.leave hw _), hin.turn, ((NibblesAfter.start s).turn.read _ true).turn⟩

theorem srcctlGet_failed {pin : PinCode} {s : State} (hp : pin.toNat ≤ 18) (hw : HostWaits s)
    (ha : ¬ Served (nextTick s.env)) :
    ∃ u, runOperation false (srcctlGet pin) s = takeResult false (fieldFailure (nextTick s.env).answer) u ∧
      Ended s (runOperation false (srcctlGet pin) s) (if (nextTick s.env).answer = .hwReset then 6 else 5) [] ∧
      NibblesAfter 2 s.chip.srcctl s u := by
  have hrun := (srcctlGet_run hp (startOperation s)).trans (run_bind_error (fieldRead_failed (hostWaits_start hw) ha))
  obtain ⟨hout, hend⟩ := (Inside.start s).turn.failed (fam := false) (body := srcctlGet pin) (f := id) hw hrun
  rw [resWord_fieldFailure] at hend
  exact ⟨_, hout, hend, ((NibblesAfter.start s).turn.read _ false).turn⟩

/-- Settles O26: each clause is the operation's end state, refused, served or failed. -/
theorem srcctlGetReads : Obligations.SrcctlGetReads := by
  intro pin s
  refine ⟨fun hp hw => ⟨_, rfl, ?_⟩, fun hp hw ha => ⟨_, _, groupOfCode_val hp, rfl, ?_⟩,
    fun hp hw ha => ?_⟩
  · exact endedAtOnce_of_refused hw rfl (run_pinUnmapped_bind hp _ _)
  · obtain ⟨u, hout, hin, hnib⟩ := srcctlGet_served hp hw ha
    rw [hout]
    exact ⟨hin.endedOk _, dccSame_returnOk hnib.dcc, hnib.chip_same, hin.sent _⟩
  · obtain ⟨u, hout, hend, hnib⟩ := srcctlGet_failed hp hw ha
    refine ⟨_, _, rfl, hend, ?_, fun h => by rw [h]; rfl, fun h => by rw [h]; rfl, ?_⟩
    · split_ifs
      · exact .inr rfl
      · exact .inl rfl
    · rw [hout]
      exact ⟨dccSame_takeResult hnib.dcc, (takeResult_chip _ _ _).trans hnib.chip_same⟩

end Sys2Proof.Machine
end

section
/-! PROOF. `CAPCTRL.SET`, `CAPLVL.SET` and `PWRTH.SET` (41_capture_config.md R183, R185, R187): one sequence of gate, operand
record, validation and write of a sub-record of `CAPOBJ`, said once for all three and for every move of the other agents at
its two boundaries. Then the order of the capture-type decode (R178). -/

namespace Sys2Proof.Machine

/-! ## Validation of the records (41_capture_config.md R172) -/

theorem rangeCtrl_ok {c : CapCtrl} (h : c.alignDelay.toNat ≤ 8191) : rangeCtrl c = .ok () := if_pos h

theorem rangeCtrl_error {c : CapCtrl} (h : 8191 < c.alignDelay.toNat) : rangeCtrl c = .error .alignDelay :=
  if_neg (by omega)

theorem rangeLevel_ok {v : CapLevel} (h : v.bandSel.toNat ≤ 3) : rangeLevel v = .ok () := if_pos h

theorem rangeLevel_error {v : CapLevel} (h : 3 < v.bandSel.toNat) : rangeLevel v = .error .bandSel := if_neg (by omega)

theorem rangeThresh_ok {r : PwrThresh} (h : r.lowToHighPulseWidth.toNat ≤ 4096 ∧ r.highToLowPulseWidth.toNat ≤ 4096) :
    rangeThresh r = .ok () := if_pos h

theorem rangeThresh_error {r : PwrThresh}
    (h : 4096 < r.lowToHighPulseWidth.toNat ∨ 4096 < r.highToLowPulseWidth.toNat) :
    rangeThresh r = .error .pulseWidth := if_neg (by omega)

theorem hostLevel_badBandDir {h : List Byte} (hd : 2 < (byteAt h 2).toNat) : hostLevel h = .error .bandDir := by
  have hb : bandDirOfByte (byteAt h 2) = none := dif_neg (by omega)
  unfold hostLevel
  rw [hb]
  rfl

theorem hostLevel_goodBandDir {h : List Byte} (hd : (byteAt h 2).toNat ≤ 2) :
    ∃ v, hostLevel h = .ok v ∧ v.bandSel = byteAt h 3 := by
  have hb : bandDirOfByte (byteAt h 2) = some ⟨(byteAt h 2).toNat, by omega⟩ := dif_pos (by omega)
  unfold hostLevel
  rw [hb]
  exact ⟨_, rfl, rfl⟩

theorem hostThresh_badPwRes {h : List Byte} (hd : 3 < (byteAt h 2).toNat) : hostThresh h = .error .pwRes := by
  have hb : pwResOfByte (byteAt h 2) = none := dif_neg (by omega)
  unfold hostThresh
  rw [hb]
  rfl

/-- A byte of the operand record at the start of `OPB`. -/
theorem byteAt_operand (m : Memory) {n k : Nat} (h : k < n) : byteAt (m.readBytes 0 n) k = m.read k := by
  rw [Memory.byteAt_readBytes h, Nat.zero_add]

/-! ## The common sequence of the sub-record writes -/

/-- Validation of the host record `h` and the write of its serialized bytes at `off`. -/
def writeSubrecord (host : List Byte → Except ParamCode α) (range : α → Except ParamCode Unit) (off : Nat)
    (ser : Config → α → List Byte) (h : List Byte) : M Result := do
  let a ← liftParam (host h)
  rangeChecked (range a)
  let cfg ← ask fun s => s.cfg
  mboxCfgWrite .capture off (ser cfg a)
  pure {}

/-- The gate and the operand record of `n` bytes, then `rest` on it. -/
def withSubrecord (n : Nat) (rest : List Byte → M Result) : M Result := do
  gate .set
  let h ← needRecord n
  rest h

theorem capctrlSet_eq : capctrlSet = withSubrecord 24 (writeSubrecord hostCtrl rangeCtrl 36 serCtrl) := rfl

theorem caplvlSet_eq : caplvlSet = withSubrecord 4 (writeSubrecord hostLevel rangeLevel 28 serLevel) := rfl

theorem pwrthSet_eq (sel : BitVec 2) : pwrthSet sel = withSubrecord 8 fun h =>
    checkParam (sel ≠ 3) .band >>= fun _ =>
      writeSubrecord hostThresh rangeThresh (4 + 8 * sel.toNat) serThresh h := rfl

/-- With a band 0..2 `PWRTH.SET` is the common sequence too. -/
theorem pwrthSet_band {sel : BitVec 2} (h : sel ≠ 3) :
    pwrthSet sel = withSubrecord 8 (writeSubrecord hostThresh rangeThresh (4 + 8 * sel.toNat) serThresh) := by
  have hband : checkParam (sel ≠ 3) .band = pure () := funext fun _ => if_pos h
  rw [pwrthSet_eq, hband]
  rfl

theorem gateOpen_set_iff (c : CapState) : gateOpen .set c = true ↔ c = .idle ∨ c = .configured := by
  cases c <;> decide

theorem run_rangeChecked_bind {β : Type} (e : Except ParamCode Unit) (f : Unit → M β) (s : State) :
    (rangeChecked e >>= f).run s =
      if ctrlRangeCheck s.dcc.flight.ctrl = true then (liftParam e >>= f).run s else (f ()).run s := by
  simp only [rangeChecked, run_bind_assoc, run_snapCtrl_bind, run_doIf_bind]

section Subrecord

variable {α : Type} {host : List Byte → Except ParamCode α} {range : α → Except ParamCode Unit} {ser : Config → α → List Byte}

theorem run_writeSubrecord_illegal {off : Nat} {h : List Byte} {code : ParamCode} (hh : host h = .error code) (s : State) :
    (writeSubrecord host range off ser h).run s = .error (.raised (.invalidParameter code)) s := by
  unfold writeSubrecord
  rw [hh, run_liftParam_error_bind]

theorem run_writeSubrecord_outOfRange {off : Nat} {h : List Byte} {a : α} {code : ParamCode} {s : State}
    (hh : host h = .ok a) (hr : range a = .error code) (hc : ctrlRangeCheck s.dcc.flight.ctrl = true) :
    (writeSubrecord host range off ser h).run s = .error (.raised (.invalidParameter code)) s := by
  unfold writeSubrecord
  rw [hh, run_liftParam_ok_bind, run_rangeChecked_bind, if_pos hc, hr, run_liftParam_error_bind]

theorem run_writeSubrecord_legal {off : Nat} {h : List Byte} {a : α} {s : State} (hh : host h = .ok a)
    (hr : ctrlRangeCheck s.dcc.flight.ctrl = true → range a = .ok ()) :
    (writeSubrecord host range off ser h).run s =
      (mboxCfgWrite .capture off (ser s.cfg a) >>= fun _ => pure {} : M Result).run s := by
  unfold writeSubrecord
  rw [hh, run_liftParam_ok_bind, run_rangeChecked_bind, run_ask_bind]
  split
  · next hc => rw [hr hc, run_liftParam_ok_bind, run_ask_bind]
  · rfl

/-! ## How a sub-record write is refused -/

theorem endedAtOnce_invalidParameter {fam : Bool} {body : M Result} {s : State} {code : ParamCode} (hw : HostWaits s)
    (h : body.run (startOperation s) = .error (.raised (.invalidParameter code)) (startOperation s)) :
    EndedAtOnce s (runOperation fam body s) (1 ||| (paramCodeNumber code).setWidth 32 <<< 8) := by
  rw [← resWord_invalidParameter s.cfg code 0]
  exact endedAtOnce_of_refused hw rfl h

/-- The sequence gate refuses outside Idle and Configured (42_capture_fsm.md R201). -/
theorem withSubrecord_gated {n : Nat} {rest : List Byte → M Result} {s : State} (hi : s.dcc.capState ≠ .idle)
    (hc : s.dcc.capState ≠ .configured) (hw : HostWaits s) :
    EndedAtOnce s (runOperation true (withSubrecord n rest) s) 7 := by
  have hg : ¬ gateOpen .set s.dcc.capState = true := by
    rw [gateOpen_set_iff]
    exact not_or.2 ⟨hi, hc⟩
  exact endedAtOnce_of_refused (c := .seqRefused) hw rfl ((run_gate_bind _ _ _).trans (if_neg hg))

theorem withSubrecord_short {n : Nat} {rest : List Byte → M Result} {s : State}
    (hs : s.dcc.capState = .idle ∨ s.dcc.capState = .configured) (hn : s.regs.oplen.toNat < n) (hw : HostWaits s) :
    EndedAtOnce s (runOperation true (withSubrecord n rest) s) 2 := by
  refine endedAtOnce_of_refused (c := .nullInput) hw rfl ?_
  unfold withSubrecord
  rw [run_gate_bind, startOperation_capState, if_pos ((gateOpen_set_iff _).2 hs), run_needRecord_bind,
    startOperation_flight_oplen, if_neg (by omega)]

/-- Admitted and with a whole operand, the operation goes on with the bytes of `OPB` at the `CMD` write. -/
theorem run_withSubrecord {n : Nat} {rest : List Byte → M Result} {s : State}
    (hs : s.dcc.capState = .idle ∨ s.dcc.capState = .configured) (hn : n ≤ s.regs.oplen.toNat) (hm : n ≤ 65536) :
    (withSubrecord n rest).run (startOperation s) = (rest (s.regs.opb.readBytes 0 n)).run (startOperation s) := by
  unfold withSubrecord
  rw [run_gate_bind, startOperation_capState, if_pos ((gateOpen_set_iff _).2 hs), run_needRecord_bind,
    startOperation_flight_oplen, if_pos hn, snapBytes_start s (by omega) (by omega)]

/-! ## How a sub-record write is served -/

/-- A turn of the other agents does not look at the bytes of `CAPOBJ`, nor does it change them. -/
theorem SameElsewhere.envTurn_capObj {s t : State} {m : Memory} (h : SameElsewhere s t)
    (hc : t.chip = { s.chip with capObj := m }) :
    (Machine.envTurn t).chip = { (Machine.envTurn s).chip with capObj := m } := by
  have b := Between.envTurn s
  rw [h.envTurn.1, hc]
  simp only [← b.srcctl, ← b.dir, ← b.dbgTrig, ← b.chsel, ← b.streamId, ← b.streamTrig, ← b.modelObj, ← b.mmodelObj,
    ← b.swapEnObj]

/-- The end state of an operation that has stored `bytes` at offset `off` of `CAPOBJ`, up to offset `last`, in one
transaction, and has changed nothing else. -/
def CapObjWritten (s t : State) (off last : Nat) (bytes : List Byte) : Prop :=
  EndedOk s t 0 [] ∧ DccSame s t ∧ t.chip = { (envTurns 2 s).chip with capObj := t.chip.capObj } ∧
    (∀ a, t.chip.capObj.read a = if off ≤ a ∧ a < last then byteAt bytes (a - off) else s.chip.capObj.read a) ∧
    Sent s t [.cfgWrite s.cfg.objCapture off bytes]

/-- An operation that comes to one served write of `CAPOBJ` and nothing more. -/
theorem capObjWritten_of_run {body : M Result} {s : State} {off last : Nat} {bytes : List Byte}
    (hrun : body.run (startOperation s) =
      (mboxCfgWrite .capture off bytes >>= fun _ => pure {} : M Result).run (startOperation s))
    (hlast : off + bytes.length = last) (hw : HostWaits s) (ha : Served (nextTick s.env)) (hm : s.MemoryForm) :
    CapObjWritten s (runOperation true body s) off last bytes := by
  have hserved := hrun.trans (run_bind_ok (mboxCfgWrite_served (hostWaits_start hw) ha))
  have hin := (Inside.start s).txn (.cfgWrite s.cfg.objCapture off bytes)
    fun ch => setObj ch .capture ((getObj ch .capture).writeBytes off bytes)
  have hout := (runOperation_ok (fam := true) hserved).trans (hin.leave hw _)
  have hsame := (SameElsewhere.mk rfl rfl rfl : SameElsewhere s (startOperation s)).turn
  have hchip := SameElsewhere.envTurn_capObj (m := s.chip.capObj.writeBytes off bytes)
    (hsame.trans (u := logTxn (.cfgWrite s.cfg.objCapture off bytes) true (updateChip
      (fun ch => setObj ch .capture ((getObj ch .capture).writeBytes off bytes)) (envTurn (startOperation s))))
      ⟨by simp, by simp [setObj], by simp [logTxn]⟩)
    (by simp [setObj, getObj, (Between.envTurn s).capObj])
  obtain ⟨_, ⟨hwf, _⟩, _⟩ := hm
  rw [hout]
  refine ⟨hin.turn.endedOk {}, dccSame_returnOk ?_, ?_, fun a => ?_, hin.turn.sent {}⟩
  · rw [envTurn_dcc, logTxn_dcc, updateChip_dcc, envTurn_dcc]
    rfl
  · rw [returnOk_chip, hchip]
    rfl
  · rw [returnOk_chip, hchip, Memory.read_writeBytes hwf, hlast]

/-- A legal sub-record, in range where `CTRL.RANGE_CHECK` asks for it, is written in its serialized form. -/
theorem capObjWritten_subrecord {n off last : Nat} {s : State} {a : α}
    (hs : s.dcc.capState = .idle ∨ s.dcc.capState = .configured) (hn : n ≤ s.regs.oplen.toNat) (hm : n ≤ 65536)
    (hh : host (s.regs.opb.readBytes 0 n) = .ok a) (hr : s.regs.ctrl.getLsbD 0 = true → range a = .ok ())
    (hlast : off + (ser s.cfg a).length = last) (hw : HostWaits s) (ha : Served (nextTick s.env)) (hf : s.MemoryForm) :
    CapObjWritten s (runOperation true (withSubrecord n (writeSubrecord host range off ser)) s) off last (ser s.cfg a) :=
  capObjWritten_of_run ((run_withSubrecord hs hn hm).trans (run_writeSubrecord_legal hh hr)) hlast hw ha hf

/-- An illegal field, or one out of range where `CTRL.RANGE_CHECK` is set. -/
theorem withSubrecord_invalid {n off : Nat} {s : State} {code : ParamCode}
    (hs : s.dcc.capState = .idle ∨ s.dcc.capState = .configured) (hn : n ≤ s.regs.oplen.toNat) (hm : n ≤ 65536)
    (h : host (s.regs.opb.readBytes 0 n) = .error code ∨
      ∃ a, host (s.regs.opb.readBytes 0 n) = .ok a ∧ range a = .error code ∧ s.regs.ctrl.getLsbD 0 = true)
    (hw : HostWaits s) :
    EndedAtOnce s (runOperation true (withSubrecord n (writeSubrecord host range off ser)) s)
      (1 ||| (paramCodeNumber code).setWidth 32 <<< 8) := by
  refine endedAtOnce_invalidParameter hw ((run_withSubrecord hs hn hm).trans ?_)
  obtain hh | ⟨a, hh, hr, hc⟩ := h
  · exact run_writeSubrecord_illegal hh _
  · exact run_writeSubrecord_outOfRange hh hr hc

end Subrecord

/-! ## `CAPCTRL.SET` (41_capture_config.md R183) -/

/-- Settles O36: the operation is the common sequence, refused at each of its checks or served. -/
theorem capctrlSetWrites : Obligations.CapctrlSetWrites := by
  refine ⟨fun s hi hc hw => ⟨_, rfl, ?_⟩, fun s hs hw => ⟨fun hn => ⟨_, rfl, ?_⟩, fun code hn hbad => ⟨_, rfl, ?_⟩,
    fun c hn hok hr ha hm => ⟨_, rfl, ?_⟩⟩⟩
  all_goals rw [capctrlSet_eq]
  · exact withSubrecord_gated hi hc hw
  · exact withSubrecord_short hs hn hw
  · refine withSubrecord_invalid hs hn (by omega) (hbad.imp_right ?_) hw
    rintro ⟨⟨c, hok, hout⟩, hctrl, rfl⟩
    exact ⟨c, hok, rangeCtrl_error hout, hctrl⟩
  · exact capObjWritten_subrecord hs hn (by omega) hok (fun h => rangeCtrl_ok (hr h)) rfl hw ha hm

/-! ## `CAPLVL.SET` (41_capture_config.md R185) -/

theorem caplvlSet_badBandDir {s : State} (hs : s.dcc.capState = .idle ∨ s.dcc.capState = .configured)
    (hn : 4 ≤ s.regs.oplen.toNat) (hdir : 2 < (s.regs.opb.read 2).toNat) (hw : HostWaits s) :
    EndedAtOnce s (runOperation true caplvlSet s) 0x701 := by
  rw [← byteAt_operand _ (show 2 < 4 by omega)] at hdir
  rw [caplvlSet_eq]
  exact withSubrecord_invalid (code := .bandDir) hs hn (by omega) (.inl (hostLevel_badBandDir hdir)) hw

theorem caplvlSet_badBandSel {s : State} (hs : s.dcc.capState = .idle ∨ s.dcc.capState = .configured)
    (hn : 4 ≤ s.regs.oplen.toNat) (hdir : (s.regs.opb.read 2).toNat ≤ 2) (hsel : 3 < (s.regs.opb.read 3).toNat)
    (hctrl : s.regs.ctrl.getLsbD 0 = true) (hw : HostWaits s) :
    EndedAtOnce s (runOperation true caplvlSet s) 0x601 := by
  rw [← byteAt_operand _ (show 2 < 4 by omega)] at hdir
  rw [← byteAt_operand _ (show 3 < 4 by omega)] at hsel
  obtain ⟨v, hok, hv⟩ := hostLevel_goodBandDir hdir
  rw [caplvlSet_eq]
  exact withSubrecord_invalid (code := .bandSel) hs hn (by omega) (.inr ⟨v, hok, rangeLevel_error (hv ▸ hsel), hctrl⟩) hw

/-! ## `PWRTH.SET` (41_capture_config.md R187) -/

theorem band_ne_three {sel : BitVec 2} (h : sel.toNat ≤ 2) : sel ≠ 3 := by
  rintro rfl
  exact absurd h (by decide)

/-- Band 3 is refused before the record is examined. -/
theorem pwrthSet_band3 {s : State} (hs : s.dcc.capState = .idle ∨ s.dcc.capState = .configured)
    (hn : 8 ≤ s.regs.oplen.toNat) (hw : HostWaits s) :
    EndedAtOnce s (runOperation true (pwrthSet 3) s) 0xC01 := by
  refine endedAtOnce_invalidParameter (code := .band) hw ?_
  rw [pwrthSet_eq, run_withSubrecord hs hn (by omega), run_checkParam_bind, if_neg (by simp)]

theorem pwrthSet_badPwRes {s : State} {sel : BitVec 2} (hs : s.dcc.capState = .idle ∨ s.dcc.capState = .configured)
    (hn : 8 ≤ s.regs.oplen.toNat) (hsel : sel ≠ 3) (hres : 3 < (s.regs.opb.read 2).toNat) (hw : HostWaits s) :
    EndedAtOnce s (runOperation true (pwrthSet sel) s) 0x801 := by
  rw [← byteAt_operand _ (show 2 < 8 by omega)] at hres
  rw [pwrthSet_band hsel]
  exact withSubrecord_invalid (code := .pwRes) hs hn (by omega) (.inl (hostThresh_badPwRes hres)) hw

theorem length_serThresh (cfg : Config) (r : PwrThresh) : (serThresh cfg r).length = 8 := rfl

/-- Settles O37: both operations are the common sequence, `PWRTH.SET` behind its check of the band. -/
theorem levelThresholdSets : Obligations.LevelThresholdSets := by
  refine ⟨fun s sel hi hc hw i hmem => ?_, fun s hs hw => ?_, fun s sel hs hw => ?_⟩
  · obtain rfl | rfl : i = .caplvlSet ∨ i = .pwrthSet sel := by simpa using hmem
    · exact ⟨_, rfl, withSubrecord_gated hi hc hw⟩
    · exact ⟨_, rfl, withSubrecord_gated hi hc hw⟩
  · refine ⟨fun hn => ⟨_, rfl, withSubrecord_short hs hn hw⟩, fun hn hdir => ⟨_, rfl, caplvlSet_badBandDir hs hn hdir hw⟩,
      fun hn hdir hsel hctrl => ⟨_, rfl, caplvlSet_badBandSel hs hn hdir hsel hctrl hw⟩,
      fun v hn hok hr ha hm => ⟨_, rfl, ?_⟩⟩
    rw [caplvlSet_eq]
    exact capObjWritten_subrecord hs hn (by omega) hok (fun h => rangeLevel_ok (hr h)) rfl hw ha hm
  · refine ⟨fun hn => ⟨_, rfl, withSubrecord_short hs hn hw⟩, fun hn hband => ⟨_, rfl, hband ▸ pwrthSet_band3 hs hn hw⟩,
      fun hn hband hres => ⟨_, rfl, pwrthSet_badPwRes hs hn (band_ne_three hband) hres hw⟩,
      fun r hn hband hok hctrl hout => ⟨_, rfl, ?_⟩, fun r hn hband hok hr ha hm => ⟨_, rfl, ?_⟩⟩
    · rw [pwrthSet_band (band_ne_three hband)]
      exact withSubrecord_invalid (code := .pulseWidth) hs hn (by omega) (.inr ⟨r, hok, rangeThresh_error hout, hctrl⟩) hw
    · have hlast : 4 + 8 * sel.toNat + (serThresh s.cfg r).length = 12 + 8 * sel.toNat := by
        rw [length_serThresh]
        omega
      rw [pwrthSet_band (band_ne_three hband)]
      exact capObjWritten_subrecord hs hn (by omega) hok (fun h => rangeThresh_ok (hr h)) hlast hw ha hm

/-! ## The capture-type decode (41_capture_config.md R178) -/

/-- Settles O41: each clause is one path through the tests of `parseType`. -/
theorem parseTypeOrder : Obligations.ParseTypeOrder := by
  intro b49 b40
  unfold parseType
  refine ⟨fun h6 => if_pos h6, fun h6 h40 => ?_, fun h6 h40 h3 => ?_, fun h6 h40 h3 h0 => ?_, fun h6 h40 h3 h0 => ?_⟩
  · simp only [h6, h40, Bool.false_eq_true, if_true, if_false]
  · simp only [h6, h40, h3, Bool.false_eq_true, Bool.not_false, if_true, if_false]
  · simp only [h6, h40, h3, h0, Bool.false_eq_true, Bool.not_true, if_true, if_false]
  · simp only [h6, h40, h3, h0, Bool.false_eq_true, Bool.not_true, if_false]

end Sys2Proof.Machine
end

section
/-! PROOF. `CAP.STATUS` and `CAP.RDDONE` (42_capture_fsm.md R206, R207): refused, served with one mailbox transaction, and
failed, for every move of the other agents at the boundaries of the operation. -/

namespace Sys2Proof.Machine

/-! ## Little-endian bytes (00_scope.md R11) -/

/-- `put16` stores the two bytes `le16` read. -/
theorem put16_le16 (bs : List Byte) (i : Nat) : put16 (le16 bs i) = [byteAt bs i, byteAt bs (i + 1)] := by
  have h0 : (le16 bs i).extractLsb' 0 8 = byteAt bs i := BitVec.extractLsb'_append_eq_right
  have h1 : (le16 bs i).extractLsb' 8 8 = byteAt bs (i + 1) := BitVec.extractLsb'_append_eq_left
  rw [put16, h0, h1]

/-- `put32` stores the four bytes `le32` read. -/
theorem put32_le32 (bs : List Byte) (i : Nat) :
    put32 (le32 bs i) = [byteAt bs i, byteAt bs (i + 1), byteAt bs (i + 2), byteAt bs (i + 3)] := by
  have h0 : (le32 bs i).extractLsb' 0 8 = byteAt bs i :=
    (BitVec.extractLsb'_append_eq_of_add_le (by omega)).trans
      ((BitVec.extractLsb'_append_eq_of_add_le (by omega)).trans BitVec.extractLsb'_append_eq_right)
  have h1 : (le32 bs i).extractLsb' 8 8 = byteAt bs (i + 1) :=
    (BitVec.extractLsb'_append_eq_of_add_le (by omega)).trans
      ((BitVec.extractLsb'_append_eq_of_add_le (by omega)).trans BitVec.extractLsb'_append_eq_left)
  have h2 : (le32 bs i).extractLsb' 16 8 = byteAt bs (i + 2) :=
    (BitVec.extractLsb'_append_eq_of_add_le (by omega)).trans BitVec.extractLsb'_append_eq_left
  have h3 : (le32 bs i).extractLsb' 24 8 = byteAt bs (i + 3) := BitVec.extractLsb'_append_eq_left
  rw [put32, h0, h1, h2, h3]

/-- The ten result bytes, as the record's bytes at their offsets (42_capture_fsm.md R206 step 3; 30_encoding.md R123). -/
theorem statusHost_eq (r : List Byte) :
    statusHost r = [0, 1, 2, 3, 20, 21, 22].map (byteAt r) ++ [0] ++ [24, 25].map (byteAt r) := by
  unfold statusHost
  rw [put32_le32, put16_le16]
  rfl

/-! ## Channel masks (00_scope.md R12) -/

theorem chanIdx_oneHot {ch : ChMask} {i : Chan} (h : ch.toNat = 2 ^ i.val) : chanIdx ch = some i := by
  have hch : ch = BitVec.ofNat 4 (2 ^ i.val) := by rw [← h, BitVec.ofNat_toNat, BitVec.setWidth_eq]
  subst hch
  clear h
  revert i
  decide

theorem chanIdx_none {ch : ChMask} (h : ch ∉ [1, 2, 4, 8]) : chanIdx ch = none := by
  simp only [List.mem_cons, List.not_mem_nil, or_false, not_or] at h
  obtain ⟨h1, h2, h4, h8⟩ := h
  unfold chanIdx
  rw [if_neg h1, if_neg h2, if_neg h4, if_neg h8]

theorem run_needChannel_oneHot {α : Type} {ch : ChMask} {i : Chan} (h : ch.toNat = 2 ^ i.val) (f : Chan → M α)
    (s : State) : (needChannel ch >>= f).run s = (f i).run s := by
  rw [run_needChannel_bind, chanIdx_oneHot h]

theorem run_needChannel_refused {α : Type} {ch : ChMask} (h : ch ∉ [1, 2, 4, 8]) (f : Chan → M α) (s : State) :
    (needChannel ch >>= f).run s = .error (.raised (.invalidParameter .channel)) s := by
  rw [run_needChannel_bind, chanIdx_none h]

/-! ## The sequence gate (42_capture_fsm.md R201) -/

theorem gateOpen_get_iff (c : CapState) : gateOpen .get c = true ↔ c ≠ .error := by
  cases c <;> decide

theorem gateOpen_readDone_iff (c : CapState) : gateOpen .readDone c = true ↔ c = .done := by
  cases c <;> decide

/-- An operation its gate refuses. -/
theorem endedAtOnce_of_gated {row : GateRow} {rest : Unit → M Result} {s : State}
    (hg : ¬ gateOpen row s.dcc.capState = true) (hw : HostWaits s) :
    EndedAtOnce s (runOperation true (gate row >>= rest) s) 7 :=
  endedAtOnce_of_refused (c := .seqRefused) hw rfl ((run_gate_bind _ _ _).trans (if_neg hg))

theorem run_gate_open {row : GateRow} {rest : Unit → M Result} {s : State} (hg : gateOpen row s.dcc.capState = true) :
    (gate row >>= rest).run (startOperation s) = (rest ()).run (startOperation s) :=
  (run_gate_bind _ _ _).trans (if_pos hg)

/-! ## Turns of the other agents while DCC changes nothing of the chip -/

/-- `u` is a state inside the operation that started in `s`, after `n` boundaries: the other agents had their turns there, and
DCC has changed nothing of the chip. -/
structure ChipUntouched (n : Nat) (s u : State) : Prop where
  cfg : u.cfg = s.cfg
  chip : u.chip = (envTurns n s).chip
  env : u.env = { (envTurns n s).env with bus := u.env.bus }

theorem ChipUntouched.start (s : State) : ChipUntouched 0 s (startOperation s) := ⟨rfl, rfl, rfl⟩

theorem envTurns_cfg (n : Nat) (s : State) : (envTurns n s).cfg = s.cfg := by
  induction n with
  | zero => rfl
  | succ n ih => rw [envTurns_succ, envTurn_cfg, ih]

theorem ChipUntouched.elsewhere {n : Nat} {s u : State} (h : ChipUntouched n s u) : SameElsewhere (envTurns n s) u :=
  ⟨h.cfg.trans (envTurns_cfg n s).symm, by rw [h.chip], h.env⟩

/-- One more boundary: what the other agents do there depends on the chip and on their own state alone. -/
theorem ChipUntouched.turn {n : Nat} {s u : State} (h : ChipUntouched n s u) : ChipUntouched (n + 1) s (envTurn u) where
  cfg := (envTurn_cfg u).trans h.cfg
  chip := by
    have hc := h.elsewhere.envTurn_capObj (m := (envTurns n s).chip.capObj) h.chip
    rw [← (Between.envTurn (envTurns n s)).capObj] at hc
    rw [envTurns_succ]
    exact hc
  env := by
    rw [envTurns_succ]
    exact h.elsewhere.turn.env

/-- A transaction that changes nothing. -/
theorem ChipUntouched.log {n : Nat} {s u : State} (h : ChipUntouched n s u) (t : Txn) (ok : Bool) :
    ChipUntouched n s (logTxn t ok u) where
  cfg := (logTxn_cfg t ok u).trans h.cfg
  chip := (logTxn_chip t ok u).trans h.chip
  env := by
    have hl : (logTxn t ok u).env = { u.env with bus := ⟨t, ok⟩ :: u.env.bus } := by cases ok <;> rfl
    rw [hl, h.env]

theorem ChipUntouched.updateDcc {n : Nat} {s u : State} (h : ChipUntouched n s u) (f : DccRegs → DccRegs) :
    ChipUntouched n s (updateDcc f u) := ⟨h.cfg, h.chip, h.env⟩

/-! ## A failed mailbox transaction of a capture operation (42_capture_fsm.md R202) -/

/-- The end state of a capture operation whose first and only transaction, a mailbox transaction, has failed and changed
nothing. -/
def CaptureFailed (s t : State) : Prop :=
  EndedFailed s t (nextTick s.env).answer ∧ t.dcc = { s.dcc with capState := .error, flight := t.dcc.flight } ∧
    t.chip = (envTurns 2 s).chip

theorem dcc_takeResult_failure {c : ResultClass} (hc : isTransportFailure c = true) (u : State) :
    (takeResult true c u).dcc = { u.dcc with capState := .error, flight := (takeResult true c u).dcc.flight } := by
  unfold takeResult
  rw [hc]
  rfl

/-- An operation that comes to one mailbox transaction, which fails and leaves nothing torn. -/
theorem captureFailed_of_run {body : M Result} {s : State} {t : Txn} {c : ResultClass} (hw : HostWaits s)
    (ha : answerFailure true (nextTick s.env).answer = some c)
    (hrun : body.run (startOperation s) = .error (.raised c) (logTxn t false (envTurn (startOperation s)))) :
    CaptureFailed s (runOperation true body s) := by
  obtain ⟨hout, hend⟩ := (Inside.start s).turn.failed (fam := true) (f := id) hw hrun
  rw [resWord_failure ha] at hend
  refine ⟨hend, ?_, ?_⟩
  · rw [hout, dcc_takeResult_failure (answerFailure_class ha), envTurn_dcc, logTxn_dcc, updateChip_dcc, envTurn_dcc]
    rfl
  · rw [hout, takeResult_chip]
    exact ((ChipUntouched.start s).turn.log t false).turn.chip

theorem mboxGet_failed {α : Type} {m : MboxCmd} {sel : List Byte} {n : Nat} {get : State → α} {s : State}
    {c : ResultClass} (h : HostWaits s) (ha : answerFailure true (nextTick s.env).answer = some c) :
    (mboxGet m sel n get).run s = .error (.raised c) (logTxn (.mboxGet (cmdId s.cfg m) sel n) false (envTurn s)) := by
  unfold mboxGet readTxn
  rw [run_ask_bind]
  exact transact_failed h ha

theorem mboxSet_failed {m : MboxCmd} {payload : List Byte} {put : State → State} {torn : Nat → State → State} {s : State}
    {c : ResultClass} (h : HostWaits s) (ha : answerFailure true (nextTick s.env).answer = some c) :
    (mboxSet m payload put torn).run s = .error (.raised c)
      (logTxn (.mboxSet (cmdId s.cfg m) payload) false (torn (envTurn s).env.draws (envTurn s))) := by
  unfold mboxSet writeTxn
  rw [run_ask_bind]
  exact transact_failed h ha

/-! ## `CAP.STATUS` (42_capture_fsm.md R206) -/

theorem capStatus_badChannel {ch : ChMask} {s : State} (hg : s.dcc.capState ≠ .error) (hc : ch ∉ [1, 2, 4, 8])
    (hw : HostWaits s) : EndedAtOnce s (runOperation true (capStatus ch) s) 0x201 :=
  endedAtOnce_invalidParameter (code := .channel) hw
    ((run_gate_open ((gateOpen_get_iff _).2 hg)).trans (run_needChannel_refused hc _ _))

/-- The selector of the detailed status of channel `i`. -/
def statusSelector (cfg : Config) (i : Chan) : List Byte := [cfg.calStatusId, cfg.dpdInitId, BitVec.ofNat 8 i.val]

/-- Admitted and with a legal channel, the operation is one `MboxGet`. -/
theorem run_capStatus {ch : ChMask} {i : Chan} {s : State} (hi : ch.toNat = 2 ^ i.val) (hg : s.dcc.capState ≠ .error) :
    (capStatus ch).run (startOperation s) =
      (mboxGet .detailedStatus (statusSelector s.cfg i) 26 (fun u => (u.chip.dstatus.get i).toList) >>=
        fun r => pure { data := statusHost r } : M Result).run (startOperation s) :=
  (run_gate_open ((gateOpen_get_iff _).2 hg)).trans (run_needChannel_oneHot hi _ _)

/-- Served: two boundaries, one `MboxGet`, the record's ten bytes returned. -/
theorem capStatus_served {ch : ChMask} {i : Chan} {s : State} (hi : ch.toNat = 2 ^ i.val) (hg : s.dcc.capState ≠ .error)
    (hw : HostWaits s) (ha : Served (nextTick s.env)) :
    ∃ u, runOperation true (capStatus ch) s =
        returnOk { data := statusHost ((envTurn s).chip.dstatus.get i).toList } u ∧
      Inside s u [.mboxGet s.cfg.cmdDetailedStatus (statusSelector s.cfg i) 26] ∧ ChipUntouched 2 s u ∧
      u.dcc = { s.dcc with flight := u.dcc.flight } := by
  have hrun := (run_capStatus hi hg).trans (run_bind_ok (mboxGet_served (hostWaits_start hw) ha))
  have hin := (Inside.start s).read (.mboxGet s.cfg.cmdDetailedStatus (statusSelector s.cfg i) 26)
  rw [envTurn_startOperation_chip] at hrun
  refine ⟨_, (runOperation_ok hrun).trans (hin.leave hw _), hin.turn, ((ChipUntouched.start s).turn.log _ true).turn, ?_⟩
  rw [envTurn_dcc, logTxn_dcc, envTurn_dcc]
  rfl

theorem capStatus_failed {ch : ChMask} {i : Chan} {s : State} (hi : ch.toNat = 2 ^ i.val) (hg : s.dcc.capState ≠ .error)
    (hw : HostWaits s) (ha : ¬ Served (nextTick s.env)) : CaptureFailed s (runOperation true (capStatus ch) s) := by
  obtain ⟨c, hc, _⟩ := answerFailure_of_not_served ha true
  exact captureFailed_of_run hw hc
    ((run_capStatus hi hg).trans (run_bind_error (mboxGet_failed (hostWaits_start hw) hc)))

/-- Settles O46: each clause is the operation's end state, refused, served or failed. -/
theorem capStatusReturns : Obligations.CapStatusReturns := by
  intro s ch
  refine ⟨fun he hw => ⟨_, rfl, ?_⟩, fun hg hc hw => ⟨_, rfl, capStatus_badChannel hg hc hw⟩, fun i hi hg hw =>
    ⟨fun ha => ⟨_, rfl, ?_⟩, fun ha => ⟨_, rfl, capStatus_failed hi hg hw ha⟩⟩⟩
  · exact endedAtOnce_of_gated (by rw [gateOpen_get_iff, not_not]; exact he) hw
  · obtain ⟨u, hout, hin, hchip, hdcc⟩ := capStatus_served hi hg hw ha
    rw [hout]
    refine ⟨dccSame_returnOk hdcc, hchip.chip, hin.sent _, ?_⟩
    have hok := hin.endedOk { data := statusHost ((envTurn s).chip.dstatus.get i).toList }
    rwa [statusHost_eq] at hok ⊢

/-! ## `CAP.RDDONE` (42_capture_fsm.md R207) -/

/-- In Done the operation is one `MboxSet` and the move to Idle. -/
theorem run_capRddone {s : State} (hg : s.dcc.capState = .done) :
    capRddone.run (startOperation s) =
      (mboxSet .captureReadDone [] id (fun _ u => u) >>= fun _ => setCapState .idle >>= fun _ => pure {} : M Result).run
        (startOperation s) := run_gate_open ((gateOpen_readDone_iff _).2 hg)

/-- Served: three boundaries, one `MboxSet`, and Idle. -/
theorem capRddone_served {s : State} (hg : s.dcc.capState = .done) (hw : HostWaits s) (ha : Served (nextTick s.env)) :
    ∃ u, runOperation true capRddone s = returnOk {} u ∧ Inside s u [.mboxSet s.cfg.cmdCaptureReadDone []] ∧
      ChipUntouched 3 s u ∧ u.dcc = { s.dcc with capState := .idle, flight := u.dcc.flight } := by
  have hin := (Inside.start s).read (.mboxSet s.cfg.cmdCaptureReadDone [])
  have hsent := (run_capRddone hg).trans (run_bind_ok (mboxSet_served (hostWaits_start hw) ha))
  have hrun := hsent.trans (run_bind_ok (setCapState_of_waits (hin.waits hw)))
  have hidle := hin.turn.updateDcc (f := fun d => { d with capState := .idle }) rfl
  refine ⟨_, (runOperation_ok hrun).trans (hidle.leave hw _), hidle.turn,
    (((ChipUntouched.start s).turn.log _ true).turn.updateDcc _).turn, ?_⟩
  rw [envTurn_dcc, updateDcc_dcc, envTurn_dcc, logTxn_dcc, envTurn_dcc]
  rfl

theorem capRddone_failed {s : State} (hg : s.dcc.capState = .done) (hw : HostWaits s)
    (ha : ¬ Served (nextTick s.env)) : CaptureFailed s (runOperation true capRddone s) := by
  obtain ⟨c, hc, _⟩ := answerFailure_of_not_served ha true
  exact captureFailed_of_run hw hc ((run_capRddone hg).trans (run_bind_error (mboxSet_failed (hostWaits_start hw) hc)))

/-- Settles O47: each clause is the operation's end state, refused, served or failed. -/
theorem capRddoneCloses : Obligations.CapRddoneCloses := by
  refine ⟨fun s hn hw => ⟨_, rfl, ?_⟩, fun s hg hw =>
    ⟨fun ha => ⟨_, rfl, ?_⟩, fun ha => ⟨_, rfl, capRddone_failed hg hw ha⟩⟩⟩
  · exact endedAtOnce_of_gated (by rw [gateOpen_readDone_iff]; exact hn) hw
  · obtain ⟨u, hout, hin, hchip, hdcc⟩ := capRddone_served hg hw ha
    rw [hout]
    exact ⟨hin.endedOk {}, dcc_returnOk (d := { s.dcc with capState := .idle }) hdcc, hchip.chip, hin.sent {}⟩

end Sys2Proof.Machine
end

section
/-! PROOF. `MODEL.GET`, `MMODEL.GET` and `LUT.ADDR` (43_lut_manager.md R232, R234, R235): refused operands, the read of one
model record and the pure address resolution, for every move of the other agents at the boundaries of the operation. -/

namespace Sys2Proof.Machine

/-! ## Channel masks (43_lut_manager.md R230) -/

/-- A legal mask in the other form of the statements. -/
theorem oneHot_of_mem {ch : ChMask} (h : ch ∈ [1, 2, 4, 8]) : ∃ i : Chan, ch.toNat = 2 ^ i.val := by
  simp only [List.mem_cons, List.not_mem_nil, or_false] at h
  obtain rfl | rfl | rfl | rfl := h
  · exact ⟨0, rfl⟩
  · exact ⟨1, rfl⟩
  · exact ⟨2, rfl⟩
  · exact ⟨3, rfl⟩

/-- An operation whose first check is that of its channel mask. -/
theorem endedAtOnce_of_badChannel {fam : Bool} {ch : ChMask} {rest : Chan → M Result} {s : State}
    (hc : ch ∉ [1, 2, 4, 8]) (hw : HostWaits s) : EndedAtOnce s (runOperation fam (needChannel ch >>= rest) s) 0x201 :=
  endedAtOnce_invalidParameter (code := .channel) hw (run_needChannel_refused hc _ _)

/-! ## Operations that return a result and change nothing -/

/-- An operation whose sequence runs on to `u`, changing nothing of the chip or of the state local to DCC. -/
theorem endedOk_of_untouched {fam : Bool} {body : M Result} {s u : State} {r : Result} {n : Nat} {l : List Txn}
    (hrun : body.run (startOperation s) = .ok r u) (hw : HostWaits s) (hin : Inside s u l) (hchip : ChipUntouched n s u)
    (hdcc : u.dcc = { s.dcc with flight := u.dcc.flight }) :
    DccSame s (runOperation fam body s) ∧ (runOperation fam body s).chip = (envTurns (n + 1) s).chip ∧
      EndedOk s (runOperation fam body s) r.info r.data ∧ Sent s (runOperation fam body s) l := by
  rw [runOperation_ok hrun, hin.leave hw]
  refine ⟨dccSame_returnOk ?_, hchip.turn.chip, hin.turn.endedOk r, hin.turn.sent r⟩
  rw [envTurn_dcc, hdcc]

/-! ## Model records (43_lut_manager.md R232, R234) -/

/-- No agent but DCC writes a mailbox object (70_reset_and_hazards.md R340). -/
theorem envTurn_getObj (s : State) (o : MboxObj) : getObj (envTurn s).chip o = getObj s.chip o := by
  have b := Between.envTurn s
  cases o with
  | capture => exact b.capObj
  | model => exact b.modelObj
  | multimodel => exact b.mmodelObj
  | swapModeEn => exact b.swapEnObj

theorem Memory.tail_readBytes (m : Memory) (a n : Nat) :
    (Memory.readBytes m a (n + 1)).tail = (List.range n).map fun k => Memory.read m (a + 1 + k) := by
  simp [Memory.readBytes, List.range_succ_eq_map, Nat.add_assoc, Nat.add_comm 1]

/-- The read of the record at `off` of the object `o`, returned without its channel tag. -/
def getRecord (o : MboxObj) (off : Nat) : M Result := do
  let r ← mboxCfgRead o off 48
  pure { data := r.tail }

/-- The end state of an operation that comes to `getRecord`, served. -/
def RecordReturned (s t : State) (o : MboxObj) (off : Nat) : Prop :=
  DccSame s t ∧ t.chip = (envTurns 2 s).chip ∧
    EndedOk s t 0 ((List.range 47).map fun k => (getObj s.chip o).read (off + 1 + k)) ∧
    Sent s t [.cfgRead (objId s.cfg o) off 48]

theorem getRecord_served {o : MboxObj} {off : Nat} {s : State} (hw : HostWaits s) (ha : Served (nextTick s.env)) :
    (getRecord o off).run s =
      .ok { data := (List.range 47).map fun k => (getObj s.chip o).read (off + 1 + k) }
        (logTxn (.cfgRead (objId s.cfg o) off 48) true (envTurn s)) := by
  rw [getRecord, run_bind_ok (mboxCfgRead_served hw ha), run_pure, envTurn_getObj, Memory.tail_readBytes]

theorem recordReturned_of_run {fam : Bool} {body : M Result} {o : MboxObj} {off : Nat} {s : State}
    (hrun : body.run (startOperation s) = (getRecord o off).run (startOperation s)) (hw : HostWaits s)
    (ha : Served (nextTick s.env)) : RecordReturned s (runOperation fam body s) o off := by
  have hin := (Inside.start s).read (.cfgRead (objId s.cfg o) off 48)
  have hchip := (ChipUntouched.start s).turn.log (.cfgRead (objId s.cfg o) off 48) true
  have hdcc := logTxn_dcc (.cfgRead (objId s.cfg o) off 48) true (envTurn (startOperation s))
  rw [envTurn_dcc] at hdcc
  have hserved := hrun.trans (getRecord_served (hostWaits_start hw) ha)
  exact (endedOk_of_untouched (fam := fam) hserved hw hin hchip hdcc :)

/-! ## `MODEL.GET` (43_lut_manager.md R232) -/

theorem modelGet_served {ch : ChMask} {i : Chan} {s : State} (hi : ch.toNat = 2 ^ i.val) (hw : HostWaits s)
    (ha : Served (nextTick s.env)) : RecordReturned s (runOperation false (modelGet ch) s) .model (48 * i.val) :=
  recordReturned_of_run (run_needChannel_oneHot hi _ _) hw ha

/-! ## `MMODEL.GET` (43_lut_manager.md R234) -/

theorem mmodelOffset_sel (i : Chan) {sel : BitVec 2} (h : sel.toNat ≤ 1) :
    mmodelOffset i (sel == 1) = 96 * i.val + 48 * sel.toNat := by
  obtain rfl | rfl : sel = 0 ∨ sel = 1 := by bv_omega
  · rfl
  · rfl

theorem mmodelGet_badModel {ch : ChMask} {sel : BitVec 2} {s : State} (hc : ch ∈ [1, 2, 4, 8]) (hsel : 1 < sel.toNat)
    (hw : HostWaits s) : EndedAtOnce s (runOperation false (mmodelGet ch sel) s) 0xD01 := by
  obtain ⟨i, hi⟩ := oneHot_of_mem hc
  refine endedAtOnce_invalidParameter (code := .model) hw ((run_needChannel_oneHot hi _ _).trans ?_)
  rw [run_checkParam_bind, if_neg (by omega)]

theorem mmodelGet_served {ch : ChMask} {sel : BitVec 2} {i : Chan} {s : State} (hi : ch.toNat = 2 ^ i.val)
    (hsel : sel.toNat ≤ 1) (hw : HostWaits s) (ha : Served (nextTick s.env)) :
    RecordReturned s (runOperation false (mmodelGet ch sel) s) .multimodel (96 * i.val + 48 * sel.toNat) := by
  rw [← mmodelOffset_sel i hsel]
  refine recordReturned_of_run ((run_needChannel_oneHot hi _ _).trans ?_) hw ha
  rw [run_checkParam_bind, if_pos hsel]
  rfl

/-- Settles O49: each clause is the end state of one operation, refused or served. -/
theorem modelGetsReturn : Obligations.ModelGetsReturn := by
  refine ⟨fun s ch sel hc hw i hmem => ?_, fun s ch sel hc hsel hw => ⟨_, rfl, mmodelGet_badModel hc hsel hw⟩,
    fun s ch i hi hw ha => ⟨⟨_, rfl, modelGet_served hi hw ha⟩, fun sel hsel =>
      ⟨_, rfl, mmodelGet_served hi hsel hw ha⟩⟩⟩
  obtain rfl | rfl : i = .modelGet ch ∨ i = .mmodelGet ch sel := by simpa using hmem
  · exact ⟨_, rfl, endedAtOnce_of_badChannel hc hw⟩
  · exact ⟨_, rfl, endedAtOnce_of_badChannel hc hw⟩

/-! ## `LUT.ADDR` (43_lut_manager.md R235) -/

/-- The 32-bit word that `LUT.ADDR` returns is the 32-bit sum, whether it wraps or not. -/
theorem ofNat_lutAddress (cfg : Config) (i : Chan) (lut : BitVec 5) (sel : BitVec 2) :
    BitVec.ofNat 32 (lutAddress cfg i lut sel) =
      cfg.lutBase.get i + 4096 * lut.setWidth 32 + 1024 * sel.setWidth 32 := by
  unfold lutAddress
  bv_omega

theorem lutAddr_run {ch : ChMask} {i : Chan} (hi : ch.toNat = 2 ^ i.val) (lut : BitVec 5) (sel : BitVec 2) (s : State) :
    (lutAddr ch lut sel).run s = .ok { data := put32 (BitVec.ofNat 32 (lutAddress s.cfg i lut sel)) } s :=
  run_needChannel_oneHot hi _ s

/-- Settles O50: the operation passes only the boundary before its exit. -/
theorem lutAddrResolves : Obligations.LutAddrResolves := by
  refine ⟨fun s ch lut sel i hi hw => ⟨_, _, rfl, rfl, ?_⟩, fun s ch lut sel hc hw =>
    ⟨_, rfl, endedAtOnce_of_badChannel hc hw⟩⟩
  obtain ⟨hdcc, hchip, hend, hsent⟩ := endedOk_of_untouched (fam := false) (lutAddr_run hi lut sel (startOperation s)) hw
    (Inside.start s) (ChipUntouched.start s) rfl
  refine ⟨?_, hdcc, hchip, hsent⟩
  rw [← ofNat_lutAddress]
  exact hend

end Sys2Proof.Machine
end

section
/-! PROOF. `SWAP.EN` and `SWAP.GETEN` (44_swap_mode.md R261, R262): one mailbox transaction on the chip's swap-mode flag and
the mirror of the flag in the session cache after it, served and failed, and the answer from the cache alone, for every move
of the other agents at the boundaries of the operation. -/

namespace Sys2Proof.Machine

/-! ## Mailbox objects (10_state.md R38) -/

theorem setObj_getObj (ch : Chip) (o : MboxObj) : setObj ch o (getObj ch o) = ch := by cases o <;> rfl

theorem envTurns_getObj (n : Nat) (s : State) (o : MboxObj) : getObj (envTurns n s).chip o = getObj s.chip o := by
  induction n with
  | zero => rfl
  | succ n ih => rw [envTurns_succ, envTurn_getObj, ih]

/-- `u` is a state inside the operation that started in `s`, after `n` boundaries: the other agents had their turns there, and
DCC has left `m` in the mailbox object `o` and changed nothing else of the chip. -/
structure ObjAfter (n : Nat) (o : MboxObj) (m : Memory) (s u : State) : Prop where
  cfg : u.cfg = s.cfg
  chip : u.chip = setObj (envTurns n s).chip o m
  env : u.env = { (envTurns n s).env with bus := u.env.bus }

section ObjAfter

variable {n : Nat} {o : MboxObj} {m : Memory} {s u : State}

theorem ObjAfter.elsewhere (h : ObjAfter n o m s u) : SameElsewhere (envTurns n s) u where
  cfg := h.cfg.trans (envTurns_cfg n s).symm
  chip := by
    rw [h.chip]
    cases o <;> rfl
  env := h.env

/-- One more boundary: what the other agents do there does not depend on the mailbox objects. -/
theorem ObjAfter.turn (h : ObjAfter n o m s u) : ObjAfter (n + 1) o m s (envTurn u) where
  cfg := (envTurn_cfg u).trans h.cfg
  chip := by
    have b := Between.envTurn (envTurns n s)
    rw [envTurns_succ, h.elsewhere.envTurn.1, h.chip]
    cases o <;>
      simp only [setObj, ← b.srcctl, ← b.dir, ← b.dbgTrig, ← b.chsel, ← b.streamId, ← b.streamTrig, ← b.capObj,
        ← b.modelObj, ← b.mmodelObj, ← b.swapEnObj]
  env := by
    rw [envTurns_succ]
    exact h.elsewhere.turn.env

theorem logTxn_updateChip_env (t : Txn) (ok : Bool) (f : Chip → Chip) (s : State) :
    (logTxn t ok (updateChip f s)).env = (logTxn t ok s).env := by cases ok <;> rfl

/-- The effect of a transaction on `o`, complete or torn. -/
theorem ChipUntouched.writeObj (h : ChipUntouched n s u) (t : Txn) (ok : Bool) (o : MboxObj) (x : Memory → Memory) :
    ObjAfter n o (x (getObj s.chip o)) s (logTxn t ok (updateChip (fun ch => setObj ch o (x (getObj ch o))) u)) where
  cfg := by simpa using h.cfg
  chip := by rw [logTxn_chip, updateChip_chip, h.chip, envTurns_getObj]
  env := by
    rw [logTxn_updateChip_env]
    exact (h.log t ok).env

end ObjAfter

/-- A first transaction leaves the state local to DCC as it was. -/
theorem dcc_firstTxn (t : Txn) (ok : Bool) (f : Chip → Chip) (s : State) :
    (logTxn t ok (updateChip f (envTurn (startOperation s)))).dcc =
      { s.dcc with flight := (logTxn t ok (updateChip f (envTurn (startOperation s)))).dcc.flight } := by
  rw [logTxn_dcc, updateChip_dcc, envTurn_dcc]
  rfl

/-! ## Failed mailbox transactions (60_exceptions.md R293) -/

theorem mboxCfgRead_failed {o : MboxObj} {off n : Nat} {s : State} {c : ResultClass} (h : HostWaits s)
    (ha : answerFailure true (nextTick s.env).answer = some c) :
    (mboxCfgRead o off n).run s = .error (.raised c) (logTxn (.cfgRead (objId s.cfg o) off n) false (envTurn s)) := by
  unfold mboxCfgRead readTxn
  rw [run_ask_bind]
  exact transact_failed h ha

/-- The bytes of a run in a mailbox object after the failed write `d` of `bytes` there (20_memory.md R74). -/
def tornRun (d off : Nat) (bytes : List Byte) (m : Memory) : Memory :=
  m.writeBytes off (tornBytes d (m.readBytes off bytes.length) bytes)

theorem mboxCfgWrite_failed {o : MboxObj} {off : Nat} {bytes : List Byte} {s : State} {c : ResultClass} (h : HostWaits s)
    (ha : answerFailure true (nextTick s.env).answer = some c) :
    (mboxCfgWrite o off bytes).run s = .error (.raised c) (logTxn (.cfgWrite (objId s.cfg o) off bytes) false
      (updateChip (fun ch => setObj ch o (tornRun (envTurn s).env.draws off bytes (getObj ch o))) (envTurn s))) := by
  unfold mboxCfgWrite writeTxn
  rw [run_ask_bind]
  exact transact_failed h ha

/-- The end of an operation outside the capture families that a mailbox transaction, the first one, has failed. -/
def FailedAtFirst (s t : State) : Prop := EndedFailed s t (nextTick s.env).answer ∧ DccSame s t

/-- An operation outside the capture families whose first transaction, a mailbox transaction, fails and leaves `x` of its
bytes in the mailbox object `o`. -/
theorem failedAtFirst_of_run {body : M Result} {s : State} {t : Txn} {c : ResultClass} {o : MboxObj} {x : Memory → Memory}
    (hw : HostWaits s) (ha : answerFailure true (nextTick s.env).answer = some c)
    (hrun : body.run (startOperation s) = .error (.raised c)
      (logTxn t false (updateChip (fun ch => setObj ch o (x (getObj ch o))) (envTurn (startOperation s))))) :
    FailedAtFirst s (runOperation false body s) ∧
      (runOperation false body s).chip = setObj (envTurns 2 s).chip o (x (getObj s.chip o)) := by
  obtain ⟨hout, hend⟩ := (Inside.start s).turn.failed (fam := false) hw hrun
  rw [resWord_failure ha] at hend
  refine ⟨⟨hend, ?_⟩, ?_⟩
  · rw [hout]
    refine dccSame_takeResult ?_
    rw [envTurn_dcc]
    exact dcc_firstTxn t false _ s
  · rw [hout, takeResult_chip]
    exact ((ChipUntouched.start s).turn.writeObj t false o x).turn.chip

/-! ## The session cache of the flag (10_state.md R29) -/

theorem envTurn_updateDcc_chip (f : DccRegs → DccRegs) (s : State) : (envTurn (updateDcc f s)).chip = (envTurn s).chip :=
  (ChipUntouched.mk rfl rfl rfl : ChipUntouched 0 s (updateDcc f s)).turn.chip

/-- The end of an operation that has returned `r` after the served transactions `l`, and of whose DCC-local writes only `v` in
the session cache of the flag remains. -/
def Cached (s t : State) (v : BitVec 1) (r : Result) (l : List Txn) : Prop :=
  EndedOk s t r.info r.data ∧ t.dcc = { s.dcc with sessSwapEn := v, flight := t.dcc.flight } ∧ Sent s t l

/-- An operation that runs on to `u`, writes `v` to the session cache and returns. -/
theorem cached_of_setSessSwap {body : M Result} {s u : State} {v : BitVec 1} {r : Result} {l : List Txn}
    (hrun : body.run (startOperation s) = (setSessSwap v >>= fun _ => pure r : M Result).run u) (hw : HostWaits s)
    (hin : Inside s u l) (hdcc : u.dcc = { s.dcc with flight := u.dcc.flight }) :
    Cached s (runOperation false body s) v r l ∧ (runOperation false body s).chip = (envTurns 2 u).chip := by
  have hcache := hin.turn.updateDcc (f := fun d => { d with sessSwapEn := v }) rfl
  have hset := hrun.trans (run_bind_ok (writeLocal_of_waits (hin.waits hw)))
  rw [runOperation_ok hset, hcache.leave hw]
  refine ⟨⟨hcache.turn.endedOk r, dcc_returnOk (d := { s.dcc with sessSwapEn := v }) ?_, hcache.turn.sent r⟩,
    envTurn_updateDcc_chip _ _⟩
  rw [envTurn_dcc, updateDcc_dcc, envTurn_dcc, hdcc]

/-! ## `SWAP.EN` (44_swap_mode.md R261) -/

/-- Served: three boundaries, one write of the flag and then the mirror. -/
theorem swapEn_served {en : BitVec 1} {s : State} (hw : HostWaits s) (ha : Served (nextTick s.env)) :
    Cached s (runOperation false (swapEn en) s) en {} [.cfgWrite s.cfg.objSwapModeEn 0 [en.setWidth 8]] ∧
      (runOperation false (swapEn en) s).chip =
        setObj (envTurns 3 s).chip .swapModeEn (s.chip.swapEnObj.writeBytes 0 [en.setWidth 8]) := by
  have hin := (Inside.start s).txn (.cfgWrite s.cfg.objSwapModeEn 0 [en.setWidth 8])
    fun ch => setObj ch .swapModeEn ((getObj ch .swapModeEn).writeBytes 0 [en.setWidth 8])
  have hobj := (ChipUntouched.start s).turn.writeObj (.cfgWrite s.cfg.objSwapModeEn 0 [en.setWidth 8]) true .swapModeEn
    fun m => m.writeBytes 0 [en.setWidth 8]
  obtain ⟨hend, hchip⟩ := cached_of_setSessSwap (body := swapEn en)
    (run_bind_ok (mboxCfgWrite_served (hostWaits_start hw) ha)) hw hin (dcc_firstTxn _ true _ s)
  exact ⟨hend, hchip.trans hobj.turn.turn.chip⟩

/-- Failed: the flag is left torn and the mirror does not happen. -/
theorem swapEn_failed {en : BitVec 1} {s : State} (hw : HostWaits s) (ha : ¬ Served (nextTick s.env)) :
    FailedAtFirst s (runOperation false (swapEn en) s) ∧
      ∃ m, (runOperation false (swapEn en) s).chip = setObj (envTurns 2 s).chip .swapModeEn m := by
  obtain ⟨c, hc, _⟩ := answerFailure_of_not_served ha true
  obtain ⟨hend, hchip⟩ := failedAtFirst_of_run (body := swapEn en) hw hc
    (run_bind_error (mboxCfgWrite_failed (hostWaits_start hw) hc))
  exact ⟨hend, _, hchip⟩

/-! ## `SWAP.GETEN` (44_swap_mode.md R262) -/

/-- Read the chip's flag and refresh the cache from it: steps 1 to 4 with `SWAP_QUERY_HW` set. -/
def getFlag : M Result := do
  let on ← readSwapFlag
  setSessSwap (BitVec.ofBool on)
  pure { info := (BitVec.ofBool on).setWidth 8 }

/-- `SWAP_QUERY_HW` of the snapshot selects the path. -/
theorem run_swapGeten (s : State) :
    swapGeten.run (startOperation s) =
      if s.regs.ctrl.getLsbD 1 = true then getFlag.run (startOperation s)
      else .ok { info := s.dcc.sessSwapEn.setWidth 8 } (startOperation s) :=
  (run_snapCtrl_bind _ _).trans (run_ite _ _ _ _)

/-- The chip's flag as one bit: any nonzero value is enabled (10_state.md R45). -/
def flagBit (ch : Chip) : BitVec 1 := if ch.swapEnObj.read 0 = 0 then 0 else 1

theorem flagBit_eq (ch : Chip) : flagBit ch = BitVec.ofBool (ch.swapEnObj.read 0 != 0) := by
  unfold flagBit
  split
  · next h => rw [h]; rfl
  · next h => rw [bne_iff_ne.2 h]; rfl

theorem readSwapFlag_served {s : State} (h : HostWaits s) (ha : Served (nextTick s.env)) :
    readSwapFlag.run s =
      .ok (s.chip.swapEnObj.read 0 != 0) (logTxn (.cfgRead s.cfg.objSwapModeEn 0 1) true (envTurn s)) := by
  unfold readSwapFlag
  rw [run_bind_ok (mboxCfgRead_served h ha), run_pure, envTurn_getObj, Memory.byteAt_readBytes (by omega)]
  rfl

/-- Served: three boundaries, one read of the flag and then the refresh. -/
theorem swapGeten_served {s : State} (hc : s.regs.ctrl.getLsbD 1 = true) (hw : HostWaits s)
    (ha : Served (nextTick s.env)) :
    Cached s (runOperation false swapGeten s) (flagBit s.chip) { info := (flagBit s.chip).setWidth 8 }
        [.cfgRead s.cfg.objSwapModeEn 0 1] ∧
      (runOperation false swapGeten s).chip = (envTurns 3 s).chip := by
  have hin := (Inside.start s).read (.cfgRead s.cfg.objSwapModeEn 0 1)
  have hsame := (ChipUntouched.start s).turn.log (.cfgRead s.cfg.objSwapModeEn 0 1) true
  have hrun := ((run_swapGeten s).trans (if_pos hc)).trans (run_bind_ok (readSwapFlag_served (hostWaits_start hw) ha))
  rw [startOperation_chip, ← flagBit_eq] at hrun
  obtain ⟨hend, hchip⟩ := cached_of_setSessSwap hrun hw hin
    (dcc_firstTxn (.cfgRead s.cfg.objSwapModeEn 0 1) true id s)
  exact ⟨hend, hchip.trans hsame.turn.turn.chip⟩

/-- Failed: the refresh does not happen. -/
theorem swapGeten_failed {s : State} (hc : s.regs.ctrl.getLsbD 1 = true) (hw : HostWaits s)
    (ha : ¬ Served (nextTick s.env)) :
    FailedAtFirst s (runOperation false swapGeten s) ∧ (runOperation false swapGeten s).chip = (envTurns 2 s).chip := by
  obtain ⟨c, hf, _⟩ := answerFailure_of_not_served ha true
  have hread := mboxCfgRead_failed (o := .swapModeEn) (off := 0) (n := 1) (hostWaits_start hw) hf
  obtain ⟨hend, hchip⟩ := failedAtFirst_of_run (o := .swapModeEn) (x := id) hw hf
    (((run_swapGeten s).trans (if_pos hc)).trans (run_bind_error (run_bind_error hread)))
  refine ⟨hend, hchip.trans ?_⟩
  rw [id_eq, ← envTurns_getObj 2 s, setObj_getObj]

/-- Without `SWAP_QUERY_HW`: only the boundary before the exit. -/
theorem swapGeten_fromCache {s : State} (hc : s.regs.ctrl.getLsbD 1 = false) (hw : HostWaits s) :
    EndedOk s (runOperation false swapGeten s) (s.dcc.sessSwapEn.setWidth 8) [] ∧
      DccSame s (runOperation false swapGeten s) ∧ (runOperation false swapGeten s).chip = (envTurn s).chip ∧
      Sent s (runOperation false swapGeten s) [] := by
  have hrun := (run_swapGeten s).trans (if_neg (ne_true_of_eq_false hc))
  obtain ⟨hdcc, hchip, hend, hsent⟩ :=
    endedOk_of_untouched (fam := false) hrun hw (Inside.start s) (ChipUntouched.start s) rfl
  exact ⟨hend, hdcc, hchip, hsent⟩

/-- Settles O56: each clause is the end state of one operation, served, failed or answered from the cache. -/
theorem swapFlagAndCache : Obligations.SwapFlagAndCache := by
  refine ⟨fun s en hw => ⟨fun ha hm => ⟨_, rfl, ?_⟩, fun ha => ⟨_, rfl, ?_⟩⟩,
    fun s hw => ⟨fun hc => ⟨_, rfl, swapGeten_fromCache hc hw⟩, fun hc ha => ⟨_, flagBit s.chip, rfl, rfl, ?_⟩,
      fun hc ha => ⟨_, rfl, ?_⟩⟩⟩
  · obtain ⟨⟨hend, hdcc, hsent⟩, hchip⟩ := swapEn_served (en := en) hw ha
    obtain ⟨_, _, _, _, ⟨hwf, _⟩, _⟩ := hm
    refine ⟨hend, hdcc, by rw [hchip]; rfl, fun a => ?_, hsent⟩
    rw [hchip]
    exact Memory.read_write hwf
  · obtain ⟨⟨hend, hdcc⟩, m, hchip⟩ := swapEn_failed (en := en) hw ha
    exact ⟨hend, hdcc, by rw [hchip]; rfl⟩
  · obtain ⟨⟨hend, hdcc, hsent⟩, hchip⟩ := swapGeten_served hc hw ha
    exact ⟨hend, hdcc, hchip, hsent⟩
  · obtain ⟨⟨hend, hdcc⟩, hchip⟩ := swapGeten_failed hc hw ha
    exact ⟨hend, hdcc, hchip⟩

end Sys2Proof.Machine
end

section
/-! PROOF. The command word (30_encoding.md R110 to R116, R126): a word is its seven slices and nothing more, so that encoder
and decoder are inverse to each other, and the words that decode are the words that match a row of the opcode map. -/

namespace Sys2Proof

/-! ## A word is its slices (R111) -/

theorem append_eq_append_iff {v w : Nat} {a c : BitVec v} {b d : BitVec w} : a ++ b = c ++ d ↔ a = c ∧ b = d := by
  refine ⟨fun h => ⟨?_, ?_⟩, fun ⟨ha, hb⟩ => by rw [ha, hb]⟩
  · rw [← BitVec.extractLsb'_append_eq_left (a := a) (b := b), h, BitVec.extractLsb'_append_eq_left]
  · rw [← BitVec.setWidth_append_eq_right (a := a) (b := b), h, BitVec.setWidth_append_eq_right]

theorem Fields.toWord_inj {f g : Fields} (h : f.toWord = g.toWord) : f = g := by
  obtain ⟨hop, h⟩ := append_eq_append_iff.1 h
  obtain ⟨hpin, h⟩ := append_eq_append_iff.1 h
  obtain ⟨hval, h⟩ := append_eq_append_iff.1 h
  obtain ⟨hen, h⟩ := append_eq_append_iff.1 h
  obtain ⟨hsel, h⟩ := append_eq_append_iff.1 h
  obtain ⟨hlut, hch⟩ := append_eq_append_iff.1 h
  cases f
  cases g
  simp_all only

theorem Fields.toWord_ofWord (w : Word) : (Fields.ofWord w).toWord = w := by
  simp only [Fields.ofWord, Fields.toWord]
  ext i hi
  simp only [← BitVec.getLsbD_eq_getElem, BitVec.getLsbD_append, BitVec.getLsbD_extractLsb']
  grind

theorem Fields.ofWord_toWord (f : Fields) : Fields.ofWord f.toWord = f :=
  Fields.toWord_inj (Fields.toWord_ofWord f.toWord)

/-! ## Decode of encode (R126) -/

theorem decodeFields_encodeFields (i : Instr) : decodeFields (encodeFields i) = some i := by
  cases i with
  | srcctlSet pin val => exact Laws.FieldsRoundTrip.srcctlSet pin val
  | srcctlGet pin => exact Laws.FieldsRoundTrip.srcctlGet pin
  | donepinSetup pin => exact Laws.FieldsRoundTrip.donepinSetup pin
  | donepinGet => exact Laws.FieldsRoundTrip.donepinGet
  | trigpinSetup pin => exact Laws.FieldsRoundTrip.trigpinSetup pin
  | trigpinGet => exact Laws.FieldsRoundTrip.trigpinGet
  | capcfgSet => exact Laws.FieldsRoundTrip.capcfgSet
  | capcfgGet => exact Laws.FieldsRoundTrip.capcfgGet
  | capctrlSet => exact Laws.FieldsRoundTrip.capctrlSet
  | capctrlGet => exact Laws.FieldsRoundTrip.capctrlGet
  | caplvlSet => exact Laws.FieldsRoundTrip.caplvlSet
  | caplvlGet => exact Laws.FieldsRoundTrip.caplvlGet
  | pwrthSet sel => exact Laws.FieldsRoundTrip.pwrthSet sel
  | pwrthGet sel => exact Laws.FieldsRoundTrip.pwrthGet sel
  | capStart => exact Laws.FieldsRoundTrip.capStart
  | capPoll => exact Laws.FieldsRoundTrip.capPoll
  | capStatus ch => exact Laws.FieldsRoundTrip.capStatus ch
  | capRddone => exact Laws.FieldsRoundTrip.capRddone
  | modelCfg ch => exact Laws.FieldsRoundTrip.modelCfg ch
  | modelGet ch => exact Laws.FieldsRoundTrip.modelGet ch
  | mmodelCfg ch => exact Laws.FieldsRoundTrip.mmodelCfg ch
  | mmodelGet ch sel => exact Laws.FieldsRoundTrip.mmodelGet ch sel
  | lutAddr ch lut sel => exact Laws.FieldsRoundTrip.lutAddr ch lut sel
  | lutWrite ch lut sel => exact Laws.FieldsRoundTrip.lutWrite ch lut sel
  | lutRead ch lut sel => exact Laws.FieldsRoundTrip.lutRead ch lut sel
  | actclkSet ch en => exact Laws.FieldsRoundTrip.actclkSet ch en
  | swapEn en => exact Laws.FieldsRoundTrip.swapEn en
  | swapGeten => exact Laws.FieldsRoundTrip.swapGeten
  | swapWrite ch sel => exact Laws.FieldsRoundTrip.swapWrite ch sel
  | mmlutWrite lut => exact Laws.FieldsRoundTrip.mmlutWrite lut
  | mmodelUpdate ch sel => exact Laws.FieldsRoundTrip.mmodelUpdate ch sel
  | mmodelStatus ch => exact Laws.FieldsRoundTrip.mmodelStatus ch

/-- Settles O1: a word gives its slices back, and the opcode map reads the operation back from them. -/
theorem decodeEncodeAgree : Obligations.DecodeEncodeAgree := by
  intro i
  rw [decode, encode, Fields.ofWord_toWord, decodeFields_encodeFields]

/-! ## Encode of decode (R112, R126) -/

theorem Fields.legal_eq_some {f : Fields} {fmt : Format} {i j : Instr} :
    f.legal fmt i = some j ↔ f.unusedZero fmt = true ∧ i = j := by
  unfold Fields.legal
  split <;> simp_all

/-- The slices a format uses; the others are zero. -/
def Fields.used (f : Fields) : Format → Fields
  | .n => { op := f.op }
  | .p => { op := f.op, pin := f.pin }
  | .pv => { op := f.op, pin := f.pin, val := f.val }
  | .c => { op := f.op, ch := f.ch }
  | .s => { op := f.op, sel := f.sel }
  | .cs => { op := f.op, ch := f.ch, sel := f.sel }
  | .cls => { op := f.op, ch := f.ch, lut := f.lut, sel := f.sel }
  | .ce => { op := f.op, ch := f.ch, en := f.en }
  | .e => { op := f.op, en := f.en }
  | .l => { op := f.op, lut := f.lut }

theorem Fields.unusedZero_iff (f : Fields) (fmt : Format) : f.unusedZero fmt = true ↔ f = f.used fmt := by
  obtain ⟨op, pin, val, en, sel, lut, ch⟩ := f
  cases fmt <;> simp [Fields.unusedZero, Fields.used, and_assoc]

/-- What the opcode map does at one of its rows. -/
theorem encodeFields_of_legal {f : Fields} {fmt : Format} {n : Nat} {i j : Instr} (hop : f.op.toNat = n)
    (h : f.legal fmt j = some i) (hj : encodeFields j = { f.used fmt with op := BitVec.ofNat 8 n }) :
    encodeFields i = f := by
  obtain ⟨hz, rfl⟩ := Fields.legal_eq_some.1 h
  rw [hj, ← hop, BitVec.ofNat_toNat, BitVec.setWidth_eq, ← (f.unusedZero_iff fmt).1 hz]

theorem encodeFields_of_decodeFields {f : Fields} {i : Instr} (h : decodeFields f = some i) : encodeFields i = f := by
  unfold decodeFields at h
  split at h
  case h_33 => cases h
  all_goals
    rename_i hop
    exact encodeFields_of_legal hop h rfl

/-- Settles O2: the slices a format does not use are zero where the word decodes, so the encoder puts back every bit. -/
theorem encodeDecodeAgree : Obligations.EncodeDecodeAgree := by
  intro w i h
  rw [encode, encodeFields_of_decodeFields h, Fields.toWord_ofWord]

/-! ## The rows of the opcode map (R112, R113, R116) -/

/-- The mask of a format, by slices. -/
theorem Format.mask_eq (fmt : Format) : fmt.mask = Fields.toWord {
    op := .allOnes 8
    pin := if fmt = .p ∨ fmt = .pv then 0 else .allOnes 8
    val := if fmt = .pv then 0 else .allOnes 4
    en := if fmt = .ce ∨ fmt = .e then 0 else .allOnes 1
    sel := if fmt = .s ∨ fmt = .cs ∨ fmt = .cls then 0 else .allOnes 2
    lut := if fmt = .cls ∨ fmt = .l then 0 else .allOnes 5
    ch := if fmt = .c ∨ fmt = .cs ∨ fmt = .cls ∨ fmt = .ce then 0 else .allOnes 4 } := by
  cases fmt <;> rfl

theorem OpRow.pattern_eq (r : OpRow) : r.pattern = Fields.toWord { op := r.op } := by
  have h : (0 : BitVec 24) = 0#8 ++ (0#4 ++ (0#1 ++ (0#2 ++ (0#5 ++ 0#4)))) := rfl
  rw [OpRow.pattern, h]
  rfl

theorem Fields.toWord_and (f g : Fields) : f.toWord &&& g.toWord = Fields.toWord {
    op := f.op &&& g.op, pin := f.pin &&& g.pin, val := f.val &&& g.val, en := f.en &&& g.en, sel := f.sel &&& g.sel
    lut := f.lut &&& g.lut, ch := f.ch &&& g.ch } := by
  simp only [Fields.toWord]
  ext i hi
  simp only [← BitVec.getLsbD_eq_getElem, BitVec.getLsbD_append, BitVec.getLsbD_and]
  grind

/-- A word matches a row iff it has the row's opcode and the slices the row's format does not use are zero. -/
theorem matches_row_iff (w : Word) (r : OpRow) : w &&& r.format.mask = r.pattern ↔
    (Fields.ofWord w).op = r.op ∧ (Fields.ofWord w).unusedZero r.format = true := by
  obtain ⟨op, fmt⟩ := r
  rw [OpRow.pattern_eq, Format.mask_eq, ← Fields.toWord_ofWord w, Fields.toWord_and, Fields.ofWord_toWord]
  obtain ⟨wop, pin, val, en, sel, lut, ch⟩ := Fields.ofWord w
  have hinj : ∀ {f g : Fields}, f.toWord = g.toWord ↔ f = g := ⟨Fields.toWord_inj, congrArg _⟩
  have h8 : ∀ x : BitVec 8, x &&& 255#8 = x := fun x => BitVec.and_allOnes
  have h5 : ∀ x : BitVec 5, x &&& 31#5 = x := fun x => BitVec.and_allOnes
  have h4 : ∀ x : BitVec 4, x &&& 15#4 = x := fun x => BitVec.and_allOnes
  have h2 : ∀ x : BitVec 2, x &&& 3#2 = x := fun x => BitVec.and_allOnes
  have h1 : ∀ x : BitVec 1, x &&& 1#1 = x := fun x => BitVec.and_allOnes
  rw [hinj]
  cases fmt <;> simp [Fields.unusedZero, Fields.mk.injEq, and_assoc, h8, h5, h4, h2, h1]

theorem row_of_legal {f : Fields} {fmt : Format} {n : Nat} {i j : Instr} (hop : f.op.toNat = n)
    (h : f.legal fmt j = some i) (hr : ⟨BitVec.ofNat 8 n, fmt⟩ ∈ opRows) :
    ∃ r ∈ opRows, f.op = r.op ∧ f.unusedZero r.format = true :=
  ⟨_, hr, by rw [← hop, BitVec.ofNat_toNat, BitVec.setWidth_eq], (Fields.legal_eq_some.1 h).1⟩

/-- A legal word has a row: the decoder answers at the row's opcode and nowhere else. -/
theorem decodeFields_isSome_iff (f : Fields) :
    (∃ i, decodeFields f = some i) ↔ ∃ r ∈ opRows, f.op = r.op ∧ f.unusedZero r.format = true := by
  constructor
  · rintro ⟨i, h⟩
    unfold decodeFields at h
    split at h
    case h_33 => cases h
    all_goals
      rename_i hop
      exact row_of_legal hop h (by decide)
  · rintro ⟨r, hr, hop, hz⟩
    obtain ⟨op, pin, val, en, sel, lut, ch⟩ := f
    simp only [opRows, List.cons_append, List.nil_append, List.mem_cons, List.not_mem_nil, or_false] at hr
    casesm* _ ∨ _
    all_goals
      subst hr hop
      exact ⟨_, if_pos hz⟩

theorem opRows_nodup : (opRows.map OpRow.op).Nodup := by decide

/-- Settles O3: both sides say that the word has the opcode of a row and zeros in the slices the row's format leaves out. -/
theorem legalWordsDecode : Obligations.LegalWordsDecode := by
  refine ⟨fun w => ?_, fun w r r' hr hr' h h' => ?_⟩
  · simp only [decode, decodeFields_isSome_iff, wordLegal, List.any_eq_true, beq_iff_eq, matches_row_iff]
  · have hop : r.op = r'.op := ((matches_row_iff w r).1 h).1.symm.trans ((matches_row_iff w r').1 h').1
    exact List.inj_on_of_nodup_map opRows_nodup hr hr' hop

/-- Settles O4: the decoder evaluated at each word. -/
theorem sampleWordsDecode : Obligations.SampleWordsDecode := by
  unfold Obligations.SampleWordsDecode
  decide

end Sys2Proof
end

section
/-! PROOF. The step of the machine (30_encoding.md R110, R116; 60_exceptions.md R290, R299): what each host action does to the
state, said once, and that every step answers a next state. Each operation is one call of `runOperation` on its
micro-sequence, so that later proofs speak of all operations at once. -/

namespace Sys2Proof.Machine

/-! ## The operations as one table -/

/-- The micro-sequence of an operation. -/
def body : Instr → M Result
  | .srcctlSet pin val => srcctlSet pin val
  | .srcctlGet pin => srcctlGet pin
  | .donepinSetup pin => donepinSetup pin
  | .donepinGet => pinQuery .captureDone
  | .trigpinSetup pin => trigpinSetup pin
  | .trigpinGet => pinQuery .captureTrigger
  | .capcfgSet => capcfgSet
  | .capcfgGet => capcfgGet
  | .capctrlSet => capctrlSet
  | .capctrlGet => capctrlGet
  | .caplvlSet => caplvlSet
  | .caplvlGet => caplvlGet
  | .pwrthSet sel => pwrthSet sel
  | .pwrthGet sel => pwrthGet sel
  | .capStart => capStart
  | .capPoll => capPoll
  | .capStatus ch => capStatus ch
  | .capRddone => capRddone
  | .modelCfg ch => modelCfg ch
  | .modelGet ch => modelGet ch
  | .mmodelCfg ch => mmodelCfg ch
  | .mmodelGet ch sel => mmodelGet ch sel
  | .lutAddr ch lut sel => lutAddr ch lut sel
  | .lutWrite ch lut sel => lutWrite ch lut sel
  | .lutRead ch lut sel => lutRead ch lut sel
  | .actclkSet ch en => actclkSet ch en
  | .swapEn en => swapEn en
  | .swapGeten => swapGeten
  | .swapWrite ch sel => swapWrite ch sel
  | .mmlutWrite lut => mmlutWrite lut
  | .mmodelUpdate ch sel => mmodelUpdate ch sel
  | .mmodelStatus ch => mmodelStatus ch

/-- Every arm of the dispatch runs its micro-sequence; the capture families exit through `Error` on a transport failure. -/
theorem exec_eq (i : Instr) (s : State) : exec i s = .next (runOperation (captureFamily i) (body i) s) := by
  cases i <;> rfl

theorem exec_next {i : Instr} {s t : State} (h : exec i s = .next t) :
    t = runOperation (captureFamily i) (body i) s := by
  rw [exec_eq] at h
  exact (Host.Outcome.next.inj h).symm

/-! ## What a step does, by the host's next action -/

theorem step_idle {s : State} (h : s.env.hostQ = []) : step s = .next (envTurn s) := by
  unfold step
  rw [h]

theorem step_host {s : State} {a : HostAct} {q : List HostAct} (h : s.env.hostQ = a :: q) :
    step s = hostStep a (withHostQ s q) := by
  unfold step
  rw [h]

theorem step_command {s : State} {w : Word} {q : List HostAct} (h : s.env.hostQ = .writeCmd w :: q)
    (hb : s.regs.busy = false) : step s = match decode w with
      | some i => exec i { withHostQ s q with regs := { s.regs with cmd := w } }
      | none => .next (illegalCommand { withHostQ s q with regs := { s.regs with cmd := w } }) := by
  rw [step_host h, hostStep, commandWrite, if_neg (by simp [hb])]
  rfl

theorem step_lostCommand {s : State} {w : Word} {q : List HostAct} (h : s.env.hostQ = .writeCmd w :: q)
    (hb : s.regs.busy = true) : step s = .next (withHostQ s q) := by
  rw [step_host h, hostStep, commandWrite]
  exact if_pos hb

/-- The next state after one host action that is no command. -/
def afterAction (a : HostAct) (s : State) : State :=
  match a with
  | .reset => dccReset s
  | .chipReset c => chipReset c s
  | _ => hostAccess s a

theorem hostStep_action {a : HostAct} (h : ∀ w, a ≠ .writeCmd w) (s : State) : hostStep a s = .next (afterAction a s) := by
  cases a with
  | writeCmd w => exact absurd rfl (h w)
  | _ => rfl

/-- Everything a step can do: a turn of the other agents, a host action that is no command, a command lost, an operation, or
an illegal word. -/
theorem step_cases {s t : State} (h : step s = .next t) :
    s.env.hostQ = [] ∧ t = envTurn s ∨
    (∃ a q, s.env.hostQ = a :: q ∧ (∀ w, a ≠ .writeCmd w) ∧ t = afterAction a (withHostQ s q)) ∨
    ∃ w q, s.env.hostQ = .writeCmd w :: q ∧ (s.regs.busy = true ∧ t = withHostQ s q ∨
      (∃ i, decode w = some i ∧ exec i { withHostQ s q with regs := { s.regs with cmd := w } } = .next t) ∨
      decode w = none ∧ t = illegalCommand { withHostQ s q with regs := { s.regs with cmd := w } }) := by
  cases hq : s.env.hostQ with
  | nil =>
    rw [step_idle hq] at h
    exact .inl ⟨rfl, (Host.Outcome.next.inj h).symm⟩
  | cons a q =>
    by_cases ha : ∃ w, a = .writeCmd w
    · obtain ⟨w, rfl⟩ := ha
      refine .inr (.inr ⟨w, q, rfl, ?_⟩)
      cases hb : s.regs.busy with
      | true =>
        rw [step_lostCommand hq hb] at h
        exact .inl ⟨rfl, (Host.Outcome.next.inj h).symm⟩
      | false =>
        rw [step_command hq hb] at h
        cases hd : decode w with
        | some i => rw [hd] at h; exact .inr (.inl ⟨i, rfl, h⟩)
        | none => rw [hd] at h; exact .inr (.inr ⟨rfl, (Host.Outcome.next.inj h).symm⟩)
    · have hne : ∀ w, a ≠ .writeCmd w := fun w hw => ha ⟨w, hw⟩
      rw [step_host hq, hostStep_action hne] at h
      exact .inr (.inl ⟨a, q, rfl, hne, (Host.Outcome.next.inj h).symm⟩)

/-! ## Illegal words, decoded words, answers -/

/-- Settles O5: the word makes no transaction, so the exit stands behind the only boundary. -/
theorem illegalWordRefused : Obligations.IllegalWordRefused := by
  intro s w q hq hb hd hw
  refine ⟨_, by rw [step_command hq hb, hd], ?_⟩
  exact endedAtOnce_takeResult (c := .illegalCommand) (hw.of_hostQ rfl) rfl

/-- Settles O6: the second clause is the first one on the word the encoder gives, which decodes to the operation. -/
theorem stepRunsDecoded : Obligations.StepRunsDecoded := by
  have hrun : ∀ (s : State) (w : Word) (q : List HostAct) (i : Instr), s.env.hostQ = .writeCmd w :: q →
      s.regs.busy = false → decode w = some i →
      step s = exec i { withHostQ s q with regs := { s.regs with cmd := w } } := by
    intro s w q i hq hb hd
    rw [step_command hq hb, hd]
  refine ⟨hrun, fun s i => ?_⟩
  have hw : BitVec.ofNat 32 ((encode i).toNat % 2 ^ 32) = encode i := by
    rw [Nat.mod_eq_of_lt (encode i).isLt, BitVec.ofNat_toNat, BitVec.setWidth_eq]
  rw [hrun _ (encode i) s.env.hostQ i (by rw [State.withFetchWord, hw]) rfl (decodeEncodeAgree i)]
  rfl

theorem step_next (s : State) : ∃ t, step s = .next t := by
  cases hq : s.env.hostQ with
  | nil => exact ⟨_, step_idle hq⟩
  | cons a q =>
    by_cases ha : ∃ w, a = .writeCmd w
    · obtain ⟨w, rfl⟩ := ha
      cases hb : s.regs.busy with
      | true => exact ⟨_, step_lostCommand hq hb⟩
      | false =>
        rw [step_command hq hb]
        cases decode w with
        | some i => exact ⟨_, exec_eq _ _⟩
        | none => exact ⟨_, rfl⟩
    · rw [step_host hq]
      exact ⟨_, hostStep_action (fun w hw => ha ⟨w, hw⟩) _⟩

/-- Settles O7: by induction on the number of steps. -/
theorem everyStepAnswers : Obligations.EveryStepAnswers := by
  refine ⟨step_next, fun k => ?_⟩
  induction k with
  | zero => exact fun s => ⟨s, rfl⟩
  | succ k ih =>
    intro s
    obtain ⟨t, ht⟩ := step_next s
    obtain ⟨u, hu⟩ := ih t
    refine ⟨u, ?_⟩
    have hs : Sys2Proof.core.step s = .next t := ht
    simp only [Host.Core.run, hs]
    exact hu

end Sys2Proof.Machine
end

section
/-! PROOF. What an operation is made of. `Built k p m Q` says that the micro-sequence `m` consists of micro-steps the scope `k`
admits, from the phase `p` on, and ends in a value and a phase that meet `Q`: validation first, then transactions and local
writes, then at most one write of `cap_state`. What holds of every micro-step is proved once, by induction on `Built`
(`Built.runs`), and holds then of every operation. -/

namespace Sys2Proof.Machine

/-! ## Phases and scopes -/

/-- How far an operation has got: it has only checked and read (60_exceptions.md R292), it has begun to act, or it has set
`cap_state` and only returns (42_capture_fsm.md R203). -/
inductive Phase where
  | checks | acts | concluded (c : CapState)

/-- `cap_state` in a phase of an operation that began in `c`. -/
def Phase.capState : Phase → CapState → CapState
  | .concluded c, _ => c
  | .checks, c => c
  | .acts, c => c

/-- The classes a micro-step itself may raise in a phase; the transport's failures stand beside them. -/
def Phase.mayRaise : Phase → ResultClass → Prop
  | .checks, .invalidParameter _ => True
  | .checks, .nullInput => True
  | .checks, .resourceConflict => True
  | .acts, .resourceConflict => True
  | .acts, .timeout => True
  | _, _ => False

/-- No operation goes back to its checks. -/
def Phase.after (p q : Phase) : Prop := p ≠ .checks → q ≠ .checks

/-- What an operation may do: the transactions it may make and the writes of DCC-local state other than `cap_state`; the
parameters and the operand snapshot it runs with. -/
structure Scope where
  cfg : Config
  start : Flight
  txn : Txn → Prop
  store : (DccRegs → DccRegs) → Prop

/-- The operand snapshot is the same (10_state.md R31). -/
def SameSnapshot (f g : Flight) : Prop := f.oplen = g.oplen ∧ f.ctrl = g.ctrl ∧ f.opb = g.opb

/-- The memories of the chip are in canonical form and inside their bounds. -/
def ChipForm (cfg : Config) (ch : Chip) : Prop :=
  (ch.capObj.wf ∧ ch.capObj.bounded 58) ∧ (ch.modelObj.wf ∧ ch.modelObj.bounded 192) ∧
  (ch.mmodelObj.wf ∧ ch.mmodelObj.bounded 384) ∧ (ch.swapEnObj.wf ∧ ch.swapEnObj.bounded 1) ∧
  (ch.bulk.wf ∧ ∀ c ∈ ch.bulk, bulkMapped cfg c.1 = true)

theorem memoryForm_iff (s : State) :
    s.MemoryForm ↔ (s.regs.opb.wf ∧ s.regs.opb.bounded 65536) ∧ ChipForm s.cfg s.chip := Iff.rfl

/-- The request to another agent that a writing transaction delivers (60_exceptions.md R306). -/
structure Request where
  streamReqs : List (Chan × BitVec 1) → List (Chan × BitVec 1) := id
  updLive : Vector Bool 4 → Vector Bool 4 := id
  trigChan : Chan → Chan := id
  trigExt : Bool → Bool := id

def Request.deliver (r : Request) (e : Env) : Env :=
  { e with
    streamReqs := r.streamReqs e.streamReqs, updLive := r.updLive e.updLive, trigChan := r.trigChan e.trigChan
    trigExt := r.trigExt e.trigExt }

/-! ## Micro-sequences built of admitted micro-steps -/

/-- `Built k p m Q`: from the phase `p` on, `m` is built of micro-steps that `k` admits, and its value and last phase meet
`Q`. -/
inductive Built (k : Scope) : Phase → {α : Type} → M α → (α → Phase → Prop) → Prop
  | pure {p : Phase} {α : Type} {a : α} {Q : α → Phase → Prop} : Q a p → Built k p (Pure.pure a) Q
  | bind {p : Phase} {α β : Type} {x : M α} {f : α → M β} {R : α → Phase → Prop} {Q : β → Phase → Prop} :
    Built k p x R → (∀ a q, R a q → Built k q (f a) Q) → Built k p (x >>= f) Q
  | later {α : Type} {m : M α} {Q : α → Phase → Prop} : Built k .acts m Q → Built k .checks m Q
  | ask {p : Phase} {α : Type} {Q : α → Phase → Prop} (g : Config → DccRegs → Chip → α) :
    (∀ d ch, SameSnapshot d.flight k.start → Q (g k.cfg d ch) p) → Built k p (Machine.ask fun s => g s.cfg s.dcc s.chip) Q
  | note {p : Phase} {Q : Unit → Phase → Prop} (g : DccRegs → Flight → Flight) :
    (∀ d fl, SameSnapshot (g d fl) fl) → Q () p → Built k p (update fun s => updateFlight (g s.dcc) s) Q
  | check {p : Phase} {Q : Unit → Phase → Prop} {P : Prop} [Decidable P] {c : ResultClass} :
    (¬ P → p.mayRaise c) → (P → Q () p) → Built k p (Machine.check P c) Q
  | raise {p : Phase} {α : Type} {Q : α → Phase → Prop} {c : ResultClass} : p.mayRaise c → Built k p (Machine.raise c) Q
  | turn {p : Phase} {Q : Unit → Phase → Prop} : Q () p → Built k p Machine.turn Q
  | store {Q : Unit → Phase → Prop} {f : DccRegs → DccRegs} :
    k.store f → (∀ d, (f d).flight = d.flight ∧ (f d).capState = d.capState) → Q () .acts →
    Built k .acts (writeLocal f) Q
  | conclude {Q : Unit → Phase → Prop} (c : CapState) : Q () (.concluded c) → Built k .acts (setCapState c) Q
  | read {p : Phase} {α : Type} {Q : α → Phase → Prop} {t : Txn} {get : Chip → Nat → α} :
    p = .checks ∨ p = .acts → k.txn t → isReadTxn t = true → (∀ ch n, Q (get ch n) p) →
    Built k p (readTxn t fun s => get s.chip s.env.draws) Q
  | write {Q : Unit → Phase → Prop} {t : Txn} {f : Chip → Chip} {g : Nat → Chip → Chip} (r : Request) :
    k.txn t → (∀ ch, ChipForm k.cfg ch → ChipForm k.cfg (f ch)) →
    (∀ d ch, ChipForm k.cfg ch → ChipForm k.cfg (g d ch)) → Q () .acts →
    Built k .acts (writeTxn t (fun s => updateEnv r.deliver (updateChip f s)) fun d => updateChip (g d)) Q
  | dropFailure {Q : Unit → Phase → Prop} {m : M Unit} :
    Built k .acts m (fun _ q => q = .acts) → Q () .acts → Built k .acts (Machine.dropFailure m) Q
  | withRollback {Q : Unit → Phase → Prop} {m : M Unit} :
    Built k .acts m (fun _ q => q = .acts) → (∀ us, Built k .acts (replayUndo us) fun _ q => q = .acts) → Q () .acts →
    Built k .acts (Machine.withRollback m) Q

variable {k : Scope} {α : Type}

/-! ## What a run of such a sequence has done -/

/-- From the start `s` of an operation to `u` by micro-steps that `k` admits, `u` in phase `p`. -/
structure Track (k : Scope) (s u : State) (p : Phase) : Prop where
  cfg : u.cfg = k.cfg
  snap : SameSnapshot u.dcc.flight k.start
  capState : u.dcc.capState = p.capState s.dcc.capState
  cmd : u.regs.cmd = s.regs.cmd
  claimless : u.env.claimless = s.env.claimless
  hostQ : u.env.hostQ <:+ s.env.hostQ
  form : s.MemoryForm → u.MemoryForm
  bus : ∃ new, u.env.bus = new ++ s.env.bus ∧ ∀ e ∈ new, k.txn e.txn
  stored : ∀ P : DccRegs → Prop, (∀ f d, k.store f → P d → P (f d)) → (∀ d fl, P d → P { d with flight := fl }) →
    (∀ d c, P d → P { d with capState := c }) → P s.dcc → P u.dcc
  clean : p = .checks → u.dcc = { s.dcc with flight := u.dcc.flight } ∧
    ∃ new, u.env.bus = new ++ s.env.bus ∧ ∀ e ∈ new, isReadTxn e.txn = true ∧ e.ok = true

theorem Track.start {s : State} (hc : s.cfg = k.cfg) (hf : SameSnapshot s.dcc.flight k.start) : Track k s s .checks where
  cfg := hc
  snap := hf
  capState := rfl
  cmd := rfl
  claimless := rfl
  hostQ := List.suffix_refl _
  form := id
  bus := ⟨[], rfl, by simp⟩
  stored _ _ _ _ h := h
  clean _ := ⟨rfl, [], rfl, by simp⟩

section Track

variable {s u v : State} {p : Phase}

theorem Track.between (h : Track k s u p) (hb : Between u v) : Track k s v p where
  cfg := hb.cfg.trans h.cfg
  snap := by rw [hb.dcc]; exact h.snap
  capState := by rw [hb.dcc]; exact h.capState
  cmd := hb.cmd.trans h.cmd
  claimless := hb.claimless.trans h.claimless
  hostQ := hb.hostQ.trans h.hostQ
  form hs := hb.form (h.form hs)
  bus := by rw [hb.bus]; exact h.bus
  stored P hf hfl hc hs := by rw [hb.dcc]; exact h.stored P hf hfl hc hs
  clean hp := by rw [hb.dcc, hb.bus]; exact h.clean hp

/-- Validation may end at any time. -/
theorem Track.acts (h : Track k s u .checks) : Track k s u .acts :=
  { h with capState := h.capState, clean := fun hp => by cases hp }

theorem Track.flight (h : Track k s u p) {g : Flight → Flight} (hg : SameSnapshot (g u.dcc.flight) u.dcc.flight) :
    Track k s (updateFlight g u) p :=
  { h with
    snap := ⟨hg.1.trans h.snap.1, hg.2.1.trans h.snap.2.1, hg.2.2.trans h.snap.2.2⟩
    stored := fun P hf hfl hc hs => hfl _ _ (h.stored P hf hfl hc hs)
    clean := fun hp => by
      obtain ⟨hd, hb⟩ := h.clean hp
      refine ⟨?_, hb⟩
      show ({ u.dcc with flight := g u.dcc.flight } : DccRegs) = { s.dcc with flight := g u.dcc.flight }
      rw [hd] }

theorem Track.store (h : Track k s u .acts) {f : DccRegs → DccRegs} (hk : k.store f)
    (hf : ∀ d, (f d).flight = d.flight ∧ (f d).capState = d.capState) : Track k s (updateDcc f u) .acts :=
  { h with
    snap := by rw [updateDcc_dcc, (hf _).1]; exact h.snap
    capState := by rw [updateDcc_dcc, (hf _).2]; exact h.capState
    stored := fun P hP hfl hc hs => hP f _ hk (h.stored P hP hfl hc hs)
    clean := fun hp => by cases hp }

theorem Track.conclude (h : Track k s u .acts) (c : CapState) :
    Track k s (updateDcc (fun d => { d with capState := c }) u) (.concluded c) :=
  { h with
    capState := rfl
    stored := fun P hP hfl hc hs => hc _ c (h.stored P hP hfl hc hs)
    clean := fun hp => by cases hp }

/-- One more transaction, `v` its effect. -/
theorem Track.txn (h : Track k s u p) (hp : p = .checks ∨ p = .acts) {t : Txn} (ok : Bool) (ht : k.txn t) (hcfg : v.cfg = u.cfg)
    (hregs : v.regs = u.regs) (hdcc : v.dcc = u.dcc) (hcl : v.env.claimless = u.env.claimless)
    (hq : v.env.hostQ = u.env.hostQ) (hbus : v.env.bus = u.env.bus)
    (hform : ChipForm k.cfg u.chip → ChipForm k.cfg v.chip) : Track k s (logTxn t ok v) .acts := by
  obtain ⟨new, hnew, hall⟩ := h.bus
  have hl := logTxn_dcc t ok v
  constructor
  · simp [hcfg, h.cfg]
  · have hs : SameSnapshot (logTxn t ok v).dcc.flight v.dcc.flight := by cases ok <;> exact ⟨rfl, rfl, rfl⟩
    rw [hdcc] at hs
    exact ⟨hs.1.trans h.snap.1, hs.2.1.trans h.snap.2.1, hs.2.2.trans h.snap.2.2⟩
  · rw [hl, hdcc]
    obtain rfl | rfl := hp
    · exact h.capState
    · exact h.capState
  · simp [hregs, h.cmd]
  · simp [hcl, h.claimless]
  · simpa [hq] using h.hostQ
  · intro hs
    have hu := (memoryForm_iff u).1 (h.form hs)
    rw [h.cfg] at hu
    rw [memoryForm_iff]
    simp only [logTxn_regs, logTxn_cfg, logTxn_chip, hregs, hcfg, h.cfg]
    exact ⟨hu.1, hform hu.2⟩
  · exact ⟨⟨t, ok⟩ :: new, by simp [hbus, hnew], by simpa using ⟨ht, hall⟩⟩
  · intro P hP hfl hc hs
    rw [hl, hdcc]
    exact hfl _ _ (h.stored P hP hfl hc hs)
  · intro hp
    cases hp

/-- A successful read keeps the phase. -/
theorem Track.read (h : Track k s u p) (hp : p = .checks ∨ p = .acts) {t : Txn} (ht : k.txn t) (hr : isReadTxn t = true) :
    Track k s (logTxn t true u) p := by
  have ha := h.txn hp true ht rfl rfl rfl rfl rfl rfl id
  obtain rfl | rfl := hp
  · refine { ha with capState := ha.capState, clean := fun _ => ?_ }
    obtain ⟨hd, new, hnew, hall⟩ := h.clean rfl
    exact ⟨by rw [logTxn_dcc, hd], ⟨t, true⟩ :: new, by simp [hnew], by simpa using ⟨hr, hall⟩⟩
  · exact ha

end Track

/-- How such a sequence stops: with a class its phase may raise or a transport failure, or by a DCC reset; `p` is the phase
it began in. -/
def StoppedIn (k : Scope) (s : State) (p : Phase) : Stop → State → Prop
  | .raised c, u => ∃ q, p.after q ∧ Track k s u q ∧ (q.mayRaise c ∨ q = .acts ∧ isTransportFailure c = true)
  | .dropped, u => ∃ q v, Track k s v q ∧ u = dccReset v ∧ .reset ∈ s.env.hostQ

theorem StoppedIn.drop {s u v : State} {p q : Phase} (h : Track k s u q) (hb : Between u v) (hr : .reset ∈ u.env.hostQ) :
    StoppedIn k s p .dropped (dccReset v) := ⟨q, v, h.between hb, rfl, h.hostQ.subset hr⟩

theorem StoppedIn.mono {s u : State} {p q : Phase} {e : Stop} (hpq : p.after q) (h : StoppedIn k s q e u) :
    StoppedIn k s p e u := by
  cases e with
  | raised c =>
    obtain ⟨r, hr, h⟩ := h
    exact ⟨r, fun hp => hr (hpq hp), h⟩
  | dropped => exact h

/-- A sequence that has begun to act and stops with a class has not concluded. -/
theorem StoppedIn.acts {s u : State} {c : ResultClass} (h : StoppedIn k s .acts (.raised c) u) :
    Track k s u .acts ∧ (Phase.acts.mayRaise c ∨ isTransportFailure c = true) := by
  obtain ⟨q, hq, hu, hc⟩ := h
  cases q with
  | checks => exact absurd rfl (hq (by simp))
  | acts => exact ⟨hu, hc.imp_right And.right⟩
  | concluded c =>
    obtain hc | ⟨hc, _⟩ := hc
    · exact hc.elim
    · cases hc

/-- What every sequence built of admitted micro-steps does, whatever the other agents, the host and the transport do. -/
theorem Built.runs {p : Phase} {m : M α} {Q : α → Phase → Prop} (h : Built k p m Q) (s : State) :
    Runs (fun u => Track k s u p) m (fun a u => ∃ q, p.after q ∧ Q a q ∧ Track k s u q) (StoppedIn k s p) := by
  have hdrop : ∀ {p : Phase} (u v : State), Track k s u p → Between u v → .reset ∈ u.env.hostQ →
      StoppedIn k s p .dropped (dccReset v) := fun u v hu hb hr => .drop hu hb hr
  induction h with
  | pure hq => exact Runs.pure fun u hu => ⟨_, id, hq, hu⟩
  | bind _ _ ihx ihf =>
    refine Runs.bind ihx fun a => ?_
    rintro u ⟨q, hpq, hr, hu⟩
    exact (ihf a q hr).weaken (fun _ h => h) (fun b v ⟨r, hqr, h⟩ => ⟨r, fun hp => hqr (hpq hp), h⟩)
      (fun e v h => h.mono hpq) u hu
  | later _ ih =>
    exact ih.weaken (fun _ hu => Track.acts hu) (fun _ _ ⟨q, _, h⟩ => ⟨q, fun h => absurd rfl h, h⟩)
      fun _ _ h => h.mono fun h => absurd rfl h
  | ask g hq => exact Runs.ask fun u hu => ⟨_, id, by rw [hu.cfg]; exact hq _ _ hu.snap, hu⟩
  | note g hg hq => exact Runs.update fun u hu => ⟨_, id, hq, hu.flight (hg _ _)⟩
  | check hc hq => exact Runs.check (fun u hu hp => ⟨_, id, hq hp, hu⟩) fun u hu hp => ⟨_, id, hu, .inl (hc hp)⟩
  | raise hc => exact Runs.raise fun u hu => ⟨_, id, hu, .inl hc⟩
  | turn hq => exact Runs.turn (fun u v hu hb => ⟨_, id, hq, hu.between hb⟩) hdrop
  | store hk hf hq =>
    exact Runs.writeLocal (fun u v hu hb => ⟨_, id, hq, (hu.between hb).store hk hf⟩) hdrop
  | conclude c hq =>
    exact Runs.writeLocal (fun u v hu hb => ⟨_, by simp [Phase.after], hq, (hu.between hb).conclude c⟩) hdrop
  | read hp ht hr hq =>
    refine Runs.readTxn (fun u v hu hb => ⟨_, id, hq _ _, (hu.between hb).read hp ht hr⟩) (fun u v c hu hb hc => ?_) hdrop
    exact ⟨.acts, by simp [Phase.after], (hu.between hb).txn hp false ht rfl rfl rfl rfl rfl rfl id, .inr ⟨rfl, hc⟩⟩
  | write r ht hf hg hq =>
    refine Runs.writeTxn (fun u v hu hb => ⟨_, id, hq, ?_⟩) (fun u v c hu hb hc => ?_) hdrop
    · exact (hu.between hb).txn (.inr rfl) true ht rfl rfl rfl rfl rfl rfl (hf _)
    · exact ⟨.acts, id, (hu.between hb).txn (.inr rfl) false ht rfl rfl rfl rfl rfl rfl (hg _ _), .inr ⟨rfl, hc⟩⟩
  | dropFailure _ hq ih =>
    refine Runs.dropFailure (ih.weaken (fun _ h => h) ?_ ?_)
    · rintro _ u ⟨q, h, rfl, hu⟩
      exact ⟨_, h, hq, hu⟩
    · rintro (c | _) u hu
      · exact ⟨_, id, hq, hu.acts.1⟩
      · exact hu
  | withRollback _ _ hq ihm ihr =>
    refine Runs.withRollback (F := fun c u => StoppedIn k s .acts (.raised c) u) (D := StoppedIn k s .acts .dropped)
      (ihm.weaken ?_ ?_ ?_) (fun c u hu => ?_) fun _ h => h
    · rintro _ ⟨u, hu, rfl⟩
      exact hu.flight ⟨rfl, rfl, rfl⟩
    · rintro _ u ⟨q, h, rfl, hu⟩
      exact ⟨_, h, hq, hu⟩
    · rintro (c | _) u hu
      · exact hu
      · exact hu
    · obtain ⟨ht, hc⟩ := hu.acts
      refine (ihr u.dcc.flight.undo).weaken (fun _ h => h) ?_ (fun _ _ h => h) u ht
      rintro _ v ⟨q, h, rfl, hv⟩
      exact ⟨_, h, hv, hc.imp_right fun hc => ⟨rfl, hc⟩⟩

end Sys2Proof.Machine
end

section
/-! PROOF. The shared steps and sequences of the operations, as sequences of admitted micro-steps (`Built`). -/

namespace Sys2Proof.Machine

variable {k : Scope} {p : Phase} {α : Type}

/-- One sequence after another that ends in a known phase. -/
theorem Built.seq {β : Type} {q : Phase} {x : M α} {f : α → M β} {Q : β → Phase → Prop}
    (hx : Built k p x fun _ r => r = q) (hf : ∀ a, Built k q (f a) Q) : Built k p (x >>= f) Q :=
  .bind hx fun a _ hr => by
    subst hr
    exact hf a

/-- One sequence after another that ends in a known phase with a value of a known form. -/
theorem Built.seqOf {β : Type} {q : Phase} {V : α → Prop} {x : M α} {f : α → M β} {Q : β → Phase → Prop}
    (hx : Built k p x fun a r => r = q ∧ V a) (hf : ∀ a, V a → Built k q (f a) Q) : Built k p (x >>= f) Q :=
  .bind hx fun a _ ⟨hr, hv⟩ => by
    subst hr
    exact hf a hv

/-! ## Checks and operands -/

theorem Built.checkParam {P : Prop} [Decidable P] {code : ParamCode} {Q : Unit → Phase → Prop} (h : P → Q () .checks) :
    Built k .checks (Machine.checkParam P code) Q := .check (fun _ => trivial) h

theorem Built.doIf {P : Prop} [Decidable P] {m : M Unit} {Q : Unit → Phase → Prop} (h : P → Built k p m Q)
    (hn : ¬ P → Q () p) : Built k p (Machine.doIf P m) Q := by
  unfold Machine.doIf
  split
  next hp => exact h hp
  next hp => exact .pure (hn hp)

theorem Built.liftParam {e : Except ParamCode α} {Q : α → Phase → Prop} (h : ∀ a, e = .ok a → Q a .checks) :
    Built k .checks (Machine.liftParam e) Q := by
  cases e with
  | ok a => exact .pure (h a rfl)
  | error c => exact .raise trivial

theorem Built.needChannel {ch : ChMask} {Q : Chan → Phase → Prop} (h : ∀ i, Q i .checks) :
    Built k .checks (Machine.needChannel ch) Q := .liftParam fun i _ => h i

theorem Built.snapLen {Q : Nat → Phase → Prop} (h : Q k.start.oplen.toNat p) : Built k p Machine.snapLen Q :=
  .ask (fun _ d _ => d.flight.oplen.toNat) fun _ _ hd => by rw [hd.1]; exact h

theorem Built.snapCtrl {Q : Word → Phase → Prop} (h : Q k.start.ctrl p) : Built k p Machine.snapCtrl Q :=
  .ask (fun _ d _ => d.flight.ctrl) fun _ _ hd => by rw [hd.2.1]; exact h

theorem Built.askCfg {Q : α → Phase → Prop} (g : Config → α) (h : Q (g k.cfg) p) :
    Built k p (Machine.ask fun s => g s.cfg) Q := .ask (fun c _ _ => g c) fun _ _ _ => h

theorem snapBytes_congr {f g : Flight} (h : SameSnapshot f g) (off n : Nat) : snapBytes f off n = snapBytes g off n := by
  unfold snapBytes
  rw [h.2.2]

theorem Built.askBytes {Q : List Byte → Phase → Prop} (off n : Nat) (h : ∀ bs : List Byte, bs.length = n → Q bs p) :
    Built k p (Machine.ask fun s => snapBytes s.dcc.flight off n) Q :=
  .ask (fun _ d _ => snapBytes d.flight off n) fun _ _ _ => h _ (length_snapBytes _ _ _)

theorem Built.needRecord {n : Nat} {Q : List Byte → Phase → Prop} (h : ∀ bs : List Byte, bs.length = n → Q bs .checks) :
    Built k .checks (Machine.needRecord n) Q :=
  .seq (.snapLen rfl) fun _ =>
    .seq (.check (fun _ => trivial) fun _ => rfl) fun _ => .askBytes 0 n h

theorem Built.rangeChecked {e : Except ParamCode Unit} {Q : Unit → Phase → Prop} (h : Q () .checks) :
    Built k .checks (Machine.rangeChecked e) Q :=
  .seq (.snapCtrl rfl) fun _ => .doIf (fun _ => .liftParam fun _ _ => h) fun _ => h

/-! ## Local steps -/

/-- A note in the hidden state of the operation. -/
theorem Built.flight {Q : Unit → Phase → Prop} {g : Flight → Flight} (hg : ∀ fl, SameSnapshot (g fl) fl) (h : Q () p) :
    Built k p (update (updateFlight g)) Q := .note (fun _ => g) (fun _ fl => hg fl) h

theorem Built.logUndo {u : Undo} {Q : Unit → Phase → Prop} (h : Q () p) : Built k p (Machine.logUndo u) Q :=
  .flight (fun _ => ⟨rfl, rfl, rfl⟩) h

theorem Built.setTag {q : Pin} {t : Tag} {Q : Unit → Phase → Prop} (hk : k.store fun d => { d with tag := d.tag.set q t })
    (h : Q () .acts) : Built k .acts (Machine.setTag q t) Q := .store hk (fun _ => ⟨rfl, rfl⟩) h

/-! ## What the writes keep of the form of the chip's memories -/

theorem ChipForm.setField {cfg : Config} {ch : Chip} (f : Field) (v : BitVec f.width) (h : ChipForm cfg ch) :
    ChipForm cfg (setField ch f v) := by
  cases f <;> exact h

theorem ChipForm.copyRegister {cfg : Config} {ch : Chip} (image : Chip) (f : Field) (h : ChipForm cfg ch) :
    ChipForm cfg (copyRegister image f ch) := by
  cases f <;> exact h

theorem ChipForm.setReg {cfg : Config} {ch : Chip} (r : ChipReg) (v : Nat) (h : ChipForm cfg ch) :
    ChipForm cfg (setReg ch r v) := by
  cases r <;> exact h

theorem ChipForm.getObj {cfg : Config} {ch : Chip} (h : ChipForm cfg ch) (o : MboxObj) :
    (Machine.getObj ch o).wf ∧ (Machine.getObj ch o).bounded (objSize o) := by
  obtain ⟨hc, hm, hmm, hs, _⟩ := h
  cases o
  · exact hc
  · exact hm
  · exact hmm
  · exact hs

theorem ChipForm.setObj {cfg : Config} {ch : Chip} (h : ChipForm cfg ch) (o : MboxObj) {m : Memory}
    (hm : m.wf ∧ m.bounded (objSize o)) : ChipForm cfg (Machine.setObj ch o m) := by
  obtain ⟨hc, hmo, hmm, hs, hb⟩ := h
  cases o
  · exact ⟨hm, hmo, hmm, hs, hb⟩
  · exact ⟨hc, hm, hmm, hs, hb⟩
  · exact ⟨hc, hmo, hm, hs, hb⟩
  · exact ⟨hc, hmo, hmm, hm, hb⟩

theorem ChipForm.writeObj {cfg : Config} {ch : Chip} (h : ChipForm cfg ch) (o : MboxObj) {off : Nat} {bytes : List Byte}
    (hlen : off + bytes.length ≤ objSize o) :
    ChipForm cfg (Machine.setObj ch o ((Machine.getObj ch o).writeBytes off bytes)) :=
  h.setObj o ⟨Memory.wf_writeBytes (h.getObj o).1, Memory.bounded_writeBytes (h.getObj o).2 hlen⟩

theorem ChipForm.writeBulk {cfg : Config} {ch : Chip} (h : ChipForm cfg ch) {a : Nat} {bytes : List Byte}
    (ha : ∀ j < bytes.length, bulkMapped cfg (a + j) = true) :
    ChipForm cfg { ch with bulk := ch.bulk.writeBytes a bytes } := by
  obtain ⟨hc, hm, hmm, hs, hwf, hmap⟩ := h
  refine ⟨hc, hm, hmm, hs, Memory.wf_writeBytes hwf, fun c hx => ?_⟩
  obtain hx | hx := Memory.mem_writeBytes hx
  · have hmapped := ha (c.1 - a) (by omega)
    rwa [Nat.add_sub_cancel' hx.1] at hmapped
  · exact hmap c hx

/-! ## Transactions -/

theorem Built.mboxCfgRead {o : MboxObj} {off n : Nat} {Q : List Byte → Phase → Prop} (hp : p = .checks ∨ p = .acts)
    (ht : k.txn (.cfgRead (objId k.cfg o) off n)) (h : ∀ bs : List Byte, bs.length = n → Q bs p) :
    Built k p (Machine.mboxCfgRead o off n) Q :=
  .seqOf (V := fun c => c = k.cfg) (.askCfg id ⟨rfl, rfl⟩) fun _ hc => by
    subst hc
    exact .read (get := fun ch _ => (getObj ch o).readBytes off n) hp ht rfl fun _ _ => h _ (Memory.length_readBytes _ _ _)

theorem Built.mboxGet {c : MboxCmd} {sel : List Byte} {n : Nat} {get : Chip → Nat → α} {Q : α → Phase → Prop}
    (hp : p = .checks ∨ p = .acts) (ht : k.txn (.mboxGet (cmdId k.cfg c) sel n)) (h : ∀ ch d, Q (get ch d) p) :
    Built k p (Machine.mboxGet c sel n fun s => get s.chip s.env.draws) Q :=
  .seqOf (V := fun c => c = k.cfg) (.askCfg id ⟨rfl, rfl⟩) fun _ hc => by
    subst hc
    exact .read hp ht rfl h

theorem Built.fieldRead {f : Field} {Q : BitVec f.width → Phase → Prop} (hp : p = .checks ∨ p = .acts)
    (ht : k.txn (.fieldRead f)) (h : ∀ v, Q v p) : Built k p (Machine.fieldRead f) Q :=
  .read (get := fun ch _ => getField ch f) hp ht rfl fun _ _ => h _

theorem Built.memRead {a n : Nat} {Q : List Byte → Phase → Prop} (hp : p = .checks ∨ p = .acts) (ht : k.txn (.memRead a n))
    (h : ∀ bs : List Byte, bs.length = n → Q bs p) : Built k p (Machine.memRead a n) Q :=
  .read (get := fun ch _ => ch.bulk.readBytes a n) hp ht rfl fun _ _ => h _ (Memory.length_readBytes _ _ _)

theorem Built.mboxCfgWrite {o : MboxObj} {off : Nat} {bytes : List Byte} {Q : Unit → Phase → Prop}
    (ht : k.txn (.cfgWrite (objId k.cfg o) off bytes)) (hlen : off + bytes.length ≤ objSize o) (h : Q () .acts) :
    Built k .acts (Machine.mboxCfgWrite o off bytes) Q :=
  .seqOf (V := fun c => c = k.cfg) (.askCfg id ⟨rfl, rfl⟩) fun _ hc => by
    subst hc
    exact .write {} ht (fun _ hch => hch.writeObj o hlen)
      (fun _ _ hch => hch.writeObj o (by rw [length_tornBytes]; exact hlen)) h

theorem Built.mboxSet {c : MboxCmd} {payload : List Byte} {f : Chip → Chip} {g : Nat → Chip → Chip} (r : Request)
    {Q : Unit → Phase → Prop} (ht : k.txn (.mboxSet (cmdId k.cfg c) payload))
    (hf : ∀ ch, ChipForm k.cfg ch → ChipForm k.cfg (f ch)) (hg : ∀ d ch, ChipForm k.cfg ch → ChipForm k.cfg (g d ch))
    (h : Q () .acts) :
    Built k .acts (Machine.mboxSet c payload (fun s => updateEnv r.deliver (updateChip f s)) fun d => updateChip (g d)) Q :=
  .seqOf (V := fun c => c = k.cfg) (.askCfg id ⟨rfl, rfl⟩) fun _ hc => by
    subst hc
    exact .write r ht hf hg h

theorem Built.fieldWrite {f : Field} {v : BitVec f.width} {Q : Unit → Phase → Prop} (ht : k.txn (.fieldWrite f v.toNat))
    (h : Q () .acts) : Built k .acts (Machine.fieldWrite f v) Q :=
  .seq (.turn rfl) fun _ =>
    .seq (.ask (fun _ _ ch => ch) fun _ _ _ => rfl) fun _ => by
      exact .write {} ht (fun _ hch => (hch.copyRegister _ f).setField f v) (fun _ _ hch => hch.setField f _) h

theorem Built.memWrite {a : Nat} {bytes : List Byte} {Q : Unit → Phase → Prop} (ht : k.txn (.memWrite a bytes))
    (ha : ∀ j < bytes.length, bulkMapped k.cfg (a + j) = true) (h : Q () .acts) :
    Built k .acts (Machine.memWrite a bytes) Q :=
  .write {} ht (fun _ hch => hch.writeBulk ha) (fun _ _ hch => hch.writeBulk (by rw [length_tornBytes]; exact ha)) h

theorem Built.regWrite {reg : ChipReg} {v : Nat} {f : Chip → Chip} (r : Request) {Q : Unit → Phase → Prop}
    (ht : k.txn (.regWrite (regAddress k.cfg reg) v)) (hf : ∀ ch, ChipForm k.cfg ch → ChipForm k.cfg (f ch)) (h : Q () .acts) :
    Built k .acts (Machine.regWrite reg v fun s => updateEnv r.deliver (updateChip f s)) Q :=
  .seqOf (V := fun c => c = k.cfg) (.askCfg id ⟨rfl, rfl⟩) fun _ hc => by
    subst hc
    exact .write (f := fun ch => f (setReg ch reg v)) r ht (fun ch hch => hf _ (hch.setReg reg v))
      (fun _ _ hch => hch.setReg reg _) h

theorem Built.gpioDirSet {q : Pin} {d : Dir} {Q : Unit → Phase → Prop} (ht : k.txn (.gpioDirSet q d)) (h : Q () .acts) :
    Built k .acts (Machine.gpioDirSet q d) Q :=
  .write (f := fun ch => { ch with dir := ch.dir.set q d })
    (g := fun n ch => { ch with dir := ch.dir.set q (if (Config.tornMask n 0).testBit 0 then d else ch.dir.get q) })
    {} ht (fun _ hch => hch) (fun _ _ hch => hch) h

/-! ## The pin setups -/

/-- The scope of an operation that runs a pin setup. -/
structure Scope.Setup (k : Scope) : Prop where
  txn : ∀ x, gpioSpace x → k.txn x
  tag : ∀ (q : Pin) (t : Tag), k.store fun d => { d with tag := d.tag.set q t }

theorem Built.replayUndo (hk : k.Setup) (us : List Undo) : Built k .acts (Machine.replayUndo us) fun _ q => q = .acts := by
  induction us with
  | nil => exact .pure rfl
  | cons u us ih =>
    cases u with
    | tag q t => exact .seq (.setTag (hk.tag q t) rfl) fun _ => ih
    | dir q d =>
      exact .seq (.dropFailure (.gpioDirSet (hk.txn _ trivial) rfl) rfl) fun _ => ih

theorem Built.findPrev {f : Tag} : Built k .acts (Machine.findPrev f) fun _ q => q = .acts :=
  .seq (.note (fun d fl => { fl with prev := scanTag d.tag f }) (fun _ _ => ⟨rfl, rfl, rfl⟩) rfl)
    fun _ => .ask (fun _ d _ => d.flight.prev) fun _ _ _ => rfl

theorem Built.releaseTrig (hk : k.Setup) (prev : Option Pin) :
    Built k .acts (Machine.releaseTrig prev) fun _ q => q = .acts := by
  cases prev with
  | none => exact .pure rfl
  | some q =>
    exact .seq (.gpioDirSet (hk.txn _ trivial) rfl) fun _ =>
      .seq (.setTag (hk.tag _ _) rfl) fun _ => .logUndo rfl

theorem Built.releaseDone (hk : k.Setup) (prev : Option Pin) :
    Built k .acts (Machine.releaseDone prev) fun _ q => q = .acts := by
  cases prev with
  | none => exact .pure rfl
  | some q =>
    exact .seq (.gpioDirSet (hk.txn _ trivial) rfl) fun _ =>
      .seq (.logUndo rfl) fun _ =>
      .seq (.setTag (hk.tag _ _) rfl) fun _ => .logUndo rfl

theorem Built.acquireTrig (hk : k.Setup) (q : Pin) : Built k .acts (Machine.acquireTrig q) fun _ r => r = .acts :=
  .seq (.ask (fun _ d _ => d.tag.get q) fun _ _ _ => rfl) fun _ =>
    .seq (.check (fun _ => trivial) fun _ => rfl) fun _ =>
    .seq (.setTag (hk.tag _ _) rfl) fun _ =>
    .seq (.logUndo rfl) fun _ => .gpioDirSet (hk.txn _ trivial) rfl

theorem Built.acquireDone (hk : k.Setup) (q : Pin) : Built k .acts (Machine.acquireDone q) fun _ r => r = .acts :=
  .seq (.ask (fun _ d _ => d.tag.get q) fun _ _ _ => rfl) fun _ =>
    .seq (.check (fun _ => trivial) fun _ => rfl) fun _ =>
    .seq (.setTag (hk.tag _ _) rfl) fun _ =>
    .seq (.logUndo rfl) fun _ =>
    .seq (.gpioDirSet (hk.txn _ trivial) rfl) fun _ =>
    .seq (.logUndo rfl) fun _ =>
    .seq (.askCfg (fun c => c.srcctlMemElem) rfl) fun _ =>
    .fieldWrite (hk.txn _ trivial) rfl

theorem Built.resetNibble (hk : k.Setup) (prev : Option Pin) :
    Built k .acts (Machine.resetNibble prev) fun _ q => q = .acts := by
  cases prev with
  | none => exact .pure rfl
  | some q =>
    exact .seq (.askCfg (fun c => c.srcctlDefault) rfl) fun _ =>
      .fieldWrite (hk.txn _ trivial) rfl

theorem Built.moveTrigPin (hk : k.Setup) (pin : PinCode) : Built k .acts (Machine.moveTrigPin pin) fun _ q => q = .acts :=
  .seq .findPrev fun prev => .seq (.releaseTrig hk prev) fun _ => by
    split
    · exact .pure rfl
    · exact .acquireTrig hk _

theorem Built.moveDonePin (hk : k.Setup) (pin : PinCode) : Built k .acts (Machine.moveDonePin pin) fun _ q => q = .acts :=
  .seq .findPrev fun prev => .seq (.releaseDone hk prev) fun _ => by
    split
    · exact .resetNibble hk prev
    · exact .acquireDone hk _

/-- In a setup that `CAPCFG.SET` runs, the pin code has been checked before. -/
theorem Built.setupTrigPin (hk : k.Setup) {pin : PinCode} (hp : p = .checks ∨ p = .acts ∧ pinSetupLegal pin = true)
    (hs : k.store fun d => { d with sessTrigPin := pin }) : Built k p (Machine.setupTrigPin pin) fun _ q => q = .acts := by
  refine .seq (.check (fun hpin => ?_) fun _ => rfl) fun _ => ?_
  · obtain rfl | ⟨rfl, hl⟩ := hp
    · trivial
    · exact absurd hl hpin
  · have hrest : Built k .acts (Machine.withRollback (Machine.moveTrigPin pin) >>= fun _ =>
        Machine.writeLocal fun d => { d with sessTrigPin := pin }) fun _ q => q = .acts :=
      .seq (.withRollback (.moveTrigPin hk pin) (.replayUndo hk) rfl) fun _ =>
        .store hs (fun _ => ⟨rfl, rfl⟩) rfl
    obtain rfl | ⟨rfl, _⟩ := hp
    · exact .later hrest
    · exact hrest

theorem Built.nibbleCheck (hk : k.Setup) (hp : p = .checks ∨ p = .acts) (q : Pin) :
    Built k p (Machine.nibbleCheck q) fun _ r => r = p :=
  .seq (.fieldRead hp (hk.txn _ trivial) fun _ => rfl) fun _ =>
    .seq (.askCfg id rfl) fun _ => .check
      (fun _ => by obtain rfl | rfl := hp <;> trivial) fun _ => rfl

theorem Built.setupDonePin (hk : k.Setup) {pin : PinCode} (hp : p = .checks ∨ p = .acts ∧ pinSetupLegal pin = true)
    (hs : k.store fun d => { d with sessDonePin := pin }) : Built k p (Machine.setupDonePin pin) fun _ q => q = .acts := by
  refine .seq (.check (fun hpin => ?_) fun _ => rfl) fun _ => ?_
  · obtain rfl | ⟨rfl, hl⟩ := hp
    · trivial
    · exact absurd hl hpin
  · have hrest : Built k .acts (Machine.withRollback (Machine.moveDonePin pin) >>= fun _ =>
        Machine.writeLocal fun d => { d with sessDonePin := pin }) fun _ q => q = .acts :=
      .seq (.withRollback (.moveDonePin hk pin) (.replayUndo hk) rfl) fun _ =>
        .store hs (fun _ => ⟨rfl, rfl⟩) rfl
    refine .seq (.doIf (fun _ => .nibbleCheck hk (hp.imp_right And.left) _) fun _ => rfl)
      fun _ => ?_
    obtain rfl | ⟨rfl, _⟩ := hp
    · exact .later hrest
    · exact hrest

/-! ## The LUT sequences -/

theorem Built.pollClock {i : Chan} {en : BitVec 1} (hk : ∀ x, lutSpace k.cfg x → k.txn x) (n : Nat) :
    Built k .acts (Machine.pollClock i en n) fun _ q => q = .acts := by
  induction n with
  | zero => exact .raise trivial
  | succ n ih =>
    refine .seq (.flight (fun _ => ⟨rfl, rfl, rfl⟩) rfl) fun _ =>
      .seq (.fieldRead (.inr rfl) (hk _ nofun) fun _ => rfl) fun _ => ?_
    split
    · exact .pure rfl
    · exact ih

theorem Built.clockSeq {i : Chan} {en : BitVec 1} (hk : ∀ x, lutSpace k.cfg x → k.txn x) :
    Built k .acts (Machine.clockSeq i en) fun _ q => q = .acts :=
  .seq (.askCfg id rfl) fun _ =>
    .seq (.regWrite (f := id) {} (hk _ (.inl rfl)) (fun _ h => h) rfl) fun _ =>
    .seq (.regWrite (f := id) {} (hk _ (.inr (.inl rfl))) (fun _ h => h) rfl) fun _ =>
    .seq (.regWrite (f := id) { streamReqs := fun l => l ++ [(i, en)] }
      (hk _ (.inr (.inr rfl))) (fun _ h => h) rfl) fun _ =>
    .seq (.flight (fun _ => ⟨rfl, rfl, rfl⟩) rfl) fun _ => .pollClock hk _

theorem Built.readSwapFlag (hp : p = .checks ∨ p = .acts) (ht : k.txn (.cfgRead k.cfg.objSwapModeEn 0 1)) :
    Built k p Machine.readSwapFlag fun _ q => q = p :=
  .seq (.mboxCfgRead hp ht fun _ _ => rfl) fun _ => .pure rfl

theorem Built.swapOn (hk : ∀ x, lutSpace k.cfg x → k.txn x) : Built k .acts Machine.swapOn fun _ q => q = .acts :=
  .seq (.snapCtrl rfl) fun _ => by
    split
    · exact .readSwapFlag (.inr rfl) (hk _ rfl)
    · exact .ask (fun _ d _ => d.sessSwapEn == 1) fun _ _ _ => rfl

theorem Built.saveActuator {i : Chan} {l : BitVec 5} (hk : ∀ x, lutSpace k.cfg x → k.txn x) :
    Built k .acts (Machine.saveActuator i l) fun _ q => q = .acts := by
  have read : ∀ f : Field, (∀ g, f ≠ .srcctl g) → Built k .acts (Machine.fieldRead f) fun _ q => q = .acts :=
    fun f hf => .fieldRead (.inr rfl) (hk _ hf) fun _ => rfl
  have keep : ∀ g : Flight → Flight, (∀ fl, SameSnapshot (g fl) fl) → Built k .acts (update (updateFlight g)) fun _ q => q = .acts :=
    fun g hg => .flight hg rfl
  exact .seq (read (.lutPower i l) nofun) fun _ => .seq (keep _ fun _ => ⟨rfl, rfl, rfl⟩) fun _ =>
    .seq (read (.actEn i) nofun) fun _ => .seq (keep _ fun _ => ⟨rfl, rfl, rfl⟩) fun _ =>
    .seq (read (.actPt i) nofun) fun _ => .seq (keep _ fun _ => ⟨rfl, rfl, rfl⟩) fun _ =>
    .seq (read (.ramSel i) nofun) fun _ => keep _ fun _ => ⟨rfl, rfl, rfl⟩

theorem Built.actWrite {f : Field} {v : BitVec f.width} (hk : ∀ x, lutSpace k.cfg x → k.txn x) (hf : ∀ g, f ≠ .srcctl g) :
    Built k .acts (Machine.fieldWrite f v) fun _ q => q = .acts := .fieldWrite (hk _ hf) rfl

theorem Built.askFlight {Q : Flight → Phase → Prop} (h : ∀ fl, SameSnapshot fl k.start → Q fl p) :
    Built k p (Machine.ask fun s => s.dcc.flight) Q := .ask (fun _ d _ => d.flight) fun _ _ hd => h _ hd

theorem Built.restoreActuator {i : Chan} (hk : ∀ x, lutSpace k.cfg x → k.txn x) :
    Built k .acts (Machine.restoreActuator i) fun _ q => q = .acts :=
  .seq (.askFlight fun _ _ => rfl) fun _ =>
    .seq (.actWrite hk nofun) fun _ => .seq (.actWrite hk nofun) fun _ => .actWrite hk nofun

theorem Built.restorePower {i : Chan} {l : BitVec 5} {b : Bool} (hk : ∀ x, lutSpace k.cfg x → k.txn x) :
    Built k .acts (Machine.restorePower i l b) fun _ q => q = .acts :=
  .seq (.askFlight fun _ _ => rfl) fun _ =>
    .doIf (fun _ => .actWrite hk nofun) fun _ => rfl

/-- The access sequence around a bulk transfer. -/
theorem Built.lutAccess {i : Chan} {l : BitVec 5} {policy : Word → Bool} {xfer : M α} {V : α → Prop}
    (hk : ∀ x, lutSpace k.cfg x → k.txn x) (hx : Built k .acts xfer fun a q => q = .acts ∧ V a) :
    Built k .acts (Machine.lutAccess i l policy xfer) fun a q => q = .acts ∧ V a :=
  .seq (.saveActuator hk) fun _ => .seq (.actWrite hk nofun) fun _ =>
    .seq (.actWrite hk nofun) fun _ => .seq (.clockSeq hk) fun _ =>
    .seq (.actWrite hk nofun) fun _ => .seqOf hx fun _ hv =>
    .seq (.swapOn hk) fun _ => .seq (.doIf (fun _ => .restoreActuator hk) fun _ => rfl)
      fun _ => .seq (.clockSeq hk) fun _ =>
    .seq (.snapCtrl rfl) fun _ => .seq (.restorePower hk) fun _ => .pure ⟨rfl, hv⟩

/-- A run that stays inside one LUT lies in its channel's window. -/
theorem inLutMem_lutAddress (cfg : Config) (i : Chan) (l : BitVec 5) (b : BitVec 2) {n : Nat} (h : 1024 * b.toNat + n ≤ 4096) :
    inLutMem cfg (lutAddress cfg i l b) n := by
  have hl := l.isLt
  refine ⟨i, ?_⟩
  unfold lutAddress Config.lutWindow
  omega

theorem Built.lutWriteSeq {i : Chan} {l : BitVec 5} {b : BitVec 2} {data : List Byte} (hk : ∀ x, lutSpace k.cfg x → k.txn x)
    (hlen : 1024 * b.toNat + data.length ≤ 4096) : Built k .acts (Machine.lutWriteSeq i l b data) fun _ q => q = .acts := by
  refine .seqOf (V := fun c => c = k.cfg) (.askCfg id ⟨rfl, rfl⟩) fun c hc => ?_
  subst hc
  have h := Built.lutAccess (i := i) (l := l) (policy := ctrlWrRestorePower) (V := fun _ => True) hk
    (.memWrite (hk (.memWrite (lutAddress k.cfg i l b) data) (inLutMem_lutAddress k.cfg i l b hlen))
      (fun j hj => bulkMapped_lutAddress k.cfg i l b (by omega)) ⟨rfl, trivial⟩)
  simpa using h

/-- One pass over descriptors whose runs stay inside one LUT. -/
theorem Built.swapPass {c : Chan} {b : BitVec 2} {shift : Nat} (hk : ∀ x, lutSpace k.cfg x → k.txn x) {is : List Nat}
    (h : ∀ i ∈ is, descPopulated k.start i = true → 1024 * b.toNat + descSize k.start i ≤ 4096) :
    Built k .acts (Machine.swapPass c b shift is) fun _ q => q = .acts := by
  induction is with
  | nil => exact .pure rfl
  | cons i is ih =>
    refine .seqOf (V := fun f => SameSnapshot f k.start) (.askFlight fun _ hf => ⟨rfl, hf⟩) fun f hf => ?_
    have hsize : descSize f i = descSize k.start i := by unfold descSize; rw [snapBytes_congr hf]
    have hoff : descPopulated f i = descPopulated k.start i := by
      unfold descPopulated descOff
      rw [snapBytes_congr hf]
    refine .seq (.doIf (fun hd => .lutWriteSeq hk ?_) fun _ => rfl) fun _ => ih fun j hj => h j (List.mem_cons_of_mem _ hj)
    have hi := h i (by simp) (hoff ▸ hd)
    unfold descData
    rw [length_snapBytes, hsize]
    exact hi

end Sys2Proof.Machine
end

section
/-! PROOF. Every operation as a sequence of admitted micro-steps behind its row of the sequence gate. -/

namespace Sys2Proof.Machine

/-- The fields of the DCC-local state that operation `i` does not write are the same in `d` and `e` (10_state.md R29, R30). -/
structure SessionSame (i : Instr) (d e : DccRegs) : Prop where
  donePin : i ≠ .capcfgSet → (∀ pin, i ≠ .donepinSetup pin) → e.sessDonePin = d.sessDonePin
  trigPin : i ≠ .capcfgSet → (∀ pin, i ≠ .trigpinSetup pin) → e.sessTrigPin = d.sessTrigPin
  swapEn : i ≠ .swapGeten → (∀ en, i ≠ .swapEn en) → e.sessSwapEn = d.sessSwapEn
  tag : i ≠ .capcfgSet → (∀ pin, i ≠ .donepinSetup pin) → (∀ pin, i ≠ .trigpinSetup pin) → e.tag = d.tag

theorem SessionSame.refl (i : Instr) (d : DccRegs) : SessionSame i d d where
  donePin _ _ := rfl
  trigPin _ _ := rfl
  swapEn _ _ := rfl
  tag _ _ _ := rfl

theorem SessionSame.trans {i : Instr} {d e f : DccRegs} (h : SessionSame i d e) (h' : SessionSame i e f) :
    SessionSame i d f where
  donePin h1 h2 := (h'.donePin h1 h2).trans (h.donePin h1 h2)
  trigPin h1 h2 := (h'.trigPin h1 h2).trans (h.trigPin h1 h2)
  swapEn h1 h2 := (h'.swapEn h1 h2).trans (h.swapEn h1 h2)
  tag h1 h2 h3 := (h'.tag h1 h2 h3).trans (h.tag h1 h2 h3)

/-- What operation `i` may do, started with the operand snapshot of `fl`. -/
def scopeOf (i : Instr) (cfg : Config) (fl : Flight) : Scope where
  cfg := cfg
  start := fl
  txn := reaches cfg i
  store f := ∀ d, SessionSame i d (f d)

/-- How operation `i` may end: a bounded result, and `cap_state` as the table says (42_capture_fsm.md R203). -/
def EndsAs (i : Instr) (r : Result) (q : Phase) : Prop :=
  r.data.length ≤ 4096 ∧ ∀ c, q.capState c = nextCapState c i (r.info.setWidth 32 <<< 8)

/-- The sequence gate of an operation, and what stands behind it. -/
inductive Behind (i : Instr) (rest : M Result) : Prop
  | open : (∀ c, admitted i c = true) → body i = rest → Behind i rest
  | gate (row : GateRow) : (∀ c, gateOpen row c = admitted i c) → body i = (gate row >>= fun _ => rest) → Behind i rest

theorem resClass_ok (info : Byte) : resClass (info.setWidth 32 <<< 8) = 0 := by
  rw [← resWord_ok default, resClass_resWord]
  rfl

theorem resInfo_okWord (info : Byte) : resInfo (info.setWidth 32 <<< 8) = info := by
  rw [← resWord_ok default, resInfo_ok]

/-- An operation outside the four that move the state machine leaves it where it is when it ends with `Ok`. -/
theorem nextCapState_ok {i : Instr} (info : Byte) (h : i ≠ .capcfgSet ∧ i ≠ .capStart ∧ i ≠ .capPoll ∧ i ≠ .capRddone)
    (c : CapState) : nextCapState c i (info.setWidth 32 <<< 8) = c := by
  unfold nextCapState
  rw [resClass_ok]
  simp [h]

theorem EndsAs.same {i : Instr} {r : Result} {q : Phase} (hlen : r.data.length ≤ 4096) (hq : q = .checks ∨ q = .acts)
    (h : i ≠ .capcfgSet ∧ i ≠ .capStart ∧ i ≠ .capPoll ∧ i ≠ .capRddone) : EndsAs i r q := by
  refine ⟨hlen, fun c => ?_⟩
  rw [nextCapState_ok _ h]
  obtain rfl | rfl := hq <;> rfl

variable {k : Scope} {p : Phase}

theorem length_serCtrl (cfg : Config) (c : CapCtrl) : (serCtrl cfg c).length = 22 := rfl
theorem length_serLevel (cfg : Config) (v : CapLevel) : (serLevel cfg v).length = 4 := rfl
theorem length_serConfig (cfg : Config) (c : CapConfig) : (serConfig cfg c).length = 58 := rfl
theorem length_ctrlHost (c : CapCtrl) : (ctrlHost c).length = 24 := rfl
theorem length_levelHost (v : CapLevel) : (levelHost v).length = 4 := rfl
theorem length_threshHost (t : PwrThresh) : (threshHost t).length = 8 := rfl
theorem length_configHost (c : CapConfig) : (configHost c).length = 58 := rfl

/-! ## The GPIO family -/

theorem setup_scope {i : Instr} {cfg : Config} {fl : Flight} (h : ∀ x, gpioSpace x → reaches cfg i x)
    (hi : i = .capcfgSet ∨ (∃ pin, i = .donepinSetup pin) ∨ ∃ pin, i = .trigpinSetup pin) : (scopeOf i cfg fl).Setup where
  txn := h
  tag _ _ _ := by
    refine ⟨fun _ _ => rfl, fun _ _ => rfl, fun _ _ => rfl, fun h1 h2 h3 => ?_⟩
    obtain h | ⟨pin, h⟩ | ⟨pin, h⟩ := hi
    · exact absurd h h1
    · exact absurd h (h2 pin)
    · exact absurd h (h3 pin)

variable (cfg : Config) (fl : Flight)

theorem built_srcctlSet (pin : PinCode) (val : BitVec 4) :
    Built (scopeOf (.srcctlSet pin val) cfg fl) .checks (srcctlSet pin val) (EndsAs (.srcctlSet pin val)) :=
  .seq (.checkParam fun _ => rfl) fun _ => .later <| .seq (.fieldWrite trivial rfl) fun _ =>
    .pure (.same (by simp) (.inr rfl) (by simp))

theorem built_srcctlGet (pin : PinCode) :
    Built (scopeOf (.srcctlGet pin) cfg fl) .checks (srcctlGet pin) (EndsAs (.srcctlGet pin)) :=
  .seq (.checkParam fun _ => rfl) fun _ => .seq (.fieldRead (.inl rfl) trivial fun _ => rfl) fun _ =>
    .pure (.same (by simp) (.inl rfl) (by simp))

theorem built_pinQuery (f : Tag) {Q : Result → Phase → Prop} (h : ∀ info, Q { info := info } p) : Built k p (pinQuery f) Q :=
  .seq (.ask (fun _ d _ => codeOfPin (scanTag d.tag f)) fun _ _ _ => rfl) fun _ => .pure (h _)

theorem built_donepinSetup (pin : PinCode) :
    Built (scopeOf (.donepinSetup pin) cfg fl) .checks (donepinSetup pin) (EndsAs (.donepinSetup pin)) :=
  .seq (.setupDonePin (setup_scope (i := .donepinSetup pin) (fun _ h => h) (.inr (.inl ⟨pin, rfl⟩))) (.inl rfl) fun _ =>
      ⟨fun _ h => absurd rfl (h pin), fun _ _ => rfl, fun _ _ => rfl, fun _ h => absurd rfl (h pin)⟩) fun _ =>
    .pure (.same (by simp) (.inr rfl) (by simp))

theorem built_trigpinSetup (pin : PinCode) :
    Built (scopeOf (.trigpinSetup pin) cfg fl) .checks (trigpinSetup pin) (EndsAs (.trigpinSetup pin)) :=
  .seq (.setupTrigPin (setup_scope (i := .trigpinSetup pin) (fun _ h => h) (.inr (.inr ⟨pin, rfl⟩))) (.inl rfl) fun _ =>
      ⟨fun _ _ => rfl, fun _ h => absurd rfl (h pin), fun _ _ => rfl, fun _ _ h => absurd rfl (h pin)⟩) fun _ =>
    .pure (.same (by simp) (.inr rfl) (by simp))

/-! ## The capture families, behind their gates -/

theorem Built.pinPairCheck {c : CapConfig} :
    Built k .checks (Machine.pinPairCheck c) fun _ q =>
      q = .checks ∧ pinSetupLegal c.triggerPin = true ∧ pinSetupLegal c.donePin = true :=
  .seqOf (.checkParam fun h => ⟨rfl, h⟩) fun _ ht => .seqOf (.checkParam fun h => ⟨rfl, h⟩) fun _ hd =>
    .check (fun _ => trivial) fun _ => ⟨rfl, ht, hd⟩

/-- What operation `i` does behind its gate is built of micro-steps its scope admits. -/
def Admissible (i : Instr) : Prop :=
  ∀ (cfg : Config) (fl : Flight), ∃ rest, Behind i rest ∧ Built (scopeOf i cfg fl) .checks rest (EndsAs i)

theorem capcfgSet_admissible : Admissible .capcfgSet := by
  intro cfg fl
  have hk : (scopeOf .capcfgSet cfg fl).Setup := setup_scope (fun _ h => .inl h) (.inl rfl)
  have own : ∀ f : DccRegs → DccRegs, (∀ d, (f d).sessSwapEn = d.sessSwapEn) → (scopeOf .capcfgSet cfg fl).store f :=
    fun f h d => ⟨fun h => absurd rfl h, fun h => absurd rfl h, fun _ _ => h d, fun h => absurd rfl h⟩
  exact ⟨_, .gate .set (fun _ => rfl) rfl,
    .seq (.needRecord fun _ _ => rfl) fun h => .seq (.liftParam fun _ _ => rfl) fun c =>
    .seq (.rangeChecked rfl) fun _ => .seqOf .pinPairCheck fun _ hp =>
    .seq (.setupTrigPin hk (.inl rfl) (own _ fun _ => rfl)) fun _ =>
    .seq (.setupDonePin hk (.inr ⟨rfl, hp.2⟩) (own _ fun _ => rfl)) fun _ =>
    .seqOf (V := fun c => c = cfg) (.askCfg id ⟨rfl, rfl⟩) fun _ _ =>
    .seq (.mboxCfgWrite (.inr ⟨_, _, rfl⟩) (by simp [length_serConfig, objSize]) rfl) fun _ =>
    .seq (.conclude .configured rfl) fun _ => .pure ⟨by simp, fun c => by
      rw [nextCapState, resClass_ok]; simp [captureFamily, Phase.capState]⟩⟩

theorem capctrlSet_admissible : Admissible .capctrlSet := fun cfg _ =>
  ⟨_, .gate .set (fun _ => rfl) rfl,
    .seq (.needRecord fun _ _ => rfl) fun _ => .seq (.liftParam fun _ _ => rfl) fun _ =>
    .seq (.rangeChecked rfl) fun _ => .seqOf (V := fun c => c = cfg) (.askCfg id ⟨rfl, rfl⟩) fun _ _ => .later <|
    .seq (.mboxCfgWrite ⟨_, _, rfl⟩ (by simp [length_serCtrl, objSize]) rfl) fun _ => .pure (.same (by simp) (.inr rfl) (by simp))⟩

theorem caplvlSet_admissible : Admissible .caplvlSet := fun cfg _ =>
  ⟨_, .gate .set (fun _ => rfl) rfl,
    .seq (.needRecord fun _ _ => rfl) fun _ => .seq (.liftParam fun _ _ => rfl) fun _ =>
    .seq (.rangeChecked rfl) fun _ => .seqOf (V := fun c => c = cfg) (.askCfg id ⟨rfl, rfl⟩) fun _ _ => .later <|
    .seq (.mboxCfgWrite ⟨_, _, rfl⟩ (by simp [length_serLevel, objSize]) rfl) fun _ => .pure (.same (by simp) (.inr rfl) (by simp))⟩

theorem pwrthSet_admissible (sel : BitVec 2) : Admissible (.pwrthSet sel) := fun cfg _ =>
  ⟨_, .gate .set (fun _ => rfl) rfl,
    .seq (.needRecord fun _ _ => rfl) fun _ => .seqOf (V := fun _ => sel ≠ 3) (.checkParam fun h => ⟨rfl, h⟩) fun _ _ =>
    .seq (.liftParam fun _ _ => rfl) fun _ =>
    .seq (.rangeChecked rfl) fun _ => .seqOf (V := fun c => c = cfg) (.askCfg id ⟨rfl, rfl⟩) fun _ _ => .later <|
    .seq (.mboxCfgWrite ⟨_, _, rfl⟩ (by
      have := sel.isLt
      simp only [length_serThresh, objSize, threshOffset]; omega) rfl) fun _ => .pure (.same (by simp) (.inr rfl) (by simp))⟩

/-- The way of the operations that read a stored record and return its host form. -/
theorem getRecord_built {i : Instr} {k : Scope} {γ : Type} {off n : Nat} {parse : Config → List Byte → Except ParamCode γ}
    {host : γ → List Byte} (ht : k.txn (.cfgRead (objId k.cfg .capture) off n)) (hlen : ∀ c, (host c).length ≤ 4096)
    (hi : i ≠ .capcfgSet ∧ i ≠ .capStart ∧ i ≠ .capPoll ∧ i ≠ .capRddone) :
    Built k .checks (do
      let b ← mboxCfgRead .capture off n
      let cfg ← ask fun s => s.cfg
      let c ← liftParam (parse cfg b)
      pure { data := host c }) (EndsAs i) :=
  .seq (.mboxCfgRead (.inl rfl) ht fun _ _ => rfl) fun _ => .seq (.askCfg id rfl) fun _ =>
    .seq (.liftParam fun _ _ => rfl) fun _ => .pure (.same (hlen _) (.inl rfl) hi)

theorem capcfgGet_admissible : Admissible .capcfgGet := fun _ _ =>
  ⟨_, .gate .get (fun _ => rfl) rfl,
    .seq (.ask (fun _ d _ => codeOfPin (scanTag d.tag .captureTrigger)) fun _ _ _ => rfl) fun t =>
    .seq (.ask (fun _ d _ => codeOfPin (scanTag d.tag .captureDone)) fun _ _ _ => rfl) fun d =>
    getRecord_built (parse := fun cfg b => parseConfig cfg t d b) ⟨_, _, rfl⟩ (fun c => by simp [length_configHost]) (by simp)⟩

theorem capctrlGet_admissible : Admissible .capctrlGet := fun _ _ =>
  ⟨_, .gate .get (fun _ => rfl) rfl, getRecord_built ⟨_, _, rfl⟩ (fun c => by simp [length_ctrlHost]) (by simp)⟩

theorem caplvlGet_admissible : Admissible .caplvlGet := fun _ _ =>
  ⟨_, .gate .get (fun _ => rfl) rfl, getRecord_built ⟨_, _, rfl⟩ (fun c => by simp [length_levelHost]) (by simp)⟩

theorem pwrthGet_admissible (sel : BitVec 2) : Admissible (.pwrthGet sel) := fun _ _ =>
  ⟨_, .gate .get (fun _ => rfl) rfl, .seq (.checkParam fun _ => rfl) fun _ =>
    getRecord_built ⟨_, _, rfl⟩ (fun c => by simp [length_threshHost]) (by simp)⟩

theorem Built.sendTrigger {i : Chan} {t : CaptureType} (hm : k.txn (.mboxSet k.cfg.cmdCaptureTrig []))
    (hr : k.txn (.regWrite k.cfg.dbgTrigReg (2 ^ i.val))) : Built k .acts (Machine.sendTrigger i t) fun _ q => q = .acts := by
  unfold Machine.sendTrigger
  split
  · exact .regWrite (f := fun ch => { ch with trigPending := true })
      { trigChan := fun _ => i, trigExt := fun _ => t == .extendedPeakSearch } hr (fun _ h => h) rfl
  · exact .mboxSet (f := fun ch => { ch with trigPending := true }) (g := fun _ => id)
      { trigChan := fun _ => i, trigExt := fun _ => t == .extendedPeakSearch } hm (fun _ h => h) (fun _ _ h => h) rfl

theorem capStart_admissible : Admissible .capStart := fun _ _ =>
  ⟨_, .gate .start (fun _ => rfl) rfl,
    .seq (.mboxCfgRead (.inl rfl) (.inl ⟨_, _, rfl⟩) fun _ _ => rfl) fun _ => .seq (.liftParam fun _ _ => rfl) fun _ => .later <|
    .seq (.sendTrigger (.inr (.inl rfl)) (.inr (.inr ⟨_, rfl⟩))) fun _ => .seq (.conclude .armed rfl) fun _ =>
    .pure ⟨by simp, fun c => by rw [nextCapState, resClass_ok]; simp [captureFamily, Phase.capState]⟩⟩

theorem capPoll_admissible : Admissible .capPoll := fun cfg fl => by
  refine ⟨_, .gate .poll (fun _ => rfl) rfl, .seq (q := .checks) (.mboxGet (get := fun ch d =>
    (Config.doneUpperBits d, ch.doneFlag.extractLsb' 0 1)) (.inl rfl) (.inl rfl) fun _ _ => rfl) fun r => ?_⟩
  split
  · exact .later <| .seq (.mboxSet (f := fun ch => { ch with doneFlag := 0 })
        (g := fun d ch => { ch with doneFlag := tornBits d 0 ch.doneFlag 0 }) {} (.inr rfl) (fun _ h => h) (fun _ _ h => h) rfl)
      fun _ => .seq (.conclude .done rfl) fun _ => .pure ⟨by simp, fun c => by
        rw [nextCapState, resClass_ok, resInfo_okWord]; simp [captureFamily, Phase.capState]⟩
  · exact .pure ⟨by simp, fun c => by rw [nextCapState, resClass_ok, resInfo_okWord]; simp [captureFamily, Phase.capState]⟩

theorem capStatus_admissible (ch : ChMask) : Admissible (.capStatus ch) := fun _ _ =>
  ⟨_, .gate .get (fun _ => rfl) rfl, .seq (.needChannel fun _ => rfl) fun i => .seq (.askCfg id rfl) fun _ =>
    .seq (.mboxGet (get := fun ch _ => (ch.dstatus.get i).toList) (.inl rfl) ⟨_, rfl⟩ fun _ _ => rfl) fun _ =>
    .pure (.same (by simp [statusHost, put32, put16]) (.inl rfl) (by simp))⟩

theorem capRddone_admissible : Admissible .capRddone := fun _ _ =>
  ⟨_, .gate .readDone (fun _ => rfl) rfl, .later <|
    .seq (.mboxSet (f := id) (g := fun _ => id) {} rfl (fun _ h => h) (fun _ _ h => h) rfl) fun _ =>
    .seq (.conclude .idle rfl) fun _ => .pure ⟨by simp, fun c => by
      rw [nextCapState, resClass_ok]; simp [captureFamily, Phase.capState]⟩⟩

/-! ## The LUT and swap families -/

theorem Built.checkModel {m : Nat} {h : List Byte} : Built k .checks (Machine.checkModel m h) fun _ q => q = .checks :=
  .seq (.checkParam fun _ => rfl) fun _ => .seq (.checkParam fun _ => rfl) fun _ => .seq (.checkParam fun _ => rfl) fun _ =>
    .seq (.checkParam fun _ => rfl) fun _ => .checkParam fun _ => rfl

theorem modelCfg_admissible (ch : ChMask) : Admissible (.modelCfg ch) := fun _ _ =>
  ⟨_, .open (fun _ => rfl) rfl, .seqOf (V := fun h => h.length = 47) (.needRecord fun _ h => ⟨rfl, h⟩) fun h hlen =>
    .seq (.needChannel fun _ => rfl) fun i => .seq .checkModel fun _ => .later <|
    .seq (.mboxCfgWrite ⟨_, _, rfl⟩ (by
      have := i.isLt
      simp only [serModel, objSize, modelOffset, List.length_cons, hlen]; omega) rfl) fun _ =>
    .pure (.same (by simp) (.inr rfl) (by simp))⟩

theorem mmodelCfg_admissible (ch : ChMask) : Admissible (.mmodelCfg ch) := fun _ _ =>
  ⟨_, .open (fun _ => rfl) rfl, .seqOf (V := fun h => h.length = 47) (.needRecord fun _ h => ⟨rfl, h⟩) fun h hlen =>
    .seq (.needChannel fun _ => rfl) fun i => .seq .checkModel fun _ => .later <|
    .seq (.mboxCfgWrite ⟨_, _, rfl⟩ (by
      have := i.isLt
      simp only [serModel, objSize, mmodelOffset, List.length_cons, hlen]; split <;> omega) rfl) fun _ =>
    .pure (.same (by simp) (.inr rfl) (by simp))⟩

theorem modelGet_admissible (ch : ChMask) : Admissible (.modelGet ch) := fun _ _ =>
  ⟨_, .open (fun _ => rfl) rfl, .seq (.needChannel fun _ => rfl) fun i =>
    .seqOf (V := fun r => r.length = 48) (.mboxCfgRead (.inl rfl) ⟨_, _, rfl⟩ fun _ h => ⟨rfl, h⟩) fun r hr =>
    .pure (.same (by simp [hr]) (.inl rfl) (by simp))⟩

theorem mmodelGet_admissible (ch : ChMask) (sel : BitVec 2) : Admissible (.mmodelGet ch sel) := fun _ _ =>
  ⟨_, .open (fun _ => rfl) rfl, .seq (.needChannel fun _ => rfl) fun i => .seq (.checkParam fun _ => rfl) fun _ =>
    .seqOf (V := fun r => r.length = 48) (.mboxCfgRead (.inl rfl) ⟨_, _, rfl⟩ fun _ h => ⟨rfl, h⟩) fun r hr =>
    .pure (.same (by simp [hr]) (.inl rfl) (by simp))⟩

theorem lutAddr_admissible (ch : ChMask) (lut : BitVec 5) (sel : BitVec 2) : Admissible (.lutAddr ch lut sel) := fun _ _ =>
  ⟨_, .open (fun _ => rfl) rfl, .seq (.needChannel fun _ => rfl) fun i => .seq (.askCfg id rfl) fun _ =>
    .pure (.same (by simp [put32]) (.inl rfl) (by simp))⟩

theorem actclkSet_admissible (ch : ChMask) (en : BitVec 1) : Admissible (.actclkSet ch en) := fun _ _ =>
  ⟨_, .open (fun _ => rfl) rfl, .seq (.needChannel fun _ => rfl) fun i => .later <| .seq (.clockSeq fun _ h => h) fun _ =>
    .pure (.same (by simp) (.inr rfl) (by simp))⟩

theorem lutWrite_admissible (ch : ChMask) (lut : BitVec 5) (sel : BitVec 2) : Admissible (.lutWrite ch lut sel) := fun _ _ =>
  ⟨_, .open (fun _ => rfl) rfl, .seq (.snapLen rfl) fun n => .seq (.check (fun _ => trivial) fun _ => rfl) fun _ =>
    .seq (.needChannel fun _ => rfl) fun i => .seqOf (V := fun _ => n ≤ 4096 - 1024 * sel.toNat) (.checkParam fun h => ⟨rfl, h⟩)
      fun _ hn => .seqOf (V := fun d => d.length = n) (.askBytes 0 n fun _ h => ⟨rfl, h⟩) fun d hd => .later <|
    .seq (.lutWriteSeq (fun _ h => h) (by have := sel.isLt; omega)) fun _ => .pure (.same (by simp) (.inr rfl) (by simp))⟩

theorem lutRead_admissible (ch : ChMask) (lut : BitVec 5) (sel : BitVec 2) : Admissible (.lutRead ch lut sel) := fun cfg fl => by
  have hsel := sel.isLt
  refine ⟨_, .open (fun _ => rfl) rfl, .seq (.needChannel fun _ => rfl) fun i => .seq (.snapLen rfl) fun n => ?_⟩
  split
  · exact .pure (.same (by simp) (.inl rfl) (by simp))
  · exact .seqOf (V := fun _ => n ≤ 4096 - 1024 * sel.toNat) (.checkParam fun h => ⟨rfl, h⟩) fun _ hn =>
      .seqOf (V := fun c => c = cfg) (.askCfg id ⟨rfl, rfl⟩) fun c hc => .later <| hc ▸
      .seqOf (V := fun d : List Byte => d.length = n) (.lutAccess (fun _ h => h)
        (.memRead (.inr rfl) (inLutMem_lutAddress _ _ _ _ (by omega)) fun _ h => ⟨rfl, h⟩)) fun d hd =>
      .pure (.same (by simp only [hd]; omega) (.inr rfl) (by simp))

theorem Built.setSessSwap {v : BitVec 1} (hk : k.store fun d => { d with sessSwapEn := v }) :
    Built k .acts (Machine.setSessSwap v) fun _ q => q = .acts := .store hk (fun _ => ⟨rfl, rfl⟩) rfl

theorem swapEn_admissible (en : BitVec 1) : Admissible (.swapEn en) := fun _ _ =>
  ⟨_, .open (fun _ => rfl) rfl, .later <| .seq (.mboxCfgWrite ⟨_, rfl⟩ (by simp [objSize]) rfl) fun _ =>
    .seq (.setSessSwap fun _ => ⟨fun _ _ => rfl, fun _ _ => rfl, fun _ h => absurd rfl (h en), fun _ _ _ => rfl⟩) fun _ =>
    .pure (.same (by simp) (.inr rfl) (by simp))⟩

theorem swapGeten_admissible : Admissible .swapGeten := fun cfg fl => by
  refine ⟨_, .open (fun _ => rfl) rfl, .seq (q := .checks) (.snapCtrl rfl) fun ctrl => ?_⟩
  split
  · exact .later <| .seq (.readSwapFlag (.inr rfl) rfl) fun on =>
      .seq (.setSessSwap fun _ => ⟨fun _ _ => rfl, fun _ _ => rfl, fun h => absurd rfl h, fun _ _ _ => rfl⟩) fun _ =>
      .pure (.same (by simp) (.inr rfl) (by simp))
  · exact .seq (.ask (fun _ d _ => d.sessSwapEn) fun _ _ _ => rfl) fun _ => .pure (.same (by simp) (.inl rfl) (by simp))

/-- The bank and the limit of a compander size, as far as they bound a run inside one LUT. -/
theorem swapBankOf_ok {cs : Byte} {bl : BitVec 2 × Nat} (h : swapBankOf cs = .ok bl) :
    cs = 8 ∧ bl = (3, 1024) ∨ cs = 9 ∧ bl = (2, 2048) := by
  unfold swapBankOf at h
  split_ifs at h with h8 h9
  · exact .inl ⟨h8, (Except.ok.inj h).symm⟩
  · exact .inr ⟨h9, (Except.ok.inj h).symm⟩

/-- No populated entry is longer than `limit`. -/
def EntriesWithin (f : Flight) (limit : Nat) : Prop := ∀ i ∈ passOrder, descPopulated f i = true → descSize f i ≤ limit

theorem desc_congr {f g : Flight} (h : SameSnapshot f g) (i : Nat) :
    descPopulated f i = descPopulated g i ∧ descSize f i = descSize g i := by
  unfold descPopulated descOff descSize
  rw [snapBytes_congr h]
  exact ⟨rfl, rfl⟩

theorem Built.swapLimits {cs : Byte} {sel : BitVec 2} {limit : Nat} :
    Built k .checks (Machine.swapLimits cs sel limit) fun _ q =>
      q = .checks ∧ (cs = 9 → sel = 0 ∨ sel = 2) ∧ EntriesWithin k.start limit :=
  .seqOf (V := fun _ => cs = 9 → sel = 0 ∨ sel = 2) (.checkParam fun h => ⟨rfl, h⟩) fun _ hcs =>
    .seqOf (V := fun f => SameSnapshot f k.start) (.askFlight fun _ hf => ⟨rfl, hf⟩) fun f hf =>
    .checkParam fun h => ⟨rfl, hcs, fun i hi hp => by
      obtain ⟨hpop, hsize⟩ := desc_congr hf i
      have := List.all_eq_true.1 h i (by simpa [passOrder] using hi)
      simpa [hpop, hsize, hp] using this⟩

theorem Built.swapPasses {c : Chan} {sel b : BitVec 2} (hk : ∀ x, lutSpace k.cfg x → k.txn x) {limit : Nat}
    (h : EntriesWithin k.start limit) (hs : 1024 * sel.toNat + limit ≤ 4096) (hb : 1024 * b.toNat + limit ≤ 4096) :
    Built k .acts (Machine.swapPasses c sel b) fun _ q => q = .acts :=
  .seq (.swapPass hk fun i hi hp => by have := h i hi hp; omega) fun _ => .seq (.actWrite hk nofun) fun _ =>
    .seq (.swapPass hk fun i hi hp => by have := h i hi hp; omega) fun _ => .actWrite hk nofun

theorem swapWrite_admissible (ch : ChMask) (sel : BitVec 2) : Admissible (.swapWrite ch sel) := fun cfg fl => by
  refine ⟨_, .open (fun _ => rfl) rfl, .seq (.snapLen rfl) fun n => .seq (.check (fun _ => trivial) fun _ => rfl) fun _ =>
    .seq (.checkParam fun _ => rfl) fun _ => .seq (.needChannel fun _ => rfl) fun c => .seq (.askFlight fun _ _ => rfl) fun f =>
    .seq (.checkParam fun _ => rfl) fun _ => .seq (.mboxCfgRead (.inl rfl) (.inr ⟨_, _, rfl⟩) fun _ _ => rfl) fun m =>
    .seqOf (V := fun bl => swapBankOf (byteAt m 4) = .ok bl) (.liftParam fun _ h => ⟨rfl, h⟩) fun bl hbl =>
    .seqOf .swapLimits fun _ hlim => .later <| .seq (.swapPasses (fun _ h => .inl h) hlim.2 ?_ ?_) fun _ =>
    .pure (.same (by simp) (.inr rfl) (by simp))⟩
  · have hsel := sel.isLt
    obtain ⟨_, rfl⟩ | ⟨h9, rfl⟩ := swapBankOf_ok hbl
    · simp only; omega
    · obtain rfl | rfl := hlim.1 h9 <;> decide
  · obtain ⟨_, rfl⟩ | ⟨_, rfl⟩ := swapBankOf_ok hbl <;> decide

theorem inCorrMem_row (cfg : Config) {row n : Nat} (hr : row < 52) (hn : n ≤ 512) : inCorrMem cfg (corrAddress cfg row) n := by
  unfold inCorrMem corrAddress Config.corrWindow
  omega

theorem Built.writeRow {row : Nat} {data : List Byte} (hk : ∀ a bs, inCorrMem k.cfg a bs.length → k.txn (.memWrite a bs))
    (hr : row < 52) (hd : data.length ≤ 512) : Built k .acts (Machine.writeRow row data) fun _ q => q = .acts := by
  refine .seqOf (V := fun c => c = k.cfg) (.askCfg id ⟨rfl, rfl⟩) fun c hc => ?_
  subst hc
  have run : ∀ bs : List Byte, bs.length ≤ 512 →
      Built k .acts (Machine.memWrite (corrAddress k.cfg row) bs) fun _ q => q = .acts := fun bs hbs =>
    .memWrite (hk _ _ (inCorrMem_row _ hr hbs)) (fun j hj => bulkMapped_corrAddress _ hr (by omega)) rfl
  exact .seq (.doIf (fun _ => run _ (le_of_eq List.length_replicate)) fun _ => rfl) fun _ => run _ hd

theorem mmlutWrite_admissible (lut : BitVec 5) : Admissible (.mmlutWrite lut) := fun _ _ =>
  ⟨_, .open (fun _ => rfl) rfl, .seq (.snapLen rfl) fun n => .seq (.check (fun _ => trivial) fun _ => rfl) fun _ =>
    .seqOf (V := fun _ => lut.toNat ≤ 25) (.checkParam fun h => ⟨rfl, h⟩) fun _ hl => .seq (.checkParam fun _ => rfl) fun _ =>
    .seqOf (V := fun _ => n ≤ 1024) (.checkParam fun h => ⟨rfl, h⟩) fun _ hn => .seq (.askFlight fun _ _ => rfl) fun f => .later <|
    .seq (.writeRow (fun _ _ h => ⟨_, _, rfl, h⟩) (by omega) (by rw [length_snapBytes]; omega)) fun _ =>
    .seq (.doIf (fun _ => .writeRow (fun _ _ h => ⟨_, _, rfl, h⟩) (by omega) (by rw [length_snapBytes]; omega)) fun _ => rfl)
      fun _ => .pure (.same (by simp) (.inr rfl) (by simp))⟩

theorem mmodelUpdate_admissible (ch : ChMask) (sel : BitVec 2) : Admissible (.mmodelUpdate ch sel) := fun _ _ =>
  ⟨_, .open (fun _ => rfl) rfl, .seq (.needChannel fun _ => rfl) fun i => .seq (.checkParam fun _ => rfl) fun _ => .later <|
    .seq (.mboxSet (f := id) (g := fun _ => id) { updLive := fun u => u.set i true } ⟨_, rfl⟩ (fun _ h => h) (fun _ _ h => h) rfl)
      fun _ => .pure (.same (by simp) (.inr rfl) (by simp))⟩

theorem mmodelStatus_admissible (ch : ChMask) : Admissible (.mmodelStatus ch) := fun _ _ =>
  ⟨_, .open (fun _ => rfl) rfl, .seq (.needChannel fun _ => rfl) fun i =>
    .seqOf (V := fun r => r.length = 2) (.mboxGet (get := fun ch _ => (ch.updStatus.get i).toList) (.inl rfl) ⟨_, rfl⟩
      fun _ _ => ⟨rfl, by simp⟩) fun r hr => .pure (.same (by simp [hr]) (.inl rfl) (by simp))⟩

/-- Every operation is built of micro-steps its family admits, behind its row of the sequence gate. -/
theorem admissible (i : Instr) : Admissible i := by
  cases i with
  | srcctlSet pin val => exact fun cfg fl => ⟨_, .open (fun _ => rfl) rfl, built_srcctlSet cfg fl pin val⟩
  | srcctlGet pin => exact fun cfg fl => ⟨_, .open (fun _ => rfl) rfl, built_srcctlGet cfg fl pin⟩
  | donepinSetup pin => exact fun cfg fl => ⟨_, .open (fun _ => rfl) rfl, built_donepinSetup cfg fl pin⟩
  | donepinGet =>
    exact fun _ _ => ⟨_, .open (fun _ => rfl) rfl, built_pinQuery _ fun _ => .same (by simp) (.inl rfl) (by simp)⟩
  | trigpinSetup pin => exact fun cfg fl => ⟨_, .open (fun _ => rfl) rfl, built_trigpinSetup cfg fl pin⟩
  | trigpinGet =>
    exact fun _ _ => ⟨_, .open (fun _ => rfl) rfl, built_pinQuery _ fun _ => .same (by simp) (.inl rfl) (by simp)⟩
  | capcfgSet => exact capcfgSet_admissible
  | capcfgGet => exact capcfgGet_admissible
  | capctrlSet => exact capctrlSet_admissible
  | capctrlGet => exact capctrlGet_admissible
  | caplvlSet => exact caplvlSet_admissible
  | caplvlGet => exact caplvlGet_admissible
  | pwrthSet sel => exact pwrthSet_admissible sel
  | pwrthGet sel => exact pwrthGet_admissible sel
  | capStart => exact capStart_admissible
  | capPoll => exact capPoll_admissible
  | capStatus ch => exact capStatus_admissible ch
  | capRddone => exact capRddone_admissible
  | modelCfg ch => exact modelCfg_admissible ch
  | modelGet ch => exact modelGet_admissible ch
  | mmodelCfg ch => exact mmodelCfg_admissible ch
  | mmodelGet ch sel => exact mmodelGet_admissible ch sel
  | lutAddr ch lut sel => exact lutAddr_admissible ch lut sel
  | lutWrite ch lut sel => exact lutWrite_admissible ch lut sel
  | lutRead ch lut sel => exact lutRead_admissible ch lut sel
  | actclkSet ch en => exact actclkSet_admissible ch en
  | swapEn en => exact swapEn_admissible en
  | swapGeten => exact swapGeten_admissible
  | swapWrite ch sel => exact swapWrite_admissible ch sel
  | mmlutWrite lut => exact mmlutWrite_admissible lut
  | mmodelUpdate ch sel => exact mmodelUpdate_admissible ch sel
  | mmodelStatus ch => exact mmodelStatus_admissible ch

end Sys2Proof.Machine
end

section
/-! PROOF. What every operation leaves, whatever the other agents, the host and the transport do: the form of the memories and
of the result, the next `cap_state`, the gate, validation before mutation, the spaces it reaches. -/

namespace Sys2Proof.Machine

/-- How operation `i` ran from `s`: refused by the gate, returned, stopped with a class, or dropped by a DCC reset. -/
inductive Ran (i : Instr) (s : State) : State → Prop
  | refused {u : State} : admitted i s.dcc.capState = false → Between (startOperation s) u →
    Ran i s (takeResult (captureFamily i) .seqRefused u)
  | refusedDropped {u : State} : admitted i s.dcc.capState = false → Between (startOperation s) u → .reset ∈ s.env.hostQ →
    Ran i s (dccReset u)
  | returned {u : State} {r : Result} {q : Phase} : admitted i s.dcc.capState = true →
    Track (scopeOf i s.cfg (startOperation s).dcc.flight) (startOperation s) u q → EndsAs i r q → Ran i s (returnOk r u)
  | raised {u : State} {c : ResultClass} {q : Phase} : admitted i s.dcc.capState = true →
    Track (scopeOf i s.cfg (startOperation s).dcc.flight) (startOperation s) u q →
    q.mayRaise c ∨ q = .acts ∧ isTransportFailure c = true → Ran i s (takeResult (captureFamily i) c u)
  | dropped {u : State} {q : Phase} : admitted i s.dcc.capState = true →
    Track (scopeOf i s.cfg (startOperation s).dcc.flight) (startOperation s) u q → .reset ∈ s.env.hostQ → Ran i s (dccReset u)

/-- What an operation that its gate admits does. -/
theorem ran_admitted {i : Instr} {s : State} {rest : M Result} (ha : admitted i s.dcc.capState = true)
    (h : Built (scopeOf i s.cfg (startOperation s).dcc.flight) .checks rest (EndsAs i)) :
    Ran i s (runOperation (captureFamily i) rest s) := by
  have hq : (startOperation s).env.hostQ = s.env.hostQ := rfl
  refine runOperation_of_runs (h.runs (startOperation s)) (Track.start rfl ⟨rfl, rfl, rfl⟩) ?_ ?_ ?_ ?_ ?_
  · rintro r t u ⟨q, _, hr, ht⟩ hb
    exact .returned ha (ht.between hb) hr
  · rintro c t u ⟨q, _, ht, hc⟩ hb
    exact .raised ha (ht.between hb) hc
  · rintro _ ⟨q, u, ht, rfl, hr⟩
    exact .dropped ha ht hr
  · rintro r t u ⟨q, _, hr, ht⟩ hb hreset
    exact .dropped ha (ht.between hb) (hq ▸ ht.hostQ.subset hreset)
  · rintro c t u ⟨q, _, ht, hc⟩ hb hreset
    exact .dropped ha (ht.between hb) (hq ▸ ht.hostQ.subset hreset)

/-- What an operation that its gate refuses does. -/
theorem ran_refused {i : Instr} {s : State} {rest : M Result} {row : GateRow} (ha : admitted i s.dcc.capState = false)
    (hrow : gateOpen row s.dcc.capState = false) :
    Ran i s (runOperation (captureFamily i) (gate row >>= fun _ => rest) s) := by
  have hrun : (gate row >>= fun _ => rest).run (startOperation s) = .error (.raised .seqRefused) (startOperation s) := by
    rw [run_gate_bind, if_neg]
    simp [hrow]
  rw [runOperation_raised hrun]
  obtain ⟨u, hb, hl⟩ | ⟨u, hb, hr, hl⟩ := leave_cases (takeResult (captureFamily i) .seqRefused) (startOperation s)
  · rw [hl]
    exact .refused ha hb
  · rw [hl]
    exact .refusedDropped ha hb hr

theorem exec_ran {i : Instr} {s t : State} (h : exec i s = .next t) : Ran i s t := by
  rw [exec_next h]
  obtain ⟨rest, hbehind, hbuilt⟩ := admissible i s.cfg (startOperation s).dcc.flight
  obtain ⟨hadm, hbody⟩ | ⟨row, hadm, hbody⟩ := hbehind
  · rw [hbody]
    exact ran_admitted (hadm _) hbuilt
  · rw [hbody]
    cases ha : admitted i s.dcc.capState with
    | false => exact ran_refused ha (by rw [hadm, ha])
    | true =>
      have hrun : runOperation (captureFamily i) (gate row >>= fun _ => rest) s = runOperation (captureFamily i) rest s := by
        unfold runOperation
        rw [run_gate_bind, if_pos]
        rw [hadm]
        exact ha
      rw [hrun]
      exact ran_admitted ha hbuilt

/-! ## Class numbers -/

theorem takeResult_class (fam : Bool) (c : ResultClass) (s : State) :
    resClass (takeResult fam c s).regs.res = (classNumber c).toNat := by
  rw [takeResult_res, resClass_resWord]

theorem returnOk_class (r : Result) (s : State) : resClass (returnOk r s).regs.res = 0 := by
  show resClass (resWord s.cfg .ok r.info) = 0
  rw [resClass_resWord]
  rfl

/-- The classes a phase may raise: never `SeqRefused`, never `IllegalCommand`, never `Ok`. -/
theorem class_of_raised {q : Phase} {c : ResultClass} (h : q.mayRaise c ∨ q = .acts ∧ isTransportFailure c = true) :
    (classNumber c).toNat ∈ [1, 2, 3, 4, 5, 6] := by
  cases c
  case ok | seqRefused | illegalCommand => cases q <;> simp [Phase.mayRaise, isTransportFailure] at h
  all_goals simp [classNumber]

/-- A transport failure or the timeout of a poll is one of the classes 4, 5 and 6, and no other class is. -/
theorem isTransportFailure_iff (c : ResultClass) : isTransportFailure c = true ↔ (classNumber c).toNat ∈ [4, 5, 6] := by
  cases c <;> simp [isTransportFailure, classNumber]

/-! ## The form of the memories -/

theorem takeResult_form {fam : Bool} {c : ResultClass} {s : State} (h : s.MemoryForm) : (takeResult fam c s).MemoryForm := by
  unfold takeResult
  split <;> exact h

theorem Ran.form {i : Instr} {s t : State} (h : Ran i s t) (hs : s.MemoryForm) : t.MemoryForm := by
  cases h with
  | refused _ hb => exact takeResult_form (hb.form hs)
  | refusedDropped _ hb _ => exact dccReset_form (hb.form hs)
  | returned _ ht _ => exact ht.form hs
  | raised _ ht _ => exact takeResult_form (ht.form hs)
  | dropped _ ht _ => exact dccReset_form (ht.form hs)

theorem afterAction_form {a : HostAct} {s : State} (h : s.MemoryForm) : (afterAction a s).MemoryForm := by
  cases a with
  | reset => exact dccReset_form h
  | chipReset c => exact chipReset_form c h
  | _ => exact (Between.hostAccess s _).form h

theorem illegalCommand_form {s : State} (h : s.MemoryForm) : (illegalCommand s).MemoryForm := by
  obtain ⟨u, hb, hl⟩ | ⟨u, hb, _, hl⟩ := leave_cases (takeResult false .illegalCommand) (startOperation s)
  · rw [illegalCommand, hl]
    exact takeResult_form (hb.form h)
  · rw [illegalCommand, hl]
    exact dccReset_form (hb.form h)

/-- Settles O14. -/
theorem invHoldsAtReset : Obligations.InvHoldsAtReset := by
  have htag : ∀ p : Pin, State.reset.dcc.tag.get p ≠ .captureDone ∧ State.reset.dcc.tag.get p ≠ .captureTrigger := by decide
  refine ⟨Tests.reset_form, ⟨rfl, rfl⟩, ⟨rfl, by decide, rfl, by decide⟩, ⟨fun p _ hp => ?_, fun p hp => ?_⟩,
    ⟨fun p _ hp => ?_, fun p hp => ?_⟩⟩
  · exact absurd hp (htag p).1
  · exact absurd hp (htag p).1
  · exact absurd hp (htag p).2
  · exact absurd hp (htag p).2

/-- Settles O15: along every operation the form is kept micro-step by micro-step (`Built.runs`). -/
theorem stepKeepsMemoryForm : Obligations.StepKeepsMemoryForm := by
  intro s t hs h
  obtain ⟨_, rfl⟩ | ⟨a, q, _, _, rfl⟩ | ⟨w, q, _, ⟨_, rfl⟩ | ⟨i, _, hi⟩ | ⟨_, rfl⟩⟩ := step_cases h
  · exact (Between.envTurn s).form hs
  · exact afterAction_form hs
  · exact hs
  · exact (exec_ran hi).form hs
  · exact illegalCommand_form hs

/-! ## The form of the result -/

/-- What holds between steps of the result and of the operation in flight. -/
def ResultHolds (s : State) : Prop := s.Quiescent ∧ s.ResultForm

theorem Between.resultHolds {s t : State} (hb : Between s t) (h : ResultHolds s) : ResultHolds t := by
  obtain ⟨⟨hbusy, hfl⟩, hres, hcls, hlen, hmax⟩ := h
  refine ⟨⟨hb.busy.trans hbusy, by rw [hb.dcc]; exact hfl⟩, ?_, ?_, ?_, ?_⟩
  · rw [hb.res]; exact hres
  · rw [hb.res]; exact hcls
  · rw [hb.rlen, hb.rdb]; exact hlen
  · rw [hb.rdb]; exact hmax

theorem endOperation_resultHolds {c : ResultClass} {r : Result} {s : State} (h : r.data.length ≤ 4096) :
    ResultHolds (endOperation c r s) := by
  refine ⟨⟨rfl, rfl⟩, resWord_reserved _ _ _, ?_, rfl, h⟩
  show resClass (resWord s.cfg c r.info) ≤ 8
  rw [resClass_resWord]
  cases c <;> simp [classNumber]

theorem takeResult_resultHolds (fam : Bool) (c : ResultClass) (s : State) : ResultHolds (takeResult fam c s) :=
  endOperation_resultHolds (by simp)

theorem dccReset_resultHolds (s : State) : ResultHolds (dccReset s) := 
  ⟨⟨rfl, rfl⟩, by rw [dccReset_res]; decide, by rw [dccReset_res]; decide, rfl, Nat.zero_le _⟩

theorem Ran.resultHolds {i : Instr} {s t : State} (h : Ran i s t) : ResultHolds t := by
  cases h with
  | refused _ _ => exact takeResult_resultHolds _ _ _
  | refusedDropped _ _ _ => exact dccReset_resultHolds _
  | returned _ _ hr => exact endOperation_resultHolds hr.1
  | raised _ _ _ => exact takeResult_resultHolds _ _ _
  | dropped _ _ _ => exact dccReset_resultHolds _

theorem afterAction_resultHolds {a : HostAct} {s : State} (h : ResultHolds s) : ResultHolds (afterAction a s) := by
  cases a with
  | reset => exact dccReset_resultHolds s
  | chipReset c => exact h
  | _ => exact (Between.hostAccess s _).resultHolds h

/-- Settles O17: every end of an operation writes the result whole, and a bounded result is part of `EndsAs`. -/
theorem stepKeepsResultForm : Obligations.StepKeepsResultForm := by
  intro s t hq hf h
  obtain ⟨_, rfl⟩ | ⟨a, q, _, _, rfl⟩ | ⟨w, q, _, ⟨_, rfl⟩ | ⟨i, _, hi⟩ | ⟨_, rfl⟩⟩ := step_cases h
  · exact (Between.envTurn s).resultHolds ⟨hq, hf⟩
  · exact afterAction_resultHolds ⟨hq, hf⟩
  · exact ⟨hq, hf⟩
  · exact (exec_ran hi).resultHolds
  · rw [illegalCommand]
    obtain ⟨u, _, hl⟩ | ⟨u, _, _, hl⟩ := leave_cases (takeResult false .illegalCommand) (startOperation _)
    · rw [hl]
      exact takeResult_resultHolds _ _ _
    · rw [hl]
      exact dccReset_resultHolds u

/-! ## The capture state machine -/

/-- The table of R203 for a class that is not `Ok`. -/
theorem nextCapState_class {c : CapState} {i : Instr} {res : Word} (h : resClass res ≠ 0) :
    nextCapState c i res = if captureFamily i = true ∧ resClass res ∈ [4, 5, 6] then .error else c := by
  unfold nextCapState
  cases captureFamily i <;> simp [h]

theorem takeResult_next (i : Instr) (c : ResultClass) (s : State) (h : (classNumber c).toNat ≠ 0) :
    (takeResult (captureFamily i) c s).dcc.capState =
      nextCapState s.dcc.capState i (takeResult (captureFamily i) c s).regs.res := by
  have hc := takeResult_class (captureFamily i) c s
  rw [nextCapState_class (by rw [hc]; exact h), hc, takeResult_capState]
  simp only [Bool.and_eq_true, isTransportFailure_iff]

theorem classNumber_of_raised {q : Phase} {c : ResultClass} (h : q.mayRaise c ∨ q = .acts ∧ isTransportFailure c = true) :
    (classNumber c).toNat ≠ 0 ∧ (classNumber c).toNat ≠ 7 := by
  have := class_of_raised h
  constructor
  · rintro h0
    simp [h0] at this
  · rintro h7
    simp [h7] at this

/-- A phase that may stop with a class has not set `cap_state`. -/
theorem capState_of_raised {q : Phase} {c : ResultClass} (h : q.mayRaise c ∨ q = .acts ∧ isTransportFailure c = true)
    (d : CapState) : q.capState d = d := by
  cases q with
  | checks => rfl
  | acts => rfl
  | concluded e =>
    obtain h | ⟨h, _⟩ := h
    · exact h.elim
    · cases h

theorem Ran.capState {i : Instr} {s t : State} (h : Ran i s t) :
    t.dcc.capState = nextCapState s.dcc.capState i t.regs.res ∧
      (admitted i s.dcc.capState = true ∨ resClass t.regs.res = 7) ∨
    .reset ∈ s.env.hostQ ∧ t.dcc.capState = .idle ∧ t.regs.res = 0 := by
  cases h with
  | @refused u ha hb =>
    refine .inl ⟨?_, .inr (takeResult_class _ _ _)⟩
    rw [takeResult_next _ _ _ (by decide), hb.dcc, startOperation_capState]
  | refusedDropped _ _ hr => exact .inr ⟨hr, rfl, rfl⟩
  | @returned u r q ha ht hr =>
    refine .inl ⟨?_, .inl ha⟩
    show u.dcc.capState = nextCapState s.dcc.capState i (resWord u.cfg .ok r.info)
    rw [ht.capState, hr.2, resWord_ok, startOperation_capState]
  | @raised u c q ha ht hc =>
    refine .inl ⟨?_, .inl ha⟩
    rw [takeResult_next _ _ _ (classNumber_of_raised hc).1, ht.capState, capState_of_raised hc, startOperation_capState]
  | dropped _ _ hr => exact .inr ⟨hr, rfl, rfl⟩

theorem illegalCommand_capState (s : State) : (illegalCommand s).dcc.capState = s.dcc.capState ∨
    .reset ∈ s.env.hostQ ∧ (illegalCommand s).dcc.capState = .idle ∧ (illegalCommand s).regs.res = 0 := by
  obtain ⟨u, hb, hl⟩ | ⟨u, _, hr, hl⟩ := leave_cases (takeResult false .illegalCommand) (startOperation s)
  · left
    rw [illegalCommand, hl, takeResult_capState, hb.dcc]
    simp
  · right
    rw [illegalCommand, hl]
    exact ⟨hr, rfl, rfl⟩

/-- Settles O18: along an operation `cap_state` is written at most once, behind everything that can stop it (`Phase`). -/
theorem capStateNext : Obligations.CapStateNext := by
  refine ⟨fun i s t h => ?_, fun s t w q hq hd h => ?_, fun s t q hq h => ?_⟩
  · obtain ⟨hnext, hadm⟩ | hreset := (exec_ran h).capState
    · refine .inl ⟨hnext, fun hcls => ?_⟩
      obtain ha | h7 := hadm
      · exact ha
      · omega
    · exact .inr hreset
  · cases hb : s.regs.busy with
    | true =>
      rw [step_lostCommand hq hb] at h
      cases h
      exact .inl rfl
    | false =>
      rw [step_command hq hb, hd] at h
      cases h
      exact illegalCommand_capState _
  · rw [step_host hq] at h
    cases h
    rfl

/-! ## The gate, validation, spaces -/

/-- A refused operation runs straight to its exit. -/
theorem exec_refused {i : Instr} {s : State} (ha : admitted i s.dcc.capState = false) :
    exec i s = .next (leave (takeResult (captureFamily i) .seqRefused) (startOperation s)) := by
  rw [exec_eq]
  obtain ⟨rest, ⟨hadm, hbody⟩ | ⟨row, hadm, hbody⟩, _⟩ := admissible i s.cfg (startOperation s).dcc.flight
  · rw [hadm] at ha
    cases ha
  · rw [hbody, runOperation_raised (s1 := startOperation s)]
    rw [run_gate_bind, if_neg]
    rw [startOperation_capState, hadm, ha]
    simp

/-- Settles O19. -/
theorem sequenceGate : Obligations.SequenceGate := by
  refine ⟨fun i s ha hw => ⟨_, exec_refused ha, endedAtOnce_takeResult (c := .seqRefused) hw rfl, ?_⟩, fun i s ha => ?_,
    fun i s t ha h => ?_⟩
  · rw [leave_of_waits (hostWaits_start hw)]
    unfold takeResult
    split <;> simp
  · refine ⟨_, exec_refused ha, ?_⟩
    obtain ⟨u, hb, hl⟩ | ⟨u, hb, hr, hl⟩ :=
      leave_cases (takeResult (captureFamily i) .seqRefused) (startOperation s)
    · rw [hl]
      exact ⟨by rw [takeResult_bus, hb.bus]; rfl, .inl (by simp)⟩
    · rw [hl]
      exact ⟨hb.bus, .inr ⟨hr, rfl⟩⟩
  · cases exec_ran h with
    | refused hr _ => simp [ha] at hr
    | refusedDropped hr _ _ => simp [ha] at hr
    | returned _ _ _ => rw [returnOk_class]; decide
    | raised _ _ hc => rw [takeResult_class]; exact (classNumber_of_raised hc).2
    | dropped _ _ _ => rw [dccReset_res]; decide

/-- Only checks may raise `InvalidParameter` and `NullInput`. -/
theorem checks_of_validation {q : Phase} {c : ResultClass} (h : q.mayRaise c ∨ q = .acts ∧ isTransportFailure c = true)
    (hc : (classNumber c).toNat = 1 ∨ (classNumber c).toNat = 2) : q = .checks ∧ isTransportFailure c = false := by
  cases c <;> simp [classNumber] at hc
  all_goals
    cases q <;> simp [Phase.mayRaise, isTransportFailure] at h
    exact ⟨rfl, rfl⟩

theorem takeResult_dcc {fam : Bool} {c : ResultClass} {s : State} (h : isTransportFailure c = false) :
    (takeResult fam c s).dcc = { s.dcc with flight := Flight.idle } := by
  unfold takeResult
  rw [h, Bool.and_false]
  rfl

/-- Settles O20: an operation is in its checks until its first write (`Track.clean`). -/
theorem validationBeforeMutation : Obligations.ValidationBeforeMutation := by
  intro i s t hr h hcls
  cases exec_ran h with
  | refused _ hb =>
    refine ⟨?_, [], ?_, by simp⟩
    · unfold DccSame
      rw [takeResult_dcc rfl, hb.dcc]
      rfl
    · rw [takeResult_bus, hb.bus]
      rfl
  | refusedDropped _ _ hreset => exact absurd hreset hr
  | returned _ _ _ =>
    rw [returnOk_class] at hcls
    simp at hcls
  | @raised u c q _ ht hc =>
    rw [takeResult_class] at hcls
    have h7 := (classNumber_of_raised hc).2
    obtain ⟨rfl, htf⟩ := checks_of_validation hc (by omega)
    obtain ⟨hd, new, hbus, hall⟩ := ht.clean rfl
    refine ⟨?_, new, ?_, hall⟩
    · unfold DccSame
      rw [takeResult_dcc htf, hd]
      rfl
    · rw [takeResult_bus, hbus]
      rfl
  | dropped _ _ hreset => exact absurd hreset hr

/-- Settles O21. -/
theorem familySpaces : Obligations.FamilySpaces := by
  intro i s t h
  cases exec_ran h with
  | refused _ hb => exact ⟨[], by rw [takeResult_bus, hb.bus]; rfl, by simp⟩
  | refusedDropped _ hb _ => exact ⟨[], by rw [dccReset_bus, hb.bus]; rfl, by simp⟩
  | returned _ ht _ => exact ht.bus
  | raised _ ht _ => rw [takeResult_bus]; exact ht.bus
  | dropped _ ht _ => exact ht.bus

end Sys2Proof.Machine
end

section
/-! PROOF. An operation sees of the host only its operand snapshot (10_state.md R26, R31): two runs whose states differ in what
only the host sees go in lockstep. -/

namespace Sys2Proof.Machine

/-! ## Lockstep -/

/-- `R` relates states no micro-step tells apart, `R'` those behind a boundary; a boundary turns the one into the other. -/
structure Lockstep (R R' : State → State → Prop) : Prop where
  weaken : ∀ a b, R' a b → R a b
  same : ∀ a b, R a b → b.cfg = a.cfg ∧ b.dcc = a.dcc ∧ b.chip = a.chip
  draws : ∀ a b, R' a b → b.env.draws = a.env.draws
  flight : ∀ a b g, R a b → R (updateFlight g a) (updateFlight g b)
  boundary : ∀ a b, R a b → ∃ ans a' b', boundary.run a = .ok ans a' ∧ boundary.run b = .ok ans b' ∧ R' a' b'
  dcc : ∀ a b f, R' a b → R' (updateDcc f a) (updateDcc f b)
  chip : ∀ a b f, R' a b → R' (updateChip f a) (updateChip f b)
  deliver : ∀ a b (r : Request), R' a b → R' (updateEnv r.deliver a) (updateEnv r.deliver b)
  bus : ∀ a b e, R' a b → R' (updateEnv (fun v => { v with bus := e :: v.bus }) a) (updateEnv (fun v => { v with bus := e :: v.bus }) b)

/-- Two ends of one sequence: the same value or the same class, in related states; no reset. -/
def SameEnd {α : Type} (R : State → State → Prop) : EStateM.Result Stop State α → EStateM.Result Stop State α → Prop
  | .ok x a, .ok y b => x = y ∧ R a b
  | .error (.raised c) a, .error (.raised d) b => c = d ∧ R a b
  | _, _ => False

/-- The sequence ends alike from related states. -/
def Together {α : Type} (R : State → State → Prop) (m : M α) : Prop := ∀ a b, R a b → SameEnd R (m.run a) (m.run b)

variable {R R' : State → State → Prop} {α β : Type}

theorem SameEnd.cases {x y : EStateM.Result Stop State α} (h : SameEnd R x y) :
    (∃ v a b, x = .ok v a ∧ y = .ok v b ∧ R a b) ∨
      ∃ c a b, x = .error (.raised c) a ∧ y = .error (.raised c) b ∧ R a b := by
  unfold SameEnd at h
  split at h
  · obtain ⟨rfl, h⟩ := h
    exact .inl ⟨_, _, _, rfl, rfl, h⟩
  · obtain ⟨rfl, h⟩ := h
    exact .inr ⟨_, _, _, rfl, rfl, h⟩
  · exact h.elim

section

variable (hR : Lockstep R R')

include hR

theorem Lockstep.log {a b : State} (t : Txn) (ok : Bool) (h : R' a b) : R' (logTxn t ok a) (logTxn t ok b) := by
  cases ok
  · exact hR.bus _ _ _ h
  · exact hR.bus _ _ _ (hR.dcc _ _ (fun d => { d with flight := { d.flight with microStep := d.flight.microStep + 1 } }) h)

/-- One boundary in both runs. -/
theorem Lockstep.turn {a b : State} (h : R a b) :
    ∃ a' b', Machine.turn.run a = .ok () a' ∧ Machine.turn.run b = .ok () b' ∧ R' a' b' := by
  obtain ⟨ans, a', b', ha, hb, h'⟩ := hR.boundary a b h
  exact ⟨a', b', by rw [Machine.turn, run_bind_ok ha]; rfl, by rw [Machine.turn, run_bind_ok hb]; rfl, h'⟩

theorem Lockstep.writeLocal (f : DccRegs → DccRegs) : Together R (Machine.writeLocal f) := by
  intro a b h
  obtain ⟨a', b', ha, hb, h'⟩ := hR.turn h
  rw [Machine.writeLocal, run_bind_ok ha, run_bind_ok hb]
  exact ⟨rfl, hR.weaken _ _ (hR.dcc _ _ f h')⟩

/-- A transaction whose effect and torn effect keep the relation. -/
theorem Lockstep.transact {t : Txn} {done : State → α × State} {torn : Nat → State → State}
    (hdone : ∀ a b, R' a b → (done a).1 = (done b).1 ∧ R' (done a).2 (done b).2)
    (htorn : ∀ d a b, R' a b → R' (torn d a) (torn d b)) : Together R (Machine.transact t done torn) := by
  intro a b h
  obtain ⟨ans, a', b', ha, hb, h'⟩ := hR.boundary a b h
  rw [Machine.transact, run_bind_ok ha, run_bind_ok hb]
  cases answerFailure (isMailbox t) ans with
  | none => exact ⟨(hdone _ _ h').1, hR.weaken _ _ (hR.log t true (hdone _ _ h').2)⟩
  | some c =>
    refine ⟨rfl, hR.weaken _ _ (hR.log t false ?_)⟩
    rw [hR.draws _ _ h']
    exact htorn _ _ _ h'

/-- Every sequence of admitted micro-steps goes in lockstep. -/
theorem Built.together {k : Scope} {p : Phase} {m : M α} {Q : α → Phase → Prop} (h : Built k p m Q) {s a b : State}
    (ht : Track k s a p) (hab : R a b) : SameEnd R (m.run a) (m.run b) := by
  induction h generalizing a b with
  | pure _ => exact ⟨rfl, hab⟩
  | bind hx _ ihx ihf =>
    have hruns := hx.runs s a ht
    obtain ⟨v, a', b', ha, hb, h'⟩ | ⟨c, a', b', ha, hb, h'⟩ := (ihx ht hab).cases
    · rw [ha] at hruns
      obtain ⟨q, _, hv, ht'⟩ := hruns
      rw [run_bind_ok ha, run_bind_ok hb]
      exact ihf v q hv ht' h'
    · rw [run_bind_error ha, run_bind_error hb]
      exact ⟨rfl, h'⟩
  | later _ ih => exact ih ht.acts hab
  | ask g _ =>
    obtain ⟨hcfg, hdcc, hchip⟩ := hR.same a b hab
    exact ⟨by simp only [hcfg, hdcc, hchip], hab⟩
  | note g _ _ =>
    have := hR.flight a b (g a.dcc) hab
    refine ⟨rfl, ?_⟩
    simp only [(hR.same a b hab).2.1]
    exact this
  | @check _ _ P _ c _ _ =>
    by_cases hp : P
    · simp only [Machine.check, run_of, hp]; exact ⟨rfl, hab⟩
    · simp only [Machine.check, run_of, hp]; exact ⟨rfl, hab⟩
  | raise _ => exact ⟨rfl, hab⟩
  | turn _ =>
    obtain ⟨a', b', ha, hb, h'⟩ := hR.turn hab
    rw [ha, hb]
    exact ⟨rfl, hR.weaken _ _ h'⟩
  | store _ _ _ => exact hR.writeLocal _ a b hab
  | conclude c _ => exact hR.writeLocal _ a b hab
  | read _ _ _ _ =>
    refine hR.transact (fun a b h => ⟨?_, h⟩) (fun _ _ _ h => h) a b hab
    simp only [hR.draws a b h, (hR.same a b (hR.weaken a b h)).2.2]
  | @write _ t f g r _ _ _ _ =>
    exact hR.transact (t := t) (torn := fun d => updateChip (g d)) (done := fun s => ((), updateEnv r.deliver (updateChip f s))) (fun a b h => ⟨rfl, hR.deliver _ _ r (hR.chip _ _ _ h)⟩) (fun _ a b h => hR.chip _ _ _ h) a b hab
  | dropFailure _ _ ih =>
    obtain ⟨v, a', b', ha, hb, h'⟩ | ⟨c, a', b', ha, hb, h'⟩ := (ih ht hab).cases
    · simp only [Machine.dropFailure, run_of, ha, hb]; exact ⟨rfl, h'⟩
    · simp only [Machine.dropFailure, run_of, ha, hb]; exact ⟨rfl, h'⟩
  | @withRollback _ m hm _ _ ihm ihr =>
    have ht0 := ht.flight (g := fun f => { f with undo := [] }) ⟨rfl, rfl, rfl⟩
    have hruns := hm.runs s _ ht0
    obtain ⟨v, a', b', ha, hb, h'⟩ | ⟨c, a', b', ha, hb, h'⟩ := (ihm ht0 (hR.flight a b _ hab)).cases
    · simp only [Machine.withRollback, run_of, ha, hb]; exact ⟨rfl, h'⟩
    · rw [ha] at hruns
      simp only [Machine.withRollback, run_of, ha, hb, (hR.same a' b' h').2.1]
      obtain ⟨v, a2, b2, ha2, hb2, h2⟩ | ⟨d, a2, b2, ha2, hb2, h2⟩ := (ihr a'.dcc.flight.undo hruns.acts.1 h').cases
      · rw [run_bind_ok ha2, run_bind_ok hb2]; exact ⟨rfl, h2⟩
      · rw [run_bind_error ha2, run_bind_error hb2]; exact ⟨rfl, h2⟩

/-- How an operation leaves: by its return or with a class. -/
def IsExit (fam : Bool) (exit : State → State) : Prop := (∃ r, exit = returnOk r) ∨ ∃ c, exit = takeResult fam c

theorem leave_together {fam : Bool} {exit : State → State} (he : IsExit fam exit) {a b : State} (h : R a b) :
    ∃ e a' b', IsExit fam e ∧ R' a' b' ∧ leave exit a = e a' ∧ leave exit b = e b' := by
  obtain ⟨a', b', ha, hb, h'⟩ := hR.turn h
  exact ⟨exit, a', b', he, h', by rw [leave, ha], by rw [leave, hb]⟩

theorem runOperation_together {fam : Bool} {m : M Result} {a b : State}
    (h : SameEnd R (m.run (startOperation a)) (m.run (startOperation b))) :
    ∃ exit a' b', IsExit fam exit ∧ R' a' b' ∧ runOperation fam m a = exit a' ∧ runOperation fam m b = exit b' := by
  obtain ⟨r, a', b', ha, hb, h'⟩ | ⟨c, a', b', ha, hb, h'⟩ := h.cases
  · rw [runOperation_ok ha, runOperation_ok hb]
    exact leave_together (fam := fam) hR (.inl ⟨r, rfl⟩) h'
  · rw [runOperation_raised ha, runOperation_raised hb]
    exact leave_together hR (.inr ⟨c, rfl⟩) h'

/-- An operation from two states it does not tell apart: the same exit, from states that are related behind a boundary. -/
theorem exec_together (i : Instr) {a b : State} (h : R (startOperation a) (startOperation b)) :
    ∃ exit a' b', IsExit (captureFamily i) exit ∧ R' a' b' ∧ exec i a = .next (exit a') ∧ exec i b = .next (exit b') := by
  rw [exec_eq, exec_eq]
  obtain ⟨rest, hbehind, hbuilt⟩ := admissible i a.cfg (startOperation a).dcc.flight
  have hrest : SameEnd R (rest.run (startOperation a)) (rest.run (startOperation b)) :=
    hbuilt.together hR (Track.start rfl ⟨rfl, rfl, rfl⟩) h
  have hrun : SameEnd R ((body i).run (startOperation a)) ((body i).run (startOperation b)) := by
    obtain ⟨_, hbody⟩ | ⟨row, _, hbody⟩ := hbehind
    · rw [hbody]
      exact hrest
    · rw [hbody, run_gate_bind, run_gate_bind, (hR.same _ _ h).2.1]
      split
      · exact hrest
      · exact ⟨rfl, h⟩
  obtain ⟨exit, a', b', he, h', ha, hb⟩ := runOperation_together (fam := captureFamily i) hR hrun
  exact ⟨exit, a', b', he, h', by rw [ha], by rw [hb]⟩

end

/-! ## What the host alone sees -/

/-- The host registers and the queue of `s` replaced. -/
def withHost (r : HostRegs) (q : List HostAct) (s : State) : State := { s with regs := r, env := { s.env with hostQ := q } }

theorem runMove_withHost (r : HostRegs) (q : List HostAct) (s : State) (m : EnvMove) :
    runMove (withHost r q s) m = withHost r q (runMove s m) := by
  cases m with
  | capture record =>
    show engineDone record (withHost r q s) = withHost r q (engineDone record s)
    unfold engineDone
    rw [apply_ite (withHost r q)]
    rfl
  | peakSample tx2 offset b =>
    show engineSample tx2 offset b (withHost r q s) = withHost r q (engineSample tx2 offset b s)
    unfold engineSample
    rw [apply_ite (withHost r q)]
    rfl
  | stream k =>
    show streamRun k (withHost r q s) = withHost r q (streamRun k s)
    unfold streamRun
    have hreqs : (withHost r q s).env.streamReqs[k]? = s.env.streamReqs[k]? := rfl
    rw [hreqs]
    cases s.env.streamReqs[k]? <;> rfl
  | firmware c record =>
    show firmwareStatus c record (withHost r q s) = withHost r q (firmwareStatus c record s)
    unfold firmwareStatus
    rw [apply_ite (withHost r q)]
    rfl

/-- The turn of the other agents does not look at the host registers and the queue. -/
theorem envTurn_withHost (r : HostRegs) (q : List HostAct) (s : State) :
    envTurn (withHost r q s) = withHost r q (envTurn s) := by
  have hm : ∀ ms u, runMoves ms (withHost r q u) = withHost r q (runMoves ms u) := by
    intro ms
    induction ms with
    | nil => exact fun _ => rfl
    | cons m ms ih =>
      intro u
      show runMoves ms (runMove (withHost r q u) m) = _
      rw [runMove_withHost]
      exact ih _
  exact hm _ (passTick s)

/-! ## Who writes what -/

/-- While the host waits, an operation leaves its registers and its queue alone until the exit. -/
theorem lockstep_waits {r : HostRegs} {q : List HostAct} (hq : q = [] ∨ q.head? = some .wait) :
    Lockstep (fun a b => a = b ∧ a.regs = r ∧ a.env.hostQ = q) (fun a b => a = b ∧ a.regs = r ∧ a.env.hostQ = q) where
  weaken _ _ h := h
  same a b h := by rw [h.1]; exact ⟨rfl, rfl, rfl⟩
  draws a b h := by rw [h.1]
  flight a b g h := by rw [h.1]; exact ⟨rfl, h.1 ▸ h.2⟩
  boundary a b h := by
    obtain ⟨rfl, hr, hqa⟩ := h
    have hw : HostWaits a := by unfold HostWaits; rw [hqa]; exact hq
    exact ⟨_, _, _, boundary_of_waits hw, boundary_of_waits hw, rfl, by rw [envTurn_regs, hr], by rw [envTurn_hostQ, hqa]⟩
  dcc a b f h := by rw [h.1]; exact ⟨rfl, h.1 ▸ h.2⟩
  chip a b f h := by rw [h.1]; exact ⟨rfl, h.1 ▸ h.2⟩
  deliver a b f h := by rw [h.1]; exact ⟨rfl, h.1 ▸ h.2⟩
  bus a b f h := by rw [h.1]; exact ⟨rfl, h.1 ▸ h.2⟩

theorem IsExit.operands {fam : Bool} {exit : State → State} (h : IsExit fam exit) (s : State) :
    (exit s).regs = { s.regs with
      res := (exit s).regs.res, rlen := (exit s).regs.rlen, rdb := (exit s).regs.rdb, rdbDraw := (exit s).regs.rdbDraw
      busy := false } ∧ (exit s).env.seen = s.env.seen := by
  obtain ⟨r, rfl⟩ | ⟨c, rfl⟩ := h
  · exact ⟨rfl, rfl⟩
  · unfold takeResult
    split <;> exact ⟨rfl, rfl⟩

theorem SessionSame.flight {i : Instr} {d e : DccRegs} (h : SessionSame i d e) (fl : Flight) :
    SessionSame i d { e with flight := fl } := ⟨h.donePin, h.trigPin, h.swapEn, h.tag⟩

theorem SessionSame.state {i : Instr} {d e : DccRegs} (h : SessionSame i d e) (c : CapState) :
    SessionSame i d { e with capState := c } := ⟨h.donePin, h.trigPin, h.swapEn, h.tag⟩

/-- How operation `i` ran from `s` while the host waited: refused, returned or stopped with a class, never dropped. -/
inductive RanOn (i : Instr) (s : State) : State → Prop
  | refused : admitted i s.dcc.capState = false →
    RanOn i s (takeResult (captureFamily i) .seqRefused (envTurn (startOperation s)))
  | returned {u : State} {r : Result} {q : Phase} :
    Track (scopeOf i s.cfg (startOperation s).dcc.flight) (startOperation s) u q → EndsAs i r q →
    u.regs = (startOperation s).regs ∧ u.env.hostQ = s.env.hostQ → RanOn i s (returnOk r (envTurn u))
  | raised {u : State} {c : ResultClass} {q : Phase} :
    Track (scopeOf i s.cfg (startOperation s).dcc.flight) (startOperation s) u q →
    q.mayRaise c ∨ q = .acts ∧ isTransportFailure c = true →
    u.regs = (startOperation s).regs ∧ u.env.hostQ = s.env.hostQ → RanOn i s (takeResult (captureFamily i) c (envTurn u))

theorem exec_ranOn {i : Instr} {s t : State} (hw : HostWaits s) (h : exec i s = .next t) : RanOn i s t := by
  cases ha : admitted i s.dcc.capState with
  | false =>
    rw [exec_refused ha, leave_of_waits (hostWaits_start hw)] at h
    cases h
    exact .refused ha
  | true =>
    obtain ⟨rest, hbehind, hbuilt⟩ := admissible i s.cfg (startOperation s).dcc.flight
    have ht0 : Track (scopeOf i s.cfg (startOperation s).dcc.flight) (startOperation s) (startOperation s) .checks :=
      Track.start rfl ⟨rfl, rfl, rfl⟩
    have hruns := hbuilt.runs _ _ ht0
    have htog := hbuilt.together (lockstep_waits (r := (startOperation s).regs) hw) ht0 ⟨rfl, rfl, rfl⟩
    have hrun : (body i).run (startOperation s) = rest.run (startOperation s) := by
      obtain ⟨_, hbody⟩ | ⟨row, hadm, hbody⟩ := hbehind
      · rw [hbody]
      · rw [hbody, run_gate_bind, if_pos]
        rw [hadm]
        exact ha
    rw [exec_next h]
    obtain ⟨r, u, _, hu, _, hin⟩ | ⟨c, u, _, hu, _, hin⟩ := htog.cases
    · rw [hu] at hruns hrun
      obtain ⟨q, _, hr, ht⟩ := hruns
      rw [runOperation_ok hrun, leave_of_waits (hw.of_hostQ hin.2.2)]
      exact .returned ht hr hin.2
    · rw [hu] at hruns hrun
      obtain ⟨q, _, ht, hc⟩ := hruns
      rw [runOperation_raised hrun, leave_of_waits (hw.of_hostQ hin.2.2)]
      exact .raised ht hc hin.2

/-- What stays of the parameters, the operand registers and the session. -/
structure Stays (i : Instr) (s u : State) : Prop where
  cfg : u.cfg = s.cfg
  regs : u.regs.cmd = s.regs.cmd ∧ u.regs.oplen = s.regs.oplen ∧ u.regs.opb = s.regs.opb ∧ u.regs.ctrl = s.regs.ctrl
  session : SessionSame i s.dcc u.dcc

theorem Stays.exit {i : Instr} {s u : State} {fam : Bool} {exit : State → State} (he : IsExit fam exit) (h : Stays i s u) :
    Stays i s (exit u) := by
  have hregs := (he.operands u).1
  constructor
  · obtain ⟨r, rfl⟩ | ⟨c, rfl⟩ := he
    · exact h.cfg
    · rw [takeResult_cfg, h.cfg]
  · rw [hregs]
    exact h.regs
  · obtain ⟨r, rfl⟩ | ⟨c, rfl⟩ := he
    · exact h.session.flight _
    · unfold takeResult
      split
      · exact (h.session.state _).flight _
      · exact h.session.flight _

theorem Track.stays {i : Instr} {s u : State} {q : Phase}
    (ht : Track (scopeOf i s.cfg (startOperation s).dcc.flight) (startOperation s) u q)
    (hu : u.regs = (startOperation s).regs) : Stays i s (envTurn u) where
  cfg := (envTurn_cfg u).trans ht.cfg
  regs := by rw [envTurn_regs, hu]; exact ⟨rfl, rfl, rfl, rfl⟩
  session := by
    rw [envTurn_dcc]
    exact ht.stored (SessionSame i s.dcc) (fun f d hf hd => hd.trans (hf d)) (fun d fl hd => hd.flight fl)
      (fun d c hd => hd.state c) ((SessionSame.refl i s.dcc).flight _)

/-- Settles O22. -/
theorem sessionWriters : Obligations.SessionWriters := by
  intro i s t hw h
  have hstays : Stays i s t := by
    cases exec_ranOn hw h with
    | refused _ =>
      exact Stays.exit (.inr ⟨_, rfl⟩) (Track.stays (Track.start (k := scopeOf i s.cfg (startOperation s).dcc.flight) rfl
        ⟨rfl, rfl, rfl⟩) rfl)
    | returned ht _ hu => exact Stays.exit (fam := captureFamily i) (.inl ⟨_, rfl⟩) (ht.stays hu.1)
    | raised ht _ hu => exact Stays.exit (.inr ⟨_, rfl⟩) (ht.stays hu.1)
  obtain ⟨hcfg, ⟨hcmd, hlen, hopb, hctrl⟩, hsess⟩ := hstays
  exact ⟨hcfg, hcmd, hlen, hopb, hctrl, hsess.donePin, hsess.trigPin, hsess.swapEn, hsess.tag⟩

/-! ## Host writes and reads while an operation is in flight -/

/-- A write of a host register. -/
def IsWrite (a : HostAct) : Prop :=
  ∃ (w : Word) (x : BitVec 16) (b : Byte), a ∈ [.writeCmd w, .writeOplen w, .writeCtrl w, .writeOpb x b]

/-- The registers `r` with the operand registers of `o`. -/
def withOperands (o r : HostRegs) : HostRegs := { r with oplen := o.oplen, opb := o.opb, ctrl := o.ctrl }

theorem hostAccess_write {a : HostAct} (h : IsWrite a) (s : State) :
    hostAccess s a = { s with regs := withOperands (hostAccess s a).regs s.regs } := by
  obtain ⟨w, x, b, h⟩ := h
  simp only [List.mem_cons, List.not_mem_nil, or_false] at h
  obtain rfl | rfl | rfl | rfl := h <;> rfl

/-- The operand registers after host writes hang on the operand registers before them alone. -/
theorem foldl_hostAccess_operands {ws : List HostAct} (hws : ∀ a ∈ ws, IsWrite a) {s t : State} {r : HostRegs}
    (h : withOperands s.regs r = withOperands t.regs r) :
    withOperands (ws.foldl hostAccess s).regs r = withOperands (ws.foldl hostAccess t).regs r := by
  induction ws generalizing s t with
  | nil => exact h
  | cons a ws ih =>
    refine ih (fun b hb => hws b (List.mem_cons_of_mem _ hb)) ?_
    obtain ⟨w, x, b, ha⟩ := hws a (by simp)
    simp only [withOperands, HostRegs.mk.injEq, true_and] at h
    obtain ⟨hlen, hopb, hctrl⟩ := h
    simp only [List.mem_cons, List.not_mem_nil, or_false] at ha
    obtain rfl | rfl | rfl | rfl := ha <;> simp [hostAccess, withOperands, *]

theorem hostTurn_waits {q : List HostAct} (h : q = [] ∨ q.head? = some .wait) (s : State) :
    hostTurn q s = (withHostQ s q, false) := by
  cases q with
  | nil => rfl
  | cons a q =>
    simp only [reduceCtorEq, List.head?_cons, Option.some.injEq, false_or] at h
    rw [h]
    rfl

/-- Host writes at a boundary reach the operand registers, and the host then waits. -/
theorem hostTurn_writes {ws q : List HostAct} (hws : ∀ a ∈ ws, IsWrite a) (hq : q = [] ∨ q.head? = some .wait) (s : State) :
    hostTurn (ws ++ q) s = (withHost (withOperands (ws.foldl hostAccess s).regs s.regs) q s, false) := by
  induction ws generalizing s with
  | nil => exact hostTurn_waits hq s
  | cons a ws ih =>
    have ha := hws a (by simp)
    have hstep : hostTurn (a :: ws ++ q) s = hostTurn (ws ++ q) (hostAccess s a) := by
      obtain ⟨w, x, b, ha⟩ := ha
      simp only [List.mem_cons, List.not_mem_nil, or_false] at ha
      obtain rfl | rfl | rfl | rfl := ha <;> rfl
    rw [hstep, ih (fun b hb => hws b (List.mem_cons_of_mem _ hb)), List.foldl_cons]
    generalize (ws.foldl hostAccess (hostAccess s a)).regs = r
    rw [hostAccess_write ha]
    rfl

/-- A boundary at which the host writes, from a state whose twin `a` has a host that waits. -/
theorem boundary_writes {ws q : List HostAct} (hws : ∀ a ∈ ws, IsWrite a) (hq : q = [] ∨ q.head? = some .wait) (a : State) :
    boundary.run (withHost a.regs (ws ++ q) a) = .ok (nextTick a.env).answer
      (withHost (withOperands (ws.foldl hostAccess a).regs a.regs) q (envTurn a)) := by
  unfold boundary
  rw [run_of, envTurn_withHost]
  show (match hostTurn (ws ++ q) (withHost a.regs (ws ++ q) (envTurn a)) with
    | (s1, true) => EStateM.Result.error Stop.dropped s1
    | (s1, false) => .ok (nextTick a.env).answer s1) = _
  rw [hostTurn_writes hws hq]
  simp only [EStateM.Result.ok.injEq, true_and]
  have hops := foldl_hostAccess_operands hws (s := withHost a.regs (ws ++ q) (envTurn a)) (t := a) (r := a.regs) rfl
  show withHost (withOperands (ws.foldl hostAccess (withHost a.regs (ws ++ q) (envTurn a))).regs a.regs) q _ = _
  rw [hops]
  rfl

/-- A run with host writes ahead of its first boundary goes with the run without them, but for the operand registers. -/
theorem lockstep_writes {ws q : List HostAct} (hws : ∀ a ∈ ws, IsWrite a) (hq : q = [] ∨ q.head? = some .wait)
    (r : HostRegs) (o : HostRegs) (ho : ∀ a : State, a.regs = r → withOperands (ws.foldl hostAccess a).regs r = withOperands o r) :
    Lockstep (fun a b => a.regs = r ∧ a.env.hostQ = q ∧ (b = withHost r (ws ++ q) a ∨ b = withHost (withOperands o r) q a))
      (fun a b => a.regs = r ∧ a.env.hostQ = q ∧ b = withHost (withOperands o r) q a) where
  weaken a b h := ⟨h.1, h.2.1, .inr h.2.2⟩
  same a b h := by
    obtain ⟨_, _, rfl | rfl⟩ := h <;> exact ⟨rfl, rfl, rfl⟩
  draws a b h := by
    obtain ⟨_, _, rfl⟩ := h
    rfl
  flight a b g h := by
    obtain ⟨hr, hqa, rfl | rfl⟩ := h
    · exact ⟨hr, hqa, .inl rfl⟩
    · exact ⟨hr, hqa, .inr rfl⟩
  boundary a b h := by
    obtain ⟨rfl, hqa, hb⟩ := h
    have hw : HostWaits a := by unfold HostWaits; rw [hqa]; exact hq
    refine ⟨_, _, _, boundary_of_waits hw, ?_, envTurn_regs a, (envTurn_hostQ a).trans hqa, rfl⟩
    obtain rfl | rfl := hb
    · rw [boundary_writes hws hq, ho a rfl]
    · rw [boundary_of_waits (s := withHost (withOperands o a.regs) q a) hq, envTurn_withHost]
      rfl
  dcc a b f h := by
    obtain ⟨hr, hqa, rfl⟩ := h
    exact ⟨hr, hqa, rfl⟩
  chip a b f h := by
    obtain ⟨hr, hqa, rfl⟩ := h
    exact ⟨hr, hqa, rfl⟩
  deliver a b f h := by
    obtain ⟨hr, hqa, rfl⟩ := h
    exact ⟨hr, hqa, rfl⟩
  bus a b f h := by
    obtain ⟨hr, hqa, rfl⟩ := h
    exact ⟨hr, hqa, rfl⟩

/-- An exit keeps the operand registers, and looks at no host register. -/
theorem IsExit.withOperands {fam : Bool} {exit : State → State} (h : IsExit fam exit) (o : HostRegs) (a : State) :
    exit (withHost (withOperands o a.regs) a.env.hostQ a) =
      { exit a with regs := Machine.withOperands o (exit a).regs } := by
  obtain ⟨r, rfl⟩ | ⟨c, rfl⟩ := h
  · rfl
  · unfold takeResult
    split <;> rfl

/-- The first boundary with a read of `STATE` in the host's queue. -/
theorem boundary_readState {q : List HostAct} (hq : q = [] ∨ q.head? = some .wait) {a : State}
    (ha : a.env.hostQ = .read .state :: q) (hb : a.regs.busy = true) :
    ∃ a', boundary.run a = .ok (nextTick a.env).answer a' ∧ a'.env.hostQ = q ∧
      a'.env.seen = (.state, stateWord true a.dcc.capState) :: a.env.seen := by
  unfold boundary
  rw [run_of, ha]
  show ∃ a', (match hostTurn q (hostAccess (envTurn a) (.read .state)) with
    | (s1, true) => EStateM.Result.error Stop.dropped s1
    | (s1, false) => .ok (nextTick a.env).answer s1) = _ ∧ _
  rw [hostTurn_waits hq]
  refine ⟨_, rfl, rfl, ?_⟩
  show (HostReg.state, stateWord (envTurn a).regs.busy (envTurn a).dcc.capState) :: (envTurn a).env.seen = _
  rw [envTurn_regs, envTurn_dcc, envTurn_seen, hb]

/-- The host's read of `STATE` is made at the first boundary, and no other read follows. -/
theorem lockstep_readState {q : List HostAct} (hq : q = [] ∨ q.head? = some .wait) (c : CapState)
    (seen : List (HostReg × Word)) :
    Lockstep (fun a b => a = b ∧ (a.env.hostQ = .read .state :: q ∧ a.regs.busy = true ∧ a.dcc.capState = c ∧ a.env.seen = seen ∨
        a.env.hostQ = q ∧ a.env.seen = (.state, stateWord true c) :: seen))
      (fun a b => a = b ∧ a.env.hostQ = q ∧ a.env.seen = (.state, stateWord true c) :: seen) where
  weaken a b h := ⟨h.1, .inr h.2⟩
  same a b h := by rw [h.1]; exact ⟨rfl, rfl, rfl⟩
  draws a b h := by rw [h.1]
  flight a b g h := by rw [h.1]; exact ⟨rfl, h.1 ▸ h.2⟩
  boundary a b h := by
    obtain ⟨rfl, ⟨hqa, hb, rfl, rfl⟩ | ⟨hqa, hs⟩⟩ := h
    · obtain ⟨a', ha, hq', hs'⟩ := boundary_readState hq hqa hb
      exact ⟨_, a', a', ha, ha, rfl, hq', hs'⟩
    · have hw : HostWaits a := by unfold HostWaits; rw [hqa]; exact hq
      exact ⟨_, _, _, boundary_of_waits hw, boundary_of_waits hw, rfl, (envTurn_hostQ a).trans hqa, (envTurn_seen a).trans hs⟩
  dcc a b f h := by rw [h.1]; exact ⟨rfl, h.1 ▸ h.2⟩
  chip a b f h := by rw [h.1]; exact ⟨rfl, h.1 ▸ h.2⟩
  deliver a b f h := by rw [h.1]; exact ⟨rfl, h.1 ▸ h.2⟩
  bus a b f h := by rw [h.1]; exact ⟨rfl, h.1 ▸ h.2⟩

/-- Settles O9: the two runs of each clause go in lockstep (`exec_together`). -/
theorem hostWritesMissOperation : Obligations.HostWritesMissOperation := by
  refine ⟨fun i s t ws q hw hws h => ?_, fun i s q hw => ?_⟩
  · have ho : ∀ a : State, a.regs = { s.regs with busy := true } →
        withOperands (ws.foldl hostAccess a).regs { s.regs with busy := true } =
          withOperands (ws.foldl hostAccess s).regs { s.regs with busy := true } :=
      fun a ha => foldl_hostAccess_operands hws (by rw [ha]; rfl)
    obtain ⟨exit, a, b, he, ⟨hr, hqa, rfl⟩, ha, hb⟩ := exec_together
      (lockstep_writes hws hw { s.regs with busy := true } (ws.foldl hostAccess s).regs ho) i
      (a := withHostQ s q) (b := withHostQ s (ws ++ q)) ⟨rfl, rfl, .inl rfl⟩
    rw [ha] at h
    cases h
    rw [hb, ← hr, ← hqa, he.withOperands]
    rfl
  · obtain ⟨exit, a, b, he, ⟨rfl, _, hs⟩, ha, _⟩ := exec_together (lockstep_readState hw s.dcc.capState s.env.seen) i
      (a := withHostQ s (.read .state :: q)) (b := withHostQ s (.read .state :: q)) ⟨rfl, .inl ⟨rfl, rfl, rfl, rfl⟩⟩
    exact ⟨_, ha, by rw [(he.operands a).2, hs]⟩

end Sys2Proof.Machine
end

section
/-! PROOF. Host accesses, the moves of the other agents, and the resets, one step each. -/

namespace Sys2Proof.Machine

/-! ## Host accesses -/

theorem step_action {s : State} {a : HostAct} {q : List HostAct} (h : s.env.hostQ = a :: q) (ha : ∀ w, a ≠ .writeCmd w) :
    step s = .next (afterAction a (withHostQ s q)) := by
  rw [step_host h, hostStep_action ha]

theorem stateWord_eq (busy : Bool) (c : CapState) :
    (stateWord busy c).getLsbD 31 = busy ∧ (stateWord busy c).toNat % 2 ^ 31 = (capStateCode c).toNat := by
  cases busy <;> cases c <;> decide

/-- Settles O10: a turn of the other agents is one of the things that can happen between two micro-steps. -/
theorem idleStepLeavesDcc : Obligations.IdleStepLeavesDcc := by
  intro s t hq h
  rw [step_idle hq] at h
  cases h
  have hb := Between.envTurn s
  exact ⟨hb.cfg, envTurn_regs s, hb.dcc, hb.bus, (envTurn_hostQ s).trans hq, hb.srcctl, hb.dir, hb.dbgTrig, hb.chsel,
    hb.streamId, hb.streamTrig, hb.capObj, hb.modelObj, hb.mmodelObj, hb.swapEnObj,
    fun c => ⟨hb.lutPower c, hb.actEn c, hb.actPt c, hb.ramSel c⟩, hb.bulk⟩

/-! ## The moves of the other agents -/

/-- A boundary with one move is that move, its tick used. -/
theorem envTurn_single {s : State} {m : EnvMove} {a : Answer} {rest : List Tick} (h : s.env.script = ⟨[m], a⟩ :: rest) :
    envTurn s = runMove { s with env := { s.env with script := rest, draws := s.env.draws + 1 } } m := by
  have hpass : passTick s = { s with env := { s.env with script := rest, draws := s.env.draws + 1 } } := by
    simp only [passTick, updateEnv, h, List.tail_cons]
  unfold envTurn
  rw [hpass, nextTick, h]
  rfl

theorem engineDone_chip {s : State} (record : Vector Byte 26) (h : s.chip.trigPending = true) :
    (engineDone record s).chip = { s.chip with
      doneFlag := (engineDone record s).chip.doneFlag, dstatus := (engineDone record s).chip.dstatus, trigPending := false } ∧
    (∀ k < 8, (engineDone record s).chip.doneFlag.getLsbD k = (k == 0 || s.chip.doneFlag.getLsbD k)) ∧
    ∀ c, (engineDone record s).chip.dstatus.get c = if c = s.env.trigChan then record else s.chip.dstatus.get c := by
  rw [engineDone, if_pos h]
  refine ⟨rfl, fun k hk => ?_, fun c => ?_⟩
  · show (s.chip.doneFlag ||| 1).getLsbD k = _
    rw [BitVec.getLsbD_or]
    interval_cases k <;> simp
  · show (s.chip.dstatus.set s.env.trigChan record).get c = _
    rw [get_set]
    simp only [eq_comm]

theorem engineSample_chip {s : State} (tx2 : Bool) (offset : Fin 16384) (b : Byte) (ht : s.chip.trigPending = true)
    (he : s.env.trigExt = true) (hf : s.MemoryForm) :
    (engineSample tx2 offset b s).chip = { s.chip with bulk := (engineSample tx2 offset b s).chip.bulk } ∧
    ∀ x, (engineSample tx2 offset b s).chip.bulk.read x =
      if x = lutAddress s.cfg (if tx2 then 1 else 0) 27 0 + offset.val then b else s.chip.bulk.read x := by
  obtain ⟨_, _, _, _, _, hwf, _⟩ := hf
  rw [engineSample, if_pos (by rw [ht, he]; rfl)]
  exact ⟨rfl, fun x => Memory.read_write hwf⟩

theorem streamRun_some {s : State} {k : Nat} {i : Chan} {en : BitVec 1} (h : s.env.streamReqs[k]? = some (i, en)) :
    (streamRun k s).chip = { s.chip with act := s.chip.act.set i { s.chip.act.get i with actClk := en } } ∧
      (streamRun k s).env.streamReqs = s.env.streamReqs.eraseIdx k := by
  unfold streamRun
  rw [h]
  exact ⟨rfl, rfl⟩

theorem streamRun_none {s : State} {k : Nat} (h : s.env.streamReqs[k]? = none) : streamRun k s = s := by
  unfold streamRun
  rw [h]

/-- Only the stream processor takes a stream request. -/
theorem runMove_streamReqs {m : EnvMove} (h : ∀ k, m ≠ .stream k) (s : State) :
    (runMove s m).env.streamReqs = s.env.streamReqs := by
  cases m with
  | stream k => exact absurd rfl (h k)
  | capture record => simp only [runMove, engineDone]; split <;> rfl
  | peakSample tx2 offset b => simp only [runMove, engineSample]; split <;> rfl
  | firmware c record => simp only [runMove, firmwareStatus]; split <;> rfl

/-- Settles O11. -/
theorem agentsMove : Obligations.AgentsMove := by
  intro s m a rest hq hs
  have ht := envTurn_single hs
  refine ⟨_, step_idle hq, envTurn_cfg s, envTurn_regs s, envTurn_dcc s, ?_, fun h => ?_, ?_, ?_, ?_, ?_, ?_, ?_⟩
  · rw [ht, runMove_env]
  · rw [ht, runMove_streamReqs h]
  · rintro record rfl hp
    rw [ht]
    exact engineDone_chip record hp
  · rintro tx2 offset b rfl hp he hf
    rw [ht]
    exact engineSample_chip tx2 offset b hp he hf
  · rintro record tx2 offset b (⟨rfl, hp⟩ | ⟨rfl, hp⟩)
    · rw [ht, runMove, engineDone, if_neg (by simp [hp])]
    · rw [ht, runMove, engineSample, if_neg (by obtain hp | hp := hp <;> simp [hp])]
  · rintro k i en rfl hk
    rw [ht]
    exact streamRun_some hk
  · rintro k rfl hk
    have hnone : ∀ u : State, u.env.streamReqs = s.env.streamReqs → runMove u (.stream k) = u :=
      fun u hu => streamRun_none (by rw [hu]; exact hk)
    rw [ht, hnone]
    · exact ⟨rfl, rfl⟩
    · rfl
  · rintro c record rfl
    rw [ht, runMove, firmwareStatus]
    split <;> rfl

/-! ## Resets -/

/-- Settles O12. -/
theorem resetValues : Obligations.ResetValues :=
  ⟨rfl, rfl, rfl, rfl, rfl, rfl, rfl, rfl, rfl, rfl, rfl, by decide⟩

/-- A DCC reset at a boundary drops the operation. -/
theorem turn_reset {s : State} {q : List HostAct} (h : s.env.hostQ = .reset :: q) :
    turn.run s = .error .dropped (dccReset (withHostQ (envTurn s) q)) := by
  have hb : boundary.run s = .error .dropped (dccReset (withHostQ (envTurn s) q)) := by
    unfold boundary
    rw [run_of, h]
    rfl
  rw [turn, run_bind_error hb]

theorem srcctlSet_reset {s : State} {pin : PinCode} {val : BitVec 4} {q : List HostAct} (hp : pin.toNat ≤ 18)
    (h : s.env.hostQ = .reset :: q) :
    exec (.srcctlSet pin val) s = .next (dccReset (withHostQ (envTurn (startOperation s)) q)) := by
  rw [exec_eq]
  have hrun : (srcctlSet pin val).run (startOperation s) = .error .dropped (dccReset (withHostQ (envTurn (startOperation s)) q)) := by
    rw [srcctlSet, run_pinMapped_bind hp]
    refine run_bind_error ?_
    rw [fieldWrite]
    exact run_bind_error (turn_reset h)
  exact congrArg _ (runOperation_dropped hrun)

/-- A reset of the chip alone to values in canonical form leaves those values. -/
theorem chipReset_self {s : State} {c : Chip} (h : State.MemoryForm { s with chip := c }) :
    chipReset c s = { s with chip := { c with trigPending := s.chip.trigPending && c.trigPending } } := by
  obtain ⟨_, ⟨hc, hcb⟩, ⟨hm, hmb⟩, ⟨hmm, hmmb⟩, ⟨hs, hsb⟩, hb, hbb⟩ := h
  unfold chipReset
  rw [Memory.ofCells_self hb hbb, Memory.ofCells_self hc (by simpa using hcb), Memory.ofCells_self hm (by simpa using hmb),
    Memory.ofCells_self hmm (by simpa using hmmb), Memory.ofCells_self hs (by simpa using hsb)]

/-- Settles O13. -/
theorem resetsRestore : Obligations.ResetsRestore := by
  refine ⟨fun s t q hq h => ?_, fun s pin val q hp hq => ⟨_, srcctlSet_reset hp hq, ?_⟩, fun s c q hq hf => ?_⟩
  · rw [step_action hq (by simp)] at h
    cases h
    refine ⟨rfl, rfl, rfl, rfl, rfl, rfl, rfl, rfl, rfl, fun p => ?_, rfl, rfl, rfl, rfl⟩
    show (dccReset (withHostQ s q)).dcc.tag.get p ≠ _ ∧ (dccReset (withHostQ s q)).dcc.tag.get p ≠ _
    rw [dccReset_tag]
    exact resetTag_ne _ p
  · refine ⟨rfl, rfl, rfl, ?_, rfl, ?_⟩
    · show (envTurn (startOperation s)).chip = _
      rw [envTurn_startOperation_chip]
    · show (envTurn (startOperation s)).env.bus = _
      rw [envTurn_bus]
      rfl
  · rw [step_action hq (by simp)]
    exact congrArg _ (chipReset_self (s := withHostQ s q) hf)

end Sys2Proof.Machine

namespace Sys2Proof

open Machine in
/-- Settles O8. -/
theorem hostAccess : Obligations.HostAccess := by
  refine ⟨fun s w q hq hb => step_lostCommand hq hb, fun s v q hq => step_action hq (by simp),
    fun s v q hq => step_action hq (by simp), fun s a b q hq hf => ?_, fun s r q hq => ?_, fun _ _ => rfl, fun s => ?_, rfl,
    fun s hb => ?_⟩
  · refine ⟨_, step_action hq (by simp), rfl, fun x => ?_⟩
    exact Memory.read_write hf.1.1
  · exact ⟨_, step_action hq (by simp), rfl, rfl, rfl, rfl, rfl⟩
  · exact ⟨rfl, rfl, stateWord_eq _ _⟩
  · have hidle : ∀ v, readIdle s v = v := fun v => by rw [readIdle, hb]; rfl
    refine ⟨hidle _, hidle _, fun k b hk => ?_⟩
    show ((readIdle s ((rdbByte s.regs k.toNat).setWidth 32)).setWidth 8).setWidth 32 = _
    rw [hidle, rdbByte, hk]
    simp

end Sys2Proof
end

section
/-! PROOF. The pin setups (40_gpio_arbiter.md R146 to R150), whatever the other agents, the host and the transport do: the tags
move, or they are as they were. -/

namespace Sys2Proof.Machine

/-! ## Where a setup stands -/

/-- In `u` the DCC-local state is `d` but for the hidden state, the parameters and `CAPOBJ` are those of `s`. -/
structure At (s : State) (d : DccRegs) (u : State) : Prop where
  dcc : u.dcc = { d with flight := u.dcc.flight }
  cfg : u.cfg = s.cfg
  capObj : u.chip.capObj = s.chip.capObj
  hostQ : u.env.hostQ <:+ s.env.hostQ

/-- The operation that began in `s` is dropped. -/
def DroppedFrom (s u : State) : Prop := ∃ v, u = dccReset v ∧ .reset ∈ s.env.hostQ

/-- Inside a setup that began with `d`: the tags are `T`, and the undo log leads back. -/
structure Moving (s : State) (d : DccRegs) (T : Vector Tag 19) (u : State) : Prop extends At s { d with tag := T } u where
  undo : undoTags u.dcc.flight.undo T = d.tag

/-- How the moves of a setup stop. -/
def StopsMoving (s : State) (d : DccRegs) : Stop → State → Prop
  | .raised _, u => ∃ T, Moving s d T u
  | .dropped, u => DroppedFrom s u

/-- How a setup stops: with everything local as it was, or dropped. -/
def StopsAt (s : State) (d : DccRegs) : Stop → State → Prop
  | .raised _, u => At s d u
  | .dropped, u => DroppedFrom s u

variable {s : State} {d : DccRegs} {T : Vector Tag 19}

theorem At.start (s : State) : At s s.dcc s := ⟨rfl, rfl, rfl, List.suffix_refl _⟩

theorem At.between {u v : State} (h : At s d u) (hb : Between u v) : At s d v where
  dcc := by rw [hb.dcc]; exact h.dcc
  cfg := hb.cfg.trans h.cfg
  capObj := hb.capObj.trans h.capObj
  hostQ := hb.hostQ.trans h.hostQ

theorem At.txn {u v : State} (h : At s d u) (t : Txn) (ok : Bool) (hcfg : v.cfg = u.cfg) (hdcc : v.dcc = u.dcc)
    (hcap : v.chip.capObj = u.chip.capObj) (hq : v.env.hostQ = u.env.hostQ) : At s d (logTxn t ok v) where
  dcc := by rw [logTxn_dcc, hdcc, h.dcc]
  cfg := by rw [logTxn_cfg, hcfg, h.cfg]
  capObj := by rw [logTxn_chip, hcap, h.capObj]
  hostQ := by rw [logTxn_hostQ, hq]; exact h.hostQ

theorem At.flight {u : State} (h : At s d u) (g : Flight → Flight) : At s d (updateFlight g u) where
  dcc := by
    show ({ u.dcc with flight := g u.dcc.flight } : DccRegs) = { d with flight := g u.dcc.flight }
    rw [h.dcc]
  cfg := h.cfg
  capObj := h.capObj
  hostQ := h.hostQ

/-- A local write that leaves the hidden state alone. -/
theorem At.write {u : State} (h : At s d u) {f : DccRegs → DccRegs} {e : DccRegs}
    (hf : ∀ fl, f { d with flight := fl } = { e with flight := fl }) : At s e (updateDcc f u) where
  dcc := by
    have := hf u.dcc.flight
    rw [← h.dcc] at this
    rw [updateDcc_dcc, this]
  cfg := h.cfg
  capObj := h.capObj
  hostQ := h.hostQ

theorem At.drop {u v : State} (h : At s d u) (hr : .reset ∈ u.env.hostQ) : DroppedFrom s (dccReset v) :=
  ⟨v, rfl, h.hostQ.subset hr⟩

theorem At.tag {u : State} (h : At s d u) : u.dcc.tag = d.tag := by rw [h.dcc]

/-- A transaction does not move the undo log. -/
theorem logTxn_undo (t : Txn) (ok : Bool) (u : State) : (logTxn t ok u).dcc.flight.undo = u.dcc.flight.undo := by
  cases ok <;> rfl

theorem Moving.between {u v : State} (h : Moving s d T u) (hb : Between u v) : Moving s d T v :=
  ⟨h.toAt.between hb, by rw [hb.dcc]; exact h.undo⟩

theorem Moving.txn {u v : State} (h : Moving s d T u) (t : Txn) (ok : Bool) (hcfg : v.cfg = u.cfg) (hdcc : v.dcc = u.dcc)
    (hcap : v.chip.capObj = u.chip.capObj) (hq : v.env.hostQ = u.env.hostQ) : Moving s d T (logTxn t ok v) :=
  ⟨h.toAt.txn t ok hcfg hdcc hcap hq, by rw [logTxn_undo, hdcc]; exact h.undo⟩

/-! ## The micro-steps of a setup -/

theorem Moving.gpioDirSet (q : Pin) (dir : Dir) :
    Runs (Moving s d T) (Machine.gpioDirSet q dir) (fun _ => Moving s d T) (StopsMoving s d) :=
  Runs.writeTxn (fun _ _ h hb => (h.between hb).txn _ _ rfl rfl rfl rfl)
    (fun _ _ _ h hb _ => ⟨T, (h.between hb).txn _ _ rfl rfl rfl rfl⟩) fun _ _ h _ hr => h.toAt.drop hr

theorem Moving.nibbleWrite (g : Fin 5) (v : BitVec 4) :
    Runs (Moving s d T) (Machine.fieldWrite (.srcctl g) v) (fun _ => Moving s d T) (StopsMoving s d) :=
  Runs.fieldWrite rfl (fun _ _ h hb => (h.between hb).txn _ _ rfl rfl rfl rfl)
    (fun _ _ _ _ h hb _ => ⟨T, (h.between hb).txn _ _ rfl rfl rfl rfl⟩) fun _ _ h _ hr => h.toAt.drop hr

theorem Moving.logDir (q : Pin) (dir : Dir) :
    Runs (Moving s d T) (Machine.logUndo (.dir q dir)) (fun _ => Moving s d T) (StopsMoving s d) :=
  Runs.update fun _ h => ⟨h.toAt.flight _, h.undo⟩

theorem set_set_get {α : Type} {n : Nat} (v : Vector α n) (i : Fin n) (x : α) : (v.set i x).set i (v.get i) = v := by
  apply Vector.ext
  intro j hj
  by_cases h : i.val = j
  · subst h
    rw [Vector.getElem_set_self]
    rfl
  · rw [Vector.getElem_set_ne _ _ h, Vector.getElem_set_ne _ _ h]

/-- A tag has been written and is not yet noted in the log. -/
def Marked (s : State) (d : DccRegs) (T : Vector Tag 19) (q : Pin) (t : Tag) (u : State) : Prop :=
  At s { d with tag := T.set q t } u ∧ undoTags u.dcc.flight.undo T = d.tag

theorem Moving.setTag (q : Pin) (t : Tag) :
    Runs (Moving s d T) (Machine.setTag q t) (fun _ => Marked s d T q t) (StopsMoving s d) :=
  Runs.writeLocal (fun _ _ h hb => ⟨(h.toAt.between hb).write fun _ => rfl, (h.between hb).undo⟩) fun _ _ h _ hr => h.toAt.drop hr

/-- The log then leads back over the tag just written. -/
theorem Marked.logTag {q : Pin} {t old : Tag} (hold : T.get q = old) :
    Runs (Marked s d T q t) (Machine.logUndo (.tag q old)) (fun _ => Moving s d (T.set q t)) (StopsMoving s d) := by
  refine Runs.update fun u h => ⟨h.1.flight _, ?_⟩
  show undoTags u.dcc.flight.undo ((T.set q t).set q old) = d.tag
  rw [← hold, set_set_get]
  exact h.2

/-! ## The tag table -/

theorem mem_scanPins (p : Pin) : p ∈ scanPins ↔ p.val ≤ 15 := by
  revert p
  decide

theorem scanTag_some {tag : Vector Tag 19} {f : Tag} {q : Pin} (h : scanTag tag f = some q) : tag.get q = f ∧ q.val ≤ 15 := by
  refine ⟨?_, (mem_scanPins q).1 (List.mem_of_find?_eq_some h)⟩
  have := List.find?_some h
  simpa using this

theorem scanTag_none {tag : Vector Tag 19} {f : Tag} (h : scanTag tag f = none) {p : Pin} (hp : p.val ≤ 15) : tag.get p ≠ f := by
  have := List.find?_eq_none.1 h p ((mem_scanPins p).2 hp)
  simpa using this

/-- The requested pin is free once the held one is released; the sentinel asks for none. -/
def Acquirable (tag : Vector Tag 19) (f : Tag) (pin : PinCode) : Prop :=
  pin = pinInvalid ∨ (releasedTags (scanTag tag f) tag).get (pinOfCode pin) = .none

/-! ## The setups -/

theorem Moving.findPrev (f : Tag) {Q : Option Pin → State → Prop}
    (h : ∀ u, Moving s d d.tag u → Q (scanTag d.tag f) u) :
    Runs (Moving s d d.tag) (Machine.findPrev f) Q (StopsMoving s d) := by
  refine Runs.bind (R := fun _ u => Moving s d d.tag u ∧ u.dcc.flight.prev = scanTag d.tag f) (Runs.update fun u hu => ?_)
    fun _ => Runs.ask fun u hu => by rw [hu.2]; exact h u hu.1
  exact ⟨⟨hu.toAt.flight _, hu.undo⟩, by show scanTag u.dcc.tag f = _; rw [hu.toAt.tag]⟩

theorem Moving.releaseTrig {prev : Option Pin} (h : ∀ q, prev = some q → T.get q = .captureTrigger) :
    Runs (Moving s d T) (Machine.releaseTrig prev) (fun _ => Moving s d (releasedTags prev T)) (StopsMoving s d) := by
  cases prev with
  | none => exact Runs.pure fun _ h => h
  | some q => exact Runs.bind (Moving.gpioDirSet q .input) fun _ =>
      Runs.bind (Moving.setTag q .none) fun _ => Marked.logTag (h q rfl)

theorem Moving.releaseDone {prev : Option Pin} (h : ∀ q, prev = some q → T.get q = .captureDone) :
    Runs (Moving s d T) (Machine.releaseDone prev) (fun _ => Moving s d (releasedTags prev T)) (StopsMoving s d) := by
  cases prev with
  | none => exact Runs.pure fun _ h => h
  | some q =>
    exact Runs.bind (Moving.gpioDirSet q .input) fun _ => Runs.bind (Moving.logDir q .output) fun _ =>
      Runs.bind (Moving.setTag q .none) fun _ => Marked.logTag (h q rfl)

/-- The check of the requested pin's tag. -/
theorem Moving.tagFree (p : Pin) {α : Type} {m : M α} {Q : α → State → Prop}
    (h : T.get p = .none → Runs (Moving s d T) m Q (StopsMoving s d)) :
    Runs (Moving s d T) (do
      let t ← Machine.ask fun s => s.dcc.tag.get p
      Machine.check (t = .none) .resourceConflict
      m) Q (StopsMoving s d) := by
  refine Runs.bind (R := fun t u => Moving s d T u ∧ t = T.get p) (Runs.ask fun u hu => ⟨hu, by rw [hu.toAt.tag]⟩) fun t =>
    Runs.bind (R := fun _ u => Moving s d T u ∧ T.get p = .none)
      (Runs.check (fun u hu ht => ⟨hu.1, hu.2 ▸ ht⟩) fun u hu _ => ⟨T, hu.1⟩) fun _ u hu => h hu.2 u hu.1

theorem Moving.acquireTrig (p : Pin) :
    Runs (Moving s d T) (Machine.acquireTrig p) (fun _ u => Moving s d (T.set p .captureTrigger) u ∧ T.get p = .none)
      (StopsMoving s d) :=
  Moving.tagFree p fun hp => (Runs.bind (Moving.setTag p .captureTrigger) fun _ =>
      Runs.bind (Marked.logTag hp) fun _ => Moving.gpioDirSet p .input).weaken
    (fun _ h => h) (fun _ _ h => ⟨h, hp⟩) fun _ _ h => h

theorem Moving.acquireDone (p : Pin) :
    Runs (Moving s d T) (Machine.acquireDone p) (fun _ u => Moving s d (T.set p .captureDone) u ∧ T.get p = .none)
      (StopsMoving s d) :=
  Moving.tagFree p fun hp => (Runs.bind (Moving.setTag p .captureDone) fun _ => Runs.bind (Marked.logTag hp) fun _ =>
      Runs.bind (Moving.gpioDirSet p .output) fun _ => Runs.bind (Moving.logDir p .input) fun _ =>
      Runs.bind (R := fun _ => Moving s d (T.set p .captureDone)) (Runs.ask fun _ h => h) fun _ => Moving.nibbleWrite _ _).weaken
    (fun _ h => h) (fun _ _ h => ⟨h, hp⟩) fun _ _ h => h

theorem Moving.resetNibble (prev : Option Pin) :
    Runs (Moving s d T) (Machine.resetNibble prev) (fun _ => Moving s d T) (StopsMoving s d) := by
  cases prev with
  | none => exact Runs.pure fun _ h => h
  | some q => exact Runs.bind (R := fun _ => Moving s d T) (Runs.ask fun _ h => h) fun _ => Moving.nibbleWrite _ _

/-- The moves of a setup have run to their end. -/
def Moved (s : State) (d : DccRegs) (f : Tag) (pin : PinCode) (u : State) : Prop :=
  At s { d with tag := movedTags d.tag f pin } u ∧ Acquirable d.tag f pin

theorem Moving.moveTrigPin (pin : PinCode) :
    Runs (Moving s d d.tag) (Machine.moveTrigPin pin) (fun _ => Moved s d .captureTrigger pin) (StopsMoving s d) := by
  refine Runs.bind (R := fun prev u => Moving s d d.tag u ∧ prev = scanTag d.tag .captureTrigger)
    (Moving.findPrev _ fun _ h => ⟨h, rfl⟩) fun prev => ?_
  rintro u ⟨hu, rfl⟩
  refine Runs.bind (Moving.releaseTrig fun q hq => (scanTag_some hq).1) (fun _ => Runs.ite (fun hp => ?_) fun hp => ?_) u hu
  · exact Runs.pure fun v hv => ⟨by rw [movedTags_eq, if_pos hp]; exact hv.toAt, .inl hp⟩
  · refine (Moving.acquireTrig (pinOfCode pin)).weaken (fun _ h => h) (fun _ v hv => ⟨?_, .inr hv.2⟩) fun _ _ h => h
    rw [movedTags_eq, if_neg hp]
    exact hv.1.toAt

theorem Moving.moveDonePin (pin : PinCode) :
    Runs (Moving s d d.tag) (Machine.moveDonePin pin) (fun _ => Moved s d .captureDone pin) (StopsMoving s d) := by
  refine Runs.bind (R := fun prev u => Moving s d d.tag u ∧ prev = scanTag d.tag .captureDone)
    (Moving.findPrev _ fun _ h => ⟨h, rfl⟩) fun prev => ?_
  rintro u ⟨hu, rfl⟩
  refine Runs.bind (Moving.releaseDone fun q hq => (scanTag_some hq).1) (fun _ => Runs.ite (fun hp => ?_) fun hp => ?_) u hu
  · refine (Moving.resetNibble _).weaken (fun _ h => h) (fun _ v hv => ⟨?_, .inl hp⟩) fun _ _ h => h
    rw [movedTags_eq, if_pos hp]
    exact hv.toAt
  · refine (Moving.acquireDone (pinOfCode pin)).weaken (fun _ h => h) (fun _ v hv => ⟨?_, .inr hv.2⟩) fun _ _ h => h
    rw [movedTags_eq, if_neg hp]
    exact hv.1.toAt

/-- The rollback: moves that stop are undone (R148). -/
theorem At.withRollback {m : M Unit} {Q : State → Prop} (h : Runs (Moving s d d.tag) m (fun _ => Q) (StopsMoving s d)) :
    Runs (At s d) (Machine.withRollback m) (fun _ => Q) (StopsAt s d) := by
  refine Runs.withRollback (F := fun _ u => ∃ T, Moving s d T u) (D := DroppedFrom s) (h.weaken ?_ (fun _ _ h => h) ?_)
    (fun c u hu => ?_) fun _ h => h
  · rintro _ ⟨u, hu, rfl⟩
    exact ⟨hu.flight _, rfl⟩
  · rintro (c | _) u hu
    · exact hu
    · exact hu
  · obtain ⟨T, hT⟩ := hu
    refine (Runs.replayUndo (I := fun v => ∃ T, At s { d with tag := T } v) (E := StopsAt s d) ?_ ?_ ?_ ?_
      u.dcc.flight.undo d.tag).weaken (fun _ h => h) ?_ (fun _ _ h => h) u
      ⟨⟨T, hT.toAt⟩, by rw [hT.toAt.tag]; exact hT.undo⟩
    · rintro p t v w ⟨T', hv⟩ hb
      exact ⟨T'.set p t, (hv.between hb).write fun _ => rfl⟩
    · rintro p dir v w ⟨T', hv⟩ hb
      exact ⟨_, (hv.between hb).txn _ _ rfl rfl rfl rfl⟩
    · rintro p dir v w n ⟨T', hv⟩ hb
      exact ⟨_, (hv.between hb).txn _ _ rfl rfl rfl rfl⟩
    · rintro v w ⟨T', hv⟩ _ hr
      exact hv.drop hr
    · rintro _ v ⟨⟨T', hv⟩, htag⟩
      have ht : T' = d.tag := hv.tag.symm.trans htag
      subst ht
      exact hv

/-- `TRIGPIN.SETUP`'s steps, whatever happens around them. -/
theorem At.setupTrigPin (pin : PinCode) :
    Runs (At s d) (Machine.setupTrigPin pin)
      (fun _ u => At s { d with tag := movedTags d.tag .captureTrigger pin, sessTrigPin := pin } u ∧
        Acquirable d.tag .captureTrigger pin ∧ pinSetupLegal pin = true) (StopsAt s d) := by
  refine Runs.bind (R := fun _ u => At s d u ∧ pinSetupLegal pin = true) (Runs.checkParam (fun u h hp => ⟨h, hp⟩)
    fun u h _ => h) fun _ => ?_
  rintro u ⟨hu, hp⟩
  refine Runs.bind (At.withRollback (Moving.moveTrigPin pin)) (fun _ => Runs.writeLocal (fun v w hv hb => ?_) ?_) u hu
  · exact ⟨(hv.1.between hb).write fun _ => rfl, hv.2, hp⟩
  · exact fun v w hv _ hr => hv.1.drop hr

theorem At.nibbleCheck (p : Pin) : Runs (At s d) (Machine.nibbleCheck p) (fun _ => At s d) (StopsAt s d) :=
  Runs.bind (R := fun _ => At s d) (Runs.readTxn (fun _ _ h hb => (h.between hb).txn _ _ rfl rfl rfl rfl)
      (fun _ _ _ h hb _ => (h.between hb).txn _ _ rfl rfl rfl rfl) fun _ _ h _ hr => h.drop hr) fun _ =>
    Runs.bind (R := fun _ => At s d) (Runs.ask fun _ h => h) fun _ => Runs.check (fun _ h _ => h) fun _ h _ => h

/-- `DONEPIN.SETUP`'s steps, whatever happens around them. -/
theorem At.setupDonePin (pin : PinCode) :
    Runs (At s d) (Machine.setupDonePin pin)
      (fun _ u => At s { d with tag := movedTags d.tag .captureDone pin, sessDonePin := pin } u ∧
        Acquirable d.tag .captureDone pin ∧ pinSetupLegal pin = true) (StopsAt s d) := by
  refine Runs.bind (R := fun _ u => At s d u ∧ pinSetupLegal pin = true) (Runs.checkParam (fun u h hp => ⟨h, hp⟩)
    fun u h _ => h) fun _ => ?_
  rintro u ⟨hu, hp⟩
  refine Runs.bind (R := fun _ => At s d) (Runs.doIf (fun _ => At.nibbleCheck _) fun _ _ h => h) (fun _ =>
    Runs.bind (At.withRollback (Moving.moveDonePin pin)) fun _ => Runs.writeLocal (fun v w hv hb => ?_) ?_) u hu
  · exact ⟨(hv.1.between hb).write fun _ => rfl, hv.2, hp⟩
  · exact fun v w hv _ hr => hv.1.drop hr

/-! ## The two setup operations -/

/-- How `DONEPIN.SETUP` or `TRIGPIN.SETUP` ends, `e` the local state after a success. -/
inductive SetupEnds (s : State) (e : DccRegs) (P : Prop) : State → Prop
  | moved {u : State} : P → u.dcc = { e with flight := u.dcc.flight } → SetupEnds s e P (returnOk {} u)
  | failed {u : State} {c : ResultClass} : u.dcc = { s.dcc with flight := u.dcc.flight } → SetupEnds s e P (takeResult false c u)
  | dropped {u : State} : .reset ∈ s.env.hostQ → SetupEnds s e P (dccReset u)

theorem setup_ends {s : State} {m : M Unit} {d : DccRegs} {P : Prop}
    (h : Runs (At (startOperation s) (startOperation s).dcc) m (fun _ u => At (startOperation s) d u ∧ P)
      (StopsAt (startOperation s) (startOperation s).dcc)) :
    SetupEnds s d P (runOperation false (m >>= fun _ => pure {}) s) := by
  have hq : (startOperation s).env.hostQ = s.env.hostQ := rfl
  refine runOperation_of_runs (E := StopsAt (startOperation s) (startOperation s).dcc)
    (Q := fun r u => r = {} ∧ At (startOperation s) d u ∧ P) (Runs.bind h fun _ => Runs.pure fun u hu => ⟨rfl, hu⟩)
    (At.start _) ?_ ?_ ?_ ?_ ?_
  · rintro r t u ⟨rfl, ht, hp⟩ hb
    exact .moved hp (ht.between hb).dcc
  · intro c t u ht hb
    exact .failed (At.between ht hb).dcc
  · rintro _ ⟨v, rfl, hr⟩
    exact .dropped (hq ▸ hr)
  · rintro r t u ⟨_, ht, _⟩ _ hr
    exact .dropped (hq ▸ ht.hostQ.subset hr)
  · intro c t u ht _ hr
    exact .dropped (hq ▸ At.hostQ ht |>.subset hr)

theorem donepinSetup_ends {pin : PinCode} {s t : State} (h : exec (.donepinSetup pin) s = .next t) :
    SetupEnds s { (startOperation s).dcc with tag := movedTags s.dcc.tag .captureDone pin, sessDonePin := pin }
      (Acquirable s.dcc.tag .captureDone pin ∧ pinSetupLegal pin = true) t := by
  rw [exec_next h]
  exact setup_ends (At.setupDonePin pin)

theorem trigpinSetup_ends {pin : PinCode} {s t : State} (h : exec (.trigpinSetup pin) s = .next t) :
    SetupEnds s { (startOperation s).dcc with tag := movedTags s.dcc.tag .captureTrigger pin, sessTrigPin := pin }
      (Acquirable s.dcc.tag .captureTrigger pin ∧ pinSetupLegal pin = true) t := by
  rw [exec_next h]
  exact setup_ends (At.setupTrigPin pin)

theorem SetupEnds.restored {s t : State} {e : DccRegs} {P : Prop} (h : SetupEnds s e P t) (hres : t.regs.res ≠ 0) : DccSame s t := by
  cases h with
  | @moved u _ _ =>
    refine absurd ?_ hres
    show resWord u.cfg .ok 0 = 0
    rw [resWord_ok]
    rfl
  | failed hd =>
    unfold DccSame takeResult endOperation
    rw [Bool.false_and, if_neg (by simp), hd]
  | dropped _ => exact absurd rfl hres

/-- Settles O32: a setup that stops replays its undo log, which always leads back to the tags it began with (`Moving`). -/
theorem failedSetupRestoresTags : Obligations.FailedSetupRestoresTags := by
  intro pin s t i hi h hres
  simp only [List.mem_cons, List.not_mem_nil, or_false] at hi
  obtain rfl | rfl := hi
  · exact (donepinSetup_ends h).restored hres
  · exact (trigpinSetup_ends h).restored hres

/-! ## `CAPCFG.SET` -/

/-- The local state once the trigger pin of `c` is set up. -/
def trigSet (c : CapConfig) (d : DccRegs) : DccRegs :=
  { d with tag := movedTags d.tag .captureTrigger c.triggerPin, sessTrigPin := c.triggerPin }

/-- The local state once the done pin of `c` is set up. -/
def doneSet (c : CapConfig) (d : DccRegs) : DccRegs :=
  { d with tag := movedTags d.tag .captureDone c.donePin, sessDonePin := c.donePin }

def TrigOk (c : CapConfig) (d : DccRegs) : Prop :=
  Acquirable d.tag .captureTrigger c.triggerPin ∧ pinSetupLegal c.triggerPin = true

def DoneOk (c : CapConfig) (d : DccRegs) : Prop := Acquirable d.tag .captureDone c.donePin ∧ pinSetupLegal c.donePin = true

/-- The write of the record has failed. -/
def WriteFailed (s : State) (c : CapConfig) (u : State) : Prop :=
  u.env.bus.head? = some ⟨.cfgWrite s.cfg.objCapture 0 (serConfig s.cfg c), false⟩

/-- What `CAPCFG.SET` of `c` has done when it stops in `u`. -/
inductive PartWay (s : State) (d : DccRegs) (c : CapConfig) (u : State) : Prop
  | none : At s d u → PartWay s d c u
  | trig : At s (trigSet c d) u → TrigOk c d → PartWay s d c u
  | both : u.dcc = { doneSet c (trigSet c d) with flight := u.dcc.flight } → WriteFailed s c u → TrigOk c d →
    DoneOk c (trigSet c d) → PartWay s d c u

/-- How `CAPCFG.SET` stops: in its checks, partway through a record, or dropped. -/
def StopsPartWay (s : State) (d : DccRegs) : Stop → State → Prop
  | .raised _, u => At s d u ∨ ∃ c, hostConfig (snapBytes s.dcc.flight 0 58) = .ok c ∧ PartWay s d c u
  | .dropped, u => DroppedFrom s u

/-- The local state at the end of `CAPCFG.SET`. -/
def Configured (d : DccRegs) (u : State) : Prop :=
  ∃ c, TrigOk c d ∧ DoneOk c (trigSet c d) ∧
    u.dcc = { doneSet c (trigSet c d) with capState := .configured, flight := u.dcc.flight }

theorem PartWay.between {c : CapConfig} {u v : State} (h : PartWay s d c u) (hb : Between u v) : PartWay s d c v := by
  cases h with
  | none h => exact .none (h.between hb)
  | trig h ht => exact .trig (h.between hb) ht
  | both h hw ht hd => exact .both (by rw [hb.dcc]; exact h) (by unfold WriteFailed; rw [hb.bus]; exact hw) ht hd

/-- The write of the record and the step to Configured. -/
theorem At.storeConfig {c : CapConfig} (h : hostConfig (snapBytes s.dcc.flight 0 58) = .ok c) (ht : TrigOk c d)
    (hd : DoneOk c (trigSet c d)) :
    Runs (At s (doneSet c (trigSet c d))) (do
      let cfg ← Machine.ask fun s => s.cfg
      Machine.mboxCfgWrite .capture 0 (serConfig cfg c)
      Machine.setCapState .configured
      pure ({} : Result)) (fun _ => Configured d) (StopsPartWay s d) := by
  refine Runs.bind (R := fun cfg u => At s (doneSet c (trigSet c d)) u ∧ cfg = s.cfg) (Runs.ask fun u hu => ⟨hu, hu.cfg⟩) fun cfg => ?_
  rintro u ⟨hu, rfl⟩
  refine Runs.bind (P := At s (doneSet c (trigSet c d)))
    (R := fun _ v => v.dcc = { doneSet c (trigSet c d) with flight := v.dcc.flight } ∧ v.env.hostQ <:+ s.env.hostQ)
    ?_ (fun _ => ?_) u hu
  · refine Runs.bind (R := fun cfg u => At s (doneSet c (trigSet c d)) u ∧ cfg = s.cfg) (Runs.ask fun u hu => ⟨hu, hu.cfg⟩) fun cfg => ?_
    rintro u ⟨hu, rfl⟩
    refine Runs.writeTxn (P := At s (doneSet c (trigSet c d))) (fun v w hv hb => ?_) (fun v w f hv hb _ => ?_)
      (fun v w hv _ hr => hv.drop hr) u hu
    · refine ⟨?_, by simpa using (hv.between hb).hostQ⟩
      rw [logTxn_dcc, updateChip_dcc, (hv.between hb).dcc]
    · refine .inr ⟨c, h, .both ?_ ?_ ht hd⟩
      · rw [logTxn_dcc, updateChip_dcc, (hv.between hb).dcc]
      · unfold WriteFailed
        rw [logTxn_bus]
        rfl
  · refine Runs.bind (R := fun _ => Configured d) (Runs.writeLocal (fun v w hv hb => ⟨c, ht, hd, ?_⟩)
      fun v w hv _ hr => ⟨w, rfl, hv.2.subset hr⟩) fun _ => Runs.pure fun _ h => h
    rw [updateDcc_dcc, hb.dcc, hv.1]

/-- An operand record, checks that change nothing behind it. -/
theorem Runs.needRecord {n : Nat} {Q : List Byte → State → Prop} {E : Stop → State → Prop}
    (h : Q (snapBytes s.dcc.flight 0 n) s) (he : E (.raised .nullInput) s) :
    Runs (fun u => u = s) (Machine.needRecord n) Q E :=
  Runs.bind (R := fun _ u => u = s) (Runs.ask fun _ h => h) fun _ =>
    Runs.bind (R := fun _ u => u = s) (Runs.check (fun _ h _ => h) fun _ hu _ => hu ▸ he) fun _ =>
    Runs.ask fun _ hu => hu ▸ h

theorem Runs.rangeChecked {e : Except ParamCode Unit} {E : Stop → State → Prop} (he : ∀ c, E (.raised c) s) :
    Runs (fun u => u = s) (Machine.rangeChecked e) (fun _ u => u = s) E :=
  Runs.bind (R := fun _ u => u = s) (Runs.ask fun _ h => h) fun _ =>
    Runs.doIf (fun _ => Runs.liftParam (fun _ _ _ h => h) fun _ _ h => h ▸ he _) fun _ _ h => h

theorem Runs.pinPairCheck {c : CapConfig} {E : Stop → State → Prop} (he : ∀ c, E (.raised c) s) :
    Runs (fun u => u = s) (Machine.pinPairCheck c) (fun _ u => u = s) E :=
  Runs.bind (R := fun _ u => u = s) (Runs.checkParam (fun _ h _ => h) fun _ h _ => h ▸ he _) fun _ =>
    Runs.bind (R := fun _ u => u = s) (Runs.checkParam (fun _ h _ => h) fun _ h _ => h ▸ he _) fun _ =>
    Runs.check (fun _ h _ => h) fun _ h _ => h ▸ he _

theorem StopsAt.partWay {c : CapConfig} (h : hostConfig (snapBytes s.dcc.flight 0 58) = .ok c) {e : DccRegs}
    (he : ∀ u, At s e u → PartWay s d c u) {x : Stop} {u : State} (hx : StopsAt s e x u) : StopsPartWay s d x u := by
  cases x with
  | raised _ => exact .inr ⟨c, h, he u hx⟩
  | dropped => exact hx

/-- `CAPCFG.SET`, whatever happens around it. -/
theorem At.capcfgSet :
    Runs (fun u => u = s) Machine.capcfgSet (fun _ => Configured s.dcc) (StopsPartWay s s.dcc) := by
  have hstop : ∀ c, StopsPartWay s s.dcc (.raised c) s := fun _ => .inl (At.start s)
  refine Runs.bind (R := fun _ u => u = s) (Runs.gate (fun _ h _ => h) fun _ h _ => h ▸ hstop _) fun _ => ?_
  refine Runs.bind (R := fun bs u => u = s ∧ bs = snapBytes s.dcc.flight 0 58) (Runs.needRecord ⟨rfl, rfl⟩ (hstop _)) fun bs => ?_
  rintro _ ⟨rfl, rfl⟩
  rename_i s
  refine Runs.bind (P := fun u => u = s) (R := fun c u => u = s ∧ hostConfig (snapBytes s.dcc.flight 0 58) = .ok c)
    (Runs.liftParam (fun c hc _ h => ⟨h, hc⟩) fun _ _ h => h ▸ hstop _) (fun c => ?_) s rfl
  rintro _ ⟨rfl, hc⟩
  rename_i s
  refine Runs.bind (P := fun u => u = s) (R := fun _ u => u = s) (Runs.rangeChecked hstop) (fun _ =>
    Runs.bind (R := fun _ u => u = s) (Runs.pinPairCheck hstop) fun _ => ?_) s rfl
  refine Runs.bind ((At.setupTrigPin c.triggerPin).weaken (P' := fun u => u = s) (fun _ h => h ▸ At.start s) (fun _ _ h => h)
    fun _ _ h => h.partWay hc fun _ hu => .none hu) fun _ => ?_
  rintro u ⟨hu, ht⟩
  refine Runs.bind ((At.setupDonePin c.donePin).weaken (fun _ h => h) (fun _ _ h => h)
    fun _ _ h => h.partWay hc fun _ hu => .trig hu ht) (fun _ => ?_) u hu
  rintro v ⟨hv, hd⟩
  exact At.storeConfig hc ht hd v hv

end Sys2Proof.Machine
end

section
/-! PROOF. Pin ownership (40_gpio_arbiter.md R150). -/

namespace Sys2Proof.Machine

/-! ## Ownership of a tag table -/

/-- `One` of both capture tags (R150). -/
def Owned (tag : Vector Tag 19) : Prop := OneTag tag .captureDone ∧ OneTag tag .captureTrigger

theorem owned_resetTag (s : State) : Owned (dccReset s).dcc.tag := by
  have h : ∀ p : Pin, (dccReset s).dcc.tag.get p ≠ .captureDone ∧ (dccReset s).dcc.tag.get p ≠ .captureTrigger := fun p => by
    rw [dccReset_tag]
    exact resetTag_ne _ p
  exact ⟨⟨fun p _ hp => absurd hp (h p).1, fun p hp => absurd hp (h p).1⟩,
    fun p _ hp => absurd hp (h p).2, fun p hp => absurd hp (h p).2⟩

/-- The only carrier of a tag is the one the scan finds. -/
theorem OneTag.scan {tag : Vector Tag 19} {f : Tag} (h : OneTag tag f) {p : Pin} (hp : tag.get p = f) :
    scanTag tag f = some p := by
  cases hs : scanTag tag f with
  | none => exact absurd hp (scanTag_none hs (h.2 p hp))
  | some q => rw [h.1 q p (scanTag_some hs).1 hp]

/-- Once the held pin is released no pin carries the tag. -/
theorem OneTag.released {tag : Vector Tag 19} {f : Tag} (h : OneTag tag f) (hf : f ≠ .none) (p : Pin) :
    (releasedTags (scanTag tag f) tag).get p ≠ f := by
  intro hp
  unfold releasedTags at hp
  cases hs : scanTag tag f with
  | none =>
    rw [hs] at hp
    simp [h.scan hp] at hs
  | some q =>
    simp only [hs, get_set] at hp
    split at hp
    · exact hf hp.symm
    · next hne =>
      rw [h.scan hp] at hs
      exact hne (Option.some.inj hs).symm

/-- A release changes no tag of another feature. -/
theorem releasedTags_get {tag : Vector Tag 19} {f g : Tag} (hg : g ≠ .none) (hfg : g ≠ f) (p : Pin) :
    (releasedTags (scanTag tag f) tag).get p = g ↔ tag.get p = g := by
  unfold releasedTags
  cases hs : scanTag tag f with
  | none => rfl
  | some q =>
    simp only [get_set]
    split
    · next h =>
      subst h
      rw [(scanTag_some hs).1]
      exact ⟨fun h => absurd h.symm hg, fun h => absurd h.symm hfg⟩
    · rfl

/-- A setup changes no tag of another feature. -/
theorem movedTags_get {tag : Vector Tag 19} {f g : Tag} {pin : PinCode} (h : Acquirable tag f pin) (hg : g ≠ .none) (hfg : g ≠ f)
    (p : Pin) : (movedTags tag f pin).get p = g ↔ tag.get p = g := by
  rw [movedTags_eq]
  split
  · exact releasedTags_get hg hfg p
  · next hp =>
    rw [get_set]
    split
    · next hq =>
      subst hq
      have hfree := h.resolve_left hp
      rw [← releasedTags_get hg hfg, hfree]
      exact ⟨fun h => absurd h.symm hfg, fun h => absurd h.symm hg⟩
    · exact releasedTags_get hg hfg p

theorem pinOfCode_val {pin : PinCode} (h : pinSetupLegal pin = true) (hp : pin ≠ pinInvalid) : (pinOfCode pin).val ≤ 15 := by
  have hle : pin.toNat ≤ 15 := by simpa [pinSetupLegal, pinAssignable, hp] using h
  simp only [pinOfCode, Fin.val_ofNat]
  omega

/-- The tag that moves is carried by the requested pin alone, or by none. -/
theorem OneTag.moved {tag : Vector Tag 19} {f : Tag} {pin : PinCode} (h : OneTag tag f) (hf : f ≠ .none)
    (hl : pinSetupLegal pin = true) : OneTag (movedTags tag f pin) f := by
  rw [movedTags_eq]
  split
  · exact ⟨fun p _ hp => absurd hp (h.released hf p), fun p hp => absurd hp (h.released hf p)⟩
  · next hp =>
    have only : ∀ p, ((releasedTags (scanTag tag f) tag).set (pinOfCode pin) f).get p = f → pinOfCode pin = p := by
      intro p hpf
      rw [get_set] at hpf
      split at hpf
      · assumption
      · exact absurd hpf (h.released hf p)
    refine ⟨fun p q hpf hqf => (only p hpf).symm.trans (only q hqf), fun p hpf => ?_⟩
    rw [← only p hpf]
    exact pinOfCode_val hl hp

/-- A tag another setup moves around. -/
theorem OneTag.other {tag : Vector Tag 19} {f g : Tag} {pin : PinCode} (h : OneTag tag g) (ha : Acquirable tag f pin)
    (hg : g ≠ .none) (hfg : g ≠ f) : OneTag (movedTags tag f pin) g := by
  have hget := movedTags_get ha hg hfg
  exact ⟨fun p q hp hq => h.1 p q ((hget p).1 hp) ((hget q).1 hq), fun p hp => h.2 p ((hget p).1 hp)⟩

theorem Owned.movedTrig {tag : Vector Tag 19} {pin : PinCode} (h : Owned tag) (ha : Acquirable tag .captureTrigger pin)
    (hl : pinSetupLegal pin = true) : Owned (movedTags tag .captureTrigger pin) :=
  ⟨h.1.other ha (by simp) (by simp), h.2.moved (by simp) hl⟩

theorem Owned.movedDone {tag : Vector Tag 19} {pin : PinCode} (h : Owned tag) (ha : Acquirable tag .captureDone pin)
    (hl : pinSetupLegal pin = true) : Owned (movedTags tag .captureDone pin) :=
  ⟨h.1.moved (by simp) hl, h.2.other ha (by simp) (by simp)⟩

/-! ## Ownership along the operations -/

theorem SetupEnds.tags {s t : State} {e : DccRegs} {P : Prop} (h : SetupEnds s e P t) :
    P ∧ t.dcc.tag = e.tag ∨ t.dcc.tag = s.dcc.tag ∨ .reset ∈ s.env.hostQ ∧ ∃ u, t = dccReset u := by
  cases h with
  | @moved u hp hd => exact .inl ⟨hp, by show u.dcc.tag = _; rw [hd]⟩
  | failed hd => exact .inr (.inl (by rw [takeResult_tag, hd]))
  | dropped hr => exact .inr (.inr ⟨hr, _, rfl⟩)

theorem PartWay.owned {s u : State} {d : DccRegs} {c : CapConfig} (h : PartWay s d c u) (hd : Owned d.tag) : Owned u.dcc.tag := by
  cases h with
  | none h => rw [h.tag]; exact hd
  | trig h ht => rw [h.tag]; exact hd.movedTrig ht.1 ht.2
  | both h _ ht hdone => rw [h]; exact (hd.movedTrig ht.1 ht.2).movedDone hdone.1 hdone.2

theorem capcfgSet_owned {s t : State} (hs : Owned s.dcc.tag) (h : exec .capcfgSet s = .next t) : Owned t.dcc.tag := by
  rw [exec_next h]
  refine runOperation_of_runs (C := fun t => Owned t.dcc.tag) (At.capcfgSet (s := startOperation s)) rfl ?_ ?_ ?_
    (fun _ _ u _ _ _ => owned_resetTag u) fun _ _ u _ _ _ => owned_resetTag u
  · rintro r t u ⟨c, ht, hd, hdcc⟩ hb
    show Owned u.dcc.tag
    rw [hb.dcc, hdcc]
    exact Owned.movedDone (Owned.movedTrig hs ht.1 ht.2) hd.1 hd.2
  · intro c t u ht hb
    rw [takeResult_tag, hb.dcc]
    obtain hat | ⟨c, _, hpart⟩ := ht
    · rw [hat.tag]
      exact hs
    · exact hpart.owned hs
  · rintro _ ⟨v, rfl, _⟩
    exact owned_resetTag v

/-- An operation that runs no setup writes no tag. -/
theorem Ran.tag {i : Instr} {s t : State} (h : Ran i s t) (hi : i ≠ .capcfgSet ∧ (∀ pin, i ≠ .donepinSetup pin) ∧
    ∀ pin, i ≠ .trigpinSetup pin) : t.dcc.tag = s.dcc.tag ∨ .reset ∈ s.env.hostQ ∧ ∃ u, t = dccReset u := by
  have track : ∀ {u : State} {q : Phase}, Track (scopeOf i s.cfg (startOperation s).dcc.flight) (startOperation s) u q →
      u.dcc.tag = s.dcc.tag := fun ht =>
    (ht.stored (SessionSame i s.dcc) (fun f d hf hd => hd.trans (hf d)) (fun d fl hd => hd.flight fl)
      (fun d c hd => hd.state c) ((SessionSame.refl i s.dcc).flight _)).tag hi.1 hi.2.1 hi.2.2
  cases h with
  | refused _ hb => exact .inl (by rw [takeResult_tag, hb.dcc]; rfl)
  | refusedDropped _ _ hr => exact .inr ⟨hr, _, rfl⟩
  | @returned u _ _ _ ht _ =>
    left
    show u.dcc.tag = s.dcc.tag
    exact track ht
  | raised _ ht _ => exact .inl (by rw [takeResult_tag]; exact track ht)
  | dropped _ _ hr => exact .inr ⟨hr, _, rfl⟩

theorem exec_owned {i : Instr} {s t : State} (hs : Owned s.dcc.tag) (h : exec i s = .next t) : Owned t.dcc.tag := by
  by_cases hc : i = .capcfgSet
  · subst hc
    exact capcfgSet_owned hs h
  by_cases hd : ∃ pin, i = .donepinSetup pin
  · obtain ⟨pin, rfl⟩ := hd
    obtain ⟨ha, ht⟩ | ht | ⟨_, u, rfl⟩ := (donepinSetup_ends h).tags
    · rw [ht]
      exact hs.movedDone ha.1 ha.2
    · rw [ht]
      exact hs
    · exact owned_resetTag u
  by_cases ht : ∃ pin, i = .trigpinSetup pin
  · obtain ⟨pin, rfl⟩ := ht
    obtain ⟨ha, ht⟩ | ht | ⟨_, u, rfl⟩ := (trigpinSetup_ends h).tags
    · rw [ht]
      exact hs.movedTrig ha.1 ha.2
    · rw [ht]
      exact hs
    · exact owned_resetTag u
  obtain htag | ⟨_, u, rfl⟩ := (exec_ran h).tag ⟨hc, fun pin hp => hd ⟨pin, hp⟩, fun pin hp => ht ⟨pin, hp⟩⟩
  · rw [htag]
    exact hs
  · exact owned_resetTag u

theorem illegalCommand_owned {s : State} (hs : Owned s.dcc.tag) : Owned (illegalCommand s).dcc.tag := by
  rw [illegalCommand]
  obtain ⟨u, hb, hl⟩ | ⟨u, _, _, hl⟩ := leave_cases (takeResult false .illegalCommand) (startOperation s)
  · rw [hl, takeResult_tag, hb.dcc]
    exact hs
  · rw [hl]
    exact owned_resetTag u

theorem afterAction_owned {a : HostAct} {s : State} (hs : Owned s.dcc.tag) : Owned (afterAction a s).dcc.tag := by
  cases a with
  | reset => exact owned_resetTag s
  | _ => exact hs

theorem step_owned {s t : State} (hs : Owned s.dcc.tag) (h : step s = .next t) : Owned t.dcc.tag := by
  obtain ⟨_, rfl⟩ | ⟨a, q, _, _, rfl⟩ | ⟨w, q, _, ⟨_, rfl⟩ | ⟨i, _, hi⟩ | ⟨_, rfl⟩⟩ := step_cases h
  · rw [envTurn_dcc]
    exact hs
  · exact afterAction_owned hs
  · exact hs
  · exact exec_owned (s := { withHostQ s q with regs := { s.regs with cmd := w } }) hs hi
  · exact illegalCommand_owned (s := { withHostQ s q with regs := { s.regs with cmd := w } }) hs

/-- The GPIO family moves no tag of another feature. -/
theorem gpio_foreign {i : Instr} {s t : State} (hr : .reset ∉ s.env.hostQ) (hc : i ≠ .capcfgSet) (h : exec i s = .next t)
    (p : Pin) (k : Nat) : t.dcc.tag.get p = .other k ↔ s.dcc.tag.get p = .other k := by
  by_cases hd : ∃ pin, i = .donepinSetup pin
  · obtain ⟨pin, rfl⟩ := hd
    obtain ⟨ha, ht⟩ | ht | ⟨hreset, _⟩ := (donepinSetup_ends h).tags
    · rw [ht]
      exact movedTags_get ha.1 (by simp) (by simp) p
    · rw [ht]
    · exact absurd hreset hr
  by_cases ht : ∃ pin, i = .trigpinSetup pin
  · obtain ⟨pin, rfl⟩ := ht
    obtain ⟨ha, ht⟩ | ht | ⟨hreset, _⟩ := (trigpinSetup_ends h).tags
    · rw [ht]
      exact movedTags_get ha.1 (by simp) (by simp) p
    · rw [ht]
    · exact absurd hreset hr
  obtain htag | ⟨hreset, _⟩ := (exec_ran h).tag ⟨hc, fun pin hp => hd ⟨pin, hp⟩, fun pin hp => ht ⟨pin, hp⟩⟩
  · rw [htag]
  · exact absurd hreset hr

/-- Settles O16: only the setups write tags, and they move one tag to a free pin or leave the table as it was. -/
theorem ownershipKept : Obligations.OwnershipKept := by
  refine ⟨fun s t hs h => step_owned hs h, fun i s t hs h => exec_owned hs h, fun pin val s t hr i hi h p k =>
    gpio_foreign hr (fun hc => ?_) h p k⟩
  simp [hc] at hi

end Sys2Proof.Machine
end

section
/-! PROOF. The pin operations in a quiet environment (40_gpio_arbiter.md R141 to R148): where each stands after every micro-step,
and the end states. -/

namespace Sys2Proof.Machine

/-! ## Points of a run in a quiet environment -/

/-- `s` with the DCC-local state `d`, its hidden state kept. -/
def withDcc (d : DccRegs) (s : State) : State := updateDcc (fun e => { d with flight := e.flight }) s

/-- At most `k` quiet boundaries after `s`: the DCC-local state is `d`, the undo log `us`, the chip `c`, and the transactions
`l` have been served. -/
def Point (s : State) (d : DccRegs) (us : List Undo) (c : Chip) (k : Nat) (l : List Txn) (u : State) : Prop :=
  ∃ n ≤ k, Goes (withDcc d s) u c n l ∧ u.dcc.flight.undo = us

/-- A run that may stop only with a class, in `F`. -/
def Raises (F : ResultClass → State → Prop) : Stop → State → Prop
  | .raised c, u => F c u
  | .dropped, _ => False

section Point

variable {s : State} {d : DccRegs} {us : List Undo} {c : Chip} {k N : Nat} {l : List Txn} {E : Stop → State → Prop}

theorem Point.start (s : State) : Point s s.dcc s.dcc.flight.undo s.chip 0 [] s := ⟨0, Nat.le_refl 0, Goes.refl s, rfl⟩

theorem Point.mono {k' : Nat} {u : State} (h : Point s d us c k l u) (hk : k ≤ k') : Point s d us c k' l u := by
  obtain ⟨n, hn, h⟩ := h
  exact ⟨n, hn.trans hk, h⟩

theorem Point.note {u : State} (h : Point s d us c k l u) {g : Flight → Flight}
    (hg : ∀ fl, SameSnapshot (g fl) fl) {us' : List Undo} (hu : (g u.dcc.flight).undo = us') :
    Point s d us' c k l (updateFlight g u) := by
  obtain ⟨n, hn, h, _⟩ := h
  exact ⟨n, hn, h.note (hg _).1 (hg _).2.1 (hg _).2.2, hu⟩

theorem Point.goes {u v : State} {c' : Chip} {l' : List Txn} {j : Nat} (h : Point s d us c k l u) (hv : GoesOn u v c' j l') :
    Point s d us c' (k + j) (l ++ l') v := by
  obtain ⟨n, hn, h, hus⟩ := h
  refine ⟨n + j, by omega, h.trans hv.toGoes, ?_⟩
  rw [hv.flight]
  exact hus

theorem Point.tag {u : State} (h : Point s d us c k l u) : u.dcc.tag = d.tag := by
  obtain ⟨n, _, h, _⟩ := h
  rw [h.dcc]
  rfl

theorem Point.chip {u : State} (h : Point s d us c k l u) : u.chip = c := by
  obtain ⟨n, _, h, _⟩ := h
  exact h.chip

theorem Point.cfg {u : State} (h : Point s d us c k l u) : u.cfg = s.cfg := by
  obtain ⟨n, _, h, _⟩ := h
  exact h.cfg

theorem Point.quiet {u : State} {j : Nat} (h : Point s d us c k l u) (hq : Quiet N s) (hj : k + j ≤ N) : Quiet j u := by
  obtain ⟨n, hn, h, _⟩ := h
  exact h.quiet (m := j) ((hq.of_env rfl rfl).mono (by omega))

theorem Point.waits {u : State} (h : Point s d us c k l u) (hw : HostWaits s) : HostWaits u := by
  obtain ⟨n, _, h, _⟩ := h
  exact h.waits (hw.of_hostQ rfl)

theorem Point.write {u : State} (h : Point s d us c k l u) {f : DccRegs → DccRegs} {e : DccRegs}
    (hf : ∀ fl, f { d with flight := fl } = { e with flight := fl }) :
    Point s e us c (k + 1) l (updateDcc f (passTick u)) := by
  obtain ⟨n, hn, h, hus⟩ := h
  have hdcc : (updateDcc f (passTick u)).dcc = { e with flight := u.dcc.flight } := by
    have := hf u.dcc.flight
    show f u.dcc = _
    rw [h.dcc]
    exact this
  have hp := h.pass
  refine ⟨n + 1, by omega, ⟨hp.cfg, hp.regs, hp.chip, ?_, ?_, ?_, ?_, hp.env⟩, ?_⟩
  · rw [hdcc]
    rfl
  · rw [hdcc]
    exact hp.oplen
  · rw [hdcc]
    exact hp.ctrl
  · rw [hdcc]
    exact hp.opb
  · rw [hdcc]
    exact hus

/-! ## The micro-steps -/

variable (hw : HostWaits s) (hq : Quiet N s)

include hw hq

theorem Point.dirSet (q : Pin) (dir : Dir) (hk : k < N) :
    Runs (Point s d us c k l) (gpioDirSet q dir)
      (fun _ => Point s d us { c with dir := c.dir.set q dir } (k + 1) (l ++ [.gpioDirSet q dir])) E := by
  intro u hu
  obtain ⟨v, hv, hg⟩ := gpioDirSet_calm ((hu.quiet hq (j := 1) hk).calm (hu.waits hw)) q dir
  rw [hv]
  have := hu.goes hg
  rw [hu.chip] at this
  exact this

theorem Point.readField (f : Field) (hk : k < N) :
    Runs (Point s d us c k l) (fieldRead f) (fun v u => v = getField c f ∧ Point s d us c (k + 1) (l ++ [.fieldRead f]) u) E := by
  intro u hu
  obtain ⟨v, hv, hg⟩ := fieldRead_calm ((hu.quiet hq (j := 1) hk).calm (hu.waits hw)) f
  rw [hv]
  have := hu.goes hg
  rw [hu.chip] at this
  exact ⟨by rw [hu.chip], this⟩

theorem Point.writeField (f : Field) (hf : f.ownedByDcc = true) (v : BitVec f.width) (hk : k + 1 < N) :
    Runs (Point s d us c k l) (fieldWrite f v)
      (fun _ => Point s d us (setField c f v) (k + 2) (l ++ [.fieldWrite f v.toNat])) E := by
  intro u hu
  obtain ⟨w, hr, hg⟩ := fieldWrite_calm ((hu.quiet hq (j := 2) hk).calm2 (hu.waits hw)) f hf v
  rw [hr]
  have := hu.goes hg
  rw [hu.chip] at this
  exact this

theorem Point.storeLocal {f : DccRegs → DccRegs} {e : DccRegs} (hf : ∀ fl, f { d with flight := fl } = { e with flight := fl })
    (hk : k < N) : Runs (Point s d us c k l) (writeLocal f) (fun _ => Point s e us c (k + 1) l) E := by
  intro u hu
  rw [writeLocal_calm ((hu.quiet hq (j := 1) hk).calm (hu.waits hw))]
  exact hu.write hf

theorem Point.setTag (q : Pin) (t : Tag) (hk : k < N) :
    Runs (Point s d us c k l) (Machine.setTag q t)
      (fun _ => Point s { d with tag := d.tag.set q t } us c (k + 1) l) E :=
  Point.storeLocal hw hq (fun _ => rfl) hk

omit hw hq in
theorem Point.logUndo (x : Undo) :
    Runs (Point s d us c k l) (Machine.logUndo x) (fun _ => Point s d (x :: us) c k l) E :=
  Runs.update fun u hu => hu.note (g := fun f => { f with undo := x :: f.undo }) (fun _ => ⟨rfl, rfl, rfl⟩) (by
    obtain ⟨_, _, _, rfl⟩ := hu
    rfl)

omit hw hq in
/-- A sequence of steps inside a rollback that runs on. -/
theorem Point.rollback_ok {m : M Unit} {Q : Unit → State → Prop}
    (h : Runs (Point s d [] c k l) m Q (Raises fun _ _ => False)) :
    Runs (Point s d us c k l) (withRollback m) Q (Raises fun _ _ => False) := by
  refine Runs.withRollback (F := fun _ _ => False) (D := fun _ => False) (h.weaken ?_ (fun _ _ h => h) ?_)
    (fun _ _ h => h.elim) fun _ h => h.elim
  · rintro _ ⟨u, hu, rfl⟩
    exact hu.note (g := fun f => { f with undo := [] }) (fun _ => ⟨rfl, rfl, rfl⟩) rfl
  · rintro (x | _) u hu
    · exact hu
    · exact hu

omit hw hq in
/-- A sequence of steps inside a rollback that stops, and the replay of the log. -/
theorem Point.rollback {m : M Unit} {d1 : DccRegs} {us1 : List Undo} {c1 : Chip} {k1 : Nat} {l1 : List Txn} {x : ResultClass}
    {P : State → Prop}
    (h : Runs (Point s d [] c k l) m (fun _ _ => False) (Raises fun y u => y = x ∧ Point s d1 us1 c1 k1 l1 u))
    (hr : Runs (Point s d1 us1 c1 k1 l1) (replayUndo us1) (fun _ => P) (Raises fun _ _ => False)) :
    Runs (Point s d us c k l) (withRollback m) (fun _ _ => False) (Raises fun y u => y = x ∧ P u) := by
  refine Runs.withRollback (F := fun y u => y = x ∧ Point s d1 us1 c1 k1 l1 u) (D := fun _ => False)
    (h.weaken ?_ (fun _ _ h => h) ?_) ?_ fun _ h => h.elim
  · rintro _ ⟨u, hu, rfl⟩
    exact hu.note (g := fun f => { f with undo := [] }) (fun _ => ⟨rfl, rfl, rfl⟩) rfl
  · rintro (y | _) u hu
    · exact hu
    · exact hu
  · rintro y u ⟨rfl, hu⟩
    have hus : u.dcc.flight.undo = us1 := by
      obtain ⟨_, _, _, h⟩ := hu
      exact h
    rw [hus]
    refine hr.weaken (fun _ h => h) (fun _ v hv => ⟨rfl, hv⟩) ?_ u hu
    rintro (z | _) v hv
    · exact hv.elim
    · exact hv.elim

/-! ## The moves of a setup -/

omit hw hq in
theorem Point.findPrev (f : Tag) :
    Runs (Point s d us c k l) (Machine.findPrev f) (fun prev u => prev = scanTag d.tag f ∧ Point s d us c k l u) E := by
  refine Runs.bind (R := fun _ u => Point s d us c k l u ∧ u.dcc.flight.prev = scanTag d.tag f) (Runs.update fun u hu => ?_)
    fun _ => Runs.ask fun u hu => ⟨hu.2, hu.1⟩
  refine ⟨hu.note (g := fun fl => { fl with prev := scanTag u.dcc.tag f }) (fun _ => ⟨rfl, rfl, rfl⟩) ?_, ?_⟩
  · obtain ⟨_, _, _, h⟩ := hu
    exact h
  · rw [← hu.tag]
    rfl

/-- The transaction of a release. -/
def releaseTxns : Option Pin → List Txn
  | none => []
  | some q => [.gpioDirSet q .input]

/-- The undo log of a release of the trigger pin, and of the done pin. -/
def trigLog : Option Pin → List Undo
  | none => []
  | some q => [.tag q .captureTrigger]

def doneLog : Option Pin → List Undo
  | none => []
  | some q => [.tag q .captureDone, .dir q .output]

theorem Point.releaseTrig (prev : Option Pin) (hk : k + 1 < N) :
    Runs (Point s d us c k l) (Machine.releaseTrig prev)
      (fun _ => Point s { d with tag := releasedTags prev d.tag } (trigLog prev ++ us) { c with dir := releasedDirs prev c.dir }
        (k + 2) (l ++ releaseTxns prev)) E := by
  cases prev with
  | none =>
    rw [show l ++ releaseTxns none = l from List.append_nil l]
    exact Runs.pure fun u hu => hu.mono (by omega)
  | some q =>
    exact Runs.bind (Point.dirSet hw hq q .input (by omega)) fun _ =>
      Runs.bind (Point.setTag hw hq q .none (by omega)) fun _ => Point.logUndo _

theorem Point.releaseDone (prev : Option Pin) (hk : k + 1 < N) :
    Runs (Point s d us c k l) (Machine.releaseDone prev)
      (fun _ => Point s { d with tag := releasedTags prev d.tag } (doneLog prev ++ us) { c with dir := releasedDirs prev c.dir }
        (k + 2) (l ++ releaseTxns prev)) E := by
  cases prev with
  | none =>
    rw [show l ++ releaseTxns none = l from List.append_nil l]
    exact Runs.pure fun u hu => hu.mono (by omega)
  | some q =>
    exact Runs.bind (Point.dirSet hw hq q .input (by omega)) fun _ => Runs.bind (Point.logUndo _) fun _ =>
      Runs.bind (Point.setTag hw hq q .none (by omega)) fun _ => Point.logUndo _

omit hw hq in
/-- The check of the requested pin's tag, passed. -/
theorem Point.tagFree {α : Type} {p : Pin} {m : M α} {Q : α → State → Prop} (hp : d.tag.get p = .none)
    (h : Runs (Point s d us c k l) m Q E) :
    Runs (Point s d us c k l) (do
      let t ← Machine.ask fun s => s.dcc.tag.get p
      Machine.check (t = .none) .resourceConflict
      m) Q E :=
  Runs.bind (R := fun t u => t = .none ∧ Point s d us c k l u) (Runs.ask fun u hu => ⟨by rw [hu.tag, hp], hu⟩) fun _ =>
    Runs.bind (R := fun _ u => Point s d us c k l u) (Runs.check (fun _ hu _ => hu.2) fun _ hu ht => absurd hu.1 ht) fun _ => h

omit hw hq in
/-- The check of the requested pin's tag, failed. -/
theorem Point.tagTaken {α : Type} {p : Pin} {m : M α} {Q : α → State → Prop} (hp : d.tag.get p ≠ .none) :
    Runs (Point s d us c k l) (do
      let t ← Machine.ask fun s => s.dcc.tag.get p
      Machine.check (t = .none) .resourceConflict
      m) Q (Raises fun x u => x = .resourceConflict ∧ Point s d us c k l u) :=
  Runs.bind (R := fun t u => t ≠ .none ∧ Point s d us c k l u) (Runs.ask fun u hu => ⟨by rw [hu.tag]; exact hp, hu⟩) fun _ =>
    Runs.bind (R := fun _ _ => False) (Runs.check (fun _ hu ht => absurd ht hu.1) fun _ hu _ => ⟨rfl, hu.2⟩) fun _ _ h => h.elim

theorem Point.acquireTrig {p : Pin} (hp : d.tag.get p = .none) (hk : k + 1 < N) :
    Runs (Point s d us c k l) (Machine.acquireTrig p)
      (fun _ => Point s { d with tag := d.tag.set p .captureTrigger } (.tag p .none :: us) { c with dir := c.dir.set p .input }
        (k + 2) (l ++ [.gpioDirSet p .input])) E :=
  Point.tagFree hp <| Runs.bind (Point.setTag hw hq p _ (by omega)) fun _ => Runs.bind (Point.logUndo _) fun _ =>
    Point.dirSet hw hq p .input (by omega)

theorem Point.acquireDone {p : Pin} (hp : d.tag.get p = .none) (hk : k + 3 < N) :
    Runs (Point s d us c k l) (Machine.acquireDone p)
      (fun _ => Point s { d with tag := d.tag.set p .captureDone } (.dir p .input :: .tag p .none :: us)
        { c with dir := c.dir.set p .output, srcctl := c.srcctl.set (groupOfPin p) s.cfg.srcctlMemElem }
        (k + 4) (l ++ [.gpioDirSet p .output] ++ [.fieldWrite (.srcctl (groupOfPin p)) s.cfg.srcctlMemElem.toNat])) E :=
  Point.tagFree hp <| Runs.bind (Point.setTag hw hq p _ (by omega)) fun _ => Runs.bind (Point.logUndo _) fun _ =>
    Runs.bind (Point.dirSet hw hq p .output (by omega)) fun _ => Runs.bind (Point.logUndo _) fun _ =>
    Runs.bind (R := fun m u => m = s.cfg.srcctlMemElem ∧ Point s { d with tag := d.tag.set p .captureDone }
      (.dir p .input :: .tag p .none :: us) { c with dir := c.dir.set p .output } (k + 2) (l ++ [.gpioDirSet p .output]) u)
      (Runs.ask fun u hu => ⟨by rw [hu.cfg], hu⟩) fun m u hu => by
        obtain ⟨rfl, hu⟩ := hu
        exact Point.writeField hw hq (.srcctl (groupOfPin p)) rfl s.cfg.srcctlMemElem (by omega) u hu

theorem Point.resetNibble {q : Pin} (hk : k + 1 < N) :
    Runs (Point s d us c k l) (Machine.resetNibble (some q))
      (fun _ => Point s d us { c with srcctl := c.srcctl.set (groupOfPin q) s.cfg.srcctlDefault } (k + 2)
        (l ++ [.fieldWrite (.srcctl (groupOfPin q)) s.cfg.srcctlDefault.toNat])) E :=
  Runs.bind (R := fun v u => v = s.cfg.srcctlDefault ∧ Point s d us c k l u) (Runs.ask fun u hu => ⟨by rw [hu.cfg], hu⟩)
    fun v u hu => by
      obtain ⟨rfl, hu⟩ := hu
      exact Point.writeField hw hq (.srcctl (groupOfPin q)) rfl s.cfg.srcctlDefault (by omega) u hu

/-! ## The setups -/

/-- The transactions of `TRIGPIN.SETUP` that acquires or releases. -/
def trigTxns (tag : Vector Tag 19) (pin : PinCode) : List Txn :=
  releaseTxns (scanTag tag .captureTrigger) ++ if pin = pinInvalid then [] else [.gpioDirSet (pinOfCode pin) .input]

theorem Point.moveTrigPin {pin : PinCode} (ha : mayAcquire d.tag .captureTrigger pin) (hk : k + 3 < N) :
    Runs (Point s d us c k l) (Machine.moveTrigPin pin)
      (fun _ u => ∃ us', Point s { d with tag := movedTags d.tag .captureTrigger pin } us'
        { c with dir := movedDirs d.tag .captureTrigger .input pin c.dir } (k + 4) (l ++ trigTxns d.tag pin) u) E := by
  refine Runs.bind (Point.findPrev .captureTrigger) fun prev => ?_
  rintro u ⟨rfl, hu⟩
  refine Runs.bind (Point.releaseTrig hw hq _ (by omega)) (fun _ => Runs.ite (fun hp => ?_) fun hp => ?_) u hu
  · refine Runs.pure fun v hv => ⟨trigLog (scanTag d.tag .captureTrigger) ++ us, ?_⟩
    rw [movedTags_eq, movedDirs_eq, trigTxns, if_pos hp, if_pos hp, if_pos hp, List.append_nil]
    exact hv.mono (by omega)
  · refine (Point.acquireTrig hw hq (released_free ha hp) (by omega)).weaken (fun _ h => h) (fun _ v hv => ?_) fun _ _ h => h
    rw [movedTags_eq, movedDirs_eq, trigTxns, if_neg hp, if_neg hp, if_neg hp, ← List.append_assoc]
    exact ⟨_, hv⟩

/-- The moves of `DONEPIN.SETUP`, its transactions for a pin to be acquired with none held. -/
theorem Point.moveDonePin {pin : PinCode} (ha : mayAcquire d.tag .captureDone pin) (hk : k + 5 < N) :
    Runs (Point s d us c k l) (Machine.moveDonePin pin)
      (fun _ u => ∃ us' l', Point s { d with tag := movedTags d.tag .captureDone pin } us'
        { c with
          dir := movedDirs d.tag .captureDone .output pin c.dir, srcctl := movedNibbles s.cfg d.tag pin c.srcctl }
        (k + 6) (l ++ l') u ∧ (scanTag d.tag .captureDone = none → pin ≠ pinInvalid → l' = [.gpioDirSet (pinOfCode pin) .output,
          .fieldWrite (.srcctl (groupOfPin (pinOfCode pin))) s.cfg.srcctlMemElem.toNat])) E := by
  refine Runs.bind (Point.findPrev .captureDone) fun prev => ?_
  rintro u ⟨rfl, hu⟩
  refine Runs.bind (Point.releaseDone hw hq _ (by omega)) (fun _ => Runs.ite (fun hp => ?_) fun hp => ?_) u hu
  · rw [movedTags_eq, movedDirs_eq, movedNibbles, if_pos hp, if_pos hp, if_pos hp]
    cases hs : scanTag d.tag .captureDone with
    | none =>
      refine Runs.pure fun v hv => ?_
      exact ⟨us, [], hv.mono (by omega), fun _ h => absurd hp h⟩
    | some q =>
      refine (Point.resetNibble hw hq (q := q) (by omega)).weaken (fun _ h => h) (fun _ v hv => ?_) fun _ _ h => h
      rw [List.append_assoc] at hv
      exact ⟨_, _, hv.mono (by omega), by simp⟩
  · rw [movedTags_eq, movedDirs_eq, movedNibbles, if_neg hp, if_neg hp, if_neg hp]
    refine (Point.acquireDone hw hq (released_free ha hp) (by omega)).weaken (fun _ h => h) (fun _ v hv => ?_) fun _ _ h => h
    rw [List.append_assoc, List.append_assoc] at hv
    exact ⟨_, _, hv, fun hs _ => by rw [hs]; rfl⟩

theorem Point.setupTrigPin {pin : PinCode} (hl : pinSetupLegal pin = true) (ha : mayAcquire d.tag .captureTrigger pin)
    (hk : k + 4 < N) :
    Runs (Point s d us c k l) (Machine.setupTrigPin pin)
      (fun _ u => ∃ us', Point s { d with tag := movedTags d.tag .captureTrigger pin, sessTrigPin := pin } us'
        { c with dir := movedDirs d.tag .captureTrigger .input pin c.dir } (k + 5) (l ++ trigTxns d.tag pin) u)
      (Raises fun _ _ => False) := by
  refine Runs.bind (R := fun _ => Point s d us c k l) (Runs.checkParam (fun _ h _ => h) fun _ _ h => absurd hl h) fun _ =>
    Runs.bind (Point.rollback_ok (Point.moveTrigPin hw hq ha (by omega))) fun _ => ?_
  rintro u ⟨us', hu⟩
  exact (Point.storeLocal (e := { d with tag := movedTags d.tag .captureTrigger pin, sessTrigPin := pin }) hw hq
    (fun _ => rfl) (by omega)).weaken (fun _ h => h) (fun _ _ h => ⟨us', h⟩) (fun _ _ h => h) u hu

end Point

end Sys2Proof.Machine
end

section
/-! PROOF. The end states of the pin operations (40_gpio_arbiter.md R140 to R148): setups that move a pin, that a foreign pin or a
nibble of another source refuses, the queries, and a failed nibble write. -/

namespace Sys2Proof.Machine

/-! ## Setups that stop at a foreign pin -/

/-- Where the requested pin may not be acquired, its tag stops the setup. -/
theorem released_taken {tag : Vector Tag 19} {f : Tag} {pin : PinCode} (h : ¬ mayAcquire tag f pin) :
    pin ≠ pinInvalid ∧ (releasedTags (scanTag tag f) tag).get (pinOfCode pin) ≠ .none := by
  unfold mayAcquire at h
  simp only [not_or] at h
  obtain ⟨hp, ht, hs⟩ := h
  refine ⟨hp, ?_⟩
  unfold releasedTags
  split
  · next q hq =>
    rw [get_set_ne _ _ fun he => hs (hq.trans (congrArg some he))]
    exact ht
  · exact ht

/-- The directions after a done-pin setup that has been rolled back. -/
def restoredDirs (prev : Option Pin) (dir : Vector Dir 19) : Vector Dir 19 :=
  match prev with
  | some q => dir.set q .output
  | none => dir

section Point

variable {s : State} {d : DccRegs} {us : List Undo} {c : Chip} {k N : Nat} {l : List Txn} {E : Stop → State → Prop}

/-- A point of which the undo log and the transactions are left open. -/
def Stands (s : State) (d : DccRegs) (c : Chip) (k : Nat) (u : State) : Prop := ∃ us l, Point s d us c k l u

theorem Point.stands {u : State} (h : Point s d us c k l u) : Stands s d c k u := ⟨us, l, h⟩

theorem set_set_of_get {α : Type} {n : Nat} (v : Vector α n) (i : Fin n) (x : α) {y : α} (h : v.get i = y) :
    (v.set i x).set i y = v := h ▸ set_set_get v i x

/-- The local state once the pin that carried `f` is released. -/
def releasedDcc (f : Tag) (d : DccRegs) : DccRegs := { d with tag := releasedTags (scanTag d.tag f) d.tag }

variable (hw : HostWaits s) (hq : Quiet N s)
include hw hq

theorem Point.moveTrigPin_taken {pin : PinCode} (ha : ¬ mayAcquire d.tag .captureTrigger pin) (hk : k + 1 < N) :
    Runs (Point s d us c k l) (Machine.moveTrigPin pin) (fun _ _ => False) (Raises fun x u => x = .resourceConflict ∧
      Point s (releasedDcc .captureTrigger d) (trigLog (scanTag d.tag .captureTrigger) ++ us)
        { c with dir := releasedDirs (scanTag d.tag .captureTrigger) c.dir } (k + 2)
        (l ++ releaseTxns (scanTag d.tag .captureTrigger)) u) := by
  obtain ⟨hp, ht⟩ := released_taken ha
  refine Runs.bind (Point.findPrev .captureTrigger) fun prev => ?_
  rintro u ⟨rfl, hu⟩
  refine Runs.bind (Point.releaseTrig hw hq _ hk) (fun _ => Runs.ite (fun h => absurd h hp) fun _ => ?_) u hu
  exact Point.tagTaken (d := releasedDcc .captureTrigger d) ht

theorem Point.moveDonePin_taken {pin : PinCode} (ha : ¬ mayAcquire d.tag .captureDone pin) (hk : k + 1 < N) :
    Runs (Point s d us c k l) (Machine.moveDonePin pin) (fun _ _ => False) (Raises fun x u => x = .resourceConflict ∧
      Point s (releasedDcc .captureDone d) (doneLog (scanTag d.tag .captureDone) ++ us)
        { c with dir := releasedDirs (scanTag d.tag .captureDone) c.dir } (k + 2)
        (l ++ releaseTxns (scanTag d.tag .captureDone)) u) := by
  obtain ⟨hp, ht⟩ := released_taken ha
  refine Runs.bind (Point.findPrev .captureDone) fun prev => ?_
  rintro u ⟨rfl, hu⟩
  refine Runs.bind (Point.releaseDone hw hq _ hk) (fun _ => Runs.ite (fun h => absurd h hp) fun _ => ?_) u hu
  exact Point.tagTaken (d := releasedDcc .captureDone d) ht

/-- The tag of the released pin comes back. -/
theorem Point.retag {f : Tag} {q : Pin} (hs : scanTag d.tag f = some q) (hk : k < N) :
    Runs (Point s (releasedDcc f d) us c k l) (Machine.setTag q f) (fun _ => Point s d us c (k + 1) l) E := by
  refine Point.storeLocal (d := releasedDcc f d) (f := fun d => { d with tag := d.tag.set q f }) (e := d) hw hq (fun fl => ?_) hk
  have : (releasedTags (some q) d.tag).set q f = d.tag := set_set_of_get d.tag q .none (scanTag_some hs).1
  show ({ d with tag := (releasedTags (scanTag d.tag f) d.tag).set q f, flight := fl } : DccRegs) = _
  rw [hs, this]

theorem Point.replayTrig (hk : k < N) :
    Runs (Point s (releasedDcc .captureTrigger d) us c k l) (replayUndo (trigLog (scanTag d.tag .captureTrigger)))
      (fun _ => Stands s d c (k + 1)) E := by
  cases hs : scanTag d.tag .captureTrigger with
  | none =>
    have hd : releasedDcc .captureTrigger d = d := by unfold releasedDcc; rw [hs]; rfl
    rw [hd]
    exact Runs.pure fun u hu => (hu.mono (by omega)).stands
  | some q => exact Runs.bind (Point.retag hw hq hs hk) fun _ => Runs.pure fun _ h => h.stands

theorem Point.replayDone (hk : k + 1 < N) :
    Runs (Point s (releasedDcc .captureDone d) us { c with dir := releasedDirs (scanTag d.tag .captureDone) c.dir } k l)
      (replayUndo (doneLog (scanTag d.tag .captureDone)))
      (fun _ => Stands s d { c with dir := restoredDirs (scanTag d.tag .captureDone) c.dir } (k + 2)) (Raises fun _ _ => False) := by
  cases hs : scanTag d.tag .captureDone with
  | none =>
    have hd : releasedDcc .captureDone d = d := by unfold releasedDcc; rw [hs]; rfl
    rw [hd]
    exact Runs.pure fun u hu => (hu.mono (by omega)).stands
  | some q =>
    refine Runs.bind (Point.retag hw hq hs (by omega)) fun _ => Runs.bind (R := fun _ => Stands s d { c with dir := c.dir.set q .output } (k + 2)) (Runs.dropFailure ?_) fun _ =>
      Runs.pure fun _ h => h
    refine (Point.dirSet (E := fun _ _ => False) hw hq q .output (by omega)).weaken (fun _ h => h) (fun _ u hu => ?_)
      fun _ _ h => h.elim
    have hset : (releasedDirs (some q) c.dir).set q .output = c.dir.set q .output := Vector.set_set ..
    rw [hset] at hu
    exact hu.stands

theorem Point.setupTrigPin_taken {pin : PinCode} (hl : pinSetupLegal pin = true) (ha : ¬ mayAcquire d.tag .captureTrigger pin)
    (hk : k + 2 < N) :
    Runs (Point s d us c k l) (Machine.setupTrigPin pin) (fun _ _ => False) (Raises fun x u => x = .resourceConflict ∧
      Stands s d { c with dir := releasedDirs (scanTag d.tag .captureTrigger) c.dir } (k + 3) u) := by
  refine Runs.bind (R := fun _ => Point s d us c k l) (Runs.checkParam (fun _ h _ => h) fun _ _ h => absurd hl h) fun _ =>
    Runs.bind (R := fun _ _ => False) (Point.rollback (Point.moveTrigPin_taken hw hq ha (by omega)) ?_) fun _ _ h => h.elim
  rw [List.append_nil]
  exact Point.replayTrig hw hq (by omega)

theorem Point.moveDonePin_restored {pin : PinCode} (ha : ¬ mayAcquire d.tag .captureDone pin) (hk : k + 3 < N) :
    Runs (Point s d us c k l) (withRollback (Machine.moveDonePin pin)) (fun _ _ => False) (Raises fun x u => x = .resourceConflict ∧
      Stands s d { c with dir := restoredDirs (scanTag d.tag .captureDone) c.dir } (k + 4) u) := by
  refine Point.rollback (Point.moveDonePin_taken hw hq ha (by omega)) ?_
  rw [List.append_nil]
  exact Point.replayDone hw hq (by omega)

/-! ## `DONEPIN.SETUP` -/

/-- The nibble the check reads is one it accepts. -/
theorem Point.nibbleCheck {p : Pin}
    (ha : c.srcctl.get (groupOfPin p) = s.cfg.srcctlDefault ∨ c.srcctl.get (groupOfPin p) = s.cfg.srcctlMemElem) (hk : k < N) :
    Runs (Point s d us c k l) (Machine.nibbleCheck p) (fun _ => Point s d us c (k + 1) (l ++ [.fieldRead (.srcctl (groupOfPin p))])) E := by
  refine Runs.bind (Point.readField hw hq (.srcctl (groupOfPin p)) hk) fun n => ?_
  rintro u ⟨rfl, hu⟩
  refine Runs.bind (R := fun cfg v => cfg = s.cfg ∧ v = u) (Runs.ask fun v hv => ⟨hv ▸ hu.cfg, hv⟩) (fun cfg => ?_) u rfl
  rintro v ⟨rfl, rfl⟩
  exact (Runs.check (P := fun w => w = v) (fun _ h _ => h ▸ hu) fun _ _ h => absurd ha h) v rfl

theorem Point.nibbleCheck_other {p : Pin}
    (ha : ¬ (c.srcctl.get (groupOfPin p) = s.cfg.srcctlDefault ∨ c.srcctl.get (groupOfPin p) = s.cfg.srcctlMemElem)) (hk : k < N) :
    Runs (Point s d us c k l) (Machine.nibbleCheck p) (fun _ _ => False)
      (Raises fun x u => x = .resourceConflict ∧ Stands s d c (k + 1) u) := by
  refine Runs.bind (Point.readField hw hq (.srcctl (groupOfPin p)) hk) fun n => ?_
  rintro u ⟨rfl, hu⟩
  refine Runs.bind (R := fun cfg v => cfg = s.cfg ∧ v = u) (Runs.ask fun v hv => ⟨hv ▸ hu.cfg, hv⟩) (fun cfg => ?_) u rfl
  rintro v ⟨rfl, rfl⟩
  exact (Runs.check (P := fun w => w = v) (fun _ _ h => absurd h ha) fun _ h _ => ⟨rfl, h ▸ hu.stands⟩) v rfl

/-- The check of the nibble, skipped for the sentinel. -/
theorem Point.nibbleChecked {pin : PinCode} (ha : nibbleAccepted s.cfg c.srcctl pin) (hk : k < N) :
    Runs (Point s d us c k l) (Machine.doIf (pin ≠ pinInvalid) (Machine.nibbleCheck (pinOfCode pin)))
      (fun _ => Point s d us c (k + 1) (l ++ if pin = pinInvalid then [] else [.fieldRead (.srcctl (groupOfCode pin))])) E := by
  refine Runs.doIf (fun hp => ?_) fun hp u hu => ?_
  · rw [if_neg hp]
    exact Point.nibbleCheck hw hq (ha.resolve_left hp) hk
  · rw [if_pos (not_not.1 hp), List.append_nil]
    exact hu.mono (by omega)

theorem Point.nibbleRefused {pin : PinCode} (ha : ¬ nibbleAccepted s.cfg c.srcctl pin) (hk : k < N) :
    Runs (Point s d us c k l) (Machine.doIf (pin ≠ pinInvalid) (Machine.nibbleCheck (pinOfCode pin))) (fun _ _ => False)
      (Raises fun x u => x = .resourceConflict ∧ Stands s d c (k + 1) u) := by
  obtain ⟨hp, ha⟩ := not_or.1 ha
  exact Runs.doIf (fun _ => Point.nibbleCheck_other hw hq ha hk) fun h => absurd hp h

theorem Point.setupDonePin {pin : PinCode} (hl : pinSetupLegal pin = true) (hn : nibbleAccepted s.cfg c.srcctl pin)
    (ha : mayAcquire d.tag .captureDone pin) (hk : k + 7 < N) :
    Runs (Point s d us c k l) (Machine.setupDonePin pin)
      (fun _ u => ∃ us' l', Point s { d with tag := movedTags d.tag .captureDone pin, sessDonePin := pin } us'
        { c with
          dir := movedDirs d.tag .captureDone .output pin c.dir, srcctl := movedNibbles s.cfg d.tag pin c.srcctl }
        (k + 8) (l ++ l') u ∧ (scanTag d.tag .captureDone = none → pin ≠ pinInvalid →
          l' = [.fieldRead (.srcctl (groupOfCode pin)), .gpioDirSet (pinOfCode pin) .output,
            .fieldWrite (.srcctl (groupOfCode pin)) s.cfg.srcctlMemElem.toNat]))
      (Raises fun _ _ => False) := by
  refine Runs.bind (R := fun _ => Point s d us c k l) (Runs.checkParam (fun _ h _ => h) fun _ _ h => absurd hl h) fun _ =>
    Runs.bind (Point.nibbleChecked hw hq hn (by omega)) fun _ =>
    Runs.bind (Point.rollback_ok (Point.moveDonePin hw hq ha (by omega))) fun _ => ?_
  rintro u ⟨us', l', hu, htxn⟩
  refine (Point.storeLocal (e := { d with tag := movedTags d.tag .captureDone pin, sessDonePin := pin }) hw hq
    (fun _ => rfl) (by omega)).weaken (fun _ h => h) (fun _ v hv => ?_) (fun _ _ h => h) u hu
  rw [List.append_assoc] at hv
  refine ⟨us', _, hv, fun hs hp => ?_⟩
  rw [htxn hs hp, if_neg hp]
  rfl

theorem Point.setupDonePin_taken {pin : PinCode} (hl : pinSetupLegal pin = true) (hn : nibbleAccepted s.cfg c.srcctl pin)
    (ha : ¬ mayAcquire d.tag .captureDone pin) (hk : k + 4 < N) :
    Runs (Point s d us c k l) (Machine.setupDonePin pin) (fun _ _ => False) (Raises fun x u => x = .resourceConflict ∧
      Stands s d { c with dir := restoredDirs (scanTag d.tag .captureDone) c.dir } (k + 5) u) :=
  Runs.bind (R := fun _ => Point s d us c k l) (Runs.checkParam (fun _ h _ => h) fun _ _ h => absurd hl h) fun _ =>
    Runs.bind (Point.nibbleChecked hw hq hn (by omega)) fun _ =>
    Runs.bind (Point.moveDonePin_restored hw hq ha (by omega)) fun _ _ h => h.elim

theorem Point.setupDonePin_nibble {pin : PinCode} (hl : pinSetupLegal pin = true) (hn : ¬ nibbleAccepted s.cfg c.srcctl pin)
    (hk : k < N) :
    Runs (Point s d us c k l) (Machine.setupDonePin pin) (fun _ _ => False)
      (Raises fun x u => x = .resourceConflict ∧ Stands s d c (k + 1) u) :=
  Runs.bind (R := fun _ => Point s d us c k l) (Runs.checkParam (fun _ h _ => h) fun _ _ h => absurd hl h) fun _ =>
    Runs.bind (Point.nibbleRefused hw hq hn hk) fun _ _ h => h.elim

end Point

end Sys2Proof.Machine
end

section
/-! PROOF. The pin operations as the statements see them (40_gpio_arbiter.md R140 to R148). -/

namespace Sys2Proof.Machine

/-! ## How an operation ends at a point -/

/-- A run to a point returns there. -/
theorem ended_returned {s : State} {fam : Bool} {body : M Result} {d : DccRegs} {c : Chip} {k : Nat} {P : List Txn → Prop}
    {r : Result} (hw : HostWaits s) (hq : Quiet (k + 1) s)
    (h : Runs (fun u => u = startOperation s) body (fun r' u => r' = r ∧ ∃ us l, Point (startOperation s) d us c k l u ∧ P l)
      (Raises fun _ _ => False)) :
    EndedOk s (runOperation fam body s) r.info r.data ∧
      (runOperation fam body s).dcc = { d with flight := (runOperation fam body s).dcc.flight } ∧
      (runOperation fam body s).chip = c ∧ ∃ l, P l ∧ Sent s (runOperation fam body s) l := by
  have hrun := h _ rfl
  cases hr : body.run (startOperation s) with
  | error e u =>
    rw [hr] at hrun
    cases e <;> exact hrun.elim
  | ok r' u =>
    rw [hr] at hrun
    obtain ⟨rfl, us, l, hp, hl⟩ := hrun
    have hcalm : envTurn u = passTick u :=
      (hp.quiet (N := k + 1) (j := 1) (hq.of_env rfl rfl) (Nat.le_refl _)).envTurn
    have hwu := hp.waits (hostWaits_start hw)
    rw [runOperation_ok hr, leave_of_waits hwu, hcalm]
    obtain ⟨n, _, hg, _⟩ := hp
    have hgp := hg.pass
    refine ⟨endedOk_returnOk hgp.cfg hgp.regs (by rw [hgp.env]; rfl) (by rw [hgp.env]; rfl), dcc_returnOk hgp.dcc, hgp.chip, l, hl, ?_⟩
    show (passTick u).env.bus = _
    rw [hgp.env]
    rfl

/-- A run that stops at a point ends there with its class. -/
theorem ended_raised {s : State} {fam : Bool} {body : M Result} {d : DccRegs} {c : Chip} {k : Nat} {x : ResultClass}
    (hx : isTransportFailure x = false) (hw : HostWaits s) (hq : Quiet (k + 1) s)
    (h : Runs (fun u => u = startOperation s) body (fun _ _ => False)
      (Raises fun x' u => x' = x ∧ Stands (startOperation s) d c k u)) :
    Ended s (runOperation fam body s) (resWord s.cfg x 0) [] ∧
      (runOperation fam body s).dcc = { d with flight := (runOperation fam body s).dcc.flight } ∧
      (runOperation fam body s).chip = c := by
  have hrun := h _ rfl
  cases hr : body.run (startOperation s) with
  | ok r' u =>
    rw [hr] at hrun
    exact hrun.elim
  | error e u =>
    rw [hr] at hrun
    cases e with
    | dropped => exact hrun.elim
    | raised x' =>
      obtain ⟨rfl, us, l, hp⟩ := hrun
      have hcalm : envTurn u = passTick u :=
        (hp.quiet (N := k + 1) (j := 1) (hq.of_env rfl rfl) (Nat.le_refl _)).envTurn
      have hwu := hp.waits (hostWaits_start hw)
      rw [runOperation_raised hr, leave_of_waits hwu, hcalm]
      obtain ⟨n, _, hg, _⟩ := hp
      have hgp := hg.pass
      refine ⟨ended_takeResult hgp.cfg hgp.regs (by rw [hgp.env]; rfl), ?_, by rw [takeResult_chip, hgp.chip]⟩
      rw [takeResult_dcc hx, hgp.dcc]
      rfl

/-- An operation that stops in `u` with a class that is no transport failure, nothing of the chip or of the local state changed. -/
theorem ended_of_untouched {fam : Bool} {body : M Result} {s u : State} {x : ResultClass} {n : Nat} {l : List Txn}
    (hx : isTransportFailure x = false) (hrun : body.run (startOperation s) = .error (.raised x) u) (hw : HostWaits s)
    (hin : Inside s u l) (hchip : ChipUntouched n s u) (hdcc : u.dcc = { s.dcc with flight := u.dcc.flight }) :
    Ended s (runOperation fam body s) (resWord s.cfg x 0) [] ∧ DccSame s (runOperation fam body s) ∧
      (runOperation fam body s).chip = (envTurns (n + 1) s).chip ∧ Sent s (runOperation fam body s) l := by
  rw [runOperation_raised hrun, hin.leave hw]
  refine ⟨hin.turn.ended fam x, ?_, by rw [takeResult_chip]; exact hchip.turn.chip, (takeResult_bus _ _ _).trans hin.turn.bus⟩
  unfold DccSame
  rw [takeResult_dcc hx, envTurn_dcc, hdcc]

/-! ## Pin codes -/

theorem pinSetupLegal_iff (pin : PinCode) : pinSetupLegal pin = true ↔ pin.toNat ≤ 15 ∨ pin = 0xFF := by
  simp [pinSetupLegal, pinAssignable, pinInvalid]

theorem ne_pinInvalid {pin : PinCode} (h : pin.toNat ≤ 15) : pin ≠ pinInvalid := by
  rintro rfl
  exact absurd h (by decide)

theorem val_pinOfCode {pin : PinCode} (h : pin.toNat ≤ 15) : (pinOfCode pin).val = pin.toNat := by
  simp only [pinOfCode, Fin.val_ofNat]
  omega

/-- A setup whose pin code is refused. -/
theorem setup_badPin {pin : PinCode} {s : State} {rest : Unit → M Unit} (h : 15 < pin.toNat) (hp : pin ≠ 0xFF) (hw : HostWaits s) :
    EndedAtOnce s (runOperation false (checkParam (pinSetupLegal pin) .pin >>= rest >>= fun _ => pure {}) s) 0x101 := by
  refine endedAtOnce_invalidParameter (code := .pin) hw ?_
  rw [run_bind_assoc, run_checkParam_bind, if_neg]
  rw [pinSetupLegal_iff]
  exact not_or.2 ⟨by omega, hp⟩

/-- Settles O31: the check of the pin code is the first step of all four operations. -/
theorem pinCodesChecked : Obligations.PinCodesChecked := by
  refine ⟨fun pin val s hp hw i hi => ?_, fun pin s hp hne hw i hi => ?_⟩
  all_goals simp only [List.mem_cons, List.not_mem_nil, or_false] at hi
  · obtain rfl | rfl := hi
    · exact ⟨_, rfl, endedAtOnce_of_refused hw rfl (run_pinUnmapped_bind hp _ _)⟩
    · exact ⟨_, rfl, endedAtOnce_of_refused hw rfl (run_pinUnmapped_bind hp _ _)⟩
  · obtain rfl | rfl := hi
    · exact ⟨_, rfl, setup_badPin hp hne hw⟩
    · exact ⟨_, rfl, setup_badPin hp hne hw⟩

/-! ## `SRCCTL.SET` that fails -/

/-- Every bit of a torn field is the old one or the new one. -/
theorem getLsbD_tornBits {w : Nat} (d k : Nat) (old new : BitVec w) (j : Nat) :
    (tornBits d k old new).getLsbD j = old.getLsbD j ∨ (tornBits d k old new).getLsbD j = new.getLsbD j := by
  unfold tornBits mixBits
  simp only [BitVec.getLsbD_xor, BitVec.getLsbD_and]
  cases old.getLsbD j <;> cases new.getLsbD j <;> simp

/-- Settles O25: the one nibble the failed write tears is that of the pin's group. -/
theorem srcctlSetFails : Obligations.SrcctlSetFails := by
  intro pin val s hp hw ha
  obtain ⟨u, hout, hend, hnib⟩ := srcctlSet_failed (val := val) hp hw ha
  refine ⟨_, rfl, hend, ?_⟩
  rw [hout]
  refine ⟨dccSame_takeResult hnib.dcc, by rw [takeResult_chip, hnib.chip], fun g k => ?_⟩
  rw [takeResult_chip, hnib.chip, get_set]
  split
  · next h =>
    subst h
    exact (getLsbD_tornBits _ _ _ _ _).imp_right fun h => ⟨groupOfCode_val hp, h⟩
  · exact .inl rfl

/-! ## The queries -/

/-- The scan visits the pins 0..15 in their order. -/
theorem scanPins_sorted : scanPins.Pairwise (· < ·) := by decide

theorem scanTag_least {tag : Vector Tag 19} {f : Tag} {p q : Pin} (h : scanTag tag f = some p) (hq : q < p) : tag.get q ≠ f := by
  obtain ⟨_, as, bs, hscan, has⟩ := List.find?_eq_some_iff_append.1 h
  have hmem : q ∈ scanPins := (mem_scanPins q).2 (Nat.le_trans (Nat.le_of_lt hq) (scanTag_some h).2)
  rw [hscan, List.mem_append] at hmem
  obtain hq' | hq' := hmem
  · simpa using has q hq'
  · have hs := (List.pairwise_append.1 (hscan ▸ scanPins_sorted)).2.1
    obtain rfl | hq' := List.mem_cons.1 hq'
    · exact absurd hq (lt_irrefl _)
    · exact absurd hq (lt_asymm ((List.pairwise_cons.1 hs).1 q hq'))

/-- Settles O27: the scan answers from the tag table alone. -/
theorem pinQueries : Obligations.PinQueries := by
  intro s hw x hx
  have hquery : ∀ f, DccSame s (runOperation false (pinQuery f) s) ∧ (runOperation false (pinQuery f) s).chip = (envTurn s).chip ∧
      EndedOk s (runOperation false (pinQuery f) s) (codeOfPin (scanTag s.dcc.tag f)) [] ∧ Sent s (runOperation false (pinQuery f) s) [] :=
    fun f => endedOk_of_untouched (fam := false) (body := pinQuery f) rfl hw (Inside.start s) (ChipUntouched.start s) rfl
  have hcode : ∀ f : Tag, (∃ p : Pin, p.val ≤ 15 ∧ s.dcc.tag.get p = f ∧ (∀ q : Pin, q < p → s.dcc.tag.get q ≠ f) ∧
      (codeOfPin (scanTag s.dcc.tag f)).toNat = p.val) ∨
      (∀ p : Pin, p.val ≤ 15 → s.dcc.tag.get p ≠ f) ∧ codeOfPin (scanTag s.dcc.tag f) = 0xFF := by
    intro f
    cases hs : scanTag s.dcc.tag f with
    | none => exact .inr ⟨fun p hp => scanTag_none hs hp, rfl⟩
    | some p =>
      obtain ⟨ht, hp⟩ := scanTag_some hs
      refine .inl ⟨p, hp, ht, fun q hq => scanTag_least hs hq, ?_⟩
      simp only [codeOfPin, BitVec.toNat_ofNat]
      omega
  simp only [List.mem_cons, List.not_mem_nil, or_false] at hx
  obtain rfl | rfl := hx
  · obtain ⟨hdcc, hchip, hend, hsent⟩ := hquery .captureDone
    exact ⟨_, _, rfl, hend, hdcc, hchip, hsent, hcode _⟩
  · obtain ⟨hdcc, hchip, hend, hsent⟩ := hquery .captureTrigger
    exact ⟨_, _, rfl, hend, hdcc, hchip, hsent, hcode _⟩

/-! ## The setups -/

/-- A setup that returns behind its moves. -/
theorem Runs.thenReturn {P : State → Prop} {m : M Unit} {Q : State → Prop} {E : Stop → State → Prop} (h : Runs P m (fun _ => Q) E) :
    Runs P (m >>= fun _ => Pure.pure ({} : Result)) (fun r u => r = {} ∧ Q u) E := Runs.bind h fun _ => Runs.pure fun _ h => ⟨rfl, h⟩

theorem Runs.thenNever {P : State → Prop} {m : M Unit} {E : Stop → State → Prop} (h : Runs P m (fun _ _ => False) E) :
    Runs P (m >>= fun _ => Pure.pure ({} : Result)) (fun _ _ => False) E := Runs.bind h fun _ _ h => h.elim

/-- An operation begins at a point. -/
theorem Runs.fromStart {α : Type} {s : State} {m : M α} {Q : α → State → Prop} {E : Stop → State → Prop}
    (h : Runs (Point s s.dcc s.dcc.flight.undo s.chip 0 []) m Q E) : Runs (fun u => u = s) m Q E :=
  h.weaken (fun _ hu => hu ▸ Point.start s) (fun _ _ h => h) fun _ _ h => h

theorem trigpinSetup_moves {pin : PinCode} {s : State} (hl : pinSetupLegal pin = true) (hw : HostWaits s) (hq : Quiet 6 s)
    (ha : mayAcquire s.dcc.tag .captureTrigger pin) :
    EndedOk s (runOperation false (trigpinSetup pin) s) 0 [] ∧
      (runOperation false (trigpinSetup pin) s).dcc = { s.dcc with
        tag := movedTags s.dcc.tag .captureTrigger pin, sessTrigPin := pin
        flight := (runOperation false (trigpinSetup pin) s).dcc.flight } ∧
      (runOperation false (trigpinSetup pin) s).chip =
        { s.chip with dir := movedDirs s.dcc.tag .captureTrigger .input pin s.chip.dir } := by
  have hrun := Point.setupTrigPin (d := (startOperation s).dcc) (us := (startOperation s).dcc.flight.undo) (c := s.chip) (l := [])
    (k := 0) (hostWaits_start hw) (hq.of_env rfl rfl) hl ha (by omega)
  obtain ⟨hend, hdcc, hchip, _⟩ := ended_returned (P := fun _ => True) (k := 5) (fam := false) hw hq
    (Runs.thenReturn (Runs.fromStart (hrun.weaken (fun _ h => h) (fun _ u ⟨us, hu⟩ => ⟨us, _, hu, trivial⟩) fun _ _ h => h)))
  exact ⟨hend, hdcc, hchip⟩

/-- Settles O30: the setup's moves, in a quiet environment. -/
theorem trigpinSetupMoves : Obligations.TrigpinSetupMoves :=
  fun _ _ hp hw hq ha => ⟨_, rfl, trigpinSetup_moves ((pinSetupLegal_iff _).2 hp) hw hq ha⟩

theorem donepinSetup_moves {pin : PinCode} {s : State} (hl : pinSetupLegal pin = true) (hw : HostWaits s) (hq : Quiet 9 s)
    (hn : nibbleAccepted s.cfg s.chip.srcctl pin) (ha : mayAcquire s.dcc.tag .captureDone pin) :
    EndedOk s (runOperation false (donepinSetup pin) s) 0 [] ∧
      (runOperation false (donepinSetup pin) s).dcc = { s.dcc with
        tag := movedTags s.dcc.tag .captureDone pin, sessDonePin := pin
        flight := (runOperation false (donepinSetup pin) s).dcc.flight } ∧
      (runOperation false (donepinSetup pin) s).chip = { s.chip with
        dir := movedDirs s.dcc.tag .captureDone .output pin s.chip.dir
        srcctl := movedNibbles s.cfg s.dcc.tag pin s.chip.srcctl } ∧
      ∃ l, (scanTag s.dcc.tag .captureDone = none → pin ≠ pinInvalid →
        l = [.fieldRead (.srcctl (groupOfCode pin)), .gpioDirSet (pinOfCode pin) .output,
          .fieldWrite (.srcctl (groupOfCode pin)) s.cfg.srcctlMemElem.toNat]) ∧
        Sent s (runOperation false (donepinSetup pin) s) l := by
  have hrun := Point.setupDonePin (d := (startOperation s).dcc) (us := (startOperation s).dcc.flight.undo) (c := s.chip) (l := [])
    (k := 0) (hostWaits_start hw) (hq.of_env rfl rfl) hl hn ha (by omega)
  obtain ⟨hend, hdcc, hchip, l, hl, hsent⟩ := ended_returned (k := 8) (fam := false) hw hq
    (Runs.thenReturn (Runs.fromStart (hrun.weaken (fun _ h => h) (fun _ u ⟨us, l, hu, hl⟩ => ⟨us, l, hu, hl⟩) fun _ _ h => h)))
  exact ⟨hend, hdcc, hchip, l, hl, hsent⟩

/-- The requested pin carries the tag, has the direction, and its group the memory-element value. -/
theorem get_movedTags {tag : Vector Tag 19} {f : Tag} {pin : PinCode} (h : pin ≠ pinInvalid) :
    (movedTags tag f pin).get (pinOfCode pin) = f := by
  rw [movedTags_eq, if_neg h]
  exact get_set_self ..

theorem get_movedDirs {tag : Vector Tag 19} {f : Tag} {d : Dir} {pin : PinCode} {dir : Vector Dir 19} (h : pin ≠ pinInvalid) :
    (movedDirs tag f d pin dir).get (pinOfCode pin) = d := by
  rw [movedDirs_eq, if_neg h]
  exact get_set_self ..

theorem get_movedNibbles {cfg : Config} {tag : Vector Tag 19} {pin : PinCode} {srcctl : Vector (BitVec 4) 5} (h : pin ≠ pinInvalid) :
    (movedNibbles cfg tag pin srcctl).get (groupOfCode pin) = cfg.srcctlMemElem := by
  unfold movedNibbles
  rw [if_neg h]
  exact get_set_self ..

/-- Settles O28: the setup's moves, in a quiet environment; with no pin held, its transactions too. -/
theorem donepinSetupMoves : Obligations.DonepinSetupMoves := by
  refine ⟨fun pin s hp hw hq hn ha => ?_, fun p s hp hw hq hn ht hnone => ?_⟩
  · obtain ⟨hend, hdcc, hchip, _⟩ := donepinSetup_moves ((pinSetupLegal_iff _).2 hp) hw hq hn ha
    exact ⟨_, rfl, hend, hdcc, hchip⟩
  · have hval : (BitVec.ofNat 8 p.val).toNat ≤ 15 := by simp only [BitVec.toNat_ofNat]; omega
    have hpin : pinOfCode (BitVec.ofNat 8 p.val) = p := by
      refine Fin.ext ((val_pinOfCode hval).trans ?_)
      simp only [BitVec.toNat_ofNat]
      omega
    have hne := ne_pinInvalid hval
    have hscan : scanTag s.dcc.tag .captureDone = none := by
      cases hs : scanTag s.dcc.tag .captureDone with
      | none => rfl
      | some q => exact absurd (scanTag_some hs).1 (hnone q (scanTag_some hs).2)
    obtain ⟨hend, hdcc, hchip, l, hl, hsent⟩ := donepinSetup_moves ((pinSetupLegal_iff _).2 (.inl hval)) hw hq hn
      (.inr (.inl (by rw [hpin]; exact ht)))
    rw [hl hscan hne, hpin] at hsent
    refine ⟨_, groupOfPin p, ?_, rfl, hend, ?_, ?_, ?_, ?_⟩
    · rw [← hpin, groupOfCode_val (Nat.le_trans hval (by omega)), hpin]
      simp only [BitVec.toNat_ofNat]
      omega
    · rw [hdcc]
      exact (congrArg (movedTags s.dcc.tag .captureDone _).get hpin).symm.trans (get_movedTags hne)
    · rw [hchip]
      exact (congrArg (movedDirs s.dcc.tag .captureDone .output _ s.chip.dir).get hpin).symm.trans (get_movedDirs hne)
    · rw [hchip]
      exact (congrArg (fun q => (movedNibbles s.cfg s.dcc.tag _ s.chip.srcctl).get (groupOfPin q)) hpin).symm.trans
        (get_movedNibbles hne)
    · have hg : groupOfCode (BitVec.ofNat 8 p.val) = groupOfPin p := congrArg groupOfPin hpin
      rw [hg] at hsent
      exact hsent

/-! ## Setups of a foreign pin -/

/-- Another feature owns the pin. -/
theorem not_mayAcquire {tag : Vector Tag 19} {f : Tag} {pin : PinCode} (hp : pin.toNat ≤ 15) (ht : tag.get (pinOfCode pin) ≠ .none)
    (hs : ∀ q, scanTag tag f = some q → q.val ≠ pin.toNat) : ¬ mayAcquire tag f pin := by
  rintro (h | h | h)
  · exact ne_pinInvalid hp h
  · exact ht h
  · exact hs _ h (val_pinOfCode hp)

theorem trigpinSetup_taken {pin : PinCode} {s : State} (hp : pin.toNat ≤ 15) (hw : HostWaits s) (hq : Quiet 4 s)
    (ht : s.dcc.tag.get (pinOfCode pin) ≠ .none) (hs : ∀ q, scanTag s.dcc.tag .captureTrigger = some q → q.val ≠ pin.toNat) :
    Ended s (runOperation false (trigpinSetup pin) s) 3 [] ∧ DccSame s (runOperation false (trigpinSetup pin) s) ∧
      (runOperation false (trigpinSetup pin) s).chip =
        { s.chip with dir := releasedDirs (scanTag s.dcc.tag .captureTrigger) s.chip.dir } := by
  have hrun := Point.setupTrigPin_taken (d := (startOperation s).dcc) (us := (startOperation s).dcc.flight.undo) (c := s.chip)
    (l := []) (k := 0) (hostWaits_start hw) (hq.of_env rfl rfl) ((pinSetupLegal_iff _).2 (.inl hp)) (not_mayAcquire hp ht hs) (by omega)
  exact ended_raised (k := 3) (fam := false) rfl hw hq (Runs.thenNever (Runs.fromStart hrun))

theorem donepinSetup_taken {pin : PinCode} {s : State} (hp : pin.toNat ≤ 15) (hw : HostWaits s) (hq : Quiet 6 s)
    (hn : nibbleAccepted s.cfg s.chip.srcctl pin) (ht : s.dcc.tag.get (pinOfCode pin) ≠ .none)
    (hs : ∀ q, scanTag s.dcc.tag .captureDone = some q → q.val ≠ pin.toNat) :
    Ended s (runOperation false (donepinSetup pin) s) 3 [] ∧ DccSame s (runOperation false (donepinSetup pin) s) ∧
      (runOperation false (donepinSetup pin) s).chip =
        { s.chip with dir := restoredDirs (scanTag s.dcc.tag .captureDone) s.chip.dir } := by
  have hrun := Point.setupDonePin_taken (d := (startOperation s).dcc) (us := (startOperation s).dcc.flight.undo) (c := s.chip)
    (l := []) (k := 0) (hostWaits_start hw) (hq.of_env rfl rfl) ((pinSetupLegal_iff _).2 (.inl hp)) hn (not_mayAcquire hp ht hs)
    (by omega)
  exact ended_raised (k := 5) (fam := false) rfl hw hq (Runs.thenNever (Runs.fromStart hrun))

/-- The check of the nibble reads it and stops there, whatever the other agents do. -/
theorem donepinSetup_nibble {pin : PinCode} {s : State} (hp : pin.toNat ≤ 15) (hw : HostWaits s) (ha : Served (nextTick s.env))
    (hn : ¬ nibbleAccepted s.cfg s.chip.srcctl pin) :
    Ended s (runOperation false (donepinSetup pin) s) 3 [] ∧ DccSame s (runOperation false (donepinSetup pin) s) ∧
      (runOperation false (donepinSetup pin) s).chip = (envTurns 2 s).chip := by
  obtain ⟨hpin, hn⟩ := not_or.1 hn
  have hget : getField (envTurn (startOperation s)).chip (.srcctl (groupOfCode pin)) = s.chip.srcctl.get (groupOfCode pin) :=
    congrArg (fun v => v.get (groupOfCode pin)) (Between.envTurn (startOperation s)).srcctl
  have hread := fieldRead_served (f := .srcctl (groupOfCode pin)) (hostWaits_start hw) ha
  rw [hget] at hread
  have hcheck : (nibbleCheck (pinOfCode pin)).run (startOperation s) =
      .error (.raised .resourceConflict) (logTxn (.fieldRead (.srcctl (groupOfCode pin))) true (envTurn (startOperation s))) := by
    refine (run_bind_ok hread).trans ?_
    rw [run_ask_bind, run_check, logTxn_cfg, envTurn_cfg]
    exact if_neg hn
  have hrun : (donepinSetup pin).run (startOperation s) =
      .error (.raised .resourceConflict) (logTxn (.fieldRead (.srcctl (groupOfCode pin))) true (envTurn (startOperation s))) := by
    refine run_bind_error ?_
    unfold setupDonePin
    rw [run_checkParam_bind, if_pos ((pinSetupLegal_iff _).2 (.inl hp)), run_doIf_bind, if_pos hpin]
    exact run_bind_error hcheck
  obtain ⟨hend, hdcc, hchip, _⟩ := ended_of_untouched (fam := false) rfl hrun hw ((Inside.start s).read _)
    ((ChipUntouched.start s).turn.log _ true) (dcc_firstTxn _ true id s)
  exact ⟨hend, hdcc, hchip⟩

/-- Settles O29: the replay of the undo log brings the tags back, and for the done pin the direction too. -/
theorem pinConflictRollsBack : Obligations.PinConflictRollsBack := by
  refine ⟨fun pin s hp hw hq hn ht => ⟨fun q hs hne => ?_, fun hs => ?_⟩,
    fun pin s hp hw ha hn => ⟨_, rfl, donepinSetup_nibble hp hw ha hn⟩,
    fun pin s hp hw hq ht => ⟨fun q hs hne => ?_, fun hs => ?_⟩⟩
  · obtain ⟨hend, hdcc, hchip⟩ := donepinSetup_taken hp hw hq hn ht fun q' h => Option.some.inj (hs.symm.trans h) ▸ hne
    rw [hs] at hchip
    exact ⟨_, rfl, hend, hdcc, hchip⟩
  · obtain ⟨hend, hdcc, hchip⟩ := donepinSetup_taken hp hw hq hn ht fun q h => absurd (hs.symm.trans h) (by simp)
    rw [hs] at hchip
    exact ⟨_, rfl, hend, hdcc, hchip⟩
  · obtain ⟨hend, hdcc, hchip⟩ := trigpinSetup_taken hp hw hq ht fun q' h => Option.some.inj (hs.symm.trans h) ▸ hne
    rw [hs] at hchip
    exact ⟨_, rfl, hend, hdcc, hchip⟩
  · obtain ⟨hend, hdcc, hchip⟩ := trigpinSetup_taken hp hw hq ht fun q h => absurd (hs.symm.trans h) (by simp)
    rw [hs] at hchip
    exact ⟨_, rfl, hend, hdcc, hchip⟩

end Sys2Proof.Machine
end

section
/-! PROOF. `CAPCFG.SET` (41_capture_config.md R181): both setups and the write of the record, and what is left where it stops. -/

namespace Sys2Proof.Machine

/-! ## Behind the checks -/

/-- R181 steps 5 to 9: the two setups, the write of the record, Configured. -/
def configure (c : CapConfig) : M Result := do
  setupTrigPin c.triggerPin
  setupDonePin c.donePin
  let cfg ← ask fun s => s.cfg
  mboxCfgWrite .capture 0 (serConfig cfg c)
  setCapState .configured
  pure {}

/-- The record, legal in every check that precedes the setups. -/
structure LegalConfig (s : State) (c : CapConfig) : Prop where
  gate : s.dcc.capState = .idle ∨ s.dcc.capState = .configured
  whole : 58 ≤ s.regs.oplen.toNat
  host : hostConfig (s.regs.opb.readBytes 0 58) = .ok c
  range : s.regs.ctrl.getLsbD 0 = true → rangeConfig c = .ok ()
  trig : c.triggerPin.toNat ≤ 15 ∨ c.triggerPin = 0xFF
  done : c.donePin.toNat ≤ 15 ∨ c.donePin = 0xFF
  pair : c.triggerPin ≠ c.donePin ∨ c.triggerPin = 0xFF

theorem LegalConfig.run {s : State} {c : CapConfig} (h : LegalConfig s c) :
    capcfgSet.run (startOperation s) = (configure c).run (startOperation s) := by
  have hg : gateOpen .set (startOperation s).dcc.capState = true := (gateOpen_set_iff _).2 h.gate
  unfold capcfgSet
  rw [run_gate_bind, if_pos hg, run_needRecord_bind, startOperation_flight_oplen, if_pos h.whole,
    snapBytes_start s (by have := h.whole; omega) (by omega), h.host, run_liftParam_ok_bind, run_rangeChecked_bind]
  have hpair : ∀ u : State, (pinPairCheck c >>= fun _ => configure c).run u = (configure c).run u := by
    intro u
    simp only [pinPairCheck, run_bind_assoc, run_checkParam_bind, run_check_bind]
    rw [if_pos ((pinSetupLegal_iff _).2 h.trig), if_pos ((pinSetupLegal_iff _).2 h.done)]
    exact if_pos h.pair
  split
  · next hc =>
    rw [h.range hc, run_liftParam_ok_bind]
    exact hpair _
  · exact hpair _

/-- An operation begins at a point. -/
theorem Point.begin (s : State) :
    Point (startOperation s) s.dcc (startOperation s).dcc.flight.undo s.chip 0 [] (startOperation s) := Point.start (startOperation s)

theorem LegalConfig.runs {s : State} {c : CapConfig} {Q : Result → State → Prop} {E : Stop → State → Prop} (h : LegalConfig s c)
    (hr : Runs (Point (startOperation s) s.dcc (startOperation s).dcc.flight.undo s.chip 0 []) (configure c) Q E) :
    Runs (fun u => u = startOperation s) capcfgSet Q E := by
  rintro u rfl
  rw [h.run]
  exact hr _ (Point.begin s)

section Point

variable {s : State} {d : DccRegs} {us : List Undo} {c : Chip} {k N : Nat} {l : List Txn} {E : Stop → State → Prop}
variable (hw : HostWaits s) (hq : Quiet N s)
include hw hq

theorem Point.writeObj (o : MboxObj) (off : Nat) (bs : List Byte) (hk : k < N) :
    Runs (Point s d us c k l) (mboxCfgWrite o off bs)
      (fun _ => Point s d us (setObj c o ((getObj c o).writeBytes off bs)) (k + 1) (l ++ [.cfgWrite (objId s.cfg o) off bs])) E := by
  intro u hu
  obtain ⟨v, hv, hg⟩ := mboxCfgWrite_calm ((hu.quiet hq (j := 1) hk).calm (hu.waits hw)) o off bs
  rw [hv]
  have := hu.goes hg
  rw [hu.chip, hu.cfg] at this
  exact this

/-- The first setup. -/
theorem Point.setTrig {r : CapConfig} (ht : pinSetupLegal r.triggerPin = true) (ha : mayAcquire d.tag .captureTrigger r.triggerPin)
    (hk : k + 4 < N) :
    Runs (Point s d us c k l) (Machine.setupTrigPin r.triggerPin)
      (fun _ => Stands s (trigSet r d) { c with dir := movedDirs d.tag .captureTrigger .input r.triggerPin c.dir } (k + 5)) E :=
  (Point.setupTrigPin hw hq ht ha hk).weaken (fun _ h => h) (fun _ _ ⟨_, hu⟩ => hu.stands) fun x _ h => by cases x <;> exact h.elim

/-- The local state and the chip behind both setups and the write of the record. -/
theorem Point.configure {r : CapConfig} (ht : pinSetupLegal r.triggerPin = true) (hd : pinSetupLegal r.donePin = true)
    (ha : mayAcquire d.tag .captureTrigger r.triggerPin)
    (hb : mayAcquire (movedTags d.tag .captureTrigger r.triggerPin) .captureDone r.donePin)
    (hn : nibbleAccepted s.cfg c.srcctl r.donePin) (hk : k + 14 < N) :
    Runs (Point s d us c k l) (Machine.configure r) (fun a u => a = {} ∧ Stands s
      { doneSet r (trigSet r d) with capState := .configured }
      { c with
        dir := movedDirs (movedTags d.tag .captureTrigger r.triggerPin) .captureDone .output r.donePin
          (movedDirs d.tag .captureTrigger .input r.triggerPin c.dir)
        srcctl := movedNibbles s.cfg (movedTags d.tag .captureTrigger r.triggerPin) r.donePin c.srcctl
        capObj := c.capObj.writeBytes 0 (serConfig s.cfg r) } (k + 15) u) (Raises fun _ _ => False) := by
  refine Runs.bind (Point.setTrig hw hq ht ha (by omega)) fun _ => ?_
  rintro u ⟨us1, l1, hu⟩
  refine Runs.bind (Point.setupDonePin (d := trigSet r d) (c := { c with dir := movedDirs d.tag .captureTrigger .input r.triggerPin c.dir })
    hw hq hd hn hb (by omega)) (fun _ => ?_) u hu
  rintro v ⟨us2, l2, hv, _⟩
  refine Runs.bind (P := fun w => w = v) (R := fun cfg w => cfg = s.cfg ∧ w = v) (Runs.ask fun w hw => ⟨hw ▸ hv.cfg, hw⟩)
    (fun cfg => ?_) v rfl
  rintro _ ⟨rfl, rfl⟩
  refine Runs.bind (Point.writeObj hw hq .capture 0 (serConfig s.cfg r) (by omega)) (fun _ =>
    Runs.bind (Point.storeLocal (d := doneSet r (trigSet r d)) (e := { doneSet r (trigSet r d) with capState := .configured }) hw hq
      (fun _ => rfl) (by omega)) fun _ => Runs.pure fun w hw => ⟨rfl, ?_⟩) _ hv
  exact hw.stands

theorem Point.configure_trigTaken {r : CapConfig} (ht : pinSetupLegal r.triggerPin = true)
    (ha : ¬ mayAcquire d.tag .captureTrigger r.triggerPin) (hk : k + 2 < N) :
    Runs (Point s d us c k l) (Machine.configure r) (fun _ _ => False) (Raises fun x u => x = .resourceConflict ∧
      Stands s d { c with dir := releasedDirs (scanTag d.tag .captureTrigger) c.dir } (k + 3) u) :=
  Runs.bind (Point.setupTrigPin_taken hw hq ht ha hk) fun _ _ h => h.elim

/-- The second setup, refused by the nibble or by the owner of the pin. -/
theorem Point.setupDonePin_refused {pin : PinCode} (hl : pinSetupLegal pin = true)
    (h : ¬ mayAcquire d.tag .captureDone pin ∨ ¬ nibbleAccepted s.cfg c.srcctl pin) (hk : k + 4 < N) :
    ∃ dirs, ∀ us l, Runs (Point s d us c k l) (Machine.setupDonePin pin) (fun _ _ => False)
      (Raises fun x u => x = .resourceConflict ∧ Stands s d { c with dir := dirs } (k + 5) u) := by
  by_cases hn : nibbleAccepted s.cfg c.srcctl pin
  · exact ⟨_, fun us l => Point.setupDonePin_taken hw hq hl hn (h.resolve_right (not_not.2 hn)) hk⟩
  · refine ⟨c.dir, fun us l => (Point.setupDonePin_nibble hw hq hl hn (by omega)).weaken (fun _ h => h) (fun _ _ h => h) ?_⟩
    rintro (x | _) v hv
    · obtain ⟨hx, us', l', hv⟩ := hv
      exact ⟨hx, us', l', hv.mono (by omega)⟩
    · exact hv

theorem Point.configure_doneTaken {r : CapConfig} (ht : pinSetupLegal r.triggerPin = true) (hd : pinSetupLegal r.donePin = true)
    (ha : mayAcquire d.tag .captureTrigger r.triggerPin)
    (hb : ¬ mayAcquire (movedTags d.tag .captureTrigger r.triggerPin) .captureDone r.donePin ∨
      ¬ nibbleAccepted s.cfg c.srcctl r.donePin) (hk : k + 9 < N) :
    ∃ dirs, Runs (Point s d us c k l) (Machine.configure r) (fun _ _ => False) (Raises fun x u => x = .resourceConflict ∧
      Stands s (trigSet r d) { c with dir := dirs } (k + 10) u) := by
  obtain ⟨dirs, hdone⟩ := Point.setupDonePin_refused (d := trigSet r d) (k := k + 5)
    (c := { c with dir := movedDirs d.tag .captureTrigger .input r.triggerPin c.dir }) hw hq hd hb (by omega)
  refine ⟨dirs, Runs.bind (Point.setTrig hw hq ht ha (by omega)) fun _ => ?_⟩
  rintro u ⟨us1, l1, hu⟩
  exact Runs.bind (hdone us1 l1) (fun _ _ h => h.elim) u hu

end Point

/-- A run that ends where the undo log and the transactions are left open. -/
theorem ended_stands {s : State} {fam : Bool} {body : M Result} {d : DccRegs} {c : Chip} {k : Nat} {r : Result} (hw : HostWaits s)
    (hq : Quiet (k + 1) s)
    (h : Runs (fun u => u = startOperation s) body (fun r' u => r' = r ∧ Stands (startOperation s) d c k u) (Raises fun _ _ => False)) :
    EndedOk s (runOperation fam body s) r.info r.data ∧
      (runOperation fam body s).dcc = { d with flight := (runOperation fam body s).dcc.flight } ∧
      (runOperation fam body s).chip = c := by
  obtain ⟨hend, hdcc, hchip, _⟩ := ended_returned (P := fun _ => True) (fam := fam) hw hq (h.weaken (fun _ h => h)
    (fun _ u ⟨hr, us, l, hu⟩ => ⟨hr, us, l, hu, trivial⟩) fun _ _ h => h)
  exact ⟨hend, hdcc, hchip⟩

theorem capcfgSet_configures {s : State} {c : CapConfig} (h : LegalConfig s c) (hw : HostWaits s) (hq : Quiet 16 s)
    (ha : mayAcquire s.dcc.tag .captureTrigger c.triggerPin)
    (hb : mayAcquire (movedTags s.dcc.tag .captureTrigger c.triggerPin) .captureDone c.donePin)
    (hn : nibbleAccepted s.cfg s.chip.srcctl c.donePin) :
    EndedOk s (runOperation true capcfgSet s) 0 [] ∧
      (runOperation true capcfgSet s).dcc = { s.dcc with
        capState := .configured
        tag := movedTags (movedTags s.dcc.tag .captureTrigger c.triggerPin) .captureDone c.donePin
        sessTrigPin := c.triggerPin, sessDonePin := c.donePin, flight := (runOperation true capcfgSet s).dcc.flight } ∧
      (runOperation true capcfgSet s).chip = { s.chip with
        dir := movedDirs (movedTags s.dcc.tag .captureTrigger c.triggerPin) .captureDone .output c.donePin
          (movedDirs s.dcc.tag .captureTrigger .input c.triggerPin s.chip.dir)
        srcctl := movedNibbles s.cfg (movedTags s.dcc.tag .captureTrigger c.triggerPin) c.donePin s.chip.srcctl
        capObj := s.chip.capObj.writeBytes 0 (serConfig s.cfg c) } := by
  have hrun := Point.configure (d := s.dcc) (us := (startOperation s).dcc.flight.undo) (c := s.chip) (l := [])
    (k := 0) (hostWaits_start hw) (hq.of_env rfl rfl) ((pinSetupLegal_iff _).2 h.trig) ((pinSetupLegal_iff _).2 h.done) ha hb hn
    (by omega)
  have hend := ended_stands (k := 15) (fam := true) hw hq (h.runs hrun)
  generalize runOperation true capcfgSet s = t at hend ⊢
  obtain ⟨hend, hdcc, hchip⟩ := hend
  exact ⟨hend, hdcc, hchip⟩

/-- Settles O33: the sequence in a quiet environment. -/
theorem capcfgSetConfigures : Obligations.CapcfgSetConfigures := by
  intro s c hs hn hh hr ht hd hp hw hq hm ha hb hnib
  obtain ⟨hend, hdcc, hchip⟩ := capcfgSet_configures ⟨hs, hn, hh, hr, ht, hd, hp⟩ hw hq ha hb hnib
  refine ⟨runOperation true capcfgSet s, rfl, ?_⟩
  generalize runOperation true capcfgSet s = t at hend hdcc hchip ⊢
  refine ⟨hend, hdcc, ?_, fun a => ?_⟩
  · rw [hchip]
  · obtain ⟨_, ⟨hwf, _⟩, _⟩ := hm
    rw [congrArg Chip.capObj hchip, Memory.read_writeBytes hwf, length_serConfig]
    simp

/-! ## Where it stops -/

/-- What a transport failure of `CAPCFG.SET` of `c` leaves. -/
def FailsPartway (s : State) (c : CapConfig) (t : State) : Prop :=
  t.chip.capObj = s.chip.capObj ∧ (t.dcc = { s.dcc with capState := .error, flight := t.dcc.flight } ∨
      t.dcc = { trigSet c s.dcc with capState := .error, flight := t.dcc.flight }) ∨
    WriteFailed s c t ∧ t.dcc = { doneSet c (trigSet c s.dcc) with capState := .error, flight := t.dcc.flight }

theorem PartWay.fails {s u : State} {c : CapConfig} {x : ResultClass} (h : PartWay (startOperation s) (startOperation s).dcc c u)
    (hx : isTransportFailure x = true) : FailsPartway s c (takeResult true x u) := by
  unfold FailsPartway WriteFailed
  rw [dcc_takeResult_failure hx, takeResult_chip, takeResult_bus]
  cases h with
  | none h => exact .inl ⟨h.capObj, .inl (by rw [h.dcc]; rfl)⟩
  | trig h _ => exact .inl ⟨h.capObj, .inr (by rw [h.dcc]; rfl)⟩
  | both h hw _ _ => exact .inr ⟨hw, by rw [h]; rfl⟩

/-- Whatever the other agents and the transport do. -/
theorem capcfgSet_fails {s : State} {c : CapConfig} (h : LegalConfig s c)
    (hres : resClass (runOperation true capcfgSet s).regs.res ∈ [4, 5, 6]) : FailsPartway s c (runOperation true capcfgSet s) := by
  have hhost : hostConfig (snapBytes (startOperation s).dcc.flight 0 58) = .ok c := by
    rw [snapBytes_start s (by have := h.whole; omega) (by omega), h.host]
  refine runOperation_of_runs (C := fun t => resClass t.regs.res ∈ [4, 5, 6] → FailsPartway s c t)
    (At.capcfgSet (s := startOperation s)) rfl ?_ ?_ ?_ ?_ ?_ hres
  · intro r _ u _ _ hc
    rw [returnOk_class] at hc
    exact absurd hc (by decide)
  · intro x v u hv hb hc
    rw [takeResult_class, ← isTransportFailure_iff] at hc
    obtain hv | ⟨c', hc', hv⟩ := hv
    · exact PartWay.fails (.none (hv.between hb)) hc
    · obtain rfl := Except.ok.inj (hhost.symm.trans hc')
      exact (hv.between hb).fails hc
  · rintro _ ⟨v, rfl, _⟩ hc
    exact absurd hc (by rw [dccReset_res]; decide)
  · intro _ _ u _ _ _ hc
    exact absurd hc (by rw [dccReset_res]; decide)
  · intro _ _ u _ _ _ hc
    exact absurd hc (by rw [dccReset_res]; decide)

/-- Settles O34: the conflicts in a quiet environment, the transport failures in any. -/
theorem capcfgSetStopsPartway : Obligations.CapcfgSetStopsPartway := by
  rintro s c _ hs hn hh hr ht hd hp hw rfl
  have h : LegalConfig s c := ⟨hs, hn, hh, hr, ht, hd, hp⟩
  have htl := (pinSetupLegal_iff _).2 ht
  have hdl := (pinSetupLegal_iff _).2 hd
  have hws := hostWaits_start hw
  refine ⟨fun hq ha => ?_, fun hq ha hb => ?_, fun t hx hres => ?_⟩
  · have hrun := Point.configure_trigTaken (d := s.dcc) (us := (startOperation s).dcc.flight.undo) (c := s.chip)
      (l := []) (k := 0) (N := 16) hws (hq.of_env rfl rfl) htl ha (by omega)
    obtain ⟨hend, hdcc, hchip⟩ := ended_raised (k := 3) (fam := true) rfl hw (hq.mono (by omega)) (h.runs hrun)
    exact ⟨_, rfl, hend, hdcc, by rw [hchip]⟩
  · obtain ⟨dirs, hrun⟩ := Point.configure_doneTaken (d := s.dcc) (us := (startOperation s).dcc.flight.undo)
      (c := s.chip) (l := []) (k := 0) (N := 16) hws (hq.of_env rfl rfl) htl hdl ha hb (by omega)
    obtain ⟨hend, hdcc, hchip⟩ := ended_raised (k := 10) (fam := true) rfl hw (hq.mono (by omega)) (h.runs hrun)
    exact ⟨_, rfl, hend, hdcc, by rw [hchip]⟩
  · obtain rfl := exec_next hx
    refine capcfgSet_fails h ?_
    simp only [List.mem_cons, List.not_mem_nil, or_false]
    exact hres

end Sys2Proof.Machine
end

section
/-! PROOF. `CAPCFG.GET`, `CAPCTRL.GET`, `CAPLVL.GET` and `PWRTH.GET` (41_capture_config.md R182, R184, R186, R188): one sequence of
gate, read of a sub-record of `CAPOBJ` and decode, said once for all four. -/

namespace Sys2Proof.Machine

section Subrecord

variable {α : Type} {parse : Config → List Byte → Except ParamCode α} {host : α → List Byte} {off n : Nat}

/-- The read of `n` bytes at `off`, their decode and the answer in host form. -/
def getSubrecord (parse : Config → List Byte → Except ParamCode α) (host : α → List Byte) (off n : Nat) : M Result := do
  let b ← mboxCfgRead .capture off n
  let cfg ← ask fun s => s.cfg
  let a ← liftParam (parse cfg b)
  pure { data := host a }

/-- How a decoded record, or the code of a field that decodes to nothing, ends an operation. -/
def Decoded (s t : State) (host : α → List Byte) : Except ParamCode α → Prop
  | .ok a => EndedOk s t 0 (host a)
  | .error code => Ended s t (1 ||| (paramCodeNumber code).setWidth 32 <<< 8) []

/-- The end state of an operation that comes to `getSubrecord`, served. -/
def SubrecordReturned (s t : State) (host : α → List Byte) (off n : Nat) (e : Except ParamCode α) : Prop :=
  DccSame s t ∧ t.chip = (envTurns 2 s).chip ∧ Sent s t [.cfgRead s.cfg.objCapture off n] ∧ Decoded s t host e

theorem subrecordReturned_of_run {body : M Result} {s : State}
    (hrun : body.run (startOperation s) = (getSubrecord parse host off n).run (startOperation s)) (hw : HostWaits s)
    (ha : Served (nextTick s.env)) :
    SubrecordReturned s (runOperation true body s) host off n (parse s.cfg (s.chip.capObj.readBytes off n)) := by
  have hin := (Inside.start s).read (.cfgRead s.cfg.objCapture off n)
  have hchip := (ChipUntouched.start s).turn.log (.cfgRead s.cfg.objCapture off n) true
  have hdcc := dcc_firstTxn (.cfgRead s.cfg.objCapture off n) true id s
  have hread := mboxCfgRead_served (o := .capture) (off := off) (n := n) (hostWaits_start hw) ha
  rw [envTurn_getObj] at hread
  have hget := hrun.trans (run_bind_ok hread)
  rw [run_ask_bind, logTxn_cfg, envTurn_cfg] at hget
  unfold SubrecordReturned
  change body.run (startOperation s) = (liftParam (parse s.cfg (s.chip.capObj.readBytes off n)) >>= _ : M Result).run _ at hget
  cases hp : parse s.cfg (s.chip.capObj.readBytes off n) with
  | ok a =>
    rw [hp, run_liftParam_ok_bind] at hget
    obtain ⟨hsame, hturn, hend, hsent⟩ := endedOk_of_untouched (fam := true) hget hw hin hchip hdcc
    exact ⟨hsame, hturn, hsent, hend⟩
  | error code =>
    rw [hp, run_liftParam_error_bind] at hget
    obtain ⟨hend, hsame, hturn, hsent⟩ := ended_of_untouched (fam := true) rfl hget hw hin hchip hdcc
    rw [resWord_invalidParameter] at hend
    exact ⟨hsame, hturn, hsent, hend⟩

theorem subrecordFailed_of_run {body : M Result} {s : State}
    (hrun : body.run (startOperation s) = (getSubrecord parse host off n).run (startOperation s)) (hw : HostWaits s)
    (ha : ¬ Served (nextTick s.env)) : CaptureFailed s (runOperation true body s) := by
  obtain ⟨c, hc, _⟩ := answerFailure_of_not_served ha true
  exact captureFailed_of_run hw hc (hrun.trans (run_bind_error (mboxCfgRead_failed (hostWaits_start hw) hc)))

end Subrecord

/-! ## The four operations -/

theorem run_capcfgGet {s : State} (hg : s.dcc.capState ≠ .error) :
    capcfgGet.run (startOperation s) = (getSubrecord (fun cfg => parseConfig cfg (codeOfPin (scanTag s.dcc.tag .captureTrigger))
      (codeOfPin (scanTag s.dcc.tag .captureDone))) configHost 0 58).run (startOperation s) :=
  run_gate_open ((gateOpen_get_iff _).2 hg)

/-- Settles O35: the read and the decode, with the pins scanned before them. -/
theorem capcfgGetReturns : Obligations.CapcfgGetReturns := by
  refine fun s => ⟨fun he hw => ⟨_, rfl, ?_⟩, fun hg hw ha => ⟨_, rfl, ?_⟩, fun hg hw ha => ⟨_, rfl, ?_⟩⟩
  · exact endedAtOnce_of_gated (by rw [gateOpen_get_iff, not_not]; exact he) hw
  · obtain ⟨hdcc, hchip, hsent, hend⟩ := subrecordReturned_of_run (run_capcfgGet hg) hw ha
    refine ⟨hdcc, hchip, hsent, ?_⟩
    revert hend
    cases parseConfig s.cfg (codeOfPin (scanTag s.dcc.tag .captureTrigger)) (codeOfPin (scanTag s.dcc.tag .captureDone))
      (s.chip.capObj.readBytes 0 58) <;> exact id
  · exact subrecordFailed_of_run (run_capcfgGet hg) hw ha

theorem run_capctrlGet {s : State} (hg : s.dcc.capState ≠ .error) :
    capctrlGet.run (startOperation s) = (getSubrecord parseCtrl ctrlHost 36 22).run (startOperation s) :=
  run_gate_open ((gateOpen_get_iff _).2 hg)

theorem run_caplvlGet {s : State} (hg : s.dcc.capState ≠ .error) :
    caplvlGet.run (startOperation s) = (getSubrecord parseLevel levelHost 28 4).run (startOperation s) :=
  run_gate_open ((gateOpen_get_iff _).2 hg)

theorem run_pwrthGet {s : State} {sel : BitVec 2} (hg : s.dcc.capState ≠ .error) (hs : sel ≠ 3) :
    (pwrthGet sel).run (startOperation s) = (getSubrecord parseThresh threshHost (4 + 8 * sel.toNat) 8).run (startOperation s) := by
  refine (run_gate_open ((gateOpen_get_iff _).2 hg)).trans ?_
  rw [run_checkParam_bind, if_pos hs]
  rfl

theorem pwrthGet_band3 {s : State} (hg : s.dcc.capState ≠ .error) (hw : HostWaits s) :
    EndedAtOnce s (runOperation true (pwrthGet 3) s) 0xC01 := by
  refine endedAtOnce_invalidParameter (code := .band) hw ((run_gate_open ((gateOpen_get_iff _).2 hg)).trans ?_)
  rw [run_checkParam_bind, if_neg (by simp)]

/-- Settles O38: each operation is one read and its decode, behind the gate and, for a threshold record, the band check. -/
theorem subrecordGets : Obligations.SubrecordGets := by
  refine ⟨fun s sel he hw i hi => ?_, fun s hg hw => ⟨_, rfl, pwrthGet_band3 hg hw⟩, fun s hg hw ha =>
    ⟨⟨_, rfl, ?_⟩, ⟨_, rfl, ?_⟩, fun sel hsel => ⟨_, rfl, ?_⟩⟩⟩
  · have hgate : ∀ rest : Unit → M Result, EndedAtOnce s (runOperation true (gate .get >>= rest) s) 7 :=
      fun rest => endedAtOnce_of_gated (by rw [gateOpen_get_iff, not_not]; exact he) hw
    simp only [List.mem_cons, List.not_mem_nil, or_false] at hi
    obtain rfl | rfl | rfl := hi
    · exact ⟨_, rfl, hgate _⟩
    · exact ⟨_, rfl, hgate _⟩
    · exact ⟨_, rfl, hgate _⟩
  · obtain ⟨hdcc, hchip, hsent, hend⟩ := subrecordReturned_of_run (run_capctrlGet hg) hw ha
    refine ⟨hdcc, hchip, hsent, ?_⟩
    revert hend
    cases parseCtrl s.cfg (s.chip.capObj.readBytes 36 22) <;> exact id
  · obtain ⟨hdcc, hchip, hsent, hend⟩ := subrecordReturned_of_run (run_caplvlGet hg) hw ha
    refine ⟨hdcc, hchip, hsent, ?_⟩
    revert hend
    cases parseLevel s.cfg (s.chip.capObj.readBytes 28 4) <;> exact id
  · obtain ⟨hdcc, hchip, hsent, hend⟩ := subrecordReturned_of_run (run_pwrthGet hg (band_ne_three hsel)) hw ha
    refine ⟨hdcc, hchip, hsent, ?_⟩
    revert hend
    cases parseThresh s.cfg (s.chip.capObj.readBytes (4 + 8 * sel.toNat) 8) <;> exact id

end Sys2Proof.Machine
end

section
/-! PROOF. The capture records (30_encoding.md R119, R120; 41_capture_config.md R172 to R179): the codes, the fields of the host and
chip forms by offset, and both round trips. -/

namespace Sys2Proof.Machine

/-! ## Little-endian fields -/

/-- A 16-bit field from its two bytes. -/
theorem le16_eq {bs : List Byte} {i : Nat} {v : BitVec 16} (h0 : byteAt bs i = v.extractLsb' 0 8)
    (h1 : byteAt bs (i + 1) = v.extractLsb' 8 8) : le16 bs i = v := by
  rw [le16, h0, h1]
  exact (BitVec.extractLsb'_append_extractLsb'_eq_extractLsb' (by omega)).trans BitVec.extractLsb'_eq_self

theorem le32_eq {bs : List Byte} {i : Nat} {v : BitVec 32} (h0 : byteAt bs i = v.extractLsb' 0 8)
    (h1 : byteAt bs (i + 1) = v.extractLsb' 8 8) (h2 : byteAt bs (i + 2) = v.extractLsb' 16 8)
    (h3 : byteAt bs (i + 3) = v.extractLsb' 24 8) : le32 bs i = v := by
  rw [le32, h0, h1, h2, h3, BitVec.extractLsb'_append_extractLsb'_eq_extractLsb' (by omega),
    BitVec.extractLsb'_append_extractLsb'_eq_extractLsb' (by omega), BitVec.extractLsb'_append_extractLsb'_eq_extractLsb' (by omega)]
  exact BitVec.extractLsb'_eq_self

theorem byteAt_slice (bs : List Byte) {i n k : Nat} (h : k < n) : byteAt (slice bs i n) k = byteAt bs (i + k) := by
  simp [byteAt, slice, List.getD, h]

/-! ## Codes -/

/-- The search of the code map `v` over its indices `l`. -/
theorem find_code {n : Nat} {l : List (Fin n)} {v : Vector Byte n} (hl : ∀ k, k ∈ l) (b : Byte) :
    (b ∈ v.toList → ∃ k, l.find? (fun k => v.get k == b) = some k ∧ v.get k = b) ∧
    (b ∉ v.toList → l.find? (fun k => v.get k == b) = none) := by
  have hmem : b ∈ v.toList ↔ ∃ k : Fin n, v.get k = b := by
    rw [Vector.mem_toList_iff, Vector.mem_iff_getElem]
    exact ⟨fun ⟨i, h, e⟩ => ⟨⟨i, h⟩, e⟩, fun ⟨k, e⟩ => ⟨k.val, k.isLt, e⟩⟩
  rw [hmem]
  refine ⟨fun ⟨k, hk⟩ => ?_, fun h => ?_⟩
  · cases hf : l.find? fun k => v.get k == b with
    | some j => exact ⟨j, rfl, by simpa using List.find?_some hf⟩
    | none => exact absurd (List.find?_eq_none.1 hf k (hl k)) (by simp [hk])
  · exact List.find?_eq_none.2 fun k _ hk => h ⟨k, by simpa using hk⟩

/-- With an injective code map every index is found again. -/
theorem find_code_get {n : Nat} {l : List (Fin n)} {v : Vector Byte n} (hl : ∀ k, k ∈ l) (hv : v.toList.Nodup) (k : Fin n) :
    l.find? (fun j => v.get j == v.get k) = some k := by
  obtain ⟨j, hj, he⟩ := (find_code hl (v.get k)).1 (by rw [Vector.mem_toList_iff]; exact Vector.getElem_mem k.isLt)
  rw [hj]
  refine congrArg some (Fin.ext ?_)
  exact (List.Nodup.getElem_inj_iff hv (hi := by simp) (hj := by simp)).1 he

theorem mem_sizeIndices (k : Fin 8) : k ∈ sizeIndices := by revert k; decide

theorem sizeOfChipCode_get {cfg : Config} (h : cfg.Valid) (k : Fin 8) : sizeOfChipCode cfg (cfg.capSizeCode.get k) = some k := by
  obtain ⟨_, _, _, _, _, _, _, _, _, hsize, _, _⟩ := h
  exact find_code_get mem_sizeIndices hsize k

theorem pwResOfChipCode_get {cfg : Config} (h : cfg.Valid) (k : Fin 4) : pwResOfChipCode cfg (cfg.pwResCode.get k) = some k := by
  obtain ⟨_, _, _, _, _, _, _, _, _, _, hres, _⟩ := h
  exact find_code_get (by decide) hres k

theorem bandDirOfChipCode_get {cfg : Config} (h : cfg.Valid) (k : Fin 3) :
    bandDirOfChipCode cfg (cfg.bandDirCode.get k) = some k := by
  obtain ⟨_, _, _, _, _, _, _, _, _, _, _, hdir⟩ := h
  exact find_code_get (by decide) hdir k

theorem chanOfByte_ofNat (i : Chan) : chanOfByte (BitVec.ofNat 8 i.val) = some i := by revert i; decide

theorem captureTypeOfCode_code (t : CaptureType) : captureTypeOfCode (captureTypeCode t) = some t := by cases t <;> rfl

theorem flagOfByte_setWidth (b : BitVec 1) : flagOfByte (b.setWidth 8) = some b := by revert b; decide

theorem sizeOfSamples_samples (k : Fin 8) : sizeOfSamples (sizeSamples k) = some k := by revert k; decide

theorem pwResOfByte_ofNat (k : Fin 4) : pwResOfByte (BitVec.ofNat 8 k.val) = some k := by revert k; decide

theorem bandDirOfByte_ofNat (k : Fin 3) : bandDirOfByte (BitVec.ofNat 8 k.val) = some k := by revert k; decide

/-- The channel of the mask in a host byte. -/
def chanOfMaskByte (b : Byte) : Option Chan := if b.toNat < 16 then chanIdx (b.setWidth 4) else none

theorem chanOfMaskByte_mask (i : Chan) : chanOfMaskByte ((chanMask i).setWidth 8) = some i := by revert i; decide

/-! ## The chip forms read back (R179, R180) -/

/-- The flag bits of byte 49, and the type of bytes 40 and 49, for either value of a reserved bit. -/
theorem typeByte_fields (t : CaptureType) (obs alt : BitVec 1) (r : Byte) (hr : r = 0 ∨ r = 0x10) :
    parseType ((typeBits t ||| ((0 : BitVec 5) ++ (alt ++ (obs ++ (0 : BitVec 1))))) ||| r) (peakFlag t) = t ∧
    ((typeBits t ||| ((0 : BitVec 5) ++ (alt ++ (obs ++ (0 : BitVec 1))))) ||| r).extractLsb' 1 1 = obs ∧
    ((typeBits t ||| ((0 : BitVec 5) ++ (alt ++ (obs ++ (0 : BitVec 1))))) ||| r).extractLsb' 2 1 = alt := by
  revert obs alt
  obtain rfl | rfl := hr <;> cases t <;> decide

/-- The flag bits of byte 43. -/
theorem iirByte_fields (bypass enable : BitVec 1) :
    (((0 : BitVec 6) ++ (bypass ++ enable) : Byte)).extractLsb' 0 1 = enable ∧
    (((0 : BitVec 6) ++ (bypass ++ enable) : Byte)).extractLsb' 1 1 = bypass := by
  revert bypass enable
  decide

/-- A serialized capture-control record with the bits `r` set in byte 49. -/
theorem parseCtrl_serCtrl {cfg : Config} (h : cfg.Valid) (c : CapCtrl) {k : List Byte} {r : Byte} (hr : r = 0 ∨ r = 0x10)
    (h13 : byteAt k 13 = byteAt (serCtrl cfg c) 13 ||| r) (hk : ∀ j, j ≠ 13 → byteAt k j = byteAt (serCtrl cfg c) j) :
    parseCtrl cfg k = .ok c := by
  obtain ⟨htype, hobs, halt⟩ := typeByte_fields c.captureType c.txObsSel c.txAltObsSel r hr
  obtain ⟨hen, hby⟩ := iirByte_fields c.iirBypass c.iirEnable
  have hwin : le32 k 0 = c.extendedWindowUs := le32_eq (hk 0 (by omega)) (hk 1 (by omega)) (hk 2 (by omega)) (hk 3 (by omega))
  have hcount : le32 k 8 = c.peakWinCount := le32_eq (hk 8 (by omega)) (hk 9 (by omega)) (hk 10 (by omega)) (hk 11 (by omega))
  have hdelay : le32 k 16 = c.captureDelay :=
    le32_eq (hk 16 (by omega)) (hk 17 (by omega)) (hk 18 (by omega)) (hk 19 (by omega))
  have halign : le16 k 20 = c.alignDelay := le16_eq (hk 20 (by omega)) (hk 21 (by omega))
  have h4 : byteAt k 4 = peakFlag c.captureType := hk 4 (by omega)
  have h7 : byteAt k 7 = (0 : BitVec 6) ++ (c.iirBypass ++ c.iirEnable) := hk 7 (by omega)
  have h12 : byteAt k 12 = BitVec.ofNat 8 c.channel.val := hk 12 (by omega)
  have h14 : byteAt k 14 = cfg.capSizeCode.get c.captureSize := hk 14 (by omega)
  have h13' : byteAt k 13 = (typeBits c.captureType ||| ((0 : BitVec 5) ++ (c.txAltObsSel ++ (c.txObsSel ++ (0 : BitVec 1))))) ||| r := h13
  have h5 : byteAt k 5 = c.peakDecay := hk 5 (by omega)
  have h6 : byteAt k 6 = c.peakInputSel := hk 6 (by omega)
  unfold parseCtrl
  rw [h12, chanOfByte_ofNat, h14, sizeOfChipCode_get h, h13', h4, h7, htype, hobs, halt, hen, hby, hwin, hcount, hdelay, halign, h5, h6]
  rfl

theorem parseLevel_serLevel {cfg : Config} (h : cfg.Valid) (v : CapLevel) : parseLevel cfg (serLevel cfg v) = .ok v := by
  have h2 : byteAt (serLevel cfg v) 2 = cfg.bandDirCode.get v.bandDir := rfl
  have ht : le16 (serLevel cfg v) 0 = v.timeout := le16_eq rfl rfl
  unfold parseLevel
  rw [h2, bandDirOfChipCode_get h, ht]
  rfl

theorem parseThresh_serThresh {cfg : Config} (h : cfg.Valid) (r : PwrThresh) : parseThresh cfg (serThresh cfg r) = .ok r := by
  have h2 : byteAt (serThresh cfg r) 2 = cfg.pwResCode.get r.pulseWidthRes := rfl
  have hlow : le16 (serThresh cfg r) 4 = r.lowToHighPulseWidth := le16_eq rfl rfl
  have hhigh : le16 (serThresh cfg r) 6 = r.highToLowPulseWidth := le16_eq rfl rfl
  unfold parseThresh
  rw [h2, pwResOfChipCode_get h, hlow, hhigh]
  rfl

/-- The parts of a serialized capture-config record (R177). -/
theorem slice_serConfig (cfg : Config) (c : CapConfig) :
    slice (serConfig cfg c) 4 8 = serThresh cfg c.band01 ∧ slice (serConfig cfg c) 12 8 = serThresh cfg c.band12 ∧
    slice (serConfig cfg c) 20 8 = serThresh cfg c.band23 ∧ slice (serConfig cfg c) 28 4 = serLevel cfg c.level ∧
    slice (serConfig cfg c) 32 4 = [0, 0, 0, 0] ∧ slice (serConfig cfg c) 36 22 = serCtrl cfg c.ctrl :=
  ⟨rfl, rfl, rfl, rfl, rfl, rfl⟩

theorem parseConfig_serConfig {cfg : Config} (h : cfg.Valid) (c : CapConfig) (t d : PinCode) :
    parseConfig cfg t d (serConfig cfg c) = .ok { c with triggerPin := t, donePin := d } := by
  obtain ⟨h01, h12, h23, hlevel, _, hctrl⟩ := slice_serConfig cfg c
  have hdecay : le16 (serConfig cfg c) 2 = c.envelopeDecay := le16_eq rfl rfl
  unfold parseConfig
  rw [h01, h12, h23, hlevel, hctrl, parseThresh_serThresh h, parseThresh_serThresh h, parseThresh_serThresh h, parseLevel_serLevel h,
    parseCtrl_serCtrl h c.ctrl (.inl rfl) (BitVec.or_zero).symm (fun _ _ => rfl), hdecay]
  rfl

/-! ## The host forms read back (R119, R120) -/

theorem hostCtrl_ctrlHost (c : CapCtrl) : hostCtrl (ctrlHost c) = .ok c := by
  have h0 : chanOfMaskByte (byteAt (ctrlHost c) 0) = some c.channel := chanOfMaskByte_mask c.channel
  have h1 : captureTypeOfCode (byteAt (ctrlHost c) 1) = some c.captureType := captureTypeOfCode_code _
  have h2 : flagOfByte (byteAt (ctrlHost c) 2) = some c.txObsSel := flagOfByte_setWidth _
  have h3 : flagOfByte (byteAt (ctrlHost c) 3) = some c.txAltObsSel := flagOfByte_setWidth _
  have h4 : le16 (ctrlHost c) 4 = sizeSamples c.captureSize := le16_eq rfl rfl
  have h7 : le32 (ctrlHost c) 7 = c.peakWinCount := le32_eq rfl rfl rfl rfl
  have h12 : flagOfByte (byteAt (ctrlHost c) 12) = some c.iirEnable := flagOfByte_setWidth _
  have h13 : flagOfByte (byteAt (ctrlHost c) 13) = some c.iirBypass := flagOfByte_setWidth _
  have h14 : le32 (ctrlHost c) 14 = c.extendedWindowUs := le32_eq rfl rfl rfl rfl
  have h18 : le16 (ctrlHost c) 18 = c.alignDelay := le16_eq rfl rfl
  have h20 : le32 (ctrlHost c) 20 = c.captureDelay := le32_eq rfl rfl rfl rfl
  unfold hostCtrl
  rw [← chanOfMaskByte, h0, h1, h2, h3, h4, sizeOfSamples_samples, h7, h12, h13, h14, h18, h20]
  rfl

theorem hostLevel_levelHost (v : CapLevel) : hostLevel (levelHost v) = .ok v := by
  have h0 : le16 (levelHost v) 0 = v.timeout := le16_eq rfl rfl
  have h2 : bandDirOfByte (byteAt (levelHost v) 2) = some v.bandDir := bandDirOfByte_ofNat _
  unfold hostLevel
  rw [h2, h0]
  rfl

theorem hostThresh_threshHost (r : PwrThresh) : hostThresh (threshHost r) = .ok r := by
  have h2 : pwResOfByte (byteAt (threshHost r) 2) = some r.pulseWidthRes := pwResOfByte_ofNat _
  have h4 : le16 (threshHost r) 4 = r.lowToHighPulseWidth := le16_eq rfl rfl
  have h6 : le16 (threshHost r) 6 = r.highToLowPulseWidth := le16_eq rfl rfl
  unfold hostThresh
  rw [h2, h4, h6]
  rfl

theorem hostConfig_configHost (c : CapConfig) : hostConfig (configHost c) = .ok c := by
  have h01 : slice (configHost c) 6 8 = threshHost c.band01 := rfl
  have h12 : slice (configHost c) 14 8 = threshHost c.band12 := rfl
  have h23 : slice (configHost c) 22 8 = threshHost c.band23 := rfl
  have hlevel : slice (configHost c) 30 4 = levelHost c.level := rfl
  have hctrl : slice (configHost c) 34 24 = ctrlHost c.ctrl := rfl
  have hdecay : le16 (configHost c) 4 = c.envelopeDecay := le16_eq rfl rfl
  unfold hostConfig
  rw [h01, h12, h23, hlevel, hctrl, hostThresh_threshHost, hostThresh_threshHost, hostThresh_threshHost, hostLevel_levelHost,
    hostCtrl_ctrlHost, hdecay]
  rfl

/-! ## Stored codes (R179) -/

theorem parseCtrl_cases (cfg : Config) (k : List Byte) :
    (3 < (byteAt k 12).toNat → parseCtrl cfg k = .error .channel) ∧
    ((byteAt k 12).toNat ≤ 3 →
      (byteAt k 14 ∉ cfg.capSizeCode.toList → parseCtrl cfg k = .error .capSize) ∧
      (byteAt k 14 ∈ cfg.capSizeCode.toList → ∃ c, parseCtrl cfg k = .ok c ∧
        c.captureType = parseType (byteAt k 13) (byteAt k 4))) := by
  obtain ⟨hmem, hnot⟩ := find_code (v := cfg.capSizeCode) mem_sizeIndices (byteAt k 14)
  unfold parseCtrl sizeOfChipCode
  refine ⟨fun h => ?_, fun h => ?_⟩
  · have hc : chanOfByte (byteAt k 12) = none := dif_neg (by omega)
    rw [hc]
    rfl
  · have hc : chanOfByte (byteAt k 12) = some ⟨(byteAt k 12).toNat, by omega⟩ := dif_pos (by omega)
    rw [hc]
    refine ⟨fun hb => ?_, fun hb => ?_⟩
    · rw [hnot hb]
      rfl
    · obtain ⟨j, hj, _⟩ := hmem hb
      rw [hj]
      exact ⟨_, rfl, rfl⟩

theorem parseLevel_cases (cfg : Config) (k : List Byte) :
    (byteAt k 2 ∉ cfg.bandDirCode.toList → parseLevel cfg k = .error .bandDir) ∧
    (byteAt k 2 ∈ cfg.bandDirCode.toList → ∃ v, parseLevel cfg k = .ok v) := by
  obtain ⟨hmem, hnot⟩ := find_code (l := [0, 1, 2]) (v := cfg.bandDirCode) (by decide) (byteAt k 2)
  unfold parseLevel bandDirOfChipCode
  refine ⟨fun hb => ?_, fun hb => ?_⟩
  · rw [hnot hb]
    rfl
  · obtain ⟨j, hj, _⟩ := hmem hb
    rw [hj]
    exact ⟨_, rfl⟩

theorem parseThresh_cases (cfg : Config) (k : List Byte) :
    (byteAt k 2 ∉ cfg.pwResCode.toList → parseThresh cfg k = .error .pwRes) ∧
    (byteAt k 2 ∈ cfg.pwResCode.toList → ∃ r, parseThresh cfg k = .ok r) := by
  obtain ⟨hmem, hnot⟩ := find_code (l := [0, 1, 2, 3]) (v := cfg.pwResCode) (by decide) (byteAt k 2)
  unfold parseThresh pwResOfChipCode
  refine ⟨fun hb => ?_, fun hb => ?_⟩
  · rw [hnot hb]
    rfl
  · obtain ⟨j, hj, _⟩ := hmem hb
    rw [hj]
    exact ⟨_, rfl⟩

/-- The reserved bit of byte 49. -/
theorem byteAt_modify (bs : List Byte) (i j : Nat) (f : Byte → Byte) (h : i < bs.length) :
    byteAt (bs.modify i f) j = if i = j then f (byteAt bs j) else byteAt bs j := by
  unfold byteAt
  simp only [List.getD_eq_getElem?_getD, List.getElem?_modify]
  split
  · next hij =>
    subst hij
    simp [h]
  · simp

/-- Settles O39: each record type reads back what it wrote, field by field. -/
theorem recordRoundTrips : Obligations.RecordRoundTrips := by
  refine ⟨fun cfg h => ⟨fun c => ?_, parseLevel_serLevel h, parseThresh_serThresh h, parseConfig_serConfig h, fun c => ?_⟩,
    fun cfg k => ?_, hostCtrl_ctrlHost, hostLevel_levelHost, hostThresh_threshHost, hostConfig_configHost,
    fun _ _ => ⟨rfl, rfl, rfl, rfl, rfl, rfl, rfl, rfl⟩⟩
  · exact parseCtrl_serCtrl h c (.inl rfl) BitVec.or_zero.symm fun _ _ => rfl
  · have hmod := fun j => byteAt_modify (serCtrl cfg c) 13 j (· ||| 0x10) (by rw [length_serCtrl]; omega)
    exact parseCtrl_serCtrl h c (.inr rfl) ((hmod 13).trans (if_pos rfl)) fun j hj => (hmod j).trans (if_neg hj.symm)
  · obtain ⟨hchan, hsize⟩ := parseCtrl_cases cfg k
    exact ⟨hchan, hsize, (parseLevel_cases cfg k).1, (parseLevel_cases cfg k).2, (parseThresh_cases cfg k).1,
      (parseThresh_cases cfg k).2⟩

/-! ## Host codes (R172) -/

theorem chanOfMaskByte_legal {b : Byte} (h : b ∈ [1, 2, 4, 8]) : ∃ i, chanOfMaskByte b = some i ∧ b.toNat = 2 ^ i.val := by
  simp only [List.mem_cons, List.not_mem_nil, or_false] at h
  obtain rfl | rfl | rfl | rfl := h
  · exact ⟨0, rfl, rfl⟩
  · exact ⟨1, rfl, rfl⟩
  · exact ⟨2, rfl, rfl⟩
  · exact ⟨3, rfl, rfl⟩

theorem chanOfMaskByte_illegal {b : Byte} (h : b ∉ [1, 2, 4, 8]) : chanOfMaskByte b = none := by
  unfold chanOfMaskByte
  split
  · next hb =>
    refine chanIdx_none fun hm => h ?_
    simp only [List.mem_cons, List.not_mem_nil, or_false] at hm ⊢
    bv_omega
  · rfl

theorem captureTypeOfCode_legal {b : Byte} (h : b.toNat ≤ 4) : ∃ t, captureTypeOfCode b = some t ∧ b = captureTypeCode t := by
  obtain rfl | rfl | rfl | rfl | rfl : b = 0 ∨ b = 1 ∨ b = 2 ∨ b = 3 ∨ b = 4 := by bv_omega
  · exact ⟨.immediate, rfl, rfl⟩
  · exact ⟨.powerLevel, rfl, rfl⟩
  · exact ⟨.peakDetection, rfl, rfl⟩
  · exact ⟨.tddTxOnSync, rfl, rfl⟩
  · exact ⟨.extendedPeakSearch, rfl, rfl⟩

theorem captureTypeOfCode_illegal {b : Byte} (h : 4 < b.toNat) : captureTypeOfCode b = none := by
  unfold captureTypeOfCode
  rw [if_neg (by bv_omega), if_neg (by bv_omega), if_neg (by bv_omega), if_neg (by bv_omega), if_neg (by bv_omega)]

theorem flagOfByte_legal {b : Byte} (h : b.toNat ≤ 1) : ∃ v, flagOfByte b = some v ∧ b = v.setWidth 8 := by
  obtain rfl | rfl : b = 0 ∨ b = 1 := by bv_omega
  · exact ⟨0, rfl, rfl⟩
  · exact ⟨1, rfl, rfl⟩

theorem flagOfByte_illegal {b : Byte} (h : 1 < b.toNat) : flagOfByte b = none := by
  unfold flagOfByte
  rw [if_neg (by bv_omega), if_neg (by bv_omega)]

theorem sizeSamples_list : sizeIndices.map sizeSamples = [32, 64, 128, 256, 512, 1024, 2048, 4096] := by decide

theorem sizeOfSamples_legal {v : BitVec 16} (h : v ∈ [32, 64, 128, 256, 512, 1024, 2048, 4096]) :
    ∃ k, sizeOfSamples v = some k ∧ v.toNat = 32 * 2 ^ k.val := by
  rw [← sizeSamples_list, List.mem_map] at h
  obtain ⟨k, _, rfl⟩ := h
  exact ⟨k, sizeOfSamples_samples k, by revert k; decide⟩

theorem sizeOfSamples_illegal {v : BitVec 16} (h : v ∉ [32, 64, 128, 256, 512, 1024, 2048, 4096]) : sizeOfSamples v = none := by
  rw [← sizeSamples_list, List.mem_map] at h
  exact List.find?_eq_none.2 fun k hk he => h ⟨k, hk, by simpa using he⟩

theorem bandDirOfByte_legal {b : Byte} (h : b.toNat ≤ 2) : ∃ d : Fin 3, bandDirOfByte b = some d ∧ d.val = b.toNat :=
  ⟨⟨b.toNat, by omega⟩, dif_pos (by omega), rfl⟩

theorem pwResOfByte_legal {b : Byte} (h : b.toNat ≤ 3) : ∃ d : Fin 4, pwResOfByte b = some d ∧ d.val = b.toNat :=
  ⟨⟨b.toNat, by omega⟩, dif_pos (by omega), rfl⟩

/-! ## Structural checks in their order (R172) -/

/-- The fields of a host capture-control record (30_encoding.md R120). -/
def ReadsCtrl (h : List Byte) (c : CapCtrl) : Prop :=
  (byteAt h 0).toNat = 2 ^ c.channel.val ∧ byteAt h 1 = captureTypeCode c.captureType ∧
    byteAt h 2 = c.txObsSel.setWidth 8 ∧ byteAt h 3 = c.txAltObsSel.setWidth 8 ∧
    (le16 h 4).toNat = 32 * 2 ^ c.captureSize.val ∧ byteAt h 6 = c.peakDecay ∧ le32 h 7 = c.peakWinCount ∧
    byteAt h 11 = c.peakInputSel ∧ byteAt h 12 = c.iirEnable.setWidth 8 ∧ byteAt h 13 = c.iirBypass.setWidth 8 ∧
    le32 h 14 = c.extendedWindowUs ∧ le16 h 18 = c.alignDelay ∧ le32 h 20 = c.captureDelay

section Checks

variable {h : List Byte}

/-- Channel and type have passed: the rest of the record. -/
theorem hostCtrl_rest (hc : byteAt h 0 ∈ [1, 2, 4, 8]) (ht : (byteAt h 1).toNat ≤ 4) :
    (1 < (byteAt h 2).toNat ∨ 1 < (byteAt h 3).toNat → hostCtrl h = .error .obsSel) ∧
    ((byteAt h 2).toNat ≤ 1 → (byteAt h 3).toNat ≤ 1 →
      (le16 h 4 ∉ [32, 64, 128, 256, 512, 1024, 2048, 4096] → hostCtrl h = .error .capSize) ∧
      (le16 h 4 ∈ [32, 64, 128, 256, 512, 1024, 2048, 4096] →
        (1 < (byteAt h 12).toNat ∨ 1 < (byteAt h 13).toNat → hostCtrl h = .error .iirFlag) ∧
        ((byteAt h 12).toNat ≤ 1 → (byteAt h 13).toNat ≤ 1 → ∃ c, hostCtrl h = .ok c ∧ ReadsCtrl h c))) := by
  obtain ⟨i, hi, hival⟩ := chanOfMaskByte_legal hc
  obtain ⟨t, ht, htval⟩ := captureTypeOfCode_legal ht
  unfold hostCtrl
  rw [← chanOfMaskByte, hi, ht]
  refine ⟨fun hbad => ?_, fun h2 h3 => ?_⟩
  · by_cases h2 : (byteAt h 2).toNat ≤ 1
    · obtain ⟨o, ho, _⟩ := flagOfByte_legal h2
      rw [ho, flagOfByte_illegal (b := byteAt h 3) (by omega)]
      rfl
    · rw [flagOfByte_illegal (b := byteAt h 2) (by omega)]
      rfl
  obtain ⟨o, ho, hoval⟩ := flagOfByte_legal h2
  obtain ⟨a, ha, haval⟩ := flagOfByte_legal h3
  rw [ho, ha]
  refine ⟨fun hs => ?_, fun hs => ?_⟩
  · rw [sizeOfSamples_illegal hs]
    rfl
  obtain ⟨k, hk, hkval⟩ := sizeOfSamples_legal hs
  rw [hk]
  refine ⟨fun hbad => ?_, fun h12 h13 => ?_⟩
  · by_cases h12 : (byteAt h 12).toNat ≤ 1
    · obtain ⟨e, he, _⟩ := flagOfByte_legal h12
      rw [he, flagOfByte_illegal (b := byteAt h 13) (by omega)]
      rfl
    · rw [flagOfByte_illegal (b := byteAt h 12) (by omega)]
      rfl
  obtain ⟨e, he, heval⟩ := flagOfByte_legal h12
  obtain ⟨b, hb, hbval⟩ := flagOfByte_legal h13
  rw [he, hb]
  exact ⟨_, rfl, hival, htval, hoval, haval, hkval, rfl, rfl, rfl, heval, hbval, rfl, rfl, rfl⟩

theorem hostCtrl_badChannel (hc : byteAt h 0 ∉ [1, 2, 4, 8]) : hostCtrl h = .error .channel := by
  unfold hostCtrl
  rw [← chanOfMaskByte, chanOfMaskByte_illegal hc]
  rfl

theorem hostCtrl_badType (hc : byteAt h 0 ∈ [1, 2, 4, 8]) (ht : 4 < (byteAt h 1).toNat) : hostCtrl h = .error .capType := by
  obtain ⟨i, hi, _⟩ := chanOfMaskByte_legal hc
  unfold hostCtrl
  rw [← chanOfMaskByte, hi, captureTypeOfCode_illegal ht]
  rfl

theorem hostLevel_legal (hd : (byteAt h 2).toNat ≤ 2) :
    ∃ v, hostLevel h = .ok v ∧ v.timeout = le16 h 0 ∧ v.bandDir.val = (byteAt h 2).toNat ∧ v.bandSel = byteAt h 3 := by
  obtain ⟨d, hd, hval⟩ := bandDirOfByte_legal hd
  unfold hostLevel
  rw [hd]
  exact ⟨_, rfl, rfl, hval, rfl⟩

theorem hostThresh_legal (hd : (byteAt h 2).toNat ≤ 3) :
    ∃ r, hostThresh h = .ok r ∧ r.lowToHighLimit = byteAt h 0 ∧ r.highToLowLimit = byteAt h 1 ∧
      r.pulseWidthRes.val = (byteAt h 2).toNat ∧ r.lowToHighPulseWidth = le16 h 4 ∧ r.highToLowPulseWidth = le16 h 6 := by
  obtain ⟨d, hd, hval⟩ := pwResOfByte_legal hd
  unfold hostThresh
  rw [hd]
  exact ⟨_, rfl, rfl, rfl, hval, rfl, rfl⟩

/-- A band of the capture-config record, by its code byte. -/
theorem hostThresh_slice (i : Nat) :
    (3 < (byteAt h (i + 2)).toNat → hostThresh (slice h i 8) = .error .pwRes) ∧
    ((byteAt h (i + 2)).toNat ≤ 3 → ∃ r, hostThresh (slice h i 8) = .ok r) := by
  rw [← byteAt_slice h (n := 8) (k := 2) (by omega)]
  exact ⟨hostThresh_badPwRes, fun hd => (hostThresh_legal hd).imp fun _ hr => hr.1⟩

theorem hostConfig_badBand (hb : 3 < (byteAt h 8).toNat ∨ 3 < (byteAt h 16).toNat ∨ 3 < (byteAt h 24).toNat) :
    hostConfig h = .error .pwRes := by
  obtain ⟨hbad1, hok1⟩ := hostThresh_slice (h := h) 6
  obtain ⟨hbad2, hok2⟩ := hostThresh_slice (h := h) 14
  obtain ⟨hbad3, hok3⟩ := hostThresh_slice (h := h) 22
  unfold hostConfig
  by_cases h8 : (byteAt h 8).toNat ≤ 3
  · obtain ⟨r1, hr1⟩ := hok1 h8
    rw [hr1]
    by_cases h16 : (byteAt h 16).toNat ≤ 3
    · obtain ⟨r2, hr2⟩ := hok2 h16
      rw [hr2, hbad3 (show 3 < (byteAt h 24).toNat by omega)]
      rfl
    · rw [hbad2 (show 3 < (byteAt h 16).toNat by omega)]
      rfl
  · rw [hbad1 (show 3 < (byteAt h 8).toNat by omega)]
    rfl

theorem hostConfig_rest (h8 : (byteAt h 8).toNat ≤ 3) (h16 : (byteAt h 16).toNat ≤ 3) (h24 : (byteAt h 24).toNat ≤ 3) :
    (2 < (byteAt h 32).toNat → hostConfig h = .error .bandDir) ∧
    ((byteAt h 32).toNat ≤ 2 →
      (∀ code, hostCtrl (slice h 34 24) = .error code → hostConfig h = .error code) ∧
      (∀ k, hostCtrl (slice h 34 24) = .ok k → ∃ c, hostConfig h = .ok c)) := by
  obtain ⟨r1, hr1⟩ := (hostThresh_slice (h := h) 6).2 h8
  obtain ⟨r2, hr2⟩ := (hostThresh_slice (h := h) 14).2 h16
  obtain ⟨r3, hr3⟩ := (hostThresh_slice (h := h) 22).2 h24
  have h32 : byteAt (slice h 30 4) 2 = byteAt h 32 := byteAt_slice h (by omega)
  unfold hostConfig
  rw [hr1, hr2, hr3]
  refine ⟨fun hd => ?_, fun hd => ⟨fun code hc => ?_, fun k hc => ?_⟩⟩
  · rw [hostLevel_badBandDir (by rw [h32]; exact hd)]
    rfl
  · obtain ⟨v, hv, _⟩ := hostLevel_legal (h := slice h 30 4) (by rw [h32]; exact hd)
    rw [hv, hc]
    rfl
  · obtain ⟨v, hv, _⟩ := hostLevel_legal (h := slice h 30 4) (by rw [h32]; exact hd)
    rw [hv, hc]
    exact ⟨_, rfl⟩

/-- A legal capture-config record, by its parts. -/
theorem hostConfig_fields {c : CapConfig} (hc : hostConfig h = .ok c) :
    c.triggerPin = byteAt h 0 ∧ c.donePin = byteAt h 1 ∧ c.fifoDelay = byteAt h 2 ∧ c.interpolationIndex = byteAt h 3 ∧
    c.envelopeDecay = le16 h 4 ∧ hostThresh (slice h 6 8) = .ok c.band01 ∧ hostThresh (slice h 14 8) = .ok c.band12 ∧
    hostThresh (slice h 22 8) = .ok c.band23 ∧ hostLevel (slice h 30 4) = .ok c.level ∧
    hostCtrl (slice h 34 24) = .ok c.ctrl := by
  unfold hostConfig at hc
  cases h1 : hostThresh (slice h 6 8) with
  | error e => rw [h1] at hc; cases hc
  | ok r1 =>
  cases h2 : hostThresh (slice h 14 8) with
  | error e => rw [h1, h2] at hc; cases hc
  | ok r2 =>
  cases h3 : hostThresh (slice h 22 8) with
  | error e => rw [h1, h2, h3] at hc; cases hc
  | ok r3 =>
  cases h4 : hostLevel (slice h 30 4) with
  | error e => rw [h1, h2, h3, h4] at hc; cases hc
  | ok v =>
  cases h5 : hostCtrl (slice h 34 24) with
  | error e => rw [h1, h2, h3, h4, h5] at hc; cases hc
  | ok k =>
  rw [h1, h2, h3, h4, h5] at hc
  cases hc
  exact ⟨rfl, rfl, rfl, rfl, rfl, rfl, rfl, rfl, rfl, rfl⟩

end Checks

/-! ## Range checks in their order (R172) -/

/-- A threshold record in range, or not. -/
theorem rangeThresh_cases (r : PwrThresh) :
    (r.lowToHighPulseWidth.toNat ≤ 4096 ∧ r.highToLowPulseWidth.toNat ≤ 4096) ∧ rangeThresh r = .ok () ∨
    (4096 < r.lowToHighPulseWidth.toNat ∨ 4096 < r.highToLowPulseWidth.toNat) ∧ rangeThresh r = .error .pulseWidth := by
  by_cases h : r.lowToHighPulseWidth.toNat ≤ 4096 ∧ r.highToLowPulseWidth.toNat ≤ 4096
  · exact .inl ⟨h, rangeThresh_ok h⟩
  · have h : 4096 < r.lowToHighPulseWidth.toNat ∨ 4096 < r.highToLowPulseWidth.toNat := by omega
    exact .inr ⟨h, rangeThresh_error h⟩

theorem rangeConfig_pulseWidth {c : CapConfig} (h : ∃ x ∈ [c.band01, c.band12, c.band23],
    4096 < x.lowToHighPulseWidth.toNat ∨ 4096 < x.highToLowPulseWidth.toNat) : rangeConfig c = .error .pulseWidth := by
  unfold rangeConfig
  obtain ⟨h1, e1⟩ | ⟨_, e1⟩ := rangeThresh_cases c.band01
  case inr => rw [e1]; rfl
  obtain ⟨h2, e2⟩ | ⟨_, e2⟩ := rangeThresh_cases c.band12
  case inr => rw [e1, e2]; rfl
  obtain ⟨h3, e3⟩ | ⟨_, e3⟩ := rangeThresh_cases c.band23
  case inr => rw [e1, e2, e3]; rfl
  obtain ⟨x, hx, hbad⟩ := h
  simp only [List.mem_cons, List.not_mem_nil, or_false] at hx
  obtain rfl | rfl | rfl := hx <;> omega

theorem rangeConfig_rest {c : CapConfig} (h : ∀ x ∈ [c.band01, c.band12, c.band23],
    x.lowToHighPulseWidth.toNat ≤ 4096 ∧ x.highToLowPulseWidth.toNat ≤ 4096) :
    (3 < c.level.bandSel.toNat → rangeConfig c = .error .bandSel) ∧
    (c.level.bandSel.toNat ≤ 3 →
      (8191 < c.ctrl.alignDelay.toNat → rangeConfig c = .error .alignDelay) ∧
      (c.ctrl.alignDelay.toNat ≤ 8191 → rangeConfig c = .ok ())) := by
  unfold rangeConfig
  rw [rangeThresh_ok (h c.band01 (by simp)), rangeThresh_ok (h c.band12 (by simp)), rangeThresh_ok (h c.band23 (by simp))]
  refine ⟨fun hv => ?_, fun hv => ?_⟩
  · rw [rangeLevel_error hv]
    rfl
  rw [rangeLevel_ok hv]
  refine ⟨fun hc => ?_, fun hc => ?_⟩
  · rw [rangeCtrl_error hc]
    rfl
  · rw [rangeCtrl_ok hc]
    rfl

/-! ## Chip forms by offset (R174 to R177) -/

theorem serCtrl_fields (cfg : Config) (c : CapCtrl) (k : List Byte) (h : k = serCtrl cfg c) :
    le32 k 0 = c.extendedWindowUs ∧ byteAt k 4 = peakFlag c.captureType ∧ byteAt k 5 = c.peakDecay ∧
    byteAt k 6 = c.peakInputSel ∧ byteAt k 7 = c.iirEnable.setWidth 8 ||| c.iirBypass.setWidth 8 <<< 1 ∧
    le32 k 8 = c.peakWinCount ∧ byteAt k 12 = BitVec.ofNat 8 c.channel.val ∧
    byteAt k 13 = typeBits c.captureType ||| c.txObsSel.setWidth 8 <<< 1 ||| c.txAltObsSel.setWidth 8 <<< 2 ∧
    byteAt k 14 = cfg.capSizeCode.get c.captureSize ∧ byteAt k 15 = 0 ∧ le32 k 16 = c.captureDelay ∧
    le16 k 20 = c.alignDelay := by
  subst h
  have hiir : ∀ bypass enable : BitVec 1, ((0 : BitVec 6) ++ (bypass ++ enable) : Byte) = enable.setWidth 8 ||| bypass.setWidth 8 <<< 1 := by
    decide
  have htype : ∀ t : CaptureType, ∀ obs alt : BitVec 1, typeBits t ||| ((0 : BitVec 5) ++ (alt ++ (obs ++ (0 : BitVec 1)))) =
      typeBits t ||| obs.setWidth 8 <<< 1 ||| alt.setWidth 8 <<< 2 := by
    intro t
    cases t <;> decide
  exact ⟨le32_eq rfl rfl rfl rfl, rfl, rfl, rfl, hiir _ _, le32_eq rfl rfl rfl rfl, rfl, htype _ _ _, rfl, rfl,
    le32_eq rfl rfl rfl rfl, le16_eq rfl rfl⟩

theorem serConfig_fields (cfg : Config) (c : CapConfig) (b : List Byte) (h : b = serConfig cfg c) :
    byteAt b 0 = c.fifoDelay ∧ byteAt b 1 = c.interpolationIndex ∧ le16 b 2 = c.envelopeDecay ∧
    slice b 4 8 = serThresh cfg c.band01 ∧ slice b 12 8 = serThresh cfg c.band12 ∧
    slice b 20 8 = serThresh cfg c.band23 ∧ slice b 28 4 = serLevel cfg c.level ∧ slice b 32 4 = [0, 0, 0, 0] ∧
    slice b 36 22 = serCtrl cfg c.ctrl := by
  subst h
  exact ⟨rfl, rfl, le16_eq rfl rfl, slice_serConfig cfg c⟩

/-- Settles O40: the fields of each form by their offsets, and each check where it stands in the order. -/
theorem recordLayouts : Obligations.RecordLayouts := by
  refine ⟨serCtrl_fields, rfl, fun _ _ => rfl, fun _ _ => rfl, serConfig_fields, rfl, fun h => ?_, fun h => ?_, fun h => ?_, fun h => ?_,
    ?_, fun h c => hostConfig_fields⟩
  · exact ⟨hostCtrl_badChannel, hostCtrl_badType, fun hc ht => (hostCtrl_rest hc ht).1,
      fun hc ht h2 h3 => (hostCtrl_rest hc ht).2 h2 h3⟩
  · exact ⟨hostLevel_badBandDir, hostLevel_legal⟩
  · exact ⟨hostThresh_badPwRes, hostThresh_legal⟩
  · exact ⟨hostConfig_badBand, hostConfig_rest⟩
  · rintro c _ rfl
    exact ⟨rangeConfig_pulseWidth, rangeConfig_rest⟩

end Sys2Proof.Machine
end

section
/-! PROOF. Operands that are refused before any transaction: channel masks (43_lut_manager.md R230), records (41_capture_config.md R172,
R173; 43_lut_manager.md R231, R233), lengths, LUT indexes and descriptors (R237, R238; 44_swap_mode.md R263 to R265). -/

namespace Sys2Proof.Machine

/-! ## Channel masks -/

/-- A whole operand record, behind it `f`. -/
theorem run_needRecord_whole {n : Nat} {f : List Byte → M Result} {s : State} (hn : n ≤ s.regs.oplen.toNat) (hm : n ≤ 65536) :
    (needRecord n >>= f).run (startOperation s) = (f (s.regs.opb.readBytes 0 n)).run (startOperation s) := by
  rw [run_needRecord_bind, startOperation_flight_oplen, if_pos hn, snapBytes_start s (by omega) (by omega)]

theorem endedAtOnce_short {fam : Bool} {n : Nat} {f : List Byte → M Result} {s : State} (hn : s.regs.oplen.toNat < n) (hw : HostWaits s) :
    EndedAtOnce s (runOperation fam (needRecord n >>= f) s) 2 := by
  refine endedAtOnce_of_refused (c := .nullInput) hw rfl ?_
  rw [run_needRecord_bind, startOperation_flight_oplen, if_neg (by omega)]

/-- `LUT.WRITE` with an operand. -/
theorem run_lutWrite {ch : ChMask} {lut : BitVec 5} {sel : BitVec 2} {s : State} (hn : s.regs.oplen.toNat ≠ 0) :
    (lutWrite ch lut sel).run (startOperation s) = (do
      let i ← needChannel ch
      checkParam (s.regs.oplen.toNat ≤ 4096 - 1024 * sel.toNat) .len
      let data ← ask fun u => snapBytes u.dcc.flight 0 s.regs.oplen.toNat
      lutWriteSeq i lut sel data
      pure {} : M Result).run (startOperation s) := by
  unfold lutWrite
  rw [run_snapLen_bind, run_check_bind, startOperation_flight_oplen, if_pos hn]

/-- `SWAP.WRITE` with an operand of a legal length. -/
theorem run_swapWrite {ch : ChMask} {sel : BitVec 2} {s : State} (h1 : 124 ≤ s.regs.oplen.toNat) (h2 : s.regs.oplen.toNat ≤ 65536) :
    (swapWrite ch sel).run (startOperation s) = (do
      let c ← needChannel ch
      let f ← ask fun s => s.dcc.flight
      checkParam ((List.range 30).all (descOk f)) .desc
      let m ← mboxCfgRead .model (modelOffset c) 48
      let bl ← liftParam (swapBankOf (byteAt m 4))
      swapLimits (byteAt m 4) sel bl.2
      swapPasses c sel bl.1
      pure {} : M Result).run (startOperation s) := by
  unfold swapWrite
  rw [run_snapLen_bind, run_check_bind, startOperation_flight_oplen, if_pos h1, run_checkParam_bind, if_pos h2]

/-- Settles O23: the check of the mask is the first step, or behind a presence or length check that has passed. -/
theorem channelMustBeOneHot : Obligations.ChannelMustBeOneHot := by
  intro ch lut sel en s hc hw
  have hbad : ∀ rest : Chan → M Result, EndedAtOnce s (runOperation false (needChannel ch >>= rest) s) 0x201 :=
    fun rest => endedAtOnce_of_badChannel hc hw
  refine ⟨fun i hi => ?_, fun hn => ⟨_, rfl, ?_⟩, fun hg => ⟨_, rfl, capStatus_badChannel hg hc hw⟩, fun hn i hi => ?_,
    fun h1 h2 => ⟨_, rfl, ?_⟩⟩
  · simp only [List.mem_cons, List.not_mem_nil, or_false] at hi
    obtain rfl | rfl | rfl | rfl | rfl | rfl | rfl := hi
    · exact ⟨_, rfl, hbad _⟩
    · exact ⟨_, rfl, hbad _⟩
    · exact ⟨_, rfl, hbad _⟩
    · exact ⟨_, rfl, hbad _⟩
    · exact ⟨_, rfl, hbad _⟩
    · exact ⟨_, rfl, hbad _⟩
    · exact ⟨_, rfl, hbad _⟩
  · refine endedAtOnce_invalidParameter (code := .channel) hw ((run_lutWrite ?_).trans (run_needChannel_refused hc _ _))
    exact fun h => hn (BitVec.eq_of_toNat_eq h)
  · simp only [List.mem_cons, List.not_mem_nil, or_false] at hi
    obtain rfl | rfl := hi
    · exact ⟨_, rfl, endedAtOnce_invalidParameter (code := .channel) hw
        ((run_needRecord_whole hn (by omega)).trans (run_needChannel_refused hc _ _))⟩
    · exact ⟨_, rfl, endedAtOnce_invalidParameter (code := .channel) hw
        ((run_needRecord_whole hn (by omega)).trans (run_needChannel_refused hc _ _))⟩
  · exact endedAtOnce_invalidParameter (code := .channel) hw ((run_swapWrite h1 h2).trans (run_needChannel_refused hc _ _))

/-! ## Records -/

/-- `CAPCFG.SET` behind its operand. -/
theorem run_capcfgSet {s : State} (hs : s.dcc.capState = .idle ∨ s.dcc.capState = .configured) (hn : 58 ≤ s.regs.oplen.toNat) :
    capcfgSet.run (startOperation s) = (do
      let c ← liftParam (hostConfig (s.regs.opb.readBytes 0 58))
      rangeChecked (rangeConfig c)
      pinPairCheck c
      configure c : M Result).run (startOperation s) := by
  unfold capcfgSet
  rw [run_gate_bind, startOperation_capState, if_pos ((gateOpen_set_iff _).2 hs)]
  exact run_needRecord_whole hn (by omega)

/-- The range checks have passed, or were not asked for. -/
theorem run_rangeChecked_ok {e : Except ParamCode Unit} {f : Unit → M Result} {s : State}
    (h : s.regs.ctrl.getLsbD 0 = true → e = .ok ()) :
    (rangeChecked e >>= f).run (startOperation s) = (f ()).run (startOperation s) := by
  rw [run_rangeChecked_bind]
  split
  · next hc => rw [h hc, run_liftParam_ok_bind]
  · rfl

section Config

variable {s : State} {c : CapConfig} (hs : s.dcc.capState = .idle ∨ s.dcc.capState = .configured)
  (hn : 58 ≤ s.regs.oplen.toNat) (hw : HostWaits s)
include hs hn hw

theorem capcfgSet_illegal {code : ParamCode} (hh : hostConfig (s.regs.opb.readBytes 0 58) = .error code) :
    EndedAtOnce s (runOperation true capcfgSet s) (1 ||| (paramCodeNumber code).setWidth 32 <<< 8) := by
  refine endedAtOnce_invalidParameter hw ((run_capcfgSet hs hn).trans ?_)
  rw [hh, run_liftParam_error_bind]

variable (hh : hostConfig (s.regs.opb.readBytes 0 58) = .ok c)
include hh

theorem capcfgSet_outOfRange {code : ParamCode} (hctrl : s.regs.ctrl.getLsbD 0 = true) (hr : rangeConfig c = .error code) :
    EndedAtOnce s (runOperation true capcfgSet s) (1 ||| (paramCodeNumber code).setWidth 32 <<< 8) := by
  refine endedAtOnce_invalidParameter hw ((run_capcfgSet hs hn).trans ?_)
  rw [hh, run_liftParam_ok_bind, run_rangeChecked_bind]
  exact (if_pos hctrl).trans (by rw [hr, run_liftParam_error_bind])

variable (hr : s.regs.ctrl.getLsbD 0 = true → rangeConfig c = .ok ())
include hr

omit hw in
theorem run_capcfgSet_pair :
    capcfgSet.run (startOperation s) = (pinPairCheck c >>= fun _ => configure c : M Result).run (startOperation s) := by
  rw [run_capcfgSet hs hn, hh, run_liftParam_ok_bind, run_rangeChecked_ok hr]

theorem capcfgSet_badPin (hp : 15 < c.triggerPin.toNat ∧ c.triggerPin ≠ 0xFF ∨ 15 < c.donePin.toNat ∧ c.donePin ≠ 0xFF) :
    EndedAtOnce s (runOperation true capcfgSet s) 0x101 := by
  refine endedAtOnce_invalidParameter (code := .pin) hw ((run_capcfgSet_pair hs hn hh hr).trans ?_)
  simp only [pinPairCheck, run_bind_assoc, run_checkParam_bind, pinSetupLegal_iff]
  by_cases ht : c.triggerPin.toNat ≤ 15 ∨ c.triggerPin = 0xFF
  · obtain ⟨h1, h2⟩ := hp.resolve_left fun h => ht.elim (fun h' => by omega) h.2
    rw [if_pos ht, if_neg (not_or.2 ⟨by omega, h2⟩)]
  · rw [if_neg ht]

theorem capcfgSet_samePin (hp : c.triggerPin.toNat ≤ 15) (he : c.donePin = c.triggerPin) :
    EndedAtOnce s (runOperation true capcfgSet s) 3 := by
  refine endedAtOnce_of_refused (c := .resourceConflict) hw rfl ((run_capcfgSet_pair hs hn hh hr).trans ?_)
  have hl : pinSetupLegal c.triggerPin = true := (pinSetupLegal_iff _).2 (.inl hp)
  have hne : ¬ (c.triggerPin ≠ c.triggerPin ∨ c.triggerPin = pinInvalid) :=
    fun h => h.elim (fun h => h rfl) (ne_pinInvalid hp)
  simp only [pinPairCheck, run_bind_assoc, run_checkParam_bind, run_check_bind, he]
  rw [if_pos hl, if_pos hl, if_neg hne]

end Config

/-- Both model operations, behind the operand and the channel. -/
theorem run_modelCfgs {s : State} {ch : ChMask} {c : Chan} {i : Instr} {last : Nat} (hc : ch.toNat = 2 ^ c.val)
    (hn : 47 ≤ s.regs.oplen.toNat) (hi : (i, last) ∈ [(Instr.modelCfg ch, 3), (.mmodelCfg ch, 1)]) :
    ∃ rest : Unit → M Result, exec i s = .next (runOperation false (body i) s) ∧
      (body i).run (startOperation s) = (checkModel last (s.regs.opb.readBytes 0 47) >>= rest).run (startOperation s) := by
  simp only [List.mem_cons, List.not_mem_nil, or_false, Prod.mk.injEq] at hi
  obtain ⟨rfl, rfl⟩ | ⟨rfl, rfl⟩ := hi
  · exact ⟨_, rfl, (run_needRecord_whole hn (by omega)).trans (run_needChannel_oneHot hc _ _)⟩
  · exact ⟨_, rfl, (run_needRecord_whole hn (by omega)).trans (run_needChannel_oneHot hc _ _)⟩

/-- The checks of a model record, in the order of R231. -/
theorem run_checkModel_bind (last : Nat) (h : List Byte) (f : Unit → M Result) (s : State) :
    (checkModel last h >>= f).run s =
      if (byteAt h 0).toNat ≤ last then
        if (byteAt h 1).toNat ≤ 3 then
          if byteAt h 3 = 8 ∨ byteAt h 3 = 9 then
            if byteAt h 3 = 9 → byteAt h 1 = 0 ∨ byteAt h 1 = 2 then
              if (byteAt h 4).toNat ≤ 15 then (f ()).run s
              else .error (.raised (.invalidParameter .outShift)) s
            else .error (.raised (.invalidParameter .bank)) s
          else .error (.raised (.invalidParameter .compander)) s
        else .error (.raised (.invalidParameter .bank)) s
      else .error (.raised (.invalidParameter .model)) s := by
  simp only [checkModel, run_bind_assoc, run_checkParam_bind]

/-- Settles O42: each check is one test of `hostConfig`, `rangeConfig`, `pinPairCheck` or `checkModel`. -/
theorem recordChecksRefuse : Obligations.RecordChecksRefuse := by
  refine ⟨rfl, fun s hs hn hw => ⟨fun code hh => ⟨_, rfl, capcfgSet_illegal hs hn hw hh⟩, fun c hh =>
    ⟨fun code hctrl hr => ⟨_, rfl, capcfgSet_outOfRange hs hn hw hh hctrl hr⟩, fun hr =>
      ⟨fun hp => ⟨_, rfl, capcfgSet_badPin hs hn hw hh hr hp⟩, fun hp he => ⟨_, rfl, capcfgSet_samePin hs hn hw hh hr hp he⟩⟩⟩⟩,
    fun s c hs hn hh hctrl ha hw => ⟨_, rfl, ?_⟩, fun s ch i last hc hn hw hi => ?_⟩
  · rw [capctrlSet_eq]
    exact withSubrecord_invalid (code := .alignDelay) hs hn (by omega) (.inr ⟨c, hh, rangeCtrl_error ha, hctrl⟩) hw
  obtain ⟨c, hc⟩ := oneHot_of_mem hc
  obtain ⟨rest, hexec, hrun⟩ := run_modelCfgs hc hn hi
  rw [hexec, run_checkModel_bind, byteAt_operand _ (by omega), byteAt_operand _ (by omega), byteAt_operand _ (by omega),
    byteAt_operand _ (by omega)] at *
  have hends : ∀ code : ParamCode, (body i).run (startOperation s) = .error (.raised (.invalidParameter code)) (startOperation s) →
      ∃ t, (Host.Outcome.next (runOperation false (body i) s) : Host.Outcome State Fault Refusal) = .next t ∧
        EndedAtOnce s t (1 ||| (paramCodeNumber code).setWidth 32 <<< 8) :=
    fun code h => ⟨_, rfl, endedAtOnce_invalidParameter hw h⟩
  refine ⟨fun h0 => hends .model ?_, fun h0 => ⟨fun h1 => hends .bank ?_, fun h1 => ⟨fun h8 h9 => hends .compander ?_,
    fun h9 hb => hends .bank ?_, fun h3 hs => hends .outShift ?_⟩⟩⟩
  · rw [hrun, if_neg (by omega)]
  · rw [hrun, if_pos h0, if_neg (by omega)]
  · rw [hrun, if_pos h0, if_pos h1, if_neg (not_or.2 ⟨h8, h9⟩)]
  · have hbank : ¬ (s.regs.opb.read 3 = 9 → s.regs.opb.read 1 = 0 ∨ s.regs.opb.read 1 = 2) := by
      intro h
      obtain hb | hb := hb <;> rw [hb] at h <;> exact absurd (h h9) (by decide)
    rw [hrun, if_pos h0, if_pos h1, if_pos (.inr h9), if_neg hbank]
  · have hbank : s.regs.opb.read 3 = 9 → s.regs.opb.read 1 = 0 ∨ s.regs.opb.read 1 = 2 := by
      intro h9
      obtain h8 | ⟨_, hb⟩ := h3
      · rw [h8] at h9
        exact absurd h9 (by decide)
      · exact hb
    rw [hrun, if_pos h0, if_pos h1, if_pos (h3.imp_right And.left), if_pos hbank, if_neg (by omega)]

/-! ## Lengths, LUT indexes and descriptors -/

theorem toNat_le16 (bs : List Byte) (i : Nat) : (le16 bs i).toNat = (byteAt bs i).toNat + 256 * (byteAt bs (i + 1)).toNat := by
  rw [le16, BitVec.toNat_append, ← Nat.shiftLeft_add_eq_or_of_lt (byteAt bs i).isLt, Nat.shiftLeft_eq]
  omega

/-- A descriptor of the snapshot, by the bytes of `OPB` (30_encoding.md R122). -/
theorem desc_start {s : State} {k : Nat} (hn : 124 ≤ s.regs.oplen.toNat) (hk : k < 31) :
    descOff (startOperation s).dcc.flight k = (s.regs.opb.read (4 * k)).toNat + 256 * (s.regs.opb.read (4 * k + 1)).toNat ∧
    descSize (startOperation s).dcc.flight k =
      (s.regs.opb.read (4 * k + 2)).toNat + 256 * (s.regs.opb.read (4 * k + 3)).toNat := by
  have hsnap : snapBytes (startOperation s).dcc.flight (4 * k) 4 = s.regs.opb.readBytes (4 * k) 4 :=
    snapBytes_start s (by omega) (by omega)
  unfold descOff descSize
  rw [hsnap, toNat_le16, toNat_le16]
  simp only [Memory.byteAt_readBytes (show 0 < 4 by omega), Memory.byteAt_readBytes (show 1 < 4 by omega),
    Memory.byteAt_readBytes (show 2 < 4 by omega), Memory.byteAt_readBytes (show 3 < 4 by omega), Nat.zero_add, Nat.add_zero,
    Nat.reduceAdd, and_self]

/-- An ill-formed descriptor fails the check of all thirty. -/
theorem descs_illFormed {f : Flight} {k : Nat} (hk : k < 30) (h0 : descOff f k ≠ 0)
    (hbad : descOff f k < 124 ∨ descSize f k = 0 ∨ f.oplen.toNat < descOff f k + descSize f k) :
    ¬ (List.range 30).all (descOk f) = true := by
  intro h
  have hk := List.all_eq_true.1 h k (List.mem_range.2 hk)
  simp only [descOk, descPopulated, Bool.or_eq_true, Bool.not_eq_true', bne_eq_false_iff_eq, h0, false_or,
    Bool.and_eq_true, decide_eq_true_eq] at hk
  omega

section Operands

variable {s : State} {ch : ChMask} {lut : BitVec 5} {sel : BitVec 2} (hw : HostWaits s)
include hw

theorem lutWrite_absent (hn : s.regs.oplen.toNat = 0) : EndedAtOnce s (runOperation false (lutWrite ch lut sel) s) 2 := by
  refine endedAtOnce_of_refused (c := .nullInput) hw rfl ?_
  unfold lutWrite
  rw [run_snapLen_bind, run_check_bind, startOperation_flight_oplen, if_neg (not_not.2 hn)]

theorem mmlutWrite_absent (hn : s.regs.oplen.toNat = 0) : EndedAtOnce s (runOperation false (mmlutWrite lut) s) 2 := by
  refine endedAtOnce_of_refused (c := .nullInput) hw rfl ?_
  unfold mmlutWrite
  rw [run_snapLen_bind, run_check_bind, startOperation_flight_oplen, if_neg (not_not.2 hn)]

theorem lutWrite_long {i : Chan} (hi : ch.toNat = 2 ^ i.val) (hn : 4096 - 1024 * sel.toNat < s.regs.oplen.toNat) :
    EndedAtOnce s (runOperation false (lutWrite ch lut sel) s) 0x1201 := by
  refine endedAtOnce_invalidParameter (code := .len) hw
    ((run_lutWrite (by omega)).trans ((run_needChannel_oneHot hi _ _).trans ?_))
  rw [run_checkParam_bind, if_neg (by omega)]

theorem lutRead_long {i : Chan} (hi : ch.toNat = 2 ^ i.val) (hn : 4096 - 1024 * sel.toNat < s.regs.oplen.toNat) :
    EndedAtOnce s (runOperation false (lutRead ch lut sel) s) 0x1201 := by
  refine endedAtOnce_invalidParameter (code := .len) hw ((run_needChannel_oneHot hi _ _).trans ?_)
  rw [run_snapLen_bind, run_ite, startOperation_flight_oplen, if_neg (by omega)]
  unfold lutReadSome
  rw [run_checkParam_bind, if_neg (by omega)]

theorem mmlutWrite_badLut (hn : s.regs.oplen.toNat ≠ 0) (hl : 25 < lut.toNat) :
    EndedAtOnce s (runOperation false (mmlutWrite lut) s) 0x1101 := by
  refine endedAtOnce_invalidParameter (code := .lut) hw ?_
  unfold mmlutWrite
  rw [run_snapLen_bind, run_check_bind, startOperation_flight_oplen, if_pos hn, run_checkParam_bind, if_neg (by omega)]

theorem mmlutWrite_badLen (hl : lut.toNat ≤ 25) (hn : s.regs.oplen.toNat % 4 ≠ 0 ∨ 1024 < s.regs.oplen.toNat) :
    EndedAtOnce s (runOperation false (mmlutWrite lut) s) 0x1201 := by
  refine endedAtOnce_invalidParameter (code := .len) hw ?_
  unfold mmlutWrite
  rw [run_snapLen_bind, run_check_bind, startOperation_flight_oplen, if_pos (by omega), run_checkParam_bind, if_pos hl,
    run_checkParam_bind, run_checkParam_bind]
  split
  · rw [if_neg (by omega)]
  · rfl

theorem swapWrite_short (hn : s.regs.oplen.toNat < 124) : EndedAtOnce s (runOperation false (swapWrite ch sel) s) 2 := by
  refine endedAtOnce_of_refused (c := .nullInput) hw rfl ?_
  unfold swapWrite
  rw [run_snapLen_bind, run_check_bind, startOperation_flight_oplen, if_neg (by omega)]

theorem swapWrite_long (hn : 65536 < s.regs.oplen.toNat) : EndedAtOnce s (runOperation false (swapWrite ch sel) s) 0x1201 := by
  refine endedAtOnce_invalidParameter (code := .len) hw ?_
  unfold swapWrite
  rw [run_snapLen_bind, run_check_bind, startOperation_flight_oplen, if_pos (by omega), run_checkParam_bind, if_neg (by omega)]

theorem swapWrite_badDesc {i : Chan} {k : Nat} (hi : ch.toNat = 2 ^ i.val) (h1 : 124 ≤ s.regs.oplen.toNat)
    (h2 : s.regs.oplen.toNat ≤ 65536) (hk : k < 30) (h0 : descOff (startOperation s).dcc.flight k ≠ 0)
    (hbad : descOff (startOperation s).dcc.flight k < 124 ∨ descSize (startOperation s).dcc.flight k = 0 ∨
      s.regs.oplen.toNat < descOff (startOperation s).dcc.flight k + descSize (startOperation s).dcc.flight k) :
    EndedAtOnce s (runOperation false (swapWrite ch sel) s) 0x1301 := by
  refine endedAtOnce_invalidParameter (code := .desc) hw ((run_swapWrite h1 h2).trans ((run_needChannel_oneHot hi _ _).trans ?_))
  rw [run_ask_bind, run_checkParam_bind, if_neg (descs_illFormed hk h0 hbad)]

end Operands

/-- Settles O43: each clause is one check, behind those that have passed. -/
theorem operandChecksRefuse : Obligations.OperandChecksRefuse := by
  rintro s ch lut sel n f hc rfl rfl hw
  obtain ⟨c, hc⟩ := oneHot_of_mem hc
  refine ⟨fun hn any i hi => ?_, fun hn i hi => ?_, fun hn hl => ⟨_, rfl, mmlutWrite_badLut hw hn hl⟩,
    fun hl hn => ⟨_, rfl, mmlutWrite_badLen hw hl hn⟩, fun hn => ⟨_, rfl, swapWrite_short hw hn⟩,
    fun hn => ⟨_, rfl, swapWrite_long hw hn⟩, fun hn k hk => desc_start hn hk,
    fun k hk h1 h2 h0 hbad => ⟨_, rfl, swapWrite_badDesc hw hc h1 h2 hk h0 hbad⟩, fun hn i hi => ?_, fun hn hs => ⟨_, rfl, ?_⟩⟩
  · simp only [List.mem_cons, List.not_mem_nil, or_false] at hi
    obtain rfl | rfl := hi
    · exact ⟨_, rfl, lutWrite_absent hw hn⟩
    · exact ⟨_, rfl, mmlutWrite_absent hw hn⟩
  · simp only [List.mem_cons, List.not_mem_nil, or_false] at hi
    obtain rfl | rfl := hi
    · exact ⟨_, rfl, lutWrite_long hw hc hn⟩
    · exact ⟨_, rfl, lutRead_long hw hc hn⟩
  · simp only [List.mem_cons, List.not_mem_nil, or_false] at hi
    obtain rfl | rfl := hi
    · exact ⟨_, rfl, endedAtOnce_short hn hw⟩
    · exact ⟨_, rfl, endedAtOnce_short hn hw⟩
  · refine endedAtOnce_of_refused (c := .nullInput) hw rfl ?_
    unfold capcfgSet
    rw [run_gate_bind, startOperation_capState, if_pos ((gateOpen_set_iff _).2 hs), run_needRecord_bind,
      startOperation_flight_oplen, if_neg (by omega)]

end Sys2Proof.Machine
end

section
/-! PROOF. `CAP.START` and `CAP.POLL` (42_capture_fsm.md R204, R205): the gate, the read, the trigger or the clearing of the done flag,
each served and failed. -/

namespace Sys2Proof.Machine

/-! ## Boundaries at which no agent moves -/

/-- Where no agent moves, only the tick passes. -/
theorem envTurn_of_still {s : State} (h : (nextTick s.env).moves = []) : envTurn s = passTick s := by
  unfold envTurn
  rw [h]
  rfl

theorem Quiet.chip_turn {n : Nat} {s : State} (h : Quiet (n + 1) s) : (Machine.envTurn s).chip = s.chip := by
  rw [h.envTurn]
  rfl

/-- A quiet boundary before a step that uses nothing of the script. -/
theorem Quiet.past {n : Nat} {s t : State} (h : Quiet (n + 1) s) (hs : t.env.script = (Machine.envTurn s).env.script)
    (hd : t.env.draws = (Machine.envTurn s).env.draws) : Quiet n t :=
  h.next (hs.trans (envTurn_script s)) (hd.trans (envTurn_draws s))

/-- The ticks behind one boundary. -/
theorem tickAt_past {s t : State} (hs : t.env.script = (envTurn s).env.script) (hd : t.env.draws = (envTurn s).env.draws) (k : Nat) :
    tickAt t.env k = tickAt s.env (k + 1) :=
  tickAt_succ (hs.trans (envTurn_script s)) (hd.trans (envTurn_draws s)) k

/-! ## Behind a first transaction that reads -/

/-- An operation's first transaction, a read, has been served. -/
def firstRead (s : State) (t : Txn) : State := logTxn t true (envTurn (startOperation s))

theorem firstRead_inside (s : State) (t : Txn) : Inside s (firstRead s t) [t] := (Inside.start s).read t

theorem firstRead_untouched (s : State) (t : Txn) : ChipUntouched 1 s (firstRead s t) := (ChipUntouched.start s).turn.log t true

theorem firstRead_dcc (s : State) (t : Txn) : (firstRead s t).dcc = { s.dcc with flight := (firstRead s t).dcc.flight } :=
  dcc_firstTxn t true id s

theorem firstRead_tick (s : State) (t : Txn) (k : Nat) : tickAt (firstRead s t).env k = tickAt s.env (k + 1) :=
  tickAt_past (s := startOperation s) (by simp [firstRead]) (by simp [firstRead]) k

theorem firstRead_nextTick (s : State) (t : Txn) : nextTick (firstRead s t).env = tickAt s.env 1 :=
  (tickAt_zero _).symm.trans (firstRead_tick s t 0)

theorem firstRead_chip {n : Nat} {s : State} (hq : Quiet (n + 1) s) (t : Txn) : (firstRead s t).chip = s.chip := by
  have hq0 : Quiet (n + 1) (startOperation s) := hq.of_env rfl rfl
  rw [firstRead, logTxn_chip, hq0.chip_turn]
  rfl

theorem Quiet.firstRead {n : Nat} {s : State} (hq : Quiet (n + 1) s) (t : Txn) : Quiet n (firstRead s t) :=
  fun k hk => (firstRead_tick s t k).trans (hq (k + 1) (by omega))

/-- What a capture operation does behind its read: one writing transaction, then a step of the state machine. -/
def writeThenStep (m : M Unit) (c : CapState) (r : Result) : M Result := do
  m
  setCapState c
  pure r

/-- The environment of a delivered request: what the other agents, but not the transport, look at. -/
structure Delivers (g : Env → Env) : Prop where
  hostQ : ∀ e, (g e).hostQ = e.hostQ
  claimless : ∀ e, (g e).claimless = e.claimless
  bus : ∀ e, (g e).bus = e.bus
  script : ∀ e, (g e).script = e.script
  draws : ∀ e, (g e).draws = e.draws

section WriteThenStep

variable {s : State} {body : M Result} {m : M Unit} {t0 t : Txn} {cs : CapState} {r : Result} {f : Chip → Chip}

/-- The write, of effect `f` on the chip and `g` on the requests, is served in a quiet environment. -/
theorem writeThenStep_served {g : Env → Env} (hg : Delivers g) (hw : HostWaits s) (hq : Quiet 4 s)
    (hrun : body.run (startOperation s) = (writeThenStep m cs r).run (firstRead s t0))
    (hm : m.run (firstRead s t0) = .ok () (logTxn t true (updateEnv g (updateChip f (envTurn (firstRead s t0)))))) :
    EndedOk s (runOperation true body s) r.info r.data ∧
      (runOperation true body s).dcc = { s.dcc with capState := cs, flight := (runOperation true body s).dcc.flight } ∧
      (runOperation true body s).chip = f s.chip ∧ Sent s (runOperation true body s) [t0, t] ∧
      ∃ e, (runOperation true body s).env.trigChan = (g e).trigChan ∧ (runOperation true body s).env.trigExt = (g e).trigExt := by
  have hin : Inside s (logTxn t true (updateEnv g (updateChip f (envTurn (firstRead s t0))))) [t0, t] := by
    have h := (firstRead_inside s t0).txn t f
    refine ⟨by simpa using h.cfg, by simpa using h.regs, ?_, ?_, ?_, by simpa using h.oplen, by simpa using h.ctrl, by simpa using h.opb⟩
    · simpa [updateEnv, hg.hostQ] using h.hostQ
    · simpa [updateEnv, hg.claimless] using h.claimless
    · simpa [updateEnv, hg.bus] using h.bus
  have hend := hin.turn.updateDcc (f := fun d => { d with capState := cs }) rfl
  have hall := hrun.trans ((run_bind_ok hm).trans (run_bind_ok (setCapState_of_waits (hin.waits hw))))
  have hq1 : Quiet 3 (firstRead s t0) := hq.firstRead t0
  have hq2 : Quiet 2 (logTxn t true (updateEnv g (updateChip f (envTurn (firstRead s t0))))) :=
    hq1.past (by simp [updateEnv, hg.script]) (by simp [updateEnv, hg.draws])
  have hq3 : Quiet 1 (updateDcc (fun d => { d with capState := cs })
      (envTurn (logTxn t true (updateEnv g (updateChip f (envTurn (firstRead s t0))))))) := hq2.past (by simp) (by simp)
  rw [runOperation_ok hall, hend.leave hw]
  refine ⟨hend.turn.endedOk r, dcc_returnOk (d := { s.dcc with capState := cs }) ?_, ?_, hend.turn.sent r,
    (envTurn (firstRead s t0)).env, ?_, ?_⟩
  · rw [envTurn_dcc, updateDcc_dcc, envTurn_dcc, logTxn_dcc]
    have h := firstRead_dcc s t0
    rw [← envTurn_dcc (firstRead s t0)] at h
    show ({ (envTurn (firstRead s t0)).dcc with capState := cs, flight := _ } : DccRegs) = _
    rw [h]
  · rw [returnOk_chip, hq3.chip_turn, updateDcc_chip, hq2.chip_turn, logTxn_chip]
    show f (envTurn (firstRead s t0)).chip = _
    rw [hq1.chip_turn, firstRead_chip hq]
  · show (envTurn _).env.trigChan = _
    simp [updateEnv]
  · show (envTurn _).env.trigExt = _
    simp [updateEnv]

/-- The write fails and leaves `f` of the chip, no agent moving. -/
theorem writeThenStep_failed {c : ResultClass} (hw : HostWaits s) (hq : Quiet 1 s) (h1 : (tickAt s.env 1).moves = [])
    (h2 : (tickAt s.env 2).moves = []) (hc : isTransportFailure c = true)
    (hrun : body.run (startOperation s) = (writeThenStep m cs r).run (firstRead s t0))
    (hm : m.run (firstRead s t0) = .error (.raised c) (logTxn t false (updateChip f (envTurn (firstRead s t0))))) :
    Ended s (runOperation true body s) (resWord s.cfg c 0) [] ∧
      (runOperation true body s).dcc = { s.dcc with capState := .error, flight := (runOperation true body s).dcc.flight } ∧
      (runOperation true body s).chip = f s.chip ∧ (runOperation true body s).env.trigChan = s.env.trigChan := by
  obtain ⟨hout, hend⟩ := (firstRead_inside s t0).turn.failed (fam := true) hw (hrun.trans (run_bind_error hm))
  have ht2 : nextTick (logTxn t false (updateChip f (envTurn (firstRead s t0)))).env = tickAt s.env 2 := by
    rw [← tickAt_zero, tickAt_past (s := firstRead s t0) (by simp) (by simp), firstRead_tick]
  have e1 : envTurn (firstRead s t0) = passTick (firstRead s t0) := envTurn_of_still (by rw [firstRead_nextTick]; exact h1)
  have e2 := envTurn_of_still (s := logTxn t false (updateChip f (envTurn (firstRead s t0)))) (by rw [ht2]; exact h2)
  refine ⟨hend, ?_, ?_, ?_⟩
  · rw [hout, dcc_takeResult_failure hc, envTurn_dcc, logTxn_dcc, updateChip_dcc, envTurn_dcc, firstRead_dcc]
  · rw [hout, takeResult_chip, e2, passTick_chip, logTxn_chip, updateChip_chip, e1, passTick_chip, firstRead_chip hq]
  · rw [hout]
    unfold takeResult
    rw [endOperation_trigChan]
    split <;> simp [firstRead]

end WriteThenStep

/-! ## `CAP.START` -/

theorem gateOpen_start_iff (c : CapState) : gateOpen .start c = true ↔ c = .configured := by cases c <;> decide

/-- The read of the control sub-record. -/
abbrev ctrlRead (s : State) : Txn := .cfgRead s.cfg.objCapture 36 22

theorem run_capStart {s : State} (hg : s.dcc.capState = .configured) (hw : HostWaits s) (ha : Served (nextTick s.env)) :
    capStart.run (startOperation s) =
      (liftParam (orParam (chanOfByte (s.chip.capObj.read 48)) .channel) >>= fun i =>
        writeThenStep (sendTrigger i (parseType (s.chip.capObj.read 49) (s.chip.capObj.read 40))) .armed {} : M Result).run
          (firstRead s (ctrlRead s)) := by
  have hread := mboxCfgRead_served (o := .capture) (off := 36) (n := 22) (hostWaits_start hw) ha
  rw [envTurn_getObj] at hread
  refine (run_gate_open ((gateOpen_start_iff _).2 hg)).trans ((run_bind_ok hread).trans ?_)
  have h48 : byteAt ((getObj (startOperation s).chip .capture).readBytes 36 22) 12 = s.chip.capObj.read 48 :=
    Memory.byteAt_readBytes (by omega)
  have h49 : byteAt ((getObj (startOperation s).chip .capture).readBytes 36 22) 13 = s.chip.capObj.read 49 :=
    Memory.byteAt_readBytes (by omega)
  have h40 : byteAt ((getObj (startOperation s).chip .capture).readBytes 36 22) 4 = s.chip.capObj.read 40 :=
    Memory.byteAt_readBytes (by omega)
  rw [h48, h49, h40]
  rfl

/-- With a stored channel index that is one. -/
theorem run_capStart_channel {s : State} {i : Chan} (hg : s.dcc.capState = .configured) (hi : (s.chip.capObj.read 48).toNat = i.val)
    (hw : HostWaits s) (ha : Served (nextTick s.env)) :
    capStart.run (startOperation s) =
      (writeThenStep (sendTrigger i (parseType (s.chip.capObj.read 49) (s.chip.capObj.read 40))) .armed {}).run
        (firstRead s (ctrlRead s)) := by
  have hc : chanOfByte (s.chip.capObj.read 48) = some i := by
    unfold chanOfByte
    rw [dif_pos (by omega)]
    exact congrArg some (Fin.ext hi)
  rw [run_capStart hg hw ha, hc]
  rfl

theorem capStart_badChannel {s : State} (hg : s.dcc.capState = .configured) (hw : HostWaits s) (ha : Served (nextTick s.env))
    (hc : 3 < (s.chip.capObj.read 48).toNat) :
    Ended s (runOperation true capStart s) 0x201 [] ∧ DccSame s (runOperation true capStart s) ∧
      (runOperation true capStart s).chip = (envTurns 2 s).chip ∧ Sent s (runOperation true capStart s) [ctrlRead s] := by
  have hn : chanOfByte (s.chip.capObj.read 48) = none := dif_neg (by omega)
  have hrun := run_capStart hg hw ha
  rw [hn] at hrun
  exact ended_of_untouched (x := .invalidParameter .channel) (fam := true) rfl hrun hw (firstRead_inside s _)
    (firstRead_untouched s _) (firstRead_dcc s _)

/-- The requests of a delivered trigger. -/
def trigEnv (i : Chan) (type : CaptureType) (e : Env) : Env := { e with trigChan := i, trigExt := type == .extendedPeakSearch }

theorem trigEnv_delivers (i : Chan) (type : CaptureType) : Delivers (trigEnv i type) :=
  ⟨fun _ => rfl, fun _ => rfl, fun _ => rfl, fun _ => rfl, fun _ => rfl⟩

theorem regWrite_failed {r : ChipReg} {v : Nat} {request : State → State} {s : State} {c : ResultClass} (h : HostWaits s)
    (ha : answerFailure false (nextTick s.env).answer = some c) :
    (regWrite r v request).run s = .error (.raised c) (logTxn (.regWrite (regAddress s.cfg r) v) false
      (updateChip (fun ch => setReg ch r (tornNat (envTurn s).env.draws (getReg ch r) v)) (envTurn s))) := by
  unfold regWrite writeTxn
  rw [run_ask_bind]
  exact transact_failed h ha

section Trigger

variable {s : State} {i : Chan} {type : CaptureType} (hg : s.dcc.capState = .configured)
  (hi : (s.chip.capObj.read 48).toNat = i.val) (ht : type = parseType (s.chip.capObj.read 49) (s.chip.capObj.read 40))
  (hw : HostWaits s)
include hg hi ht hw

theorem capStart_armed (hq : Quiet 4 s) {t : Txn} {f : Chip → Chip}
    (hsend : (sendTrigger i type).run (firstRead s (ctrlRead s)) =
      .ok () (logTxn t true (updateEnv (trigEnv i type) (updateChip f (envTurn (firstRead s (ctrlRead s))))))) :
    EndedOk s (runOperation true capStart s) 0 [] ∧
      (runOperation true capStart s).dcc = { s.dcc with capState := .armed, flight := (runOperation true capStart s).dcc.flight } ∧
      (runOperation true capStart s).env.trigChan = i ∧
      ((runOperation true capStart s).env.trigExt = true ↔ type = .extendedPeakSearch) ∧
      (runOperation true capStart s).chip = f s.chip ∧ Sent s (runOperation true capStart s) [ctrlRead s, t] := by
  subst ht
  obtain ⟨hend, hdcc, hchip, hsent, e, hchan, hext⟩ := writeThenStep_served (trigEnv_delivers i _) hw hq
    (run_capStart_channel hg hi hw (hq.served (n := 3))) hsend
  exact ⟨hend, hdcc, hchan, by rw [hext]; exact beq_iff_eq, hchip, hsent⟩

/-- Through the debug register. -/
theorem capStart_debug (hq : Quiet 4 s) (htdd : type = .tddTxOnSync) :
    EndedOk s (runOperation true capStart s) 0 [] ∧
      (runOperation true capStart s).dcc = { s.dcc with capState := .armed, flight := (runOperation true capStart s).dcc.flight } ∧
      (runOperation true capStart s).env.trigChan = i ∧
      ((runOperation true capStart s).env.trigExt = true ↔ type = .extendedPeakSearch) ∧
      (runOperation true capStart s).chip = { s.chip with dbgTrig := 2 ^ i.val, trigPending := true } ∧
      Sent s (runOperation true capStart s) [ctrlRead s, .regWrite s.cfg.dbgTrigReg (2 ^ i.val)] := by
  refine capStart_armed hg hi ht hw hq (f := fun ch => { ch with dbgTrig := 2 ^ i.val, trigPending := true }) ?_
  have hsend := regWrite_served (r := .dbgTrig) (v := 2 ^ i.val) (request := deliverTrigger i type) ((firstRead_inside s (ctrlRead s)).waits hw)
    (Quiet.served (n := 2) (hq.firstRead _))
  rw [(firstRead_inside s (ctrlRead s)).cfg] at hsend
  unfold sendTrigger
  rw [if_pos htdd]
  exact hsend

/-- Through the mailbox. -/
theorem capStart_mailbox (hq : Quiet 4 s) (htdd : type ≠ .tddTxOnSync) :
    EndedOk s (runOperation true capStart s) 0 [] ∧
      (runOperation true capStart s).dcc = { s.dcc with capState := .armed, flight := (runOperation true capStart s).dcc.flight } ∧
      (runOperation true capStart s).env.trigChan = i ∧
      ((runOperation true capStart s).env.trigExt = true ↔ type = .extendedPeakSearch) ∧
      (runOperation true capStart s).chip = { s.chip with trigPending := true } ∧
      Sent s (runOperation true capStart s) [ctrlRead s, .mboxSet s.cfg.cmdCaptureTrig []] := by
  refine capStart_armed hg hi ht hw hq (f := fun ch => { ch with trigPending := true }) ?_
  have hsend := mboxSet_served (c := .captureTrig) (payload := []) (put := deliverTrigger i type) (torn := fun _ s => s)
    ((firstRead_inside s (ctrlRead s)).waits hw) (Quiet.served (n := 2) (hq.firstRead _))
  rw [(firstRead_inside s (ctrlRead s)).cfg] at hsend
  unfold sendTrigger
  rw [if_neg htdd]
  exact hsend

/-- The trigger is not delivered. -/
theorem capStart_undelivered {a : Answer} (hq : Quiet 1 s) (h1 : tickAt s.env 1 = { moves := [], answer := a })
    (h2 : (tickAt s.env 2).moves = []) (ha : ¬ Served { moves := [], answer := a }) :
    (if type = .tddTxOnSync then Ended s (runOperation true capStart s) (if a = .hwReset then 6 else 5) []
      else EndedFailed s (runOperation true capStart s) a) ∧
      (runOperation true capStart s).dcc = { s.dcc with capState := .error, flight := (runOperation true capStart s).dcc.flight } ∧
      (runOperation true capStart s).chip = { s.chip with dbgTrig := (runOperation true capStart s).chip.dbgTrig } ∧
      (runOperation true capStart s).env.trigChan = s.env.trigChan := by
  subst ht
  have hrun := run_capStart_channel hg hi hw (hq.served (n := 0))
  have hwr := (firstRead_inside s (ctrlRead s)).waits hw
  have htick := firstRead_nextTick s (ctrlRead s)
  rw [h1] at htick
  split
  · next htdd =>
    have hf : answerFailure false a = some (fieldFailure a) := answerFailure_field ha
    have hsend := regWrite_failed (r := .dbgTrig) (v := 2 ^ i.val) (request := deliverTrigger i .tddTxOnSync) hwr (by rw [htick]; exact hf)
    rw [htdd] at hrun
    obtain ⟨hend, hdcc, hchip, hchan⟩ := writeThenStep_failed hw hq (by rw [h1]) h2 (answerFailure_class hf) hrun hsend
    rw [resWord_fieldFailure] at hend
    exact ⟨hend, hdcc, by rw [hchip]; rfl, hchan⟩
  · next htdd =>
    obtain ⟨c, hc, _⟩ := answerFailure_of_not_served ha true
    have hsend := mboxSet_failed (m := .captureTrig) (payload := [])
      (put := deliverTrigger i (parseType (s.chip.capObj.read 49) (s.chip.capObj.read 40))) (torn := fun _ s => s) hwr
      (by rw [htick]; exact hc)
    have hpath : sendTrigger i (parseType (s.chip.capObj.read 49) (s.chip.capObj.read 40)) = mboxSet .captureTrig []
        (deliverTrigger i (parseType (s.chip.capObj.read 49) (s.chip.capObj.read 40))) (fun _ s => s) := if_neg htdd
    rw [← hpath] at hsend
    obtain ⟨hend, hdcc, hchip, hchan⟩ := writeThenStep_failed (f := id) hw hq (by rw [h1]) h2 (answerFailure_class hc) hrun hsend
    rw [resWord_failure hc] at hend
    exact ⟨hend, hdcc, by rw [hchip]; rfl, hchan⟩

end Trigger

/-- Settles O44: each clause is the operation's end state, refused, served by either path, or failed at either transaction. -/
theorem capStartTriggers : Obligations.CapStartTriggers := by
  refine ⟨fun s hg hw => ⟨_, rfl, ?_⟩, fun s i type hg hi ht hw hq => ⟨_, rfl, ?_⟩, fun s hg hw ha hc => ⟨_, rfl, capStart_badChannel hg hw ha hc⟩,
    fun s hg hw ha => ⟨_, rfl, ?_⟩, fun s a hg hc hw hq h1 h2 ha => ⟨_, rfl, ?_⟩⟩
  · exact endedAtOnce_of_gated (by rw [gateOpen_start_iff]; exact hg) hw
  · split
    · next htdd =>
      obtain ⟨hend, hdcc, hchan, hext, hchip, hsent⟩ := capStart_debug hg hi ht hw hq htdd
      exact ⟨hend, hdcc, hchan, hext, hchip, hsent⟩
    · next htdd =>
      obtain ⟨hend, hdcc, hchan, hext, hchip, hsent⟩ := capStart_mailbox hg hi ht hw hq htdd
      exact ⟨hend, hdcc, hchan, hext, hchip, hsent⟩
  · obtain ⟨c, hc, _⟩ := answerFailure_of_not_served ha true
    exact captureFailed_of_run hw hc ((run_gate_open ((gateOpen_start_iff _).2 hg)).trans
      (run_bind_error (mboxCfgRead_failed (hostWaits_start hw) hc)))
  · exact capStart_undelivered (i := ⟨(s.chip.capObj.read 48).toNat, by omega⟩) hg rfl rfl hw hq h1 h2 ha

/-! ## `CAP.POLL` -/

theorem gateOpen_poll_iff (c : CapState) : gateOpen .poll c = true ↔ c = .armed := by cases c <;> decide

abbrev doneRead (s : State) : Txn := .mboxGet s.cfg.cmdCaptureDone [] 1

theorem extract_bit (x : Byte) : x.extractLsb' 0 1 = BitVec.ofBool (x.getLsbD 0) := by
  ext k hk
  obtain rfl : k = 0 := by omega
  simp

/-- The answer picks the path. -/
theorem run_capPoll {s : State} (hg : s.dcc.capState = .armed) (hw : HostWaits s) (ha : Served (nextTick s.env)) :
    capPoll.run (startOperation s) = if (envTurn s).chip.doneFlag.getLsbD 0 = true then
        (writeThenStep clearDone .done { info := 1 }).run (firstRead s (doneRead s))
      else .ok { info := 0 } (firstRead s (doneRead s)) := by
  refine (run_gate_open ((gateOpen_poll_iff _).2 hg)).trans
    ((run_bind_ok (mboxGet_served (get := doneResponse) (hostWaits_start hw) ha)).trans ((run_ite _ _ _ _).trans ?_))
  have hbit : (doneResponse (envTurn (startOperation s))).2 = 1 ↔ (envTurn s).chip.doneFlag.getLsbD 0 = true := by
    unfold doneResponse
    rw [envTurn_startOperation_chip, extract_bit]
    show BitVec.ofBool _ = 1 ↔ _
    cases (envTurn s).chip.doneFlag.getLsbD 0 <;> decide
  exact if_congr hbit rfl rfl

/-- The clearing fails: every bit of the flag is its old value or 0. -/
theorem tornClear_bit {d : Nat} {old : Byte} {k : Nat} (h : (tornBits d 0 old 0).getLsbD k = true) : old.getLsbD k = true := by
  obtain hb | hb := getLsbD_tornBits d 0 old 0 k
  · rw [← hb, h]
  · rw [h] at hb
    simp at hb

section Clear

variable {s : State} (hg : s.dcc.capState = .armed) (hw : HostWaits s) (hd : s.chip.doneFlag.getLsbD 0 = true)
include hg hw hd

theorem run_capPoll_done (hq : Quiet 1 s) :
    capPoll.run (startOperation s) = (writeThenStep clearDone .done { info := 1 }).run (firstRead s (doneRead s)) := by
  rw [run_capPoll hg hw (hq.served (n := 0)), hq.chip_turn (n := 0), if_pos hd]

theorem capPoll_done (hq : Quiet 4 s) :
    EndedOk s (runOperation true capPoll s) 1 [] ∧
      (runOperation true capPoll s).dcc = { s.dcc with capState := .done, flight := (runOperation true capPoll s).dcc.flight } ∧
      (runOperation true capPoll s).chip = { s.chip with doneFlag := 0 } ∧
      Sent s (runOperation true capPoll s) [doneRead s, .mboxSet s.cfg.cmdCaptureDone [0]] := by
  have hsend := mboxSet_served (c := .captureDone) (payload := [0]) (put := updateChip fun ch => { ch with doneFlag := 0 })
    (torn := fun d => updateChip fun ch => { ch with doneFlag := tornBits d 0 ch.doneFlag 0 })
    ((firstRead_inside s (doneRead s)).waits hw) (Quiet.served (n := 2) (hq.firstRead _))
  rw [(firstRead_inside s (doneRead s)).cfg] at hsend
  obtain ⟨hend, hdcc, hchip, hsent, _⟩ := writeThenStep_served (g := id) (f := fun ch => { ch with doneFlag := 0 })
    ⟨fun _ => rfl, fun _ => rfl, fun _ => rfl, fun _ => rfl, fun _ => rfl⟩ hw hq
    (run_capPoll_done hg hw hd (hq.mono (by omega))) hsend
  exact ⟨hend, hdcc, hchip, hsent⟩

theorem capPoll_notCleared {a : Answer} (hq : Quiet 1 s) (h1 : tickAt s.env 1 = { moves := [], answer := a })
    (h2 : (tickAt s.env 2).moves = []) (ha : ¬ Served { moves := [], answer := a }) :
    EndedFailed s (runOperation true capPoll s) a ∧
      (runOperation true capPoll s).dcc = { s.dcc with capState := .error, flight := (runOperation true capPoll s).dcc.flight } ∧
      ∃ d, (runOperation true capPoll s).chip = { s.chip with doneFlag := tornBits d 0 s.chip.doneFlag 0 } := by
  obtain ⟨c, hc, _⟩ := answerFailure_of_not_served ha true
  have htick := firstRead_nextTick s (doneRead s)
  rw [h1] at htick
  have hsend := mboxSet_failed (m := .captureDone) (payload := [0]) (put := updateChip fun ch => { ch with doneFlag := 0 })
    (torn := fun d => updateChip fun ch => { ch with doneFlag := tornBits d 0 ch.doneFlag 0 })
    ((firstRead_inside s (doneRead s)).waits hw) (by rw [htick]; exact hc)
  obtain ⟨hend, hdcc, hchip, _⟩ := writeThenStep_failed hw hq (by rw [h1]) h2 (answerFailure_class hc)
    (run_capPoll_done hg hw hd hq) hsend
  rw [resWord_failure hc] at hend
  exact ⟨hend, hdcc, _, hchip⟩

end Clear

/-- Settles O45: each clause is the operation's end state, refused, answered, or failed at either command. -/
theorem capPollAnswers : Obligations.CapPollAnswers := by
  refine ⟨fun s hg hw => ⟨_, rfl, ?_⟩, fun s hg hw ha hd => ⟨_, rfl, ?_⟩, fun s hg hw hq hd => ⟨_, rfl, capPoll_done hg hw hd hq⟩,
    fun s hg hw ha => ⟨_, rfl, ?_⟩, fun s a hg hw hq h1 h2 ha hd => ⟨_, rfl, ?_⟩⟩
  · exact endedAtOnce_of_gated (by rw [gateOpen_poll_iff]; exact hg) hw
  · have hrun := (run_capPoll hg hw ha).trans (if_neg (by rw [hd]; exact Bool.false_ne_true))
    obtain ⟨hdcc, hchip, hend, hsent⟩ := endedOk_of_untouched (fam := true) hrun hw (firstRead_inside s _) (firstRead_untouched s _)
      (firstRead_dcc s _)
    exact ⟨hend, hdcc, hchip, hsent⟩
  · obtain ⟨c, hc, _⟩ := answerFailure_of_not_served ha true
    exact captureFailed_of_run hw hc ((run_gate_open ((gateOpen_poll_iff _).2 hg)).trans
      (run_bind_error (mboxGet_failed (hostWaits_start hw) hc)))
  · obtain ⟨hend, hdcc, d, hchip⟩ := capPoll_notCleared hg hw hd hq h1 h2 ha
    refine ⟨hend, hdcc, by rw [hchip], fun k hk => ?_⟩
    rw [hchip] at hk
    exact tornClear_bit hk

end Sys2Proof.Machine
end

section
/-! PROOF. `MODEL.CFG` and `MMODEL.CFG` (43_lut_manager.md R231, R233), the addresses of the LUT window (R236, R246), `ACTCLK.SET`
(R239), the record checks of `SWAP.WRITE` (44_swap_mode.md R263), `MMODEL.UPDATE` and `MMODEL.STATUS` (R266, R267). -/

namespace Sys2Proof.Machine

/-! ## One served write of a mailbox object -/

/-- An operation outside the capture families that comes to one served write of a mailbox object and nothing more. -/
theorem objWritten_of_run {body : M Result} {s : State} {o : MboxObj} {off : Nat} {bytes : List Byte}
    (hrun : body.run (startOperation s) = (mboxCfgWrite o off bytes >>= fun _ => pure {} : M Result).run (startOperation s))
    (hw : HostWaits s) (ha : Served (nextTick s.env)) :
    EndedOk s (runOperation false body s) 0 [] ∧ DccSame s (runOperation false body s) ∧
      (runOperation false body s).chip = setObj (envTurns 2 s).chip o ((getObj s.chip o).writeBytes off bytes) := by
  have hserved := hrun.trans (run_bind_ok (mboxCfgWrite_served (hostWaits_start hw) ha))
  have hin := (Inside.start s).txn (.cfgWrite (objId s.cfg o) off bytes)
    fun ch => setObj ch o ((getObj ch o).writeBytes off bytes)
  have hobj := (ChipUntouched.start s).turn.writeObj (.cfgWrite (objId s.cfg o) off bytes) true o fun m => m.writeBytes off bytes
  rw [(runOperation_ok (fam := false) hserved).trans (hin.leave hw _)]
  refine ⟨hin.turn.endedOk {}, dccSame_returnOk ?_, hobj.turn.chip⟩
  rw [envTurn_dcc]
  exact dcc_firstTxn _ true _ s

/-! ## `MODEL.CFG` and `MMODEL.CFG` -/

/-- The stored record: the channel mask, then the host bytes. -/
theorem read_model {m opb : Memory} {base a : Nat} {ch : ChMask} (hm : Memory.wf m) :
    (m.writeBytes base (serModel ch (opb.readBytes 0 47))).read a =
      if a = base then ch.setWidth 8
      else if base < a ∧ a < base + 48 then opb.read (a - base - 1)
      else m.read a := by
  have hlen : (serModel ch (opb.readBytes 0 47)).length = 48 := by simp [serModel, Memory.length_readBytes]
  rw [Memory.read_writeBytes hm, hlen]
  by_cases h0 : a = base
  · rw [if_pos h0, if_pos (by omega), h0, Nat.sub_self]
    rfl
  rw [if_neg h0]
  refine if_ctx_congr (by omega) (fun h => ?_) fun _ => rfl
  have hk : a - base = (a - base - 1) + 1 := by omega
  rw [hk]
  exact (Memory.byteAt_readBytes (by omega)).trans (by rw [Nat.zero_add]; rfl)

section Model

variable {s : State} {ch : ChMask} {i : Chan} (hi : ch.toNat = 2 ^ i.val) (hn : 47 ≤ s.regs.oplen.toNat)
  (hb : (s.regs.opb.read 1).toNat ≤ 3) (hc : (s.regs.opb.read 3).toNat = 8 ∨ (s.regs.opb.read 3).toNat = 9)
  (hcb : (s.regs.opb.read 3).toNat = 9 → (s.regs.opb.read 1).toNat = 0 ∨ (s.regs.opb.read 1).toNat = 2)
  (hs : (s.regs.opb.read 4).toNat ≤ 15)
include hb hc hcb hs

/-- A legal record passes every check. -/
theorem run_checkModel_legal {last : Nat} {f : Unit → M Result} {u : State} (hm : (s.regs.opb.read 0).toNat ≤ last) :
    (checkModel last (s.regs.opb.readBytes 0 47) >>= f).run u = (f ()).run u := by
  rw [run_checkModel_bind, byteAt_operand _ (by omega), byteAt_operand _ (by omega), byteAt_operand _ (by omega),
    byteAt_operand _ (by omega), if_pos hm, if_pos hb, if_pos (hc.imp (BitVec.eq_of_toNat_eq ·) (BitVec.eq_of_toNat_eq ·)),
    if_pos fun h => (hcb (congrArg BitVec.toNat h)).imp (BitVec.eq_of_toNat_eq ·) (BitVec.eq_of_toNat_eq ·), if_pos hs]

include hi hn

theorem run_modelCfg (hm : (s.regs.opb.read 0).toNat ≤ 3) :
    (modelCfg ch).run (startOperation s) =
      (mboxCfgWrite .model (48 * i.val) (serModel ch (s.regs.opb.readBytes 0 47)) >>= fun _ => pure {} : M Result).run
        (startOperation s) :=
  (run_needRecord_whole hn (by omega)).trans ((run_needChannel_oneHot hi _ _).trans (run_checkModel_legal hb hc hcb hs hm))

theorem run_mmodelCfg (hm : (s.regs.opb.read 0).toNat ≤ 1) :
    (mmodelCfg ch).run (startOperation s) =
      (mboxCfgWrite .multimodel (96 * i.val + 48 * (s.regs.opb.read 0).toNat) (serModel ch (s.regs.opb.readBytes 0 47)) >>=
        fun _ => pure {} : M Result).run (startOperation s) := by
  have hoff : mmodelOffset i (byteAt (s.regs.opb.readBytes 0 47) 0 == 1) = 96 * i.val + 48 * (s.regs.opb.read 0).toNat := by
    rw [byteAt_operand _ (by omega)]
    obtain h | h : s.regs.opb.read 0 = 0 ∨ s.regs.opb.read 0 = 1 := by bv_omega
    · rw [h]; rfl
    · rw [h]; rfl
  rw [← hoff]
  exact (run_needRecord_whole hn (by omega)).trans ((run_needChannel_oneHot hi _ _).trans (run_checkModel_legal hb hc hcb hs hm))

end Model

/-- A chip that differs from `c` in one mailbox object. -/
theorem setObj_model {c d : Chip} {m : Memory} (h : d = setObj c .model m) :
    d.modelObj = m ∧ d = { c with modelObj := d.modelObj } :=
  ⟨congrArg Chip.modelObj h, by rw [h]; rfl⟩

theorem setObj_multimodel {c d : Chip} {m : Memory} (h : d = setObj c .multimodel m) :
    d.mmodelObj = m ∧ d = { c with mmodelObj := d.mmodelObj } :=
  ⟨congrArg Chip.mmodelObj h, by rw [h]; rfl⟩

/-- Settles O48: both operations are one write of the record. -/
theorem modelCfgWrites : Obligations.ModelCfgWrites := by
  rintro s ch i _ _ _ _ hi hn rfl rfl rfl rfl hb hc hcb hs hw ha hf
  obtain ⟨_, _, ⟨hmodel, _⟩, ⟨hmulti, _⟩, _⟩ := hf
  refine ⟨fun hm => ⟨runOperation false (modelCfg ch) s, rfl, ?_⟩, fun hm => ⟨runOperation false (mmodelCfg ch) s, rfl, ?_⟩⟩
  · obtain ⟨hend, hdcc, hchip⟩ := objWritten_of_run (run_modelCfg hi hn hb hc hcb hs hm) hw ha
    obtain ⟨hobj, hrest⟩ := setObj_model hchip
    exact ⟨hend, hdcc, hrest, fun a => by rw [hobj]; exact read_model hmodel⟩
  · obtain ⟨hend, hdcc, hchip⟩ := objWritten_of_run (run_mmodelCfg hi hn hb hc hcb hs hm) hw ha
    obtain ⟨hobj, hrest⟩ := setObj_multimodel hchip
    exact ⟨hend, hdcc, hrest, fun a => by rw [hobj]; exact read_model hmulti⟩

/-! ## The LUT window -/

theorem lutAddress_noWrap {cfg : Config} (h : cfg.Valid) (i : Chan) (lut : BitVec 5) (sel : BitVec 2) :
    (cfg.lutBase.get i + 4096 * lut.setWidth 32 + 1024 * sel.setWidth 32).toNat = lutAddress cfg i lut sel := by
  obtain ⟨hbase, _⟩ := h
  have hb : (cfg.lutBase.get i).toNat + 131072 ≤ 2 ^ 32 := hbase i
  unfold lutAddress
  generalize cfg.lutBase.get i = b at hb
  bv_omega

theorem peakPageAddress_eq (cfg : Config) (c : Chan) {k : Nat} (h : k < 16) :
    peakPageAddress cfg c k = (cfg.lutBase.get c).toNat + 110592 + 1024 * k := by
  unfold peakPageAddress lutAddress
  rw [BitVec.toNat_ofNat, BitVec.toNat_ofNat]
  omega

/-- Settles O51: arithmetic below 2^32 and inside the window of 32 LUTs. -/
theorem lutWindowAddresses : Obligations.LutWindowAddresses := by
  refine ⟨fun cfg i lut sel h => ⟨lutAddress_noWrap h i lut sel, rfl, ?_⟩, fun cfg c k h => ⟨peakPageAddress_eq cfg c h, ?_, ?_⟩⟩
  · unfold lutAddress
    omega
  · rw [peakPageAddress_eq cfg c h]
    show _ = (cfg.lutBase.get c).toNat + 4096 * 27 + 1024 * 0 + 1024 * k
    omega
  · rw [peakPageAddress_eq cfg c h]
    omega

/-! ## Operations in an environment that serves every transaction -/

/-- A run to `u` that returns, the boundary before the exit calm. -/
theorem ended_of_goes {s u : State} {body : M Result} {c : Chip} {n : Nat} {l : List Txn} {r : Result} (hw : HostWaits s)
    (hrun : body.run (startOperation s) = .ok r u) (hg : Goes (startOperation s) u c n l) (hcalm : envTurn u = passTick u) :
    EndedOk s (runOperation false body s) r.info r.data ∧ DccSame s (runOperation false body s) ∧
      (runOperation false body s).chip = c ∧ Sent s (runOperation false body s) l := by
  have hgp := hg.pass
  rw [runOperation_ok hrun, leave_of_waits (hg.waits (hostWaits_start hw)), hcalm]
  refine ⟨endedOk_returnOk hgp.cfg hgp.regs (by rw [hgp.env]; rfl) (by rw [hgp.env]; rfl), dccSame_returnOk hgp.dcc, hgp.chip, ?_⟩
  show (passTick u).env.bus = _
  rw [hgp.env]
  rfl

/-! ## `ACTCLK.SET` -/

theorem run_actclkSet {ch : ChMask} {i : Chan} {en : BitVec 1} (hi : ch.toNat = 2 ^ i.val) (s : State) :
    (actclkSet ch en).run (startOperation s) = (clockSeq i en >>= fun _ => pure {} : M Result).run (startOperation s) :=
  run_needChannel_oneHot hi _ _

/-- The three writes of the clock sequence. -/
abbrev clockWrites (cfg : Config) (i : Chan) (en : BitVec 1) : List Txn :=
  [.regWrite cfg.chselReg (2 ^ i.val), .regWrite cfg.streamIdReg (sidClk cfg en), .regWrite cfg.streamTrigReg 1]

theorem actclkSet_switches {s : State} {ch : ChMask} {i : Chan} {en : BitVec 1} (hi : ch.toNat = 2 ^ i.val) (hw : HostWaits s)
    (ho : Obliging 5 s) :
    EndedOk s (runOperation false (actclkSet ch en) s) 0 [] ∧ DccSame s (runOperation false (actclkSet ch en) s) ∧
      (runOperation false (actclkSet ch en) s).chip = { s.chip with
        act := s.chip.act.set i { s.chip.act.get i with actClk := en }
        chsel := 2 ^ i.val, streamId := sidClk s.cfg en, streamTrig := 1 } ∧
      Sent s (runOperation false (actclkSet ch en) s) (clockWrites s.cfg i en ++ [.fieldRead (.actClk i)]) := by
  obtain ⟨hr, ho⟩ := ho
  have ho : Obliges 5 (startOperation s) := Obliges.of_env (s := s) ho rfl rfl
  obtain ⟨u, hu, hg⟩ := clockSeq_obliges i en (hostWaits_start hw) hr (ho.mono (by omega))
  have h := ended_of_goes hw ((run_actclkSet hi s).trans (run_bind_ok hu)) hg.toGoes
    ((hg.obliges (m := 1) ho).envTurn_none (hg.streamReqs.trans hr))
  generalize runOperation false (actclkSet ch en) s = t at h ⊢
  exact h

/-- Three served writes deliver the request, and the poll times out. -/
theorem clockSeq_quiet {s : State} {i : Chan} {en : BitVec 1} (hw : HostWaits s) (hq : Quiet 43 s)
    (hne : (s.chip.act.get i).actClk ≠ en) :
    ∃ v u, (clockSeq i en).run s = .error (.raised .timeout) u ∧
      Goes s v { s.chip with chsel := 2 ^ i.val, streamId := sidClk s.cfg en } 2
        [.regWrite s.cfg.chselReg (2 ^ i.val), .regWrite s.cfg.streamIdReg (sidClk s.cfg en)] ∧
      Goes (updateFlight (fun f => { f with polls := 0 }) (logTxn (.regWrite s.cfg.streamTrigReg 1) true
        (deliverStream i en (updateChip (fun ch => setReg ch .streamTrig 1) (passTick v))))) u
        { s.chip with chsel := 2 ^ i.val, streamId := sidClk s.cfg en, streamTrig := 1 } 40 (List.replicate 40 (.fieldRead (.actClk i))) := by
  obtain ⟨u1, h1, g1⟩ := regWrite_calm (Quiet.calm (n := 42) hq hw) .chsel (2 ^ i.val)
  obtain ⟨u2, h2, g2⟩ := regWrite_calm ((g1.quiet (m := 42) hq).calm (g1.waits hw)) .streamId (sidClk s.cfg en)
  have g12 := g1.trans g2
  rw [g1.chip, g1.cfg] at g12
  have q2 : Quiet 41 u2 := g12.quiet (m := 41) hq
  have h3 := regWrite_served (r := .streamTrig) (v := 1) (request := deliverStream i en) (g12.waits hw) (q2.served (n := 40))
  rw [q2.envTurn (n := 40), g12.cfg] at h3
  have hw3 : HostWaits (updateFlight (fun f => { f with polls := 0 }) (logTxn (.regWrite s.cfg.streamTrigReg 1) true
      (deliverStream i en (updateChip (fun ch => setReg ch .streamTrig 1) (passTick u2))))) := (g12.waits hw).of_hostQ rfl
  have q3 : Quiet 40 (updateFlight (fun f => { f with polls := 0 }) (logTxn (.regWrite s.cfg.streamTrigReg 1) true
      (deliverStream i en (updateChip (fun ch => setReg ch .streamTrig 1) (passTick u2))))) := q2.next (n := 40) rfl rfl
  have hchip : (updateFlight (fun f => { f with polls := 0 }) (logTxn (.regWrite s.cfg.streamTrigReg 1) true
      (deliverStream i en (updateChip (fun ch => setReg ch .streamTrig 1) (passTick u2))))).chip =
      { s.chip with chsel := 2 ^ i.val, streamId := sidClk s.cfg en, streamTrig := 1 } := by
    show setReg u2.chip .streamTrig 1 = _
    rw [g12.chip]
    rfl
  obtain ⟨u, hu, gu⟩ := pollClock_quiet i en 40 hw3 q3 (by rw [hchip]; exact hne)
  rw [hchip] at gu
  refine ⟨u2, u, ?_, g12.toGoes, gu⟩
  unfold clockSeq
  rw [run_ask_bind, run_bind_ok h1, run_bind_ok h2]
  refine (run_bind_ok h3).trans ?_
  rw [run_update_bind]
  exact hu

theorem actclkSet_timesOut {s : State} {ch : ChMask} {i : Chan} {en : BitVec 1} (hi : ch.toNat = 2 ^ i.val) (hw : HostWaits s)
    (hq : Quiet 44 s) (hne : (s.chip.act.get i).actClk ≠ en) :
    Ended s (runOperation false (actclkSet ch en) s) 5 [] ∧ DccSame s (runOperation false (actclkSet ch en) s) ∧
      (runOperation false (actclkSet ch en) s).chip =
        { s.chip with chsel := 2 ^ i.val, streamId := sidClk s.cfg en, streamTrig := 1 } ∧
      Sent s (runOperation false (actclkSet ch en) s) (clockWrites s.cfg i en ++ List.replicate 40 (.fieldRead (.actClk i))) := by
  have hq0 : Quiet 44 (startOperation s) := hq.of_env rfl rfl
  obtain ⟨v, u, hu, gv, gu⟩ := clockSeq_quiet (i := i) (hostWaits_start hw) (hq0.mono (by omega)) hne
  have hwu : HostWaits u := gu.waits ((gv.waits (hostWaits_start hw)).of_hostQ rfl)
  have q3 : Quiet 41 (updateFlight (fun f => { f with polls := 0 }) (logTxn (.regWrite (startOperation s).cfg.streamTrigReg 1) true
      (deliverStream i en (updateChip (fun ch => setReg ch .streamTrig 1) (passTick v))))) :=
    (gv.quiet (m := 42) hq0).next (n := 41) rfl rfl
  have hcalm : envTurn u = passTick u := (gu.quiet (m := 1) q3).envTurn
  have hgp := gu.pass
  rw [runOperation_raised ((run_actclkSet hi s).trans (run_bind_error hu)), leave_of_waits hwu, hcalm]
  refine ⟨ended_takeResult (hgp.cfg.trans gv.cfg) (hgp.regs.trans gv.regs) ?_, dccSame_takeResult ?_, by rw [takeResult_chip, hgp.chip]; rfl, ?_⟩
  · rw [hgp.env]
    show v.env.hostQ = _
    rw [gv.env]
    rfl
  · rw [hgp.dcc]
    show ({ v.dcc with flight := _ } : DccRegs) = _
    rw [gv.dcc]
    rfl
  · show (takeResult false .timeout (passTick u)).env.bus = _
    rw [takeResult_bus, hgp.env]
    show _ ++ (_ :: v.env.bus) = _
    rw [gv.env]
    simp

/-- Settles O52: the clock sequence with the stream processor's answer before the first read, and without one. -/
theorem actclkSetSwitches : Obligations.ActclkSetSwitches :=
  fun _ _ _ _ hi hw => ⟨fun ho => ⟨_, rfl, actclkSet_switches hi hw ho⟩, fun hq hne => ⟨_, rfl, actclkSet_timesOut hi hw hq hne⟩⟩

end Sys2Proof.Machine
end

section
/-! PROOF. The record checks of `SWAP.WRITE` (44_swap_mode.md R263), `MMODEL.UPDATE` and `MMODEL.STATUS` (R266, R267). -/

namespace Sys2Proof.Machine

/-! ## The checks on the model record -/

/-- Every descriptor is empty or well formed. -/
theorem descs_wellFormed {f : Flight} {n : Nat} (hn : f.oplen.toNat = n)
    (h : ∀ k < 30, descOff f k ≠ 0 → 124 ≤ descOff f k ∧ 1 ≤ descSize f k ∧ descOff f k + descSize f k ≤ n) :
    (List.range 30).all (descOk f) = true := by
  refine List.all_eq_true.2 fun k hk => ?_
  by_cases h0 : descOff f k = 0
  · simp [descOk, descPopulated, h0]
  · obtain ⟨h1, h2, h3⟩ := h k (List.mem_range.1 hk) h0
    simp only [descOk, descPopulated, Bool.or_eq_true, Bool.and_eq_true, decide_eq_true_eq]
    exact .inr ⟨⟨h1, h2⟩, hn ▸ h3⟩

/-- The read of the channel's model record. -/
abbrev modelRead (s : State) (i : Chan) : Txn := .cfgRead s.cfg.objModel (48 * i.val) 48

/-- `SWAP.WRITE` with well-formed descriptors, behind its read. -/
theorem run_swapWrite_read {s : State} {ch : ChMask} {sel : BitVec 2} {i : Chan} (hi : ch.toNat = 2 ^ i.val)
    (h1 : 124 ≤ s.regs.oplen.toNat) (h2 : s.regs.oplen.toNat ≤ 65536)
    (hd : ∀ k < 30, descOff (startOperation s).dcc.flight k ≠ 0 → 124 ≤ descOff (startOperation s).dcc.flight k ∧
      1 ≤ descSize (startOperation s).dcc.flight k ∧
      descOff (startOperation s).dcc.flight k + descSize (startOperation s).dcc.flight k ≤ s.regs.oplen.toNat)
    (hw : HostWaits s) (ha : Served (nextTick s.env)) :
    (swapWrite ch sel).run (startOperation s) =
      (liftParam (swapBankOf (s.chip.modelObj.read (48 * i.val + 4))) >>= fun bl =>
        swapLimits (s.chip.modelObj.read (48 * i.val + 4)) sel bl.2 >>= fun _ =>
          swapPasses i sel bl.1 >>= fun _ => pure {} : M Result).run (firstRead s (modelRead s i)) := by
  have hread := mboxCfgRead_served (o := .model) (off := 48 * i.val) (n := 48) (hostWaits_start hw) ha
  rw [envTurn_getObj] at hread
  have h4 : byteAt ((getObj (startOperation s).chip .model).readBytes (48 * i.val) 48) 4 =
      s.chip.modelObj.read (48 * i.val + 4) := Memory.byteAt_readBytes (by omega)
  refine (run_swapWrite h1 h2).trans ((run_needChannel_oneHot hi _ _).trans ?_)
  rw [run_ask_bind, run_checkParam_bind, if_pos (descs_wellFormed rfl hd)]
  refine (run_bind_ok hread).trans ?_
  rw [h4]
  rfl

theorem run_swapLimits_bind (cs : Byte) (sel : BitVec 2) (limit : Nat) (f : Unit → M Result) (s : State) :
    (swapLimits cs sel limit >>= f).run s =
      if cs = 9 → sel = 0 ∨ sel = 2 then
        if (List.range 30).all (fun k => !descPopulated s.dcc.flight k || descSize s.dcc.flight k ≤ limit) = true then (f ()).run s
        else .error (.raised (.invalidParameter .len)) s
      else .error (.raised (.invalidParameter .bank)) s := by
  simp only [swapLimits, run_bind_assoc, run_checkParam_bind, run_ask_bind]

/-- A populated entry above the limit fails the check of all thirty. -/
theorem limits_exceeded {f : Flight} {k limit : Nat} (hk : k < 30) (h0 : descOff f k ≠ 0) (hbig : limit < descSize f k) :
    ¬ (List.range 30).all (fun k => !descPopulated f k || descSize f k ≤ limit) = true := by
  intro h
  have hk := List.all_eq_true.1 h k (List.mem_range.2 hk)
  simp only [descPopulated, Bool.or_eq_true, Bool.not_eq_true', bne_eq_false_iff_eq, h0, false_or, decide_eq_true_eq] at hk
  omega

/-- Which check fails, by the compander size, the bank and the sizes of the entries. -/
inductive SwapRefused (f : Flight) (comp : Byte) (sel : BitVec 2) : ParamCode → Prop
  | compander (h8 : comp ≠ 8) (h9 : comp ≠ 9) : SwapRefused f comp sel .compander
  | bank (h9 : comp = 9) (hsel : sel = 1 ∨ sel = 3) : SwapRefused f comp sel .bank
  | len8 {k : Nat} (h8 : comp = 8) (hk : k < 30) (h0 : descOff f k ≠ 0) (hbig : 1024 < descSize f k) : SwapRefused f comp sel .len
  | len9 {k : Nat} (h9 : comp = 9) (hsel : sel = 0 ∨ sel = 2) (hk : k < 30) (h0 : descOff f k ≠ 0) (hbig : 2048 < descSize f k) :
    SwapRefused f comp sel .len

theorem run_swapChecks_refused {comp : Byte} {sel : BitVec 2} {c : ParamCode} {u : State} {g : BitVec 2 × Nat → Unit → M Result}
    (h : SwapRefused u.dcc.flight comp sel c) :
    (liftParam (swapBankOf comp) >>= fun bl => swapLimits comp sel bl.2 >>= g bl : M Result).run u =
      .error (.raised (.invalidParameter c)) u := by
  cases h with
  | compander h8 h9 =>
    rw [swapBankOf, if_neg h8, if_neg h9]
    rfl
  | bank h9 hsel =>
    subst h9
    refine (run_swapLimits_bind _ _ _ _ _).trans (if_neg fun h => ?_)
    obtain rfl | rfl := hsel
    · exact absurd (h rfl) (by decide)
    · exact absurd (h rfl) (by decide)
  | len8 h8 hk h0 hbig =>
    subst h8
    exact (run_swapLimits_bind _ _ _ _ _).trans ((if_pos fun h => absurd h (by decide)).trans (if_neg (limits_exceeded hk h0 hbig)))
  | len9 h9 hsel hk h0 hbig =>
    subst h9
    exact (run_swapLimits_bind _ _ _ _ _).trans ((if_pos fun _ => hsel).trans (if_neg (limits_exceeded hk h0 hbig)))

/-- The snapshot of the operands is still that of the start. -/
theorem Inside.sameSnapshot {s u : State} {l : List Txn} (h : Inside s u l) :
    SameSnapshot u.dcc.flight (startOperation s).dcc.flight := ⟨h.oplen, h.ctrl, h.opb⟩

theorem descOff_congr {f g : Flight} (h : SameSnapshot f g) (k : Nat) : descOff f k = descOff g k := by
  unfold descOff
  rw [snapBytes_congr h]

/-- Settles O58: one read, then the check that fails. -/
theorem swapWriteChecksModel : Obligations.SwapWriteChecksModel := by
  rintro s ch sel i comp f hi hcomp rfl h1 h2 hd hw ha res hres
  have hin := firstRead_inside s (modelRead s i)
  have hsnap := hin.sameSnapshot
  have hrefused : ∃ c, SwapRefused (firstRead s (modelRead s i)).dcc.flight comp sel c ∧
      res = 1 ||| (paramCodeNumber c).setWidth 32 <<< 8 := by
    obtain ⟨h8, h9, rfl⟩ | ⟨h9, hsel, rfl⟩ | ⟨⟨k, hk, h0, hbig⟩, rfl⟩ := hres
    · exact ⟨_, .compander h8 h9, rfl⟩
    · exact ⟨_, .bank h9 hsel, rfl⟩
    · rw [← descOff_congr hsnap k] at h0
      rw [← (desc_congr hsnap k).2] at hbig
      obtain ⟨h8, hbig⟩ | ⟨h9, hsel, hbig⟩ := hbig
      · exact ⟨_, .len8 h8 hk h0 hbig, rfl⟩
      · exact ⟨_, .len9 h9 hsel hk h0 hbig, rfl⟩
  obtain ⟨c, hc, rfl⟩ := hrefused
  rw [hcomp] at hc
  have hall := (run_swapWrite_read (sel := sel) hi h1 h2 hd hw ha).trans (run_swapChecks_refused hc)
  rw [← resWord_invalidParameter s.cfg c 0]
  exact ⟨_, rfl, ended_of_untouched rfl hall hw hin (firstRead_untouched s _) (firstRead_dcc s _)⟩

/-! ## `MMODEL.UPDATE` and `MMODEL.STATUS` -/

theorem mmodelUpdate_badModel {ch : ChMask} {sel : BitVec 2} {s : State} (hc : ch ∈ [1, 2, 4, 8]) (hsel : 1 < sel.toNat)
    (hw : HostWaits s) : EndedAtOnce s (runOperation false (mmodelUpdate ch sel) s) 0xD01 := by
  obtain ⟨i, hi⟩ := oneHot_of_mem hc
  refine endedAtOnce_invalidParameter (code := .model) hw ((run_needChannel_oneHot hi _ _).trans ?_)
  rw [run_checkParam_bind, if_neg (by omega)]

section Served

variable {s : State} {ch : ChMask} {i : Chan} (hi : ch.toNat = 2 ^ i.val) (hw : HostWaits s) (ha : Served (nextTick s.env))
include hi hw ha

theorem mmodelUpdate_served {sel : BitVec 2} (hsel : sel.toNat ≤ 1) :
    EndedOk s (runOperation false (mmodelUpdate ch sel) s) 0 [] ∧ DccSame s (runOperation false (mmodelUpdate ch sel) s) ∧
      (runOperation false (mmodelUpdate ch sel) s).chip = (envTurn (deliverUpdate i (envTurn s))).chip ∧
      (runOperation false (mmodelUpdate ch sel) s).env.updLive.get i = true ∧
      Sent s (runOperation false (mmodelUpdate ch sel) s) [.mboxSet s.cfg.cmdLutUpdate [ch.setWidth 8, sel.setWidth 8]] := by
  have hset := mboxSet_served (c := .lutUpdate) (payload := [ch.setWidth 8, sel.setWidth 8]) (put := deliverUpdate i)
    (torn := fun _ s => s) (hostWaits_start hw) ha
  have hin : Inside s (logTxn (.mboxSet s.cfg.cmdLutUpdate [ch.setWidth 8, sel.setWidth 8]) true
      (deliverUpdate i (envTurn (startOperation s)))) [.mboxSet s.cfg.cmdLutUpdate [ch.setWidth 8, sel.setWidth 8]] :=
    (firstRead_inside s _).updateEnv (f := fun e => { e with updLive := e.updLive.set i true }) rfl rfl rfl
  have hrun : (mmodelUpdate ch sel).run (startOperation s) = .ok {} (logTxn (.mboxSet s.cfg.cmdLutUpdate [ch.setWidth 8, sel.setWidth 8])
      true (deliverUpdate i (envTurn (startOperation s)))) := by
    refine (run_needChannel_oneHot hi _ _).trans ?_
    rw [run_checkParam_bind, if_pos hsel]
    exact run_bind_ok hset
  have hchip : ChipUntouched 0 (deliverUpdate i (envTurn s)) (logTxn (.mboxSet s.cfg.cmdLutUpdate [ch.setWidth 8, sel.setWidth 8])
      true (deliverUpdate i (envTurn (startOperation s)))) := by
    have h := (ChipUntouched.start s).turn
    have hd : ChipUntouched 0 (deliverUpdate i (envTurn s)) (deliverUpdate i (envTurn (startOperation s))) := by
      refine ⟨h.cfg.trans (envTurn_cfg s).symm, h.chip, ?_⟩
      show ({ (envTurn (startOperation s)).env with updLive := _ } : Env) = _
      rw [h.env]
      rfl
    exact hd.log _ true
  rw [runOperation_ok hrun, hin.leave hw]
  refine ⟨hin.turn.endedOk {}, dccSame_returnOk ?_, hchip.turn.chip, ?_, hin.turn.sent {}⟩
  · rw [envTurn_dcc]
    exact dcc_firstTxn (.mboxSet s.cfg.cmdLutUpdate [ch.setWidth 8, sel.setWidth 8]) true id s
  · show (envTurn _).env.updLive.get i = true
    rw [envTurn_updLive, logTxn_updLive]
    simp [deliverUpdate, updateEnv]

theorem mmodelStatus_served :
    EndedOk s (runOperation false (mmodelStatus ch) s) 0 ((envTurn s).chip.updStatus.get i).toList ∧
      DccSame s (runOperation false (mmodelStatus ch) s) ∧ (runOperation false (mmodelStatus ch) s).chip = (envTurns 2 s).chip ∧
      Sent s (runOperation false (mmodelStatus ch) s) [.mboxGet s.cfg.cmdLutUpdateStatus [ch.setWidth 8] 2] := by
  have hget := mboxGet_served (c := .lutUpdateStatus) (sel := [ch.setWidth 8]) (n := 2)
    (get := fun s => (s.chip.updStatus.get i).toList) (hostWaits_start hw) ha
  rw [envTurn_startOperation_chip] at hget
  have hrun : (mmodelStatus ch).run (startOperation s) = .ok { data := ((envTurn s).chip.updStatus.get i).toList }
      (firstRead s (.mboxGet s.cfg.cmdLutUpdateStatus [ch.setWidth 8] 2)) :=
    (run_needChannel_oneHot hi _ _).trans (run_bind_ok hget)
  obtain ⟨hdcc, hchip, hend, hsent⟩ := endedOk_of_untouched (fam := false) hrun hw
    (firstRead_inside s _) (firstRead_untouched s _) (firstRead_dcc s _)
  exact ⟨hend, hdcc, hchip, hsent⟩

end Served

/-- Settles O60: the check of the mask, the check of the model, and one mailbox transaction each. -/
theorem mmodelUpdateAndStatus : Obligations.MmodelUpdateAndStatus := by
  refine ⟨fun s ch sel hc hw i hi => ?_, fun s ch sel hc hsel hw => ⟨_, rfl, mmodelUpdate_badModel hc hsel hw⟩,
    fun s ch i hi hw ha => ⟨fun sel hsel => ⟨_, rfl, mmodelUpdate_served hi hw ha hsel⟩, ⟨_, rfl, mmodelStatus_served hi hw ha⟩⟩⟩
  simp only [List.mem_cons, List.not_mem_nil, or_false] at hi
  obtain rfl | rfl := hi
  · exact ⟨_, rfl, endedAtOnce_of_badChannel hc hw⟩
  · exact ⟨_, rfl, endedAtOnce_of_badChannel hc hw⟩

end Sys2Proof.Machine
end

section
/-! PROOF. `LUT.WRITE`, `LUT.READ` (43_lut_manager.md R237, R238) and `SWAP.WRITE` (44_swap_mode.md R263) with a stream processor that
answers: each is a chain of access sequences. -/

namespace Sys2Proof.Machine

/-- A run to `u` that returns, the boundary before the exit obliging. -/
theorem ended_of_obliging {s u : State} {body : M Result} {c : Chip} {n N : Nat} {l : List Txn} {r : Result} (hw : HostWaits s)
    (ho : Obliging N s) (hrun : body.run (startOperation s) = .ok r u) (hg : Goes (startOperation s) u c n l) (hn : n < N) :
    EndedOk s (runOperation false body s) r.info r.data ∧ DccSame s (runOperation false body s) ∧
      (runOperation false body s).chip = c ∧ Sent s (runOperation false body s) l := by
  obtain ⟨hr, ho⟩ := ho
  have hos : Obliges N (startOperation s) := Obliges.of_env (s := s) ho rfl rfl
  exact ended_of_goes hw hrun hg ((hg.obliges (m := 1) (hos.mono (by omega))).envTurn_none (hg.streamReqs.trans hr))

/-- The sequence around the write of `data`. -/
theorem lutWriteSeq_obliges {s : State} (i : Chan) (l : BitVec 5) (b : BitVec 2) (data : List Byte) (hw : HostWaits s)
    (hr : s.env.streamReqs = []) (ho : Obliges 28 s) :
    ∃ u n txns, (lutWriteSeq i l b data).run s = .ok () u ∧ n ≤ 28 ∧
      Goes s u (sequencedChip s.cfg (swapOnIn s) (ctrlWrRestorePower s.dcc.flight.ctrl) i l
        (s.chip.bulk.writeBytes (lutAddress s.cfg i l b) data) s.chip) n txns := by
  unfold lutWriteSeq
  rw [run_ask_bind]
  refine lutAccess_obliges (x := .memWrite (lutAddress s.cfg i l b) data) hw hr ho fun v hv _ hbulk => ?_
  obtain ⟨w, hrun, hg⟩ := memWrite_calm hv (lutAddress s.cfg i l b) data
  rw [hbulk] at hg
  exact ⟨w, hrun, hg⟩

/-! ## `LUT.WRITE` and `LUT.READ` -/

section Lut

variable {s : State} {ch : ChMask} {lut : BitVec 5} {sel : BitVec 2} {i : Chan} (hi : ch.toNat = 2 ^ i.val)
  (h0 : s.regs.oplen.toNat ≠ 0) (hlen : s.regs.oplen.toNat ≤ 4096 - 1024 * sel.toNat)
include hi h0 hlen

theorem run_lutWrite_fits : (lutWrite ch lut sel).run (startOperation s) =
    (lutWriteSeq i lut sel (s.regs.opb.readBytes 0 s.regs.oplen.toNat) >>= fun _ => pure {} : M Result).run (startOperation s) := by
  refine (run_lutWrite h0).trans ((run_needChannel_oneHot hi _ _).trans ?_)
  rw [run_checkParam_bind, if_pos hlen, run_ask_bind, snapBytes_start s (by omega) (by omega)]

theorem run_lutRead_fits : (lutRead ch lut sel).run (startOperation s) =
    (lutAccess i lut ctrlRdRestorePower (memRead (lutAddress s.cfg i lut sel) s.regs.oplen.toNat) >>=
      fun d => pure { data := d } : M Result).run (startOperation s) := by
  refine (run_needChannel_oneHot hi _ _).trans ?_
  rw [run_snapLen_bind, run_ite, startOperation_flight_oplen, if_neg h0]
  unfold lutReadSome
  rw [run_checkParam_bind, if_pos hlen, run_ask_bind]
  rfl

variable (hw : HostWaits s) (ho : Obliging 29 s)
include hw ho

theorem lutWrite_obliges :
    EndedOk s (runOperation false (lutWrite ch lut sel) s) 0 [] ∧ DccSame s (runOperation false (lutWrite ch lut sel) s) ∧
      (runOperation false (lutWrite ch lut sel) s).chip = sequencedChip s.cfg (swapOnNow s) (s.regs.ctrl.getLsbD 2) i lut
        (s.chip.bulk.writeBytes (lutAddress s.cfg i lut sel) (s.regs.opb.readBytes 0 s.regs.oplen.toNat)) s.chip := by
  have hos : Obliges 29 (startOperation s) := Obliges.of_env (s := s) ho.2 rfl rfl
  obtain ⟨u, n, l, hrun, hn, hg⟩ := lutWriteSeq_obliges i lut sel (s.regs.opb.readBytes 0 s.regs.oplen.toNat) (hostWaits_start hw) ho.1
    (hos.mono (by omega))
  obtain ⟨hend, hdcc, hchip, _⟩ := ended_of_obliging hw ho ((run_lutWrite_fits hi h0 hlen).trans (run_bind_ok hrun)) hg (by omega)
  exact ⟨hend, hdcc, hchip⟩

theorem lutRead_obliges :
    DccSame s (runOperation false (lutRead ch lut sel) s) ∧
      EndedOk s (runOperation false (lutRead ch lut sel) s) 0
        (s.chip.bulk.readBytes (lutAddress s.cfg i lut sel) s.regs.oplen.toNat) ∧
      (runOperation false (lutRead ch lut sel) s).chip =
        sequencedChip s.cfg (swapOnNow s) (s.regs.ctrl.getLsbD 3) i lut s.chip.bulk s.chip := by
  have hos : Obliges 29 (startOperation s) := Obliges.of_env (s := s) ho.2 rfl rfl
  obtain ⟨u, n, l, hrun, hn, hg⟩ := lutAccess_obliges (policy := ctrlRdRestorePower) (i := i) (l := lut)
    (xfer := memRead (lutAddress s.cfg i lut sel) s.regs.oplen.toNat) (bulk := s.chip.bulk)
    (a := s.chip.bulk.readBytes (lutAddress s.cfg i lut sel) s.regs.oplen.toNat)
    (x := .memRead (lutAddress s.cfg i lut sel) s.regs.oplen.toNat) (hostWaits_start hw) ho.1
    (hos.mono (by omega)) fun v hv _ hbulk => by
      obtain ⟨w, hrun, hg⟩ := memRead_calm hv (lutAddress s.cfg i lut sel) s.regs.oplen.toNat
      have hb : v.chip.bulk = s.chip.bulk := hbulk
      rw [hb] at hrun
      refine ⟨w, hrun, ?_⟩
      rw [← hb]
      exact hg
  obtain ⟨hend, hdcc, hchip, _⟩ := ended_of_obliging hw ho ((run_lutRead_fits hi h0 hlen).trans (run_bind_ok hrun)) hg (by omega)
  exact ⟨hdcc, hend, hchip⟩

end Lut

/-- Bytes of the operand in a memory. -/
theorem read_writeBytes_operand {m opb : Memory} {base n : Nat} (hm : Memory.wf m) (a : Nat) :
    (m.writeBytes base (opb.readBytes 0 n)).read a = if base ≤ a ∧ a < base + n then opb.read (a - base) else m.read a := by
  rw [Memory.read_writeBytes hm, Memory.length_readBytes]
  refine if_ctx_congr Iff.rfl (fun h => ?_) fun _ => rfl
  exact (Memory.byteAt_readBytes (by omega)).trans (by rw [Nat.zero_add])

/-- Settles O53: one access sequence around the write of the operand. -/
theorem lutWriteStores : Obligations.LutWriteStores := by
  intro s ch lut sel i hi h0 hlen hw ho hf
  obtain ⟨_, _, _, _, _, hbulk⟩ := hf
  obtain ⟨hend, hdcc, hchip⟩ := lutWrite_obliges hi h0 hlen hw ho
  refine ⟨runOperation false (lutWrite ch lut sel) s, rfl, ?_⟩
  generalize runOperation false (lutWrite ch lut sel) s = t at hend hdcc hchip ⊢
  have hb : t.chip.bulk = _ := congrArg Chip.bulk hchip
  exact ⟨hend, hdcc, by rw [hb]; exact hchip, fun a => by rw [hb]; exact read_writeBytes_operand hbulk.1 a⟩

/-- Settles O54: one access sequence around the read, and no transaction for a length of 0. -/
theorem lutReadReturns : Obligations.LutReadReturns := by
  intro s ch lut sel i hi
  refine ⟨fun h0 hlen hw ho => ⟨_, rfl, lutRead_obliges hi h0 hlen hw ho⟩, fun h0 hw => ?_⟩
  have hrun : (lutRead ch lut sel).run (startOperation s) = .ok {} (startOperation s) := by
    refine (run_needChannel_oneHot hi _ _).trans ?_
    rw [run_snapLen_bind, run_ite, startOperation_flight_oplen, h0]
    rfl
  obtain ⟨hdcc, hchip, hend, hsent⟩ := endedOk_of_untouched (fam := false) hrun hw (Inside.start s) (ChipUntouched.start s) rfl
  exact ⟨_, rfl, hend, hdcc, hchip, hsent⟩

/-! ## `SWAP.WRITE` -/

theorem Goes.swapOnIn {s u : State} {c : Chip} {n : Nat} {l : List Txn} (h : Goes s u c n l)
    (hc : c.swapEnObj = s.chip.swapEnObj) : swapOnIn u = swapOnIn s := by
  unfold Machine.swapOnIn
  rw [h.ctrl, h.chip, hc, h.dcc]

theorem Goes.sameSnapshot {s u : State} {c : Chip} {n : Nat} {l : List Txn} (h : Goes s u c n l) :
    SameSnapshot u.dcc.flight s.dcc.flight := ⟨h.oplen, h.ctrl, h.opb⟩

theorem SameSnapshot.trans {f g h : Flight} : SameSnapshot f g → SameSnapshot g h → SameSnapshot f h := by
  rintro ⟨hlen, hctrl, hopb⟩ ⟨hlen', hctrl', hopb'⟩
  exact ⟨hlen.trans hlen', hctrl.trans hctrl', hopb.trans hopb'⟩

theorem descData_congr {f g : Flight} (h : SameSnapshot f g) (k : Nat) : descData f k = descData g k := by
  unfold descData
  rw [descOff_congr h, (desc_congr h k).2, snapBytes_congr h]

theorem swappedChip_swapEnObj (cfg : Config) (swap pol : Bool) (i : Chan) (b : BitVec 2) (shift : Nat) (f : Flight) (ks : List Nat)
    (ch : Chip) : (swappedChip cfg swap pol i b shift f ks ch).swapEnObj = ch.swapEnObj := by
  induction ks generalizing ch with
  | nil => rfl
  | cons k ks ih =>
    refine (ih _).trans ?_
    split
    · rfl
    · rfl

/-- One pass is one access sequence per populated entry. -/
theorem swapPass_obliges {f : Flight} (c : Chan) (b : BitVec 2) (shift : Nat) (ks : List Nat) {s : State} (hw : HostWaits s)
    (hr : s.env.streamReqs = []) (ho : Obliges (28 * ks.length) s) (hf : SameSnapshot s.dcc.flight f) :
    ∃ u n txns, (swapPass c b shift ks).run s = .ok () u ∧ n ≤ 28 * ks.length ∧
      Goes s u (swappedChip s.cfg (swapOnIn s) (ctrlWrRestorePower s.dcc.flight.ctrl) c b shift f ks s.chip) n txns := by
  induction ks generalizing s with
  | nil => exact ⟨s, 0, [], rfl, Nat.le_refl _, Goes.refl s⟩
  | cons k ks ih =>
    have hlen : 28 * (k :: ks).length = 28 + 28 * ks.length := by rw [List.length_cons]; omega
    rw [hlen] at ho ⊢
    unfold swapPass
    rw [run_ask_bind]
    have hpop : descPopulated s.dcc.flight k = descPopulated f k := (desc_congr hf k).1
    unfold swappedChip
    by_cases hp : descPopulated f k = true
    · obtain ⟨v, n, l, hv, hn, hg⟩ := lutWriteSeq_obliges c (BitVec.ofNat 5 (k + shift)) b (descData s.dcc.flight k) hw hr
        (ho.mono (by omega))
      obtain ⟨u, n', l', hu, hn', hg'⟩ := ih (hg.waits hw) (hg.streamReqs.trans hr)
        (hg.obliges (ho.mono (by omega))) (SameSnapshot.trans hg.sameSnapshot hf)
      refine ⟨u, n + n', l ++ l', ?_, by omega, ?_⟩
      · refine (run_bind_ok (a := ()) ?_).trans hu
        rw [run_doIf, if_pos (hpop.trans hp)]
        exact hv
      · rw [hg.cfg, hg.swapOnIn rfl, hg.ctrl, hg.chip, descData_congr hf] at hg'
        rw [if_pos hp]
        exact hg.trans hg'
    · obtain ⟨u, n, l, hu, hn, hg⟩ := ih hw hr (ho.mono (by omega)) hf
      refine ⟨u, n, l, ?_, by omega, ?_⟩
      · refine (run_bind_ok (a := ()) ?_).trans hu
        rw [run_doIf, if_neg (fun h => hp (hpop.symm.trans h))]
      · rw [if_neg hp]
        exact hg

/-- Both passes, RAM-select parked behind each. -/
theorem swapPasses_obliges {f : Flight} (c : Chan) (sel b : BitVec 2) {s : State} (hw : HostWaits s)
    (hr : s.env.streamReqs = []) (ho : Obliges 1684 s) (hf : SameSnapshot s.dcc.flight f) :
    ∃ u n txns, (swapPasses c sel b).run s = .ok () u ∧ n ≤ 1684 ∧
      Goes s u (setField (swappedChip s.cfg (swapOnIn s) (ctrlWrRestorePower s.dcc.flight.ctrl) c b 1 f passOrder
        (setField (swappedChip s.cfg (swapOnIn s) (ctrlWrRestorePower s.dcc.flight.ctrl) c sel 0 f passOrder s.chip)
          (.ramSel c) 31)) (.ramSel c) 31) n txns := by
  have hlen : 28 * passOrder.length = 840 := rfl
  obtain ⟨u1, n1, l1, h1, k1, g1⟩ := swapPass_obliges c sel 0 passOrder hw hr (ho.mono (by omega)) hf
  have o1 : Obliges 844 u1 := g1.obliges (ho.mono (by omega))
  obtain ⟨u2, h2, g2⟩ := fieldWrite_calm (o1.calm2 (n := 842) (g1.waits hw) (g1.streamReqs.trans hr)) (.ramSel c) rfl 31
  have g12 := g1.trans g2.toGoes
  have hsw : swapOnIn u2 = swapOnIn s := g12.swapOnIn (by
    rw [g1.chip]
    exact swappedChip_swapEnObj _ _ _ _ _ _ _ _ _)
  obtain ⟨u3, n3, l3, h3, k3, g3⟩ := swapPass_obliges c b 1 passOrder (g12.waits hw) (g12.streamReqs.trans hr)
    ((g2.obliges (m := 842) o1).mono (by omega)) (SameSnapshot.trans g12.sameSnapshot hf)
  rw [g12.cfg, hsw, g12.ctrl, g12.chip, g1.chip] at g3
  have g13 := g12.trans g3
  have o3 : Obliges 2 u3 := g13.obliges (ho.mono (by omega))
  obtain ⟨u4, h4, g4⟩ := fieldWrite_calm (o3.calm2 (n := 0) (g13.waits hw) (g13.streamReqs.trans hr)) (.ramSel c) rfl 31
  rw [g13.chip] at g4
  refine ⟨u4, _, _, ?_, ?_, g13.trans g4.toGoes⟩
  · unfold swapPasses
    rw [run_bind_ok h1, run_bind_ok h2, run_bind_ok h3, h4]
  · omega

/-- Every entry is within the limit. -/
theorem limits_kept {f : Flight} {limit : Nat} (h : ∀ k < 30, descOff f k ≠ 0 → descSize f k ≤ limit) :
    (List.range 30).all (fun k => !descPopulated f k || descSize f k ≤ limit) = true := by
  refine List.all_eq_true.2 fun k hk => ?_
  by_cases h0 : descOff f k = 0
  · simp [descPopulated, h0]
  · simp only [Bool.or_eq_true, decide_eq_true_eq]
    exact .inr (h k (List.mem_range.1 hk) h0)

theorem run_swapChecks_passed {comp : Byte} {sel swapBank : BitVec 2} {limit : Nat} {u : State} {g : BitVec 2 × Nat → Unit → M Result}
    (hb : swapBankOf comp = .ok (swapBank, limit)) (hsel : comp = 9 → sel = 0 ∨ sel = 2)
    (h : ∀ k < 30, descOff u.dcc.flight k ≠ 0 → descSize u.dcc.flight k ≤ limit) :
    (liftParam (swapBankOf comp) >>= fun bl => swapLimits comp sel bl.2 >>= g bl : M Result).run u =
      (g (swapBank, limit) ()).run u := by
  rw [hb, run_liftParam_ok_bind, run_swapLimits_bind, if_pos hsel, if_pos (limits_kept h)]

/-- Settles O57: one read, then both passes. -/
theorem swapWriteWrites : Obligations.SwapWriteWrites := by
  rintro s ch sel swapBank i limit f hi rfl h1 h2 hcomp hd hw ho
  have hos : Obliges 1686 (startOperation s) := Obliges.of_env (s := s) ho.2 rfl rfl
  have hcalm : Calm (startOperation s) := hos.calm (n := 1685) (hostWaits_start hw) ho.1
  have hbank : swapBankOf (s.chip.modelObj.read (48 * i.val + 4)) = .ok (swapBank, limit) ∧
      (s.chip.modelObj.read (48 * i.val + 4) = 9 → sel = 0 ∨ sel = 2) := by
    obtain ⟨hc, rfl, rfl⟩ | ⟨hc, rfl, rfl, hsel⟩ := hcomp
    · exact ⟨by rw [hc]; rfl, fun h => absurd (hc.symm.trans h) (by decide)⟩
    · exact ⟨by rw [hc]; rfl, fun _ => hsel⟩
  have hread : GoesOn (startOperation s) (firstRead s (modelRead s i)) s.chip 1 [modelRead s i] :=
    GoesOn.step hcalm (modelRead s i) id
  have hrun := (run_swapWrite_read (sel := sel) hi h1 h2 (fun k hk h0 => ⟨(hd k hk h0).1, (hd k hk h0).2.1, (hd k hk h0).2.2.1⟩) hw
    hcalm.served).trans (run_swapChecks_passed hbank.1 hbank.2 fun k hk h0 => by
      rw [descOff_congr hread.sameSnapshot] at h0
      rw [(desc_congr hread.sameSnapshot k).2]
      exact (hd k hk h0).2.2.2)
  obtain ⟨u, n, l, hu, hn, hg⟩ := swapPasses_obliges i sel swapBank (hread.waits (hostWaits_start hw)) (hread.streamReqs.trans ho.1)
    (hread.obliges (m := 1684) (hos.mono (by omega))) hread.sameSnapshot
  rw [hread.cfg, hread.toGoes.swapOnIn rfl, hread.ctrl, hread.chip] at hg
  obtain ⟨hend, hdcc, hchip, _⟩ := ended_of_obliging hw ho (hrun.trans (run_bind_ok hu)) (hread.toGoes.trans hg) (by omega)
  exact ⟨_, rfl, hend, hdcc, hchip⟩

end Sys2Proof.Machine
end

section
/-! PROOF. `MMLUT.WRITE` (44_swap_mode.md R265): one or two rows, each filled with its data and then zeros. -/

namespace Sys2Proof.Machine

/-- A memory after one row has been written: zeros first unless the data fill the row. -/
def rowFilled (m : Memory) (base : Nat) (data : List Byte) : Memory :=
  Memory.writeBytes (if data.length < 512 then m.writeBytes base (List.replicate 512 0) else m) base data

theorem wf_rowFilled {m : Memory} {base : Nat} {data : List Byte} (hm : Memory.wf m) : Memory.wf (rowFilled m base data) := by
  refine Memory.wf_writeBytes ?_
  split
  · exact Memory.wf_writeBytes hm
  · exact hm

theorem byteAt_replicate_zero (n k : Nat) : byteAt (List.replicate n 0) k = 0 := by
  rw [byteAt, List.getD_eq_getElem?_getD, List.getElem?_replicate]
  split <;> rfl

theorem byteAt_of_le {bs : List Byte} {k : Nat} (h : bs.length ≤ k) : byteAt bs k = 0 := List.getD_eq_default _ _ h

/-- A row holds its data and then zeros. -/
theorem read_rowFilled {m : Memory} {base a : Nat} {data : List Byte} (hm : Memory.wf m) (hd : data.length ≤ 512) :
    (rowFilled m base data).read a = if base ≤ a ∧ a < base + 512 then byteAt data (a - base) else m.read a := by
  unfold rowFilled
  by_cases hshort : data.length < 512
  · rw [if_pos hshort, Memory.read_writeBytes (Memory.wf_writeBytes hm), Memory.read_writeBytes hm, List.length_replicate,
      byteAt_replicate_zero]
    by_cases hdata : base ≤ a ∧ a < base + data.length
    · rw [if_pos hdata, if_pos ⟨hdata.1, by omega⟩]
    · rw [if_neg hdata]
      refine if_ctx_congr Iff.rfl (fun h => ?_) fun _ => rfl
      exact (byteAt_of_le (by omega)).symm
  · rw [if_neg hshort, Memory.read_writeBytes hm, show data.length = 512 by omega]

/-- At most two calm writes fill a row. -/
theorem writeRow_quiet {s : State} {n : Nat} (row : Nat) (data : List Byte) (hw : HostWaits s) (hq : Quiet (n + 2) s) :
    ∃ u k l, (writeRow row data).run s = .ok () u ∧ k ≤ 2 ∧
      Goes s u { s.chip with bulk := rowFilled s.chip.bulk (corrAddress s.cfg row) data } k l := by
  unfold writeRow rowFilled
  rw [run_ask_bind]
  generalize List.replicate 512 (0 : Byte) = zeros
  by_cases hshort : data.length < 512
  · obtain ⟨v, hv, gv⟩ := memWrite_calm (hq.calm hw) (corrAddress s.cfg row) zeros
    obtain ⟨u, hu, gu⟩ := memWrite_calm ((gv.quiet (m := n + 1) (hq.mono (by omega))).calm (gv.waits hw)) (corrAddress s.cfg row) data
    rw [gv.chip] at gu
    have hzero : (doIf (data.length < 512) (memWrite (corrAddress s.cfg row) zeros)).run s = .ok () v := by
      rw [run_doIf, if_pos hshort]
      exact hv
    rw [if_pos hshort]
    exact ⟨u, 2, _, (run_bind_ok hzero).trans hu, Nat.le_refl 2, (gv.trans gu).toGoes⟩
  · obtain ⟨u, hu, gu⟩ := memWrite_calm (hq.calm hw) (corrAddress s.cfg row) data
    have hskip : (doIf (data.length < 512) (memWrite (corrAddress s.cfg row) zeros)).run s = .ok () s := by
      rw [run_doIf, if_neg hshort]
    rw [if_neg hshort]
    exact ⟨u, 1, _, (run_bind_ok hskip).trans hu, by omega, gu.toGoes⟩

/-- The bulk memory after both rows of LUT `lut`. -/
def rowsFilled (cfg : Config) (opb m : Memory) (lut n : Nat) : Memory :=
  if 512 < n then
    rowFilled (rowFilled m (corrAddress cfg (2 * lut)) (opb.readBytes 0 (min n 512))) (corrAddress cfg (2 * lut + 1))
      (opb.readBytes 512 (n - 512))
  else rowFilled m (corrAddress cfg (2 * lut)) (opb.readBytes 0 (min n 512))

theorem byteAt_readBytes_or_zero (m : Memory) (off n k : Nat) :
    byteAt (m.readBytes off n) k = if k < n then m.read (off + k) else 0 := by
  split
  · exact Memory.byteAt_readBytes ‹_›
  · exact byteAt_of_le (by rw [Memory.length_readBytes]; omega)

theorem read_rowsFilled {cfg : Config} {opb m : Memory} {lut n : Nat} (a : Nat) (hm : Memory.wf m) (hn : n ≤ 1024) :
    (rowsFilled cfg opb m lut n).read a =
      if cfg.corrBase.toNat + 1024 * lut ≤ a ∧ a < cfg.corrBase.toNat + 1024 * lut + (if n ≤ 512 then 512 else 1024) then
        if a - (cfg.corrBase.toNat + 1024 * lut) < n then opb.read (a - (cfg.corrBase.toNat + 1024 * lut)) else 0
      else m.read a := by
  have hrow : corrAddress cfg (2 * lut) = cfg.corrBase.toNat + 1024 * lut := by unfold corrAddress; omega
  have hnext : corrAddress cfg (2 * lut + 1) = cfg.corrBase.toNat + 1024 * lut + 512 := by unfold corrAddress; omega
  have hfirst : (opb.readBytes 0 (min n 512)).length ≤ 512 := by rw [Memory.length_readBytes]; omega
  unfold rowsFilled
  rw [hrow, hnext]
  generalize cfg.corrBase.toNat + 1024 * lut = base
  by_cases hbig : 512 < n
  · rw [if_pos hbig, read_rowFilled (wf_rowFilled hm) (by rw [Memory.length_readBytes]; omega), read_rowFilled hm hfirst,
      byteAt_readBytes_or_zero, byteAt_readBytes_or_zero, if_neg (by omega : ¬ n ≤ 512)]
    by_cases h1 : base + 512 ≤ a ∧ a < base + 512 + 512
    · rw [if_pos h1, if_pos (by omega : base ≤ a ∧ a < base + 1024)]
      refine if_ctx_congr (by omega) (fun _ => ?_) fun _ => rfl
      rw [show 512 + (a - (base + 512)) = a - base by omega]
    · rw [if_neg h1]
      refine if_ctx_congr (by omega) (fun h => ?_) fun _ => rfl
      rw [if_pos (by omega : a - base < min n 512), if_pos (by omega : a - base < n), Nat.zero_add]
  · rw [if_neg hbig, read_rowFilled hm hfirst, byteAt_readBytes_or_zero, if_pos (by omega : n ≤ 512)]
    refine if_ctx_congr Iff.rfl (fun h => ?_) fun _ => rfl
    rw [Nat.zero_add, show min n 512 = n by omega]

/-- Both rows in a quiet environment. -/
theorem mmlutWrite_quiet {s : State} {lut : BitVec 5} (hl : lut.toNat ≤ 25) (h0 : s.regs.oplen.toNat ≠ 0)
    (h4 : s.regs.oplen.toNat % 4 = 0) (hn : s.regs.oplen.toNat ≤ 1024) (hw : HostWaits s) (hq : Quiet 5 s) :
    ∃ u k l, (mmlutWrite lut).run (startOperation s) = .ok {} u ∧ k ≤ 4 ∧
      Goes (startOperation s) u
        { s.chip with bulk := rowsFilled s.cfg s.regs.opb s.chip.bulk lut.toNat s.regs.oplen.toNat } k l := by
  have hq0 : Quiet 5 (startOperation s) := hq.of_env rfl rfl
  have hrun : (mmlutWrite lut).run (startOperation s) =
      (writeRow (2 * lut.toNat) (s.regs.opb.readBytes 0 (min s.regs.oplen.toNat 512)) >>= fun _ =>
        doIf (512 < s.regs.oplen.toNat) (writeRow (2 * lut.toNat + 1) (s.regs.opb.readBytes 512 (s.regs.oplen.toNat - 512))) >>=
          fun _ => pure {} : M Result).run (startOperation s) := by
    unfold mmlutWrite
    rw [run_snapLen_bind, run_check_bind, startOperation_flight_oplen, if_pos h0, run_checkParam_bind, if_pos hl,
      run_checkParam_bind, if_pos h4, run_checkParam_bind, if_pos hn, run_ask_bind, snapBytes_start s (by omega) (by omega)]
    by_cases hbig : 512 < s.regs.oplen.toNat
    · rw [snapBytes_start s (by omega) (by omega)]
    · simp only [doIf, if_neg hbig]
  obtain ⟨v, k, l, hv, hk, gv⟩ := writeRow_quiet (2 * lut.toNat) (s.regs.opb.readBytes 0 (min s.regs.oplen.toNat 512))
    (hostWaits_start hw) (hq0.mono (m := 3 + 2) (by omega))
  unfold rowsFilled
  by_cases hbig : 512 < s.regs.oplen.toNat
  · obtain ⟨u, k', l', hu, hk', gu⟩ := writeRow_quiet (2 * lut.toNat + 1)
      (s.regs.opb.readBytes 512 (s.regs.oplen.toNat - 512)) (gv.waits (hostWaits_start hw))
      (gv.quiet (m := 1 + 2) (hq0.mono (by omega)))
    rw [gv.chip, gv.cfg] at gu
    have hsecond : (doIf (512 < s.regs.oplen.toNat) (writeRow (2 * lut.toNat + 1)
        (s.regs.opb.readBytes 512 (s.regs.oplen.toNat - 512)))).run v = .ok () u := by
      rw [run_doIf, if_pos hbig]
      exact hu
    rw [if_pos hbig]
    exact ⟨u, _, _, hrun.trans ((run_bind_ok hv).trans (run_bind_ok hsecond)), by omega, gv.trans gu⟩
  · have hskip : (doIf (512 < s.regs.oplen.toNat) (writeRow (2 * lut.toNat + 1)
        (s.regs.opb.readBytes 512 (s.regs.oplen.toNat - 512)))).run v = .ok () v := by
      rw [run_doIf, if_neg hbig]
    rw [if_neg hbig]
    exact ⟨v, k, l, hrun.trans ((run_bind_ok hv).trans (run_bind_ok hskip)), by omega, gv⟩

/-- Settles O59: one row or two, by the length. -/
theorem mmlutWriteFillsRows : Obligations.MmlutWriteFillsRows := by
  rintro s lut _ hl rfl h0 h4 hn hw hq hf
  obtain ⟨_, _, _, _, _, hbulk, _⟩ := hf
  obtain ⟨u, k, l, hrun, hk, hg⟩ := mmlutWrite_quiet hl h0 h4 hn hw hq
  have hq0 : Quiet 5 (startOperation s) := hq.of_env rfl rfl
  have hcalm : Machine.envTurn u = passTick u := (hg.quiet (m := 1) (hq0.mono (by omega))).envTurn
  obtain ⟨hend, hdcc, hchip, _⟩ := ended_of_goes hw hrun hg hcalm
  refine ⟨runOperation false (mmlutWrite lut) s, rfl, ?_⟩
  generalize runOperation false (mmlutWrite lut) s = t at hend hdcc hchip ⊢
  have hb : t.chip.bulk = _ := congrArg Chip.bulk hchip
  exact ⟨hend, hdcc, by rw [hb]; exact hchip, fun a => by rw [hb]; exact read_rowsFilled a hbulk hn⟩

end Sys2Proof.Machine
end

section
/-! PROOF. What class `Ok` means for `LUT.WRITE` and `SWAP.WRITE` (43_lut_manager.md R237; 70_reset_and_hazards.md R352), whatever the
other agents and the transport do: an invariant of the access sequence. -/

namespace Sys2Proof.Machine

/-! ## Operations that end with class `Ok` -/

/-- While the host waits, an admitted operation that ends with class `Ok` has run to its end. -/
theorem exec_ranThrough {i : Instr} {s t : State} (hw : HostWaits s) (ha : admitted i s.dcc.capState = true)
    (h : exec i s = .next t) (hc : resClass t.regs.res = 0) :
    ∃ r u, (body i).run (startOperation s) = .ok r u ∧ t = returnOk r (envTurn u) := by
  obtain ⟨rest, hbehind, hbuilt⟩ := admissible i s.cfg (startOperation s).dcc.flight
  have ht0 : Track (scopeOf i s.cfg (startOperation s).dcc.flight) (startOperation s) (startOperation s) .checks :=
    Track.start rfl ⟨rfl, rfl, rfl⟩
  have hruns := hbuilt.runs _ _ ht0
  have hrun : (body i).run (startOperation s) = rest.run (startOperation s) := by
    obtain ⟨_, hbody⟩ | ⟨row, hadm, hbody⟩ := hbehind
    · rw [hbody]
    · rw [hbody]
      exact (run_gate_bind row _ _).trans (if_pos ((hadm _).trans ha))
  rw [exec_next h] at hc ⊢
  obtain ⟨r, u, _, hu, _, _, _, hq⟩ | ⟨c, u, _, hu, _, _, _, hq⟩ :=
    (hbuilt.together (lockstep_waits (r := (startOperation s).regs) hw) ht0 ⟨rfl, rfl, rfl⟩).cases
  · exact ⟨r, u, hrun.trans hu, by rw [runOperation_ok (hrun.trans hu), leave_of_waits (hw.of_hostQ hq)]⟩
  · rw [hu] at hruns
    obtain ⟨q, _, _, hraised⟩ := hruns
    rw [runOperation_raised (hrun.trans hu), leave_of_waits (hw.of_hostQ hq), takeResult_class] at hc
    have := class_of_raised hraised
    rw [hc] at this
    exact absurd this (by decide)

/-! ## An invariant of the access sequence (43_lut_manager.md R237) -/

/-- The passthru bit of channel `i`, and enable, passthru and RAM-select of every other channel, are those of `c`. -/
structure ActKept (i : Chan) (c d : Chip) : Prop where
  actPt : ∀ k, (d.act.get k).actPt = (c.act.get k).actPt
  actEn : ∀ k, k ≠ i → (d.act.get k).actEn = (c.act.get k).actEn
  ramSel : ∀ k, k ≠ i → (d.act.get k).ramSel = (c.act.get k).ramSel

/-- Inside the sequence on channel `i`, the bulk memory being `b`: the start was `s`, and no trigger is pending. -/
structure Holds (s : State) (i : Chan) (b : Memory) (u : State) : Prop where
  cfg : u.cfg = s.cfg
  idle : u.chip.trigPending = false
  bulk : u.chip.bulk = b
  act : ActKept i s.chip u.chip

/-- The same, the passthru bit saved. -/
structure HoldsSaved (s : State) (i : Chan) (b : Memory) (u : State) : Prop extends Holds s i b u where
  saved : u.dcc.flight.svPt = (s.chip.act.get i).actPt

section Holds

variable {s u v : State} {i : Chan} {b : Memory}

theorem Holds.between (h : Holds s i b u) (hb : Between u v) : Holds s i b v where
  cfg := hb.cfg.trans h.cfg
  idle := by
    cases hp : v.chip.trigPending with
    | false => rfl
    | true => exact absurd (hb.trigPending hp) (by rw [h.idle]; decide)
  bulk := (hb.bulk h.idle).trans h.bulk
  act := ⟨fun k => (hb.actPt k).trans (h.act.actPt k), fun k hk => (hb.actEn k).trans (h.act.actEn k hk),
    fun k hk => (hb.ramSel k).trans (h.act.ramSel k hk)⟩

/-- What the invariant speaks of is the parameters, the bulk memory, the pending trigger and the actuators. -/
theorem Holds.congr (h : Holds s i b u) (hcfg : v.cfg = u.cfg) (ht : v.chip.trigPending = u.chip.trigPending)
    (hb : v.chip.bulk = u.chip.bulk) (ha : v.chip.act = u.chip.act) : Holds s i b v where
  cfg := hcfg.trans h.cfg
  idle := ht.trans h.idle
  bulk := hb.trans h.bulk
  act := ⟨by rw [ha]; exact h.act.actPt, by rw [ha]; exact h.act.actEn, by rw [ha]; exact h.act.ramSel⟩

theorem Holds.log (h : Holds s i b u) (t : Txn) (ok : Bool) : Holds s i b (logTxn t ok u) :=
  h.congr (logTxn_cfg t ok u) (by rw [logTxn_chip]) (by rw [logTxn_chip]) (by rw [logTxn_chip])

theorem HoldsSaved.between (h : HoldsSaved s i b u) (hb : Between u v) : HoldsSaved s i b v :=
  ⟨h.toHolds.between hb, by rw [hb.dcc]; exact h.saved⟩

theorem logTxn_svPt (t : Txn) (ok : Bool) (s : State) : (logTxn t ok s).dcc.flight.svPt = s.dcc.flight.svPt := by cases ok <;> rfl

theorem HoldsSaved.log (h : HoldsSaved s i b u) (t : Txn) (ok : Bool) : HoldsSaved s i b (logTxn t ok u) :=
  ⟨h.toHolds.log t ok, (logTxn_svPt t ok u).trans h.saved⟩

/-! ### The steps of the sequence -/

/-- No claim about how a sequence stops. -/
abbrev AnyStop : Stop → State → Prop := fun _ _ => True

theorem HoldsSaved.read {α : Type} (t : Txn) (get : State → α) :
    Runs (HoldsSaved s i b) (readTxn t get) (fun _ => HoldsSaved s i b) AnyStop :=
  Runs.readTxn (fun _ _ h hb => (h.between hb).log t true) (fun _ _ _ _ _ _ => trivial) fun _ _ _ _ _ => trivial

/-- A field of channel `i` other than the passthru bit. -/
def OfChannel (i : Chan) (f : Field) : Prop := f = .actEn i ∨ f = .ramSel i ∨ ∃ l, f = .lutPower i l

/-- A write of such a field. -/
theorem ActKept.setField {c d : Chip} (h : ActKept i c d) {f : Field} (hf : OfChannel i f) (v : BitVec f.width) :
    ActKept i c (setField d f v) := by
  have hother : ∀ (g : Actuator → Actuator) (k : Chan), k ≠ i → (updateAct d i g).act.get k = d.act.get k :=
    fun g k hk => get_set_ne _ _ (Ne.symm hk)
  have hown : ∀ (g : Actuator → Actuator), (updateAct d i g).act.get i = g (d.act.get i) := fun g => get_set_self _ _ _
  have hall : ∀ g : Actuator → Actuator, (∀ a, (g a).actPt = a.actPt) → ActKept i c (updateAct d i g) := fun g hg =>
    { actPt := fun k => by
        by_cases hk : k = i
        · rw [hk, hown, hg]
          exact h.actPt i
        · rw [hother g k hk]
          exact h.actPt k
      actEn := fun k hk => by rw [hother g k hk]; exact h.actEn k hk
      ramSel := fun k hk => by rw [hother g k hk]; exact h.ramSel k hk }
  obtain rfl | rfl | ⟨l, rfl⟩ := hf
  · exact hall (fun a => { a with actEn := v }) fun _ => rfl
  · exact hall (fun a => { a with ramSel := v }) fun _ => rfl
  · exact hall (fun a => { a with lutPower := a.lutPower.set l.toFin v }) fun _ => rfl

/-- A write of the passthru bit with the value it had. -/
theorem ActKept.setPassthru {c d : Chip} (h : ActKept i c d) : ActKept i c (Machine.setField d (.actPt i) (c.act.get i).actPt) where
  actPt k := by
    by_cases hk : k = i
    · rw [hk]
      exact getField_setField d (.actPt i) _
    · exact (congrArg Actuator.actPt (get_set_ne _ _ (Ne.symm hk))).trans (h.actPt k)
  actEn k hk := (congrArg Actuator.actEn (get_set_ne _ _ (Ne.symm hk))).trans (h.actEn k hk)
  ramSel k hk := (congrArg Actuator.ramSel (get_set_ne _ _ (Ne.symm hk))).trans (h.ramSel k hk)

theorem setField_act_bulk {f : Field} (c : Chip) (v : BitVec f.width) :
    (setField c f v).bulk = c.bulk ∧ (setField c f v).trigPending = c.trigPending := by
  cases f <;> exact ⟨rfl, rfl⟩

theorem HoldsSaved.withChip (h : HoldsSaved s i b u) {f : Chip → Chip}
    (hf : (f u.chip).bulk = u.chip.bulk ∧ (f u.chip).trigPending = u.chip.trigPending)
    (ha : ActKept i s.chip (f u.chip)) : HoldsSaved s i b (updateChip f u) :=
  ⟨⟨h.cfg, hf.2.trans h.idle, hf.1.trans h.bulk, ha⟩, h.saved⟩

theorem HoldsSaved.fieldWrite {f : Field} (hf : OfChannel i f) (hown : f.ownedByDcc = true) (v : BitVec f.width) :
    Runs (HoldsSaved s i b) (Machine.fieldWrite f v) (fun _ => HoldsSaved s i b) AnyStop :=
  Runs.fieldWrite hown (fun _ _ h hb => ((h.between hb).withChip (setField_act_bulk _ v) ((h.between hb).act.setField hf v)).log _ _)
    (fun _ _ _ _ _ _ _ => trivial) fun _ _ _ _ _ => trivial

theorem HoldsSaved.restorePassthru {v : BitVec 1} (hv : v = (s.chip.act.get i).actPt) :
    Runs (HoldsSaved s i b) (Machine.fieldWrite (.actPt i) v) (fun _ => HoldsSaved s i b) AnyStop := by
  subst hv
  exact Runs.fieldWrite rfl
    (fun _ _ h hb => ((h.between hb).withChip (setField_act_bulk (f := .actPt i) _ _) (h.between hb).act.setPassthru).log _ _)
    (fun _ _ _ _ _ _ _ => trivial) fun _ _ _ _ _ => trivial

theorem HoldsSaved.regWrite (r : ChipReg) (n : Nat) {request : State → State}
    (hr : ∀ u, HoldsSaved s i b u → HoldsSaved s i b (request u)) :
    Runs (HoldsSaved s i b) (Machine.regWrite r n request) (fun _ => HoldsSaved s i b) AnyStop := by
  refine Runs.bind (R := fun _ => HoldsSaved s i b) (Runs.ask fun _ h => h) fun cfg => Runs.writeTxn (fun u v h hb => ?_)
    (fun _ _ _ _ _ _ => trivial) fun _ _ _ _ _ => trivial
  have hv := h.between hb
  have hset : (setReg v.chip r n).bulk = v.chip.bulk ∧ (setReg v.chip r n).trigPending = v.chip.trigPending ∧
      (setReg v.chip r n).act = v.chip.act := by cases r <;> exact ⟨rfl, rfl, rfl⟩
  obtain ⟨hbulk, htrig, hact⟩ := hset
  refine (hr _ (hv.withChip ⟨hbulk, htrig⟩ ?_)).log _ _
  obtain ⟨hpt, hen, hsel⟩ := hv.act
  exact ⟨by rw [hact]; exact hpt, by rw [hact]; exact hen, by rw [hact]; exact hsel⟩

theorem HoldsSaved.notePolls (g : Flight → Nat) :
    Runs (HoldsSaved s i b) (update (updateFlight fun f => { f with polls := g f })) (fun _ => HoldsSaved s i b) AnyStop :=
  Runs.update fun _ h => ⟨h.toHolds.congr rfl rfl rfl rfl, h.saved⟩

theorem HoldsSaved.pollClock (c : Chan) (en : BitVec 1) (n : Nat) :
    Runs (HoldsSaved s i b) (Machine.pollClock c en n) (fun _ => HoldsSaved s i b) AnyStop := by
  induction n with
  | zero => exact Runs.raise fun _ _ => trivial
  | succ n ih =>
    exact Runs.bind (HoldsSaved.notePolls fun f => f.polls + 1) fun _ => Runs.bind (HoldsSaved.read _ _) fun _ =>
      Runs.ite (fun _ => Runs.pure fun _ h => h) fun _ => ih

theorem HoldsSaved.clockSeq (c : Chan) (en : BitVec 1) :
    Runs (HoldsSaved s i b) (Machine.clockSeq c en) (fun _ => HoldsSaved s i b) AnyStop :=
  Runs.bind (R := fun _ => HoldsSaved s i b) (Runs.ask fun _ h => h) fun _ =>
    Runs.bind (HoldsSaved.regWrite _ _ fun _ h => h) fun _ =>
    Runs.bind (HoldsSaved.regWrite _ _ fun _ h => h) fun _ =>
    Runs.bind (HoldsSaved.regWrite _ _ fun _ h => ⟨h.toHolds.congr rfl rfl rfl rfl, h.saved⟩) fun _ =>
    Runs.bind (HoldsSaved.notePolls fun _ => 0) fun _ => HoldsSaved.pollClock _ _ _

theorem HoldsSaved.swapOn : Runs (HoldsSaved s i b) Machine.swapOn (fun _ => HoldsSaved s i b) AnyStop :=
  Runs.bind (R := fun _ => HoldsSaved s i b) (Runs.ask fun _ h => h) fun _ =>
    Runs.ite
      (fun _ => Runs.bind (R := fun _ => HoldsSaved s i b)
        (Runs.bind (R := fun _ => HoldsSaved s i b) (Runs.ask fun _ h => h) fun _ => HoldsSaved.read _ _)
        fun _ => Runs.pure fun _ h => h)
      fun _ => Runs.ask fun _ h => h

theorem HoldsSaved.restoreActuator :
    Runs (HoldsSaved s i b) (Machine.restoreActuator i) (fun _ => HoldsSaved s i b) AnyStop := by
  refine Runs.bind (R := fun f u => HoldsSaved s i b u ∧ f.svPt = (s.chip.act.get i).actPt) (Runs.ask fun _ h => ⟨h, h.saved⟩)
    fun f => ?_
  rintro u ⟨hu, hf⟩
  exact Runs.bind (HoldsSaved.fieldWrite (.inl rfl) rfl _) (fun _ => Runs.bind (HoldsSaved.restorePassthru hf) fun _ =>
    HoldsSaved.fieldWrite (.inr (.inl rfl)) rfl _) u hu

theorem HoldsSaved.restorePower (l : BitVec 5) (p : Bool) :
    Runs (HoldsSaved s i b) (Machine.restorePower i l p) (fun _ => HoldsSaved s i b) AnyStop :=
  Runs.bind (R := fun _ => HoldsSaved s i b) (Runs.ask fun _ h => h) fun _ =>
    Runs.doIf (fun _ => HoldsSaved.fieldWrite (.inr (.inr ⟨l, rfl⟩)) rfl _) fun _ _ h => h

/-- A read before the passthru bit is saved, and the note of its value. -/
theorem Holds.saveField (f : Field) {g : BitVec f.width → Flight → Flight} {Q : State → Prop}
    (hq : ∀ u, Holds s i b u → Q (updateFlight (g (getField u.chip f)) u)) {α : Type} {rest : M α} {R : α → State → Prop}
    (hrest : Runs Q rest R AnyStop) :
    Runs (Holds s i b) (do
      let x ← fieldRead f
      update (updateFlight (g x))
      rest) R AnyStop := by
  refine Runs.bind (R := fun x u => Holds s i b u ∧ x = getField u.chip f)
    (Runs.readTxn (fun u v h hb => ⟨(h.between hb).log _ _, by rw [logTxn_chip]⟩) (fun _ _ _ _ _ _ => trivial) fun _ _ _ _ _ => trivial)
    fun x => Runs.bind (R := fun _ => Q) (Runs.update fun u hu => ?_) fun _ => hrest
  obtain ⟨hu, rfl⟩ := hu
  exact hq u hu

theorem Holds.saveActuator (l : BitVec 5) :
    Runs (Holds s i b) (Machine.saveActuator i l) (fun _ => HoldsSaved s i b) AnyStop := by
  refine Holds.saveField (.lutPower i l) (Q := Holds s i b) (fun _ h => h.congr rfl rfl rfl rfl) ?_
  refine Holds.saveField (.actEn i) (Q := Holds s i b) (fun _ h => h.congr rfl rfl rfl rfl) ?_
  refine Holds.saveField (.actPt i) (g := fun x f => { f with svPt := x }) (Q := HoldsSaved s i b) (fun _ h => ⟨h.congr rfl rfl rfl rfl, h.act.actPt i⟩) ?_
  refine Runs.bind (R := fun _ => HoldsSaved s i b) (HoldsSaved.read _ _) fun r => ?_
  exact Runs.update fun _ h => ⟨h.toHolds.congr rfl rfl rfl rfl, h.saved⟩

/-- The bulk transfer. -/
theorem HoldsSaved.memWrite (a : Nat) (data : List Byte) :
    Runs (HoldsSaved s i b) (Machine.memWrite a data) (fun _ => HoldsSaved s i (b.writeBytes a data)) AnyStop := by
  refine Runs.writeTxn (fun u v h hb => ?_) (fun _ _ _ _ _ _ => trivial) fun _ _ _ _ _ => trivial
  have hv := h.between hb
  have hbulk : v.chip.bulk.writeBytes a data = b.writeBytes a data := by rw [hv.bulk]
  have hput : HoldsSaved s i (b.writeBytes a data) (updateChip (fun ch => { ch with bulk := ch.bulk.writeBytes a data }) v) :=
    ⟨⟨hv.cfg, hv.idle, hbulk, hv.act.actPt, hv.act.actEn, hv.act.ramSel⟩, hv.saved⟩
  exact hput.log _ _

/-- The whole sequence around the write of `data`. -/
theorem Holds.lutWriteSeq (l : BitVec 5) (sel : BitVec 2) (data : List Byte) :
    Runs (Holds s i b) (Machine.lutWriteSeq i l sel data)
      (fun _ => HoldsSaved s i (b.writeBytes (lutAddress s.cfg i l sel) data)) AnyStop := by
  refine Runs.bind (R := fun cfg u => Holds s i b u ∧ cfg = s.cfg) (Runs.ask fun _ h => ⟨h, h.cfg⟩) fun cfg => ?_
  rintro u ⟨hu, rfl⟩
  refine Runs.bind (Holds.saveActuator l) (fun _ => ?_) u hu
  exact Runs.bind (HoldsSaved.fieldWrite (.inr (.inr ⟨l, rfl⟩)) rfl 1) fun _ =>
    Runs.bind (HoldsSaved.fieldWrite (.inl rfl) rfl 1) fun _ =>
    Runs.bind (HoldsSaved.clockSeq i 1) fun _ =>
    Runs.bind (HoldsSaved.fieldWrite (.inr (.inl rfl)) rfl l) fun _ =>
    Runs.bind (HoldsSaved.memWrite _ data) fun _ =>
    Runs.bind HoldsSaved.swapOn fun _ =>
    Runs.bind (Runs.doIf (fun _ => HoldsSaved.restoreActuator) fun _ _ h => h) fun _ =>
    Runs.bind (HoldsSaved.clockSeq i 0) fun _ =>
    Runs.bind (R := fun _ => HoldsSaved s i _) (Runs.ask fun _ h => h) fun _ =>
    Runs.bind (HoldsSaved.restorePower l _) fun _ => Runs.pure fun _ h => h

end Holds

/-! ## `LUT.WRITE` -/

section LutWrite

variable {s t : State} {ch : ChMask} {lut : BitVec 5} {sel : BitVec 2} {i : Chan} (hi : ch.toNat = 2 ^ i.val) (hw : HostWaits s)
  (h : exec (.lutWrite ch lut sel) s = .next t) (hc : resClass t.regs.res = 0)
include hi hw h hc

/-- An operand that is absent or too long does not end with class `Ok`. -/
theorem lutWrite_fits_of_ok : s.regs.oplen.toNat ≠ 0 ∧ s.regs.oplen.toNat ≤ 4096 - 1024 * sel.toNat := by
  have ht : t = runOperation false (lutWrite ch lut sel) s := exec_next h
  have hres : ∀ res, resClass res ≠ 0 → ¬ EndedAtOnce s t res := fun res hne hend => by
    obtain ⟨⟨_, hregs, _⟩, _⟩ := hend
    rw [hregs] at hc
    exact hne hc
  refine ⟨fun h0 => hres 2 (by decide) (ht ▸ lutWrite_absent hw h0), ?_⟩
  by_contra hlen
  exact hres 0x1201 (by decide) (ht ▸ lutWrite_long hw hi (by omega))

theorem lutWrite_ok (hp : s.chip.trigPending = false) :
    Holds s i (s.chip.bulk.writeBytes (lutAddress s.cfg i lut sel) (s.regs.opb.readBytes 0 s.regs.oplen.toNat)) t := by
  obtain ⟨h0, hlen⟩ := lutWrite_fits_of_ok hi hw h hc
  obtain ⟨r, u, hrun, rfl⟩ := exec_ranThrough hw rfl h hc
  have hstart : Holds s i s.chip.bulk (startOperation s) := ⟨rfl, hp, rfl, fun _ => rfl, fun _ _ => rfl, fun _ _ => rfl⟩
  have hends := Runs.bind (Holds.lutWriteSeq (i := i) (b := s.chip.bulk) lut sel (s.regs.opb.readBytes 0 s.regs.oplen.toNat))
    (fun _ => Runs.pure (a := ({} : Result)) (Q := fun _ => Holds s i _) fun _ h => h.toHolds) _ hstart
  have hb : (body (.lutWrite ch lut sel)).run (startOperation s) = _ := run_lutWrite_fits (lut := lut) hi h0 hlen
  rw [← hb, hrun] at hends
  exact (Holds.between hends (Between.envTurn u)).congr rfl rfl rfl rfl

end LutWrite

/-! ## `SWAP.WRITE` -/

theorem Runs.any {α : Type} {P : State → Prop} (m : M α) : Runs P m (fun _ _ => True) AnyStop := by
  intro s _
  cases m.run s <;> trivial

/-- Both passes end with the write that parks RAM-select. -/
theorem swapPasses_parks (c : Chan) (sel b : BitVec 2) :
    Runs (fun _ => True) (swapPasses c sel b) (fun _ u => (u.chip.act.get c).ramSel = 31) AnyStop := by
  refine Runs.bind (Runs.any _) fun _ => Runs.bind (Runs.any _) fun _ => Runs.bind (Runs.any _) fun _ =>
    Runs.fieldWrite rfl (fun u v _ _ => ?_) (fun _ _ _ _ _ _ _ => trivial) fun _ _ _ _ _ => trivial
  rw [logTxn_chip]
  exact getField_setField v.chip (.ramSel c) 31

theorem Runs.needChannel_bind {α : Type} {P : State → Prop} {Q : α → State → Prop} {E : Stop → State → Prop} {ch : ChMask} {i : Chan}
    {f : Chan → M α} (hi : ch.toNat = 2 ^ i.val) (h : Runs P (f i) Q E) : Runs P (needChannel ch >>= f) Q E := by
  intro s hs
  rw [run_needChannel_oneHot hi]
  exact h s hs

theorem swapWrite_parks {ch : ChMask} {sel : BitVec 2} {i : Chan} (hi : ch.toNat = 2 ^ i.val) :
    Runs (fun _ => True) (swapWrite ch sel) (fun _ u => (u.chip.act.get i).ramSel = 31) AnyStop :=
  Runs.bind (Runs.any _) fun _ => Runs.bind (Runs.any _) fun _ => Runs.bind (Runs.any _) fun _ =>
    Runs.needChannel_bind hi (Runs.bind (Runs.any _) fun _ => Runs.bind (Runs.any _) fun _ => Runs.bind (Runs.any _) fun _ =>
      Runs.bind (Runs.any _) fun _ => Runs.bind (Runs.any _) fun _ => Runs.bind (swapPasses_parks i sel _) fun _ =>
      Runs.pure fun _ h => h)

theorem swapWrite_ok {s t : State} {ch : ChMask} {sel : BitVec 2} {i : Chan} (hi : ch.toNat = 2 ^ i.val) (hw : HostWaits s)
    (h : exec (.swapWrite ch sel) s = .next t) (hc : resClass t.regs.res = 0) : (t.chip.act.get i).ramSel = 31 := by
  obtain ⟨r, u, hrun, rfl⟩ := exec_ranThrough hw rfl h hc
  have hends := swapWrite_parks (sel := sel) hi (startOperation s) trivial
  rw [show (swapWrite ch sel).run (startOperation s) = .ok r u from hrun] at hends
  exact ((Between.envTurn u).ramSel i).trans hends

/-- Settles O55: the invariant of the access sequence, and the last write of both passes. -/
theorem okMeansDone : Obligations.OkMeansDone := by
  refine fun s t ch lut sel i hi hw hc => ⟨fun hf hp h => ?_, fun h => swapWrite_ok hi hw h hc⟩
  obtain ⟨_, _, hbulk, hpt, hen, hsel⟩ := lutWrite_ok hi hw h hc hp
  obtain ⟨_, _, _, _, _, hform, _⟩ := hf
  exact ⟨fun a => by rw [hbulk]; exact read_writeBytes_operand hform a, hpt i, fun c hci => ⟨hen c hci, hpt c, hsel c hci⟩⟩

end Sys2Proof.Machine
end
